-- ==== Sys2Proof/Word.lean ====
section
/-! DEFINITION. The word types of the block (00_scope.md R9): every register, LCD byte and frame byte is 8 bits wide, the
GPIO snapshot and the virtual port 16, an offload control word 4. -/

namespace Sys2Proof

/-- An 8-bit register, LCD byte or frame byte (R9). -/
abbrev Byte := BitVec 8

/-- A 16-bit value in which bit n is pin n (20_memory.md R92). -/
abbrev Half := BitVec 16

/-- A 4-bit offload control word (30_encoding.md R135). -/
abbrev Nibble := BitVec 4

end Sys2Proof
end

