-- ==== Sys2Proof/Config.lean ====
section
/-! DEFINITION. What one implementation fixes (00_scope.md R7, R8): the types of the parameters, the constants a build of the
block supplies, and the free values: constants with no body that stand for what the spec leaves open (a draw, R12). -/

namespace Sys2Proof

/-- The four transports (R8, 42_write_protocol.md R219). -/
inductive Transport where
  | direct | coop | offload | spiRelay
  deriving DecidableEq, Repr, Inhabited

/-- CTL_MAP (30_encoding.md R135): the bit of each signal in the 4-bit offload control word. -/
structure CtlMap where
  cs0 : Nat
  cs1 : Nat
  rs : Nat
  rw : Nat
  deriving DecidableEq, Repr, Inhabited

/-- VPORT_MAP (30_encoding.md R137): the bit of each signal in the 16-bit virtual port; `d` lists D0 to D7, `cs` lists
CS0, CS1, ... -/
structure VportMap where
  d : List Nat
  e : Nat
  rw : Nat
  rs : Nat
  cs : List Nat
  deriving DecidableEq, Repr, Inhabited

/-- SEQ_ENABLED (92_eei_decisions.md D5) as plain data: the spec's default, the SEQOP bit clear, or any other test of the
IOCON byte as its truth table (log 20). -/
inductive SeqTest where
  | seqopClear
  | table (t : BitVec 256)
  deriving DecidableEq, Repr, Inhabited

/-- OFFLOAD_ORDER (44_fifo_offload.md R265). -/
inductive OffloadOrder where
  | independent | merged
  deriving DecidableEq, Repr, Inhabited

/-- VPORT_STROBE (45_spi_relay.md R282). -/
inductive VportStrobe where
  | threeWrite | twoWrite
  deriving DecidableEq, Repr, Inhabited

/-- EXP_BUS (92_eei_decisions.md D45): no rule reads it. -/
inductive ExpBus where
  | spi | i2c
  deriving DecidableEq, Repr, Inhabited

/-- INT_EDGE (92_eei_decisions.md D22): no rule reads it, an EXP_EDGE event is an edge that counts. -/
inductive IntEdge where
  | rising | falling
  deriving DecidableEq, Repr, Inhabited

/-- The parameters of R8 an expander instance is built with (46_expander_ops.md R300): EXP_ADDR, EXP_BUS, SEQ_ENABLED,
IRQ_QUEUE_DEPTH, INT_EDGE. The address is an Int, so that any one outside [0, 8) can be given and raise BadArgument. -/
structure ExpParams where
  addr : Int
  bus : ExpBus
  seqTest : SeqTest
  irqQueueDepth : Nat
  intEdge : IntEdge
  deriving DecidableEq, Repr, Inhabited

/-- The parameters of R8 the facade and its transport are built with, other than the geometry and the transport. -/
structure Params where
  csActive : Bool
  pinMap : List Nat
  ctlMap : CtlMap
  offloadOrder : OffloadOrder
  offloadFifoDepth : Nat
  offloadRate : Nat
  offloadStrobeCycles : Nat
  vportMap : VportMap
  vportStrobe : VportStrobe
  tE : Nat
  deriving DecidableEq, Repr, Inhabited

/-- The configuration state of 10_state.md R22: the constructors' arguments, those of the facade and those of each expander
instance (log 10). -/
structure Cfg where
  width : Nat
  height : Nat
  transport : Transport
  params : Params
  gpio : ExpParams
  relay : ExpParams
  deriving DecidableEq, Repr, Inhabited

/-- The expander instances the model holds (log 10): the caller's, and the one a relay transport owns (45_spi_relay.md
R280). -/
inductive ExpId where
  | gpio | relay
  deriving DecidableEq, Repr, Inhabited

/-- What an OTHER agent may do while HOST is suspended at a yield: nothing the block sees, a write of the caller's
framebuffer (70_reset_and_hazards.md R407), or driving the block's lines or bus, which R367 refuses. -/
inductive OtherAct where
  | idle
  | fbWrite (off : Nat) (b : Byte)
  | driveBus
  deriving DecidableEq, Repr, Inhabited

/-- One scheduled move of one agent (10_state.md R20): HOST, for at most `q` primitive steps or with no bound; the offload
consumers; EXP_ENV raising an edge; HOST starting a dispatch (47_expander_interrupts.md R343); OTHER; an LCD chip's own
reset (R395); the reset of an instance's expander chip (R396), or of the chip at a device address that no instance uses. -/
inductive Move where
  | host (q : Option Nat)
  | offCtl
  | offData
  | edge (x : ExpId)
  | dispatch (x : ExpId) (q : Option Nat)
  | other (a : OtherAct)
  | lcdReset (c : Nat)
  | expReset (x : ExpId)
  | idleReset (addr : Nat)
  deriving DecidableEq, Repr, Inhabited

namespace Config

/-! The OPEN parameters of R8 with no default (log 7). -/

opaque csActive : Bool
opaque pinMap : List Nat
opaque expBus : ExpBus
opaque intEdge : IntEdge
/-- OFFLOAD_FIFO_DEPTH is at least 1 (92_eei_decisions.md D33): one more than this constant. -/
opaque offloadFifoDepthLessOne : Nat
opaque offloadRate : Nat
opaque offloadStrobeCycles : Nat
opaque tE : Nat

/-! The free values (R12 `draw()`), each applied to the counter `State.draws` (log 4). -/

/-- The byte a status read samples (10_state.md R46, U7). -/
opaque freeStatus : Nat → Byte
/-- The byte a GPIO read returns (R51, U8). -/
opaque freePins : Nat → Byte
/-- What ctl_lines hold before the first control word drains (44_fifo_offload.md R263, U11). -/
opaque freeCtl : Nat → Nibble
/-- Old or new: a chip register after a failed frame (U16), a framebuffer byte written during a frame (U15). -/
opaque freeCoin : Nat → Bool
/-- What display RAM holds before anything is written to it (U20): the byte at an address, as drawn at a counter value. -/
opaque freeDram : Nat → Nat → Byte
/-- Which agent moves next (R19, R413). -/
opaque freeMove : Nat → Move
/-- An LCD chip's page register after its own reset (U20). -/
opaque freeLcdPage : Nat → BitVec 3
/-- An LCD chip's column pointer after its own reset (U20). -/
opaque freeLcdColumn : Nat → BitVec 6
/-- An LCD chip's display-on flag after its own reset (U20). -/
opaque freeLcdOn : Nat → Bool
/-- An LCD chip's start line after its own reset (U20). -/
opaque freeLcdLine : Nat → BitVec 6

/-- The default CTL_MAP (R135). -/
def ctlMap : CtlMap := { cs0 := 0, cs1 := 1, rs := 2, rw := 3 }

/-- The default VPORT_MAP (R137): D0..D7 = 0..7, E = 8, RW = 9, RS = 10, CSc = 11 + c. -/
def vportMap : VportMap :=
  { d := [0, 1, 2, 3, 4, 5, 6, 7], e := 8, rw := 9, rs := 10, cs := [11, 12, 13, 14, 15] }

/-- The parameters of an expander instance at a device address: R8's defaults, the OPEN ones opaque (log 7). -/
def expParams (addr : Int) : ExpParams :=
  { addr := addr, bus := expBus, seqTest := .seqopClear, irqQueueDepth := 1, intEdge := intEdge }

/-- The parameters of the facade at reset: R8's defaults, the OPEN ones opaque (log 7). -/
def params : Params :=
  { csActive := csActive, pinMap := pinMap, ctlMap := ctlMap, offloadOrder := .independent,
    offloadFifoDepth := offloadFifoDepthLessOne + 1, offloadRate := offloadRate,
    offloadStrobeCycles := offloadStrobeCycles, vportMap := vportMap, vportStrobe := .threeWrite, tE := tE }

/-- The constructors' arguments at reset: the panel of the source's scenario S7, on DIRECT, and the two device addresses (DESIGN
CHOICE, log 6). -/
def cfg : Cfg :=
  { width := 128, height := 64, transport := .direct, params := params, gpio := expParams 0, relay := expParams 1 }

end Config

end Sys2Proof
end

