-- ==== Sys2Proof/Syntax.lean ====
section
/-! DEFINITION. The block's instructions: one constructor per row of opcode_table.json, wire words first, then the calls of
30_encoding.md R139. Operands a rule checks at run time are typed wide enough to be wrong: a pin is an Int (46_expander_ops.md
R301), a value is an Int (R312, R315), an index is a Nat (40_addressing.md R162). -/

namespace Sys2Proof

/-- The two 8-pin ports (10_state.md R31). -/
inductive Port where
  | a | b
  deriving DecidableEq, Repr, Inhabited

/-- The register kinds of 10_state.md R30. -/
inductive Kind where
  | dir | ipol | gpinten | defval | intcon | iocon | gppu | intf | intcap | gpio | olat
  deriving DecidableEq, Repr, Inhabited

/-- The kinds the block shadows (R30, R32, R34). -/
inductive ShKind where
  | dir | ipol | gpinten | defval | intcon | iocon | gppu | olat
  deriving DecidableEq, Repr, Inhabited

/-- A direction operand of `setup`; `other` is any value that is neither IN nor OUT (R305). -/
inductive Direction where
  | input | output | other (n : Int)
  deriving DecidableEq, Repr, Inhabited

/-- A flag operand of `setup`; `other` is any value that is neither PULL_UP nor INVERT (R305). -/
inductive SetupFlag where
  | pullUp | invert | other (n : Int)
  deriving DecidableEq, Repr, Inhabited

/-- The operand of `Enqueue`: the queue and a word of its width (R12, 44_fifo_offload.md R264). -/
inductive QWord where
  | ctl (w : Nibble)
  | data (b : Byte)
  deriving DecidableEq, Repr, Inhabited

/-- What `construct` builds (70_reset_and_hazards.md R390): the display facade and, for SPI_RELAY, the expander instance the relay
owns (45_spi_relay.md R280), or an expander instance alone (46_expander_ops.md R300), which has no geometry and no transport:
those operands are then not looked at. -/
inductive Build where
  | facade (p : Params) (relay : ExpParams)
  | expander (x : ExpId) (p : ExpParams)
  deriving DecidableEq, Repr, Inhabited

/-- One constructor per row of opcode_table.json. -/
inductive Instr where
  -- LCD10 words (41_lcd_commands.md)
  | displayOn
  | displayOff
  | setStartLine
  | setPage (page : BitVec 3)
  | setColumn
  | writeData (b : Byte)
  | readStatus (s : Byte)
  -- expander serial frames (30_encoding.md R130); d0, d1 of a read are the bytes the device drives
  | frameWrite1 (addr : BitVec 3) (reg d0 : Byte)
  | frameWrite2 (addr : BitVec 3) (reg d0 d1 : Byte)
  | frameRead1 (addr : BitVec 3) (reg d0 : Byte)
  | frameRead2 (addr : BitVec 3) (reg d0 d1 : Byte)
  | serCmdWrite (addr : BitVec 3)
  | serCmdRead (addr : BitVec 3)
  -- offload and relay words (R135, R136, R137)
  | ctlChip0Cmd
  | ctlChip1Cmd
  | ctlChip0Data
  | ctlChip1Data
  | dataWord (b : Byte)
  | vportWrite (v : Half)
  -- the display facade and the transport primitives
  | construct (width height : Nat) (t : Transport) (b : Build)
  | bufferOffset (page chip column : Nat)
  | selectChip (c : Nat)
  | init
  | printBuffer (buffer : List Byte)
  | cmdGroup (chip : Nat) (bs : List Byte)
  | dataGroup (chip : Nat) (ds : List Byte)
  | lcdWrite (rs : Bool) (b : Byte)
  | relayByte (rs : Bool) (b : Byte)
  | enqueue (w : QWord)
  -- the expander operations, each on the instance `x`
  | setup (x : ExpId) (pin : Int) (d : Direction) (flags : List SetupFlag)
  | output (x : ExpId) (pin level : Int)
  | input (x : ExpId) (pin : Int) (refresh : Bool)
  | outputPins (x : ExpId) (m : List (Int × Int))
  | inputPins (x : ExpId) (pins : List Int) (refresh : Bool)
  | writeGpio (x : ExpId) (v : Int)
  | readGpio (x : ExpId)
  | regWrite (x : ExpId) (k : Kind) (p : Port) (v : Int)
  | regRead (x : ExpId) (k : Kind) (p : Port)
  -- interrupts
  | subscribe (x : ExpId) (pin : Int) (cb : Nat)
  | dispatch (x : ExpId)
  | expEdge (x : ExpId)
  deriving DecidableEq, Repr, Inhabited

/-- The wire-word formats with rows of their own (30_encoding.md R120). -/
inductive Format where
  | lcd10 | serFrame | serCmd8 | ctl4 | data8 | vport16
  deriving DecidableEq, Repr, Inhabited

/-- One item of HOST's program: a wire word as its format's bytes, most significant byte first (the wire order of a frame,
R130), or a call, which has no encoding (R120) (log 1, log 15). -/
inductive Item where
  | wire (f : Format) (bytes : List Byte)
  | call (i : Instr)
  deriving DecidableEq, Repr, Inhabited

/-- The LCD words the target model gives a meaning (41_lcd_commands.md R181 to R187). -/
inductive LcdCmd where
  | on | off | startLine
  | page (p : BitVec 3)
  | column
  | data (b : Byte)
  | status (s : Byte)
  deriving DecidableEq, Repr, Inhabited

end Sys2Proof
end

