-- ==== Sys2Proof/Machine/Layouts.lean ====
section
/-! DEFINITION. The layouts of words: geometry, control words under a CTL_MAP, virtual-port words under a VPORT_MAP, the register
addresses of the expander (30_encoding.md, 10_state.md R29). -/

namespace Sys2Proof

/-- PAGES, CHIPS and BUFLEN (00_scope.md R7, 40_addressing.md R160). -/
def Cfg.pages (c : Cfg) : Nat := c.height / 8
def Cfg.chips (c : Cfg) : Nat := c.width / 64
def Cfg.buflen (c : Cfg) : Nat := c.width * c.height / 8

/-- The parameters of an expander instance (46_expander_ops.md R300). -/
def Cfg.exp (c : Cfg) : ExpId → ExpParams
  | .gpio => c.gpio
  | .relay => c.relay

def Cfg.setExp (c : Cfg) (x : ExpId) (p : ExpParams) : Cfg :=
  match x with
  | .gpio => { c with gpio := p }
  | .relay => { c with relay := p }

/-- `base(kind)` and `addr(kind, p)` of every kind (30_encoding.md R134). -/
def Kind.base : Kind → Byte
  | .dir => 0x00#8
  | .ipol => 0x02#8
  | .gpinten => 0x04#8
  | .defval => 0x06#8
  | .intcon => 0x08#8
  | .iocon => 0x0A#8
  | .gppu => 0x0C#8
  | .intf => 0x0E#8
  | .intcap => 0x10#8
  | .gpio => 0x12#8
  | .olat => 0x14#8

def Kind.addr (k : Kind) (p : Port) : Byte :=
  match k, p with
  | .iocon, _ => k.base
  | _, .a => k.base
  | _, .b => k.base + 1#8

/-- The register addresses of R29: 0x00 to 0x15 less 0x0B. -/
def namedRegister (a : Nat) : Bool := a ≤ 0x15 && a != 0x0B

/-- The named addresses no frame carries: INTF and INTCAP (R133, R140 b). -/
def unusedRegister (a : Nat) : Bool := 0x0E ≤ a && a ≤ 0x11

namespace Machine

/-- `ctl(c, rs, rw)` under a CTL_MAP (44_fifo_offload.md R261). -/
def ctlWord (m : CtlMap) (c : Nat) (rs rw : Bool) : Nibble :=
  (if c = 0 then 1#4 <<< m.cs0 else 0#4) ||| (if c = 1 then 1#4 <<< m.cs1 else 0#4)
    ||| (if rs then 1#4 <<< m.rs else 0#4) ||| (if rw then 1#4 <<< m.rw else 0#4)

/-- The control words the block emits: one CS bit, RW = 0 (R135). -/
def ctlEmitted (m : CtlMap) : List Nibble :=
  [ctlWord m 0 false false, ctlWord m 1 false false, ctlWord m 0 true false, ctlWord m 1 true false]

/-- Which chips a control word selects (R135). -/
def ctlChip (m : CtlMap) (w : Nibble) (k : Nat) : Bool :=
  if k = 0 then w.getLsbD m.cs0 else if k = 1 then w.getLsbD m.cs1 else false

/-- One signal of the virtual port at its bit. -/
def vbit (i : Nat) (v : Bool) : Half := if v then 1#16 <<< i else 0#16

/-- The bits `is` set. -/
def vbits (is : List Nat) : Half := is.foldl (fun acc i => acc ||| vbit i true) 0#16

/-- The data byte's part of a virtual-port word. -/
def vdata (is : List Nat) (d : Byte) : Half :=
  (List.range 8).foldl (fun acc k => acc ||| vbit (is.getD k 16) (d.getLsbD k)) 0#16

/-- `vp(e, rw, rs, chip, d)` under a VPORT_MAP (R137). -/
def vp (m : VportMap) (e rw rs : Bool) (chip : Nat) (d : Byte) : Half :=
  vdata m.d d ||| vbit m.e e ||| vbit m.rw rw ||| vbit m.rs rs ||| vbit (m.cs.getD chip 16) true

/-- The data byte on the pins of a virtual-port word. -/
def vpData (m : VportMap) (v : Half) : Byte :=
  (List.range 8).foldl (fun acc k => acc ||| (if v.getLsbD (m.d.getD k 16) then 1#8 <<< k else 0#8)) 0#8

/-- The CS bits of the virtual port on a panel of `n` chips: CS0 to CS(n-1), no others (R137). -/
def vpCs (m : VportMap) (n : Nat) : List Nat := m.cs.take n

/-- The CS bits of `v` replaced by `cs_pattern(c)` on a panel of `n` chips (40_addressing.md R166, 45_spi_relay.md R281). -/
def vpSelect (m : VportMap) (n : Nat) (v : Half) (c : Nat) : Half :=
  (v &&& ~~~(vbits (vpCs m n))) ||| vbit (m.cs.getD c 16) true

/-- The bits of the virtual port a panel of `n` chips uses (R137); the others are always 0. -/
def vpUsed (m : VportMap) (n : Nat) : Half := vbits (m.d ++ [m.e, m.rw, m.rs] ++ vpCs m n)

/-- The electrical level of the relay's pins for a virtual-port value on a panel of `n` chips (45_spi_relay.md R283): a CS pin at
CS_ACTIVE where its bit is 1 and at the other level where it is 0, every other pin at its own bit. -/
def vpLevel (m : VportMap) (n : Nat) (csActive : Bool) (v : Half) (i : Nat) : Bool :=
  if i ∈ vpCs m n then v.getLsbD i == csActive else v.getLsbD i

end Machine
end Sys2Proof
end

