-- ==== Sys2Proof/WellFormed.lean ====
section
/-! DEFINITION. Which instructions are well formed: the limits the encodings and the operand forms set, beyond the types, under a
configuration: CTL_MAP, VPORT_MAP and CHIPS say which control and virtual-port words there are (30_encoding.md R135, R137).
What a rule checks at run time and answers by an error (a bad pin, index, value, direction) is no limit here. -/

namespace Sys2Proof

/-- Why the decoder rejects an item, by name. -/
inductive Reject where
  /-- The item's bytes are not as many as its format has (30_encoding.md R120, R132). -/
  | wrongLength
  /-- Bits above the 10 of an LCD10 word are set (R121). -/
  | lcdTopBits
  /-- A command byte other than 0x3F, 0x3E, 0xC0, 0xB8 to 0xBF and 0x40 (R140 a, R188). -/
  | lcdCommand
  /-- RS = 1 with RW = 1, a display-data read (R140 a, R188). -/
  | displayDataRead
  /-- A serial command byte whose bits 7..4 are not 0100 (R140 b). -/
  | serCommand
  /-- A register address the map of 10_state.md R29 does not name (R133, R140 b). -/
  | unnamedRegister
  /-- An address of INTF or INTCAP, which no frame carries (R133, R140 b). -/
  | unusedRegister
  /-- A write frame that sets IOCON.BANK (R141, 46_expander_ops.md R318). -/
  | bankSet
  /-- A control word without exactly one CS bit, or with RW = 1 (R135, R140 c). -/
  | ctlWord
  /-- A virtual-port word with RW = 1 (the table's row VPORT_WRITE; R282: RW is always 0). -/
  | vportRw
  /-- A virtual-port word with an unused bit set (R137, R140 d). -/
  | vportUnused
  /-- A virtual-port word with several CS bits set (R140 d). -/
  | vportSelects
  /-- A wire word given as a call. -/
  | notACall
  /-- A pin occurs twice in the mapping of `output_pins` (46_expander_ops.md R309). -/
  | duplicatePin
  /-- A parameter outside the range R8 gives it. -/
  | badParameter
  deriving DecidableEq, Repr, Inhabited

/-- The positions of CTL_MAP are four different bits of a 4-bit word (R135); DESIGN CHOICE: a map that shares a bit is refused
(log 37). -/
def CtlMap.ok (m : CtlMap) : Bool :=
  let ps := [m.cs0, m.cs1, m.rs, m.rw]
  ps.all (· < 4) && decide ps.Nodup

/-- The positions of VPORT_MAP are different bits of a 16-bit word, with eight data lines (R137); DESIGN CHOICE: a map that
shares a bit is refused (log 37). -/
def VportMap.ok (m : VportMap) : Bool :=
  let ps := m.d ++ [m.e, m.rw, m.rs] ++ m.cs
  m.d.length == 8 && ps.all (· < 16) && decide ps.Nodup

/-- The ranges R8 gives the parameters of the facade, on every transport (log 37). Nothing is asked of PIN_MAP, which no rule reads: a
list that lacks a line's pin or gives two lines one pin is accepted (DESIGN CHOICE, log 45). -/
def Params.ok (p : Params) : Bool := 1 ≤ p.offloadFifoDepth && p.ctlMap.ok && p.vportMap.ok

/-- The ranges R8 gives the parameters of an expander instance. The device address is left out: one outside [0, 8) raises
BadArgument (46_expander_ops.md R300). -/
def ExpParams.ok (p : ExpParams) : Bool := 1 ≤ p.irqQueueDepth

/-- The parameters of what is built are in their ranges. -/
def Build.ok : Build → Bool
  | .facade p r => p.ok && r.ok
  | .expander _ p => p.ok

/-- The configuration's parameters are in their ranges. -/
def Cfg.ok (c : Cfg) : Bool := c.params.ok && c.gpio.ok && c.relay.ok

/-- A call, as against a wire word (30_encoding.md R139; the table's formats API and EVENT). -/
def Instr.isCall : Instr → Bool
  | .displayOn | .displayOff | .setStartLine | .setPage _ | .setColumn | .writeData _ | .readStatus _ => false
  | .frameWrite1 .. | .frameWrite2 .. | .frameRead1 .. | .frameRead2 .. | .serCmdWrite _ | .serCmdRead _ => false
  | .ctlChip0Cmd | .ctlChip1Cmd | .ctlChip0Data | .ctlChip1Data | .dataWord _ | .vportWrite _ => false
  | .construct .. | .bufferOffset .. | .selectChip _ | .init | .printBuffer _ | .cmdGroup .. | .dataGroup .. => true
  | .lcdWrite .. | .relayByte .. | .enqueue _ => true
  | .setup .. | .output .. | .input .. | .outputPins .. | .inputPins .. | .writeGpio .. | .readGpio _ => true
  | .regWrite .. | .regRead .. | .subscribe .. | .dispatch _ | .expEdge _ => true

/-- The first limit a frame's register address breaks (R133, R140 b). -/
def regIllFormed (a : Nat) : Option Reject :=
  if !namedRegister a then some .unnamedRegister else if unusedRegister a then some .unusedRegister else none

/-- The first limit a virtual-port word breaks (R137, R140 d). -/
def vportIllFormed (m : VportMap) (chips : Nat) (v : Half) : Option Reject :=
  if v.getLsbD m.rw then some .vportRw
  else if v &&& ~~~(Machine.vpUsed m chips) ≠ 0#16 then some .vportUnused
  else if 1 < (m.cs.filter (v.getLsbD ·)).length then some .vportSelects
  else none

/-- The first limit an instruction breaks, if any. A frame of two registers is held to R133 in both: that one whose second register
is unnamed or unused (r = 0x0A, 0x0D, 0x15) is rejected is the model's choice (DESIGN CHOICE, log 42). -/
def Instr.illFormed (c : Cfg) : Instr → Option Reject
  | .frameWrite1 _ r d0 => (regIllFormed r.toNat).or (if r = 0x0A#8 ∧ d0.getLsbD 7 then some .bankSet else none)
  | .frameRead1 _ r _ => regIllFormed r.toNat
  | .frameWrite2 _ r _ d1 =>
    ((regIllFormed r.toNat).or (regIllFormed (r.toNat + 1))).or
      (if r = 0x09#8 ∧ d1.getLsbD 7 then some .bankSet else none)
  | .frameRead2 _ r _ _ => (regIllFormed r.toNat).or (regIllFormed (r.toNat + 1))
  | .vportWrite v => vportIllFormed c.params.vportMap c.chips v
  | .enqueue (.ctl w) => if w ∈ Machine.ctlEmitted c.params.ctlMap then none else some .ctlWord
  | .construct _ _ _ b => if b.ok then none else some .badParameter
  | .outputPins _ m => if (m.map (·.1)).Nodup then none else some .duplicatePin
  | .displayOn | .displayOff | .setStartLine | .setPage _ | .setColumn | .writeData _ | .readStatus _
  | .serCmdWrite _ | .serCmdRead _ | .ctlChip0Cmd | .ctlChip1Cmd | .ctlChip0Data | .ctlChip1Data | .dataWord _
  | .bufferOffset .. | .selectChip _ | .init | .printBuffer _ | .cmdGroup .. | .dataGroup ..
  | .lcdWrite .. | .relayByte .. | .enqueue (.data _) | .setup .. | .output .. | .input .. | .inputPins .. | .writeGpio ..
  | .readGpio _ | .regWrite .. | .regRead .. | .subscribe .. | .dispatch _ | .expEdge _ => none

/-- Well-formed: no limit is broken. -/
abbrev Instr.wellFormed (c : Cfg) (i : Instr) : Prop := i.illFormed c = none

end Sys2Proof
end

