-- ==== Sys2Proof/Decode.lean ====
section
/-! DEFINITION. Wire words to instructions and back (30_encoding.md). Decoding is total: an item either is an instruction or
is rejected by name. CTL4 and VPORT16 words are read under the
configuration's maps (R135, R137). -/

namespace Sys2Proof

/-- The target's reading of one LCD cycle, from RS, RW and D (R121 to R124; refusals R188). -/
def lcdDecode (rs rw : Bool) (d : Byte) : Except Reject LcdCmd :=
  match rs, rw with
  | true, true => .error .displayDataRead
  | true, false => .ok (.data d)
  | false, true => .ok (.status d)
  | false, false =>
    if d = 0x3F#8 then .ok .on
    else if d = 0x3E#8 then .ok .off
    else if d = 0xC0#8 then .ok .startLine
    else if d.extractLsb' 3 5 = 0b10111#5 then .ok (.page (d.extractLsb' 0 3))
    else if d = 0x40#8 then .ok .column
    else .error .lcdCommand

/-- The instruction of an LCD word. -/
def LcdCmd.instr : LcdCmd → Instr
  | .on => .displayOn
  | .off => .displayOff
  | .startLine => .setStartLine
  | .page p => .setPage p
  | .column => .setColumn
  | .data b => .writeData b
  | .status s => .readStatus s

/-- An LCD10 word (R121), RS and RW in the two low bits of its first byte. -/
def decodeLcd10 (hi lo : Byte) : Except Reject Instr :=
  if hi.toNat < 4 then (lcdDecode (hi.getLsbD 1) (hi.getLsbD 0) lo).map LcdCmd.instr else .error .lcdTopBits

/-- A serial command byte: the device address and whether it is a read (R131). -/
def decodeSerCmd (c : Byte) : Except Reject (BitVec 3 × Bool) :=
  if c.extractLsb' 4 4 = 0b0100#4 then .ok (c.extractLsb' 1 3, c.getLsbD 0) else .error .serCommand

/-- A control word in the byte of its item. -/
def ctlByte (m : CtlMap) (chip : Nat) (rs : Bool) : Byte := (Machine.ctlWord m chip rs false).setWidth 8

/-- A control word under a CTL_MAP (R135): 0x1, 0x2, 0x5 and 0x6 under the default one. -/
def decodeCtl4 (m : CtlMap) (w : Byte) : Except Reject Instr :=
  if w = ctlByte m 0 false then .ok .ctlChip0Cmd
  else if w = ctlByte m 1 false then .ok .ctlChip1Cmd
  else if w = ctlByte m 0 true then .ok .ctlChip0Data
  else if w = ctlByte m 1 true then .ok .ctlChip1Data
  else .error .ctlWord

/-- An instruction if it is well formed, its limit's name if not. -/
def checked (c : Cfg) (i : Instr) : Except Reject Instr :=
  match i.illFormed c with
  | none => .ok i
  | some r => .error r

/-- A serial frame of one data byte (R130, R132). -/
def decodeFrame1 (g : Cfg) (c r d0 : Byte) : Except Reject Instr :=
  match decodeSerCmd c with
  | .error e => .error e
  | .ok (a, false) => checked g (.frameWrite1 a r d0)
  | .ok (a, true) => checked g (.frameRead1 a r d0)

/-- A sequential frame of two data bytes (R130, R132). -/
def decodeFrame2 (g : Cfg) (c r d0 d1 : Byte) : Except Reject Instr :=
  match decodeSerCmd c with
  | .error e => .error e
  | .ok (a, false) => checked g (.frameWrite2 a r d0 d1)
  | .ok (a, true) => checked g (.frameRead2 a r d0 d1)

/-- A wire word of a given format. -/
def decodeWire (g : Cfg) : Format → List Byte → Except Reject Instr
  | .lcd10, [hi, lo] => decodeLcd10 hi lo
  | .serFrame, [c, r, d0] => decodeFrame1 g c r d0
  | .serFrame, [c, r, d0, d1] => decodeFrame2 g c r d0 d1
  | .serCmd8, [c] =>
    match decodeSerCmd c with
    | .error e => .error e
    | .ok (a, false) => .ok (.serCmdWrite a)
    | .ok (a, true) => .ok (.serCmdRead a)
  | .ctl4, [w] => decodeCtl4 g.params.ctlMap w
  | .data8, [b] => .ok (.dataWord b)
  | .vport16, [hi, lo] => checked g (.vportWrite (hi ++ lo))
  | _, _ => .error .wrongLength

/-- The decoder: total on every item. -/
def decode (g : Cfg) : Item → Except Reject Instr
  | .wire f bytes => decodeWire g f bytes
  | .call i => if i.isCall then checked g i else .error .notACall

/-- A serial command byte: 0x40 | (addr << 1), or 0x41 | (addr << 1) for a read (R131). -/
def serCmd (addr : BitVec 3) (read : Bool) : Byte :=
  (if read then 0x41#8 else 0x40#8) ||| (addr.setWidth 8 <<< 1)

/-- An LCD10 word: RS << 9 | RW << 8 | D (R121). -/
def lcd10 (rs rw : Bool) (d : Byte) : Item :=
  .wire .lcd10 [(if rs then 0x2#8 else 0x0#8) ||| (if rw then 0x1#8 else 0x0#8), d]

/-- The encoder, from the encodings of 30_encoding.md; a call is itself (R120). -/
def encode (g : Cfg) : Instr → Item
  | .displayOn => lcd10 false false 0x3F#8
  | .displayOff => lcd10 false false 0x3E#8
  | .setStartLine => lcd10 false false 0xC0#8
  | .setPage p => lcd10 false false (0xB8#8 ||| p.setWidth 8)
  | .setColumn => lcd10 false false 0x40#8
  | .writeData b => lcd10 true false b
  | .readStatus s => lcd10 false true s
  | .frameWrite1 a r d0 => .wire .serFrame [serCmd a false, r, d0]
  | .frameWrite2 a r d0 d1 => .wire .serFrame [serCmd a false, r, d0, d1]
  | .frameRead1 a r d0 => .wire .serFrame [serCmd a true, r, d0]
  | .frameRead2 a r d0 d1 => .wire .serFrame [serCmd a true, r, d0, d1]
  | .serCmdWrite a => .wire .serCmd8 [serCmd a false]
  | .serCmdRead a => .wire .serCmd8 [serCmd a true]
  | .ctlChip0Cmd => .wire .ctl4 [ctlByte g.params.ctlMap 0 false]
  | .ctlChip1Cmd => .wire .ctl4 [ctlByte g.params.ctlMap 1 false]
  | .ctlChip0Data => .wire .ctl4 [ctlByte g.params.ctlMap 0 true]
  | .ctlChip1Data => .wire .ctl4 [ctlByte g.params.ctlMap 1 true]
  | .dataWord b => .wire .data8 [b]
  | .vportWrite v => .wire .vport16 [v.extractLsb' 8 8, v.extractLsb' 0 8]
  | .construct w h t b => .call (.construct w h t b)
  | .bufferOffset p c k => .call (.bufferOffset p c k)
  | .selectChip c => .call (.selectChip c)
  | .init => .call .init
  | .printBuffer b => .call (.printBuffer b)
  | .cmdGroup c bs => .call (.cmdGroup c bs)
  | .dataGroup c ds => .call (.dataGroup c ds)
  | .lcdWrite rs b => .call (.lcdWrite rs b)
  | .relayByte rs b => .call (.relayByte rs b)
  | .enqueue w => .call (.enqueue w)
  | .setup x n d fs => .call (.setup x n d fs)
  | .output x n l => .call (.output x n l)
  | .input x n r => .call (.input x n r)
  | .outputPins x m => .call (.outputPins x m)
  | .inputPins x ns r => .call (.inputPins x ns r)
  | .writeGpio x v => .call (.writeGpio x v)
  | .readGpio x => .call (.readGpio x)
  | .regWrite x k p v => .call (.regWrite x k p v)
  | .regRead x k p => .call (.regRead x k p)
  | .subscribe x n cb => .call (.subscribe x n cb)
  | .dispatch x => .call (.dispatch x)
  | .expEdge x => .call (.expEdge x)

/-- The `n` bytes of `w`, most significant first. -/
def bytesOf : Nat → Nat → List Byte
  | 0, _ => []
  | n + 1, w => BitVec.ofNat 8 (w / 256 ^ n) :: bytesOf n w

/-- The formats whose rows have about `nbits` bits, in the order they are tried: rows of 4 and of 8 bits come as 8, rows of 10
and of 16 as 16 (log 14). -/
def formatsOf (nbits : Nat) : List Format :=
  if nbits ≤ 4 then [.ctl4]
  else if nbits ≤ 8 then [.ctl4, .serCmd8, .data8]
  else if nbits ≤ 10 then [.lcd10]
  else if nbits ≤ 16 then [.lcd10, .vport16]
  else if nbits = 24 ∨ nbits = 32 then [.serFrame]
  else []

/-- The first of the given formats in which the bits are an instruction. -/
def firstItem (g : Cfg) (bytes : List Byte) : List Format → Option Item
  | [] => none
  | f :: fs =>
    match decode g (.wire f bytes) with
    | .ok _ => some (.wire f bytes)
    | .error _ => firstItem g bytes fs

/-- The item an opcode-table word stands for. -/
def tableItem (g : Cfg) (nbits w : Nat) : Option Item :=
  firstItem g (bytesOf ((nbits + 7) / 8) w) (formatsOf nbits)

/-- The instruction the decoder reads from a word numbered as opcode_table.json numbers it, under the configuration at reset, whose
maps are the defaults the table is written for (log 14). -/
def decodeTableWord (nbits w : Nat) : Option Instr :=
  match tableItem Config.cfg nbits w with
  | none => none
  | some it =>
    match decode Config.cfg it with
    | .ok i => some i
    | .error _ => none

end Sys2Proof
end

