-- ==== Sys2Proof/Machine/State.lean ====
section
/-! DEFINITION. The state of the block and of its targets (10_state.md), as plain data; the errors, the refusals, the
primitive steps HOST's operations are made of, and the state after construction (R55, 70_reset_and_hazards.md R390). -/

namespace Sys2Proof.Machine

/-- What a BadArgument error records (60_exceptions.md R361). -/
inductive BadArg where
  | direction (d : Direction) (flags : List SetupFlag)
  | value (v : Int)
  | address (a : Int)
  deriving DecidableEq, Repr, Inhabited

/-- What a Refused error records (R361, R366). -/
inductive RefusedWhat where
  | kind (k : Kind)
  | ioconBank
  deriving DecidableEq, Repr, Inhabited

/-- The errors of R361, each with what it records. An operation that meets one ends in a NEXT state with `err` set (R360); once
`err` is set, every later move of HOST answers the same error as a fault, so a fault is raised by `agentStep` alone. Safe:
HOST's run has ended, as R360 says. -/
inductive Fault where
  /-- Code 1: a pin index outside [0, 16), by `setup`, `output`, `input`, `output_pins`, `input_pins`, `subscribe`. -/
  | invalidPin (n : Int)
  /-- Code 2: a serial frame failed; its command and register bytes. -/
  | busError (cmd reg : Byte)
  /-- Code 3: by `construct`. -/
  | badGeometry (width height : Nat)
  /-- Code 4: by `print_buffer`. -/
  | badBufferLength (len : Nat)
  /-- Code 5: by `buffer_offset`, and by `select_chip` and the groups, which record the chip alone. -/
  | badIndex (page chip column : Option Nat)
  /-- Code 6: by `setup`, `write_gpio`, `reg_write`, `construct`. -/
  | badArgument (x : BadArg)
  /-- Code 7: by `reg_write`, `reg_read`. -/
  | refused (what : RefusedWhat)
  /-- A callback's own error (47_expander_interrupts.md R349); no code of the block's. -/
  | callback (code : Nat)
  deriving DecidableEq, Repr, Inhabited

/-- Why the model gives a run no meaning. All are safe: the model stops where the block might go on. -/
inductive Refusal where
  /-- An arm of exec with no meaning. -/
  | notModelled (mnemonic : String)
  /-- The item HOST fetched is no instruction (30_encoding.md R140); raised by `fetch`. -/
  | undecodable (r : Reject)
  /-- An LCD operation before `init` (70_reset_and_hazards.md R392); by `select_chip`, `cmd_group`, `data_group`,
  `print_buffer`. -/
  | beforeInit
  /-- Two users of one transport or bus at once (R367, R406): a transport operation in a callback of a dispatch at a COOP
  yield, or OTHER driving the bus. -/
  | undefinedConcurrentUse
  /-- An LCD cycle with no chip, or with two chips, selected (41_lcd_commands.md R188). -/
  | notOneChip
  /-- An LCD cycle whose word R181 to R187 do not list (R188). -/
  | lcdWord (r : Reject)
  /-- READ_STATUS on OFFLOAD or SPI_RELAY: "only DIRECT and COOP emit it" (R187), and these never set RW = 1 and never read the LCD
  (44_fifo_offload.md R269, 45_spi_relay.md R284). -/
  | noStatusRead
  /-- A primitive of another transport: `relay_byte` without SPI_RELAY, `Enqueue` without OFFLOAD (log 23). -/
  | wrongTransport
  /-- A frame begun while another's command byte stands alone on the bus (20_memory.md R82, log 13). -/
  | frameOverlap
  /-- A frame word to a device address no expander instance has (log 25). -/
  | noDevice
  /-- A two-byte frame word with sequential mode off (46_expander_ops.md R303). -/
  | notSequential
  /-- `dispatch` where 47_expander_interrupts.md R343 does not enable it; it is "started by a pending edge, not a call". -/
  | dispatchNotEnabled
  /-- `construct` while an operation is in progress (log 24). -/
  | constructInOperation
  /-- `construct` of an instance whose own chip, the one at its EXP_ADDR, is not at its power-on values (70_reset_and_hazards.md R393,
  93_implementation_defined.md U21). -/
  | chipNotAtPowerOn
  deriving DecidableEq, Repr, Inhabited

/-- Sparse bytes by address, in one canonical form (`Mem.wf`). -/
abbrev Mem := List Host.Cell

/-- A register of one kind, for both ports. -/
structure Pair where
  a : Byte
  b : Byte
  deriving DecidableEq, Repr, Inhabited

/-- The shadow register file of one expander instance (R32, R34). -/
structure RegFile where
  dir : Pair
  ipol : Pair
  gpinten : Pair
  defval : Pair
  intcon : Pair
  gppu : Pair
  olat : Pair
  iocon : Byte
  deriving DecidableEq, Repr, Inhabited

/-- The reset values of the shadows (R55). -/
def RegFile.reset : RegFile :=
  { dir := { a := 0xFF#8, b := 0xFF#8 }, ipol := { a := 0#8, b := 0#8 }, gpinten := { a := 0#8, b := 0#8 },
    defval := { a := 0#8, b := 0#8 }, intcon := { a := 0#8, b := 0#8 }, gppu := { a := 0#8, b := 0#8 },
    olat := { a := 0#8, b := 0#8 }, iocon := 0#8 }

/-- A token of the pending-edge queue (R37). -/
inductive EdgeToken where
  | edge
  deriving DecidableEq, Repr, Inhabited

/-- One expander instance and its chip (R32 to R37, R50). `rx` holds the bytes a `read_gpio` in progress has read. -/
structure Expander where
  sh : RegFile
  snap : Half
  subs : List (Nat × Nat)
  pending : List EdgeToken
  rx : List Byte
  dev : Mem
  deriving DecidableEq, Repr, Inhabited

/-- An instance just built (R300, R55), its chip at power-on values (R393). -/
def Expander.reset : Expander :=
  { sh := RegFile.reset, snap := 0#16, subs := [], pending := [], rx := [], dev := [] }

/-- One KS0108-class chip of the target model (R45): page register, column pointer, display-on flag, start line, and the draw
that gives the bytes of its display RAM not written since (log 9); the written ones stand in `State.dram`. -/
structure LcdChip where
  x : BitVec 3
  y : BitVec 6
  on : Bool
  z : BitVec 6
  ram : Nat
  deriving DecidableEq, Repr, Inhabited

/-- An LCD chip whose registers and display RAM are any value (U20), drawn at counter value `n`. -/
def LcdChip.free (n : Nat) : LcdChip :=
  { x := Config.freeLcdPage n, y := Config.freeLcdColumn n, on := Config.freeLcdOn n, z := Config.freeLcdLine n,
    ram := n }

/-- `op` (R23): which operation is in progress. -/
inductive Op where
  | construct | bufferOffset | selectChip | init | printBuffer | cmdGroup | dataGroup | lcdWrite | relayByte | enqueue
  | setup | output | input | outputPins | inputPins | writeGpio | readGpio | regWrite | regRead | subscribe | dispatch
  deriving DecidableEq, Repr, Inhabited

/-- `st` (R23, 43_bitbang_sequencer.md R231). -/
inductive FsmState where
  | idle | selectChip | setReadDir | pollBusy | setWriteDir | strobe
  deriving DecidableEq, Repr, Inhabited

/-- `phase` (R23). -/
inductive Phase where
  | cmdPage | cmdCol | data
  deriving DecidableEq, Repr, Inhabited

/-- `bus_dir` (R24). -/
inductive BusDir where
  | read | write
  deriving DecidableEq, Repr, Inhabited

/-- `ddir` (R25). -/
inductive DataDir where
  | input | output
  deriving DecidableEq, Repr, Inhabited

/-- The observable events (20_memory.md R80, notation 00_scope.md R15). -/
inductive Event where
  | lcd (c : Nat) (rs : Bool) (b : Byte)
  | status (c : Nat) (s : Byte)
  | frameW (cmd reg : Byte) (data : List Byte)
  | frameR (cmd reg : Byte) (data : List Byte)
  /-- The frame that failed, with which the trace of a BusError ends (R360, log 31). -/
  | frameFailed (cmd reg : Byte)
  | qCtl (w : Nibble)
  | qData (b : Byte)
  | dCtl (w : Nibble)
  | dData (b : Byte)
  | vport (v : Half)
  | cb (pin : Nat) (value : Bool) (callback : Nat)
  deriving DecidableEq, Repr, Inhabited

/-- A value returned to the caller (R80). -/
inductive RetVal where
  | none
  | unit
  | nat (n : Nat)
  | bit (b : Bool)
  | bits (l : List Bool)
  | byte (b : Byte)
  | half (v : Half)
  | bytes (l : List Byte)
  deriving DecidableEq, Repr, Inhabited

/-- What one action of a callback is (47_expander_interrupts.md R345, R349; 70_reset_and_hazards.md R407): a call of the
block, an error of its own, a write of the framebuffer. -/
inductive CbAct where
  | call (it : Item)
  | raise (code : Nat)
  | fbWrite (off : Nat) (b : Byte)
  deriving DecidableEq, Repr, Inhabited

/-- The body of a callback: its actions for each value of its argument (47_expander_interrupts.md R345, log 17). -/
structure CbBody where
  low : List CbAct
  high : List CbAct
  deriving DecidableEq, Repr, Inhabited

/-- Where a byte to be sent comes from: given, or the `k`-th byte of the block read from the framebuffer (42_write_protocol.md
R212). -/
inductive Src where
  | imm (b : Byte)
  | blk (k : Nat)
  deriving DecidableEq, Repr, Inhabited

/-- A virtual-port value: given, or made of RS, a byte and E for the selected chip (45_spi_relay.md R282). -/
inductive VSrc where
  | lit (v : Half)
  | byte (rs : Bool) (src : Src) (e : Bool)
  deriving DecidableEq, Repr, Inhabited

/-- What an operation returns, evaluated when it ends. -/
inductive RetSpec where
  | unit
  | snapBit (x : ExpId) (n : Nat)
  | snapBits (x : ExpId) (ns : List Nat)
  | snap (x : ExpId)
  | rx (x : ExpId)
  deriving DecidableEq, Repr, Inhabited

/-- The primitive steps HOST's operations are made of; between two of them other agents may move (00_scope.md R13, log 3). -/
inductive Micro where
  /-- `select_chip(c)` (40_addressing.md R166). -/
  | selectChip (c : Nat)
  /-- `if sel_chip != c: select_chip(c)` (R217). -/
  | groupSelect (c : Nat)
  /-- The six states of the ready-polling FSM (R231, R232). -/
  | fsmSelect
  | fsmReadDir
  | fsmPoll
  | fsmWriteDir (rs : Bool) (src : Src)
  | fsmStrobe
  | fsmIdle
  /-- `Enqueue` (R264). -/
  | enqCtl (w : Nibble)
  | enqData (src : Src)
  /-- `VPortWrite`: the trace event and the start of its `write_gpio` (R283). -/
  | vportBegin (v : VSrc)
  /-- The start of `write_gpio(v)`, and its frame or frames of OLAT (R312). -/
  | olatBegin (x : ExpId) (v : Half)
  | olatFrameA (x : ExpId)
  | olatFrameB (x : ExpId)
  /-- `in_txn <- true`, `in_txn <- false` (R302). -/
  | txnBegin
  | txnEnd
  /-- Shadow updates (R305, R307, R315). -/
  | shadowBit (x : ExpId) (k : ShKind) (p : Port) (i : Nat) (v : Bool)
  | shadowSet (x : ExpId) (k : ShKind) (p : Port) (v : Byte)
  /-- The frame of `write_reg(kind, p)` (R302). -/
  | regFrame (x : ExpId) (k : ShKind) (p : Port)
  /-- The frames and the end of `read_gpio` (R313). -/
  | gpioFrameA (x : ExpId)
  | gpioFrameB (x : ExpId)
  | gpioEnd (x : ExpId)
  /-- A frame word given whole (R130): a write's bytes, or a read's bytes as the device drives them. -/
  | wordWrite (x : ExpId) (cmd reg : Byte) (data : List Byte)
  | wordRead (x : ExpId) (cmd reg : Byte) (data : List Byte)
  /-- The sequencer position (R23). -/
  | position (pg ch col : Nat) (phase : Phase)
  /-- The 64 framebuffer reads of a block (R212). -/
  | loadBlock (pg ch : Nat)
  /-- `transport_setup` of DIRECT and COOP (R240); `sel_chip <- NONE` of OFFLOAD and SPI_RELAY (R267, R286). -/
  | bitBangSetup
  | selectNone
  /-- `inited <- true` (R214). -/
  | setInited
  /-- The operation returns. -/
  | ret (r : RetSpec)
  /-- `dispatch` after its `read_gpio`: the changed pins' subscribers (R344), given the snapshot before; and the changed pins still
  to be reported. -/
  | dispatchScan (x : ExpId) (prev : Half)
  | dispatchPins (x : ExpId) (pins : List (Nat × Bool))
  /-- `dispatch` returns to where it was entered (60_exceptions.md R372). -/
  | dispatchEnd (resume : Option Op)
  /-- A callback begins (R345). -/
  | callback (pin : Nat) (value : Bool) (cb : Nat)
  /-- A callback's own actions. -/
  | nested (it : Item)
  | callbackRaise (code : Nat)
  | fbStore (off : Nat) (b : Byte)
  deriving DecidableEq, Repr, Inhabited

/-- Whether a dispatch is in progress, and where it was entered (R343): between operations, or at a COOP yield inside a
transport operation (R406). -/
inductive DispatchState where
  | idle | betweenOps | atYield
  deriving DecidableEq, Repr, Inhabited

/-- Draws the environment has already supplied (log 4, log 5): status bytes, GPIO bytes, what undriven ctl_lines hold,
old-or-new choices (true is new), and for each coming frame whether it fails. -/
structure Env where
  status : List Byte
  pins : List Byte
  ctl : List Nibble
  coins : List Bool
  frameFails : List Bool
  deriving DecidableEq, Repr, Inhabited

/-- The whole state; INVENTORY.md names each field's rule. -/
structure State where
  cfg : Cfg
  op : Option Op
  st : FsmState
  pg : Nat
  ch : Nat
  col : Nat
  phase : Phase
  selChip : Option Nat
  busDir : BusDir
  inited : Bool
  e : Bool
  rw : Bool
  rs : Bool
  d : Byte
  ddir : DataDir
  cs : List Bool
  ctlQ : List (Nat × Nibble)
  dataQ : List (Nat × Byte)
  enqCount : Nat
  ctlLines : Nibble
  ctlDriven : Bool
  dataLines : Byte
  strobe : Bool
  vport : Half
  gpio : Expander
  relay : Expander
  idleDevs : List Mem
  inTxn : Bool
  openFrame : Option Byte
  lcd : List LcdChip
  dram : Mem
  fb : List Byte
  fbMods : List (Nat × Byte)
  blk : List Byte
  ret : RetVal
  err : Option Fault
  trace : List Event
  prog : List Item
  work : List Micro
  callbacks : List (Nat × CbBody)
  suspended : Bool
  disp : DispatchState
  slice : Option Nat
  sched : List Move
  env : Env
  draws : Nat
  deriving DecidableEq, Repr, Inhabited

/-- The state after construction with the arguments `c` and nothing yet run (R55, R390, R391): CHIPS = WIDTH / 64 select lines,
all deasserted, and as many LCD chips, whose contents are free values drawn at 0, 1, ... (log 9). -/
def State.initial (c : Cfg) : State :=
  { cfg := c, op := none, st := .idle, pg := 0, ch := 0, col := 0, phase := .cmdPage, selChip := none, busDir := .write,
    inited := false, e := false, rw := false, rs := false, d := 0#8, ddir := .output,
    cs := List.replicate (c.width / 64) false, ctlQ := [], dataQ := [], enqCount := 0, ctlLines := 0#4, ctlDriven := false,
    dataLines := 0#8, strobe := false, vport := 0#16, gpio := Expander.reset, relay := Expander.reset,
    idleDevs := List.replicate 8 [], inTxn := false,
    openFrame := none, lcd := (List.range (c.width / 64)).map LcdChip.free, dram := [], fb := [], fbMods := [], blk := [],
    ret := .none, err := none, trace := [], prog := [], work := [], callbacks := [], suspended := false, disp := .idle,
    slice := none, sched := [], env := { status := [], pins := [], ctl := [], coins := [], frameFails := [] },
    draws := c.width / 64 }

/-- The machine right after reset: the block constructed with the arguments of `Config.cfg` (log 6). -/
def State.reset : State := State.initial Config.cfg

end Sys2Proof.Machine
end

