-- ==== Sys2Proof/Machine/Operands.lean ====
section
/-! DEFINITION. Operand forms: offsets, pins and ports, shadow registers, command bytes, chip patterns. -/

namespace Sys2Proof

/-- The bit-bang transports (43_bitbang_sequencer.md R230). -/
def Transport.bitBang : Transport → Bool
  | .direct | .coop => true
  | .offload | .spiRelay => false

/-- `buffer_offset` inside its range (R162). -/
def Cfg.offset (c : Cfg) (page chip column : Nat) : Nat := column + 64 * chip + page * c.width

/-- The inverse of `buffer_offset` (R163). -/
def Cfg.pageOf (c : Cfg) (o : Nat) : Nat := o / c.width
def Cfg.chipOf (c : Cfg) (o : Nat) : Nat := o % c.width / 64
def Cfg.columnOf (_ : Cfg) (o : Nat) : Nat := o % 64

/-- The shadowed kind of a kind, if the block shadows it (10_state.md R30, 46_expander_ops.md R315). -/
def Kind.shadow : Kind → Option ShKind
  | .dir => some .dir
  | .ipol => some .ipol
  | .gpinten => some .gpinten
  | .defval => some .defval
  | .intcon => some .intcon
  | .iocon => some .iocon
  | .gppu => some .gppu
  | .olat => some .olat
  | .intf | .intcap | .gpio => none

namespace Machine

/-- `set_bit(x, i, v)` (46_expander_ops.md). -/
def setBit (x : Byte) (i : Nat) (v : Bool) : Byte :=
  if v then x ||| (1#8 <<< i) else x &&& ~~~(1#8 <<< i)

/-- `cat16(h, l)` (00_scope.md R10). -/
def cat16 (h l : Byte) : Half := h ++ l

/-- The low byte (port A) and the high byte (port B) of a 16-bit value (20_memory.md R92). -/
def lowByte (v : Half) : Byte := v.extractLsb' 0 8
def highByte (v : Half) : Byte := v.extractLsb' 8 8

/-- `port(n)` and `bit(n)` (10_state.md R31). -/
def portOf (n : Nat) : Port := if n < 8 then .a else .b
def bitOf (n : Nat) : Nat := n % 8

/-- `addr(kind, p)` of a shadowed kind (30_encoding.md R134); `Kind.addr` is that of every kind. -/
def regAddr (k : ShKind) (p : Port) : Byte :=
  match k, p with
  | .dir, .a => 0x00#8
  | .dir, .b => 0x01#8
  | .ipol, .a => 0x02#8
  | .ipol, .b => 0x03#8
  | .gpinten, .a => 0x04#8
  | .gpinten, .b => 0x05#8
  | .defval, .a => 0x06#8
  | .defval, .b => 0x07#8
  | .intcon, .a => 0x08#8
  | .intcon, .b => 0x09#8
  | .iocon, _ => 0x0A#8
  | .gppu, .a => 0x0C#8
  | .gppu, .b => 0x0D#8
  | .olat, .a => 0x14#8
  | .olat, .b => 0x15#8

/-- The GPIO addresses `read_gpio` reads (R134). -/
def gpioAddrA : Byte := Kind.gpio.addr .a
def gpioAddrB : Byte := Kind.gpio.addr .b

/-- `CMD_W` and `CMD_R` of a device address (30_encoding.md R131). -/
def cmdW (addr : Nat) : Byte := 0x40#8 ||| (BitVec.ofNat 8 addr <<< 1)
def cmdR (addr : Nat) : Byte := 0x41#8 ||| (BitVec.ofNat 8 addr <<< 1)

/-- A shadow register (00_scope.md R11); IOCON takes no port. -/
def Pair.get (r : Pair) : Port → Byte
  | .a => r.a
  | .b => r.b

def Pair.set (r : Pair) (p : Port) (v : Byte) : Pair :=
  match p with
  | .a => { r with a := v }
  | .b => { r with b := v }

def RegFile.get (f : RegFile) (k : ShKind) (p : Port) : Byte :=
  match k with
  | .dir => f.dir.get p
  | .ipol => f.ipol.get p
  | .gpinten => f.gpinten.get p
  | .defval => f.defval.get p
  | .intcon => f.intcon.get p
  | .iocon => f.iocon
  | .gppu => f.gppu.get p
  | .olat => f.olat.get p

def RegFile.set (f : RegFile) (k : ShKind) (p : Port) (v : Byte) : RegFile :=
  match k with
  | .dir => { f with dir := f.dir.set p v }
  | .ipol => { f with ipol := f.ipol.set p v }
  | .gpinten => { f with gpinten := f.gpinten.set p v }
  | .defval => { f with defval := f.defval.set p v }
  | .intcon => { f with intcon := f.intcon.set p v }
  | .iocon => { f with iocon := v }
  | .gppu => { f with gppu := f.gppu.set p v }
  | .olat => { f with olat := f.olat.set p v }

/-- The chips of [0, n) that `sel` picks. -/
def chipsWhere (n : Nat) (sel : Nat → Bool) : List Nat := (List.range n).filter sel

/-- The one-hot pattern of chip `c` over `n` chips (40_addressing.md R165). -/
def csPattern (n c : Nat) : List Bool := (List.range n).map (· == c)

/-- The set-page byte 0xB8 | (page & 0x07) (30_encoding.md R125). -/
def setPageByte (page : Nat) : Byte := 0xB8#8 ||| BitVec.ofNat 8 (page % 8)

end Machine
end Sys2Proof
end

