-- ==== Sys2Proof/Machine/Flags.lean ====
section
/-! DEFINITION. Predicates and flag computations: the ready predicate (10_state.md R27), pin validity, sequential mode, the
changed pins, geometry checks. The block has no condition-code register. -/

namespace Sys2Proof.Machine

/-- `ready(s) = (s & 0x90) == 0` (R27, 43_bitbang_sequencer.md R234). -/
def ready (s : Byte) : Bool := (s &&& 0x90#8) == 0#8

/-- `valid(n)` (46_expander_ops.md R301). -/
def validPin (n : Int) : Bool := 0 ≤ n && n < 16

/-- The first pin that is not valid, in order (60_exceptions.md R362). -/
def firstBadPin (ns : List Int) : Option Int := ns.find? (fun n => !validPin n)

/-- Whether sequential mode is on for an IOCON byte (R304, 92_eei_decisions.md D5). -/
def seqOn (t : SeqTest) (iocon : Byte) : Bool :=
  match t with
  | .seqopClear => (iocon &&& 0x20#8) == 0#8
  | .table t => t.getLsbD iocon.toNat

/-- The changed pins between two snapshots, in increasing order, each with its new value (47_expander_interrupts.md R344). -/
def changedPins (prev new : Half) : List (Nat × Bool) :=
  ((List.range 16).filter (fun n => (prev ^^^ new).getLsbD n)).map (fun n => (n, new.getLsbD n))

/-- The calls one changed pin makes: its subscribers in registration order, with the new value (R344). -/
def callsOf (subs : List (Nat × Nat)) (pin : Nat) (value : Bool) : List Micro :=
  (subs.filter (fun s => s.1 == pin)).map fun s => Micro.callback pin value s.2

/-- The calls of the first changed pin that has a subscriber, and the changed pins after it (R344); none if no pin has. -/
def firstCalls (subs : List (Nat × Nat)) : List (Nat × Bool) → Option (List Micro × List (Nat × Bool))
  | [] => none
  | pv :: pvs => if callsOf subs pv.1 pv.2 = [] then firstCalls subs pvs else some (callsOf subs pv.1 pv.2, pvs)

/-- The arguments of `setup` after the pin are admitted (R305). -/
def setupArgsOk (d : Direction) (flags : List SetupFlag) : Bool :=
  (d == .input || d == .output) && flags.all (fun f => f == .pullUp || f == .invert)

/-- The geometry a transport admits (40_addressing.md R160, 44_fifo_offload.md R260, 45_spi_relay.md R280). -/
def geometryOk (w h : Nat) (t : Transport) (p : Params) : Bool :=
  decide (0 < w) && decide (0 < h) && w % 64 == 0 && h % 8 == 0 &&
    match t with
    | .direct | .coop => true
    | .offload => w / 64 ≤ 2
    | .spiRelay => w / 64 ≤ p.vportMap.cs.length

end Sys2Proof.Machine
end

