-- ==== Sys2Proof/Machine/Ops.lean ====
section
/-! DEFINITION. The named operations over the state: sparse memory, draws, the expander instances and their chips, the LCD
target, serial frames, and, as shared operations, taking an error, entering a dispatch and returning from one. -/

namespace Sys2Proof.Machine

/-- What a primitive step answers: a next state; the state, with the step still to be made (a poll that was not ready, a full
FIFO); further steps to be made first; an error; a refusal. -/
inductive MRes where
  | next (s : State)
  | hold (s : State)
  | push (ms : List Micro) (s : State)
  | raise (e : Fault) (s : State)
  | refuse (r : Refusal)

/-- The outcome type of the machine. -/
abbrev Out := Host.Outcome State Fault Refusal

/-! ## Sparse memory -/

/-- The byte at an address; `dflt` is what an unlisted address reads as, none where it has no value. -/
def Mem.read (dflt : Nat → Option Byte) : Mem → Nat → Option Byte
  | [], a => dflt a
  | (k, v) :: m, a => if a = k then some v else Mem.read dflt m a

/-- A write that keeps the canonical form: a byte equal to what the address reads as unlisted removes the entry. -/
def Mem.write (dflt : Nat → Option Byte) : Mem → Nat → Byte → Mem
  | [], a, v => if dflt a = some v then [] else [(a, v)]
  | (k, w) :: m, a, v =>
    if a < k then (if dflt a = some v then (k, w) :: m else (a, v) :: (k, w) :: m)
    else if a = k then (if dflt a = some v then m else (a, v) :: m)
    else (k, w) :: Mem.write dflt m a v

/-- The canonical form: addresses strictly rising, no entry equal to what its address reads as unlisted. -/
abbrev Mem.wf (dflt : Nat → Option Byte) (m : Mem) : Prop :=
  m.Pairwise (fun c c' => c.1 < c'.1) ∧ ∀ c ∈ m, dflt c.1 ≠ some c.2

/-- The addresses of [lo, hi) unlisted. -/
def Mem.clear (m : Mem) (lo hi : Nat) : Mem := m.filter (fun c => c.1 < lo || hi ≤ c.1)

/-! ## Events, values and draws -/

/-- Append an event to the trace (20_memory.md R80). -/
def State.event (s : State) (ev : Event) : State := { s with trace := s.trace ++ [ev] }

/-- One draw consumed from the counter of the free values (log 4). -/
def State.drew (s : State) : State := { s with draws := s.draws + 1 }

/-! Named updates of one thing each. -/

/-- `in_txn <- b` (46_expander_ops.md R302). -/
def State.txn (b : Bool) (s : State) : State := { s with inTxn := b }

/-- No command byte stands alone on the bus (log 13). -/
def State.closeFrame (s : State) : State := { s with openFrame := none }

/-- `st <- f` (43_bitbang_sequencer.md R231). -/
def State.inFsm (f : FsmState) (s : State) : State := { s with st := f }

/-- `sel_chip <- c` (40_addressing.md R166). -/
def State.select (c : Option Nat) (s : State) : State := { s with selChip := c }

/-- `vport <- v` (45_spi_relay.md R283). -/
def State.withVport (v : Half) (s : State) : State := { s with vport := v }

/-- `E <- 0`. -/
def State.enableLow (s : State) : State := { s with e := false }

/-- HOST is suspended at a yield, or goes on (43_bitbang_sequencer.md R236). -/
def State.suspend (b : Bool) (s : State) : State := { s with suspended := b }

/-- The sequencer position in the sweep (10_state.md R23). -/
def State.atPosition (pg ch col : Nat) (phase : Phase) (s : State) : State :=
  { s with pg := pg, ch := ch, col := col, phase := phase }

/-- The bytes of a block, read from the framebuffer. -/
def State.withBlk (l : List Byte) (s : State) : State := { s with blk := l }

/-- `inited <- true` (42_write_protocol.md R214). -/
def State.initialised (s : State) : State := { s with inited := true }

/-- A byte of the framebuffer written during a frame (20_memory.md R101). -/
def State.fbWrote (off : Nat) (b : Byte) (s : State) : State := { s with fbMods := s.fbMods ++ [(off, b)] }

/-- A word appended to a queue under the next number (44_fifo_offload.md R264, R265). -/
def State.queueCtl (w : Nibble) (s : State) : State :=
  { s with ctlQ := s.ctlQ ++ [(s.enqCount, w)], enqCount := s.enqCount + 1 }

def State.queueData (b : Byte) (s : State) : State :=
  { s with dataQ := s.dataQ ++ [(s.enqCount, b)], enqCount := s.enqCount + 1 }

/-- A status byte from LCD_ENV (10_state.md R46). -/
def drawStatus (s : State) : Byte × State :=
  match s.env.status with
  | b :: bs => (b, { s with env := { s.env with status := bs } })
  | [] => (Config.freeStatus s.draws, s.drew)

/-- A GPIO byte from EXP_ENV (R51). -/
def drawPin (s : State) : Byte × State :=
  match s.env.pins with
  | b :: bs => (b, { s with env := { s.env with pins := bs } })
  | [] => (Config.freePins s.draws, s.drew)

/-- `n` GPIO bytes. -/
def drawPins : Nat → State → List Byte × State
  | 0, s => ([], s)
  | n + 1, s =>
    let r := drawPin s
    let q := drawPins n r.2
    (r.1 :: q.1, q.2)

/-- What undriven ctl_lines hold (44_fifo_offload.md R263). -/
def drawCtl (s : State) : Nibble × State :=
  match s.env.ctl with
  | w :: ws => (w, { s with env := { s.env with ctl := ws } })
  | [] => (Config.freeCtl s.draws, s.drew)

/-- Old (false) or new (true) (93_implementation_defined.md U15, U16). -/
def drawCoin (s : State) : Bool × State :=
  match s.env.coins with
  | b :: bs => (b, { s with env := { s.env with coins := bs } })
  | [] => (Config.freeCoin s.draws, s.drew)

/-- Whether the coming frame fails (46_expander_ops.md R303); with none supplied it does not (log 5). -/
def drawFail (s : State) : Bool × State :=
  match s.env.frameFails with
  | b :: bs => (b, { s with env := { s.env with frameFails := bs } })
  | [] => (false, s)

/-! ## Errors and dispatch: the block's exceptions -/

/-- The numeric code of an error (60_exceptions.md R361, 92_eei_decisions.md D38); a callback's own error is no error of the
block's. -/
def Fault.code : Fault → Option Nat
  | .invalidPin _ => some 1
  | .busError _ _ => some 2
  | .badGeometry _ _ => some 3
  | .badBufferLength _ => some 4
  | .badIndex _ _ _ => some 5
  | .badArgument _ => some 6
  | .refused _ => some 7
  | .callback _ => none

/-- An error is taken (60_exceptions.md R360, R363): HOST's run ends with it, what it did so far stays, the bus is free. -/
def raise (e : Fault) (s : State) : State :=
  { s with err := some e, op := none, work := [], inTxn := false, openFrame := none, suspended := false, disp := .idle }

/-! ## Expander instances -/

def State.exp (s : State) : ExpId → Expander
  | .gpio => s.gpio
  | .relay => s.relay

def State.setExp (s : State) (x : ExpId) (e : Expander) : State :=
  match x with
  | .gpio => { s with gpio := e }
  | .relay => { s with relay := e }

/-- The device address of an instance (46_expander_ops.md R300). -/
def State.addrOf (s : State) (x : ExpId) : Nat := (s.cfg.exp x).addr.toNat

/-- `CMD_W` and `CMD_R` of an instance. -/
def State.cmdW (s : State) (x : ExpId) : Byte := Machine.cmdW (s.addrOf x)
def State.cmdR (s : State) (x : ExpId) : Byte := Machine.cmdR (s.addrOf x)

/-- The instance at a device address (log 25). -/
def State.expAt (s : State) (addr : BitVec 3) : Option ExpId :=
  if s.addrOf .gpio = addr.toNat then some .gpio
  else if s.addrOf .relay = addr.toNat then some .relay
  else none

/-- Sequential mode of an instance, from its IOCON shadow (R304). -/
def State.seq (s : State) (x : ExpId) : Bool := seqOn (s.cfg.exp x).seqTest (s.exp x).sh.iocon

/-- A shadow register of an instance written. `vport` stays: it is the value of the last `write_gpio`, which `output`,
`output_pins` and `reg_write` are not (DESIGN CHOICE, log 27). -/
def State.setShadow (s : State) (x : ExpId) (k : ShKind) (p : Port) (v : Byte) : State :=
  s.setExp x { s.exp x with sh := (s.exp x).sh.set k p v }

/-- The registers of the chips at a device address are at their power-on values (70_reset_and_hazards.md R393): of the chip no instance
uses, and of an instance's (log 25). -/
def State.powerOnAt (addr : Nat) (s : State) : Bool :=
  (s.idleDevs.getD addr []).isEmpty && (s.addrOf .gpio != addr || s.gpio.dev.isEmpty)
    && (s.addrOf .relay != addr || s.relay.dev.isEmpty)

/-- The chips no instance uses once instance `x` is built at `addr`: its old chip, at another device address (30_encoding.md R131), is
left as it is (log 43). -/
def State.leaveChip (x : ExpId) (addr : Nat) (s : State) : List Mem :=
  if s.addrOf x = addr then s.idleDevs else s.idleDevs.set (s.addrOf x) (s.exp x).dev

/-- What an expander register not written since power-on reads as (R393); an address R29 does not name has no value. -/
def devDefault (a : Nat) : Option Byte :=
  if a < 2 then some 0xFF#8 else if namedRegister a then some 0#8 else none

/-- `dev.reg[a]` (00_scope.md R11). -/
def Expander.devRead (e : Expander) (a : Nat) : Option Byte := Mem.read devDefault e.dev a

/-- The chip registers a byte written to one reaches: the one addressed and, for GPIO, OLAT (10_state.md R50). -/
def storeAddrs (a : Nat) : List Nat := if a = 0x12 ∨ a = 0x13 then [a, a + 2] else [a]

/-- One register of a chip written. -/
def devPut (m : Mem) (a : Nat) (v : Byte) : Mem := (storeAddrs a).foldl (fun m k => Mem.write devDefault m k v) m

/-- Successive registers of a chip written, from `a` on; the flag beside a byte says whether it landed. -/
def devStore : Mem → Nat → List (Byte × Bool) → Mem
  | m, _, [] => m
  | m, a, (v, landed) :: vs => devStore (if landed then devPut m a v else m) (a + 1) vs

/-! ## The LCD target -/

/-- The display-RAM address of (chip, page, column) (log 33). -/
def dramAddr (c : Nat) (x : BitVec 3) (y : BitVec 6) : Nat := c * 512 + x.toNat * 64 + y.toNat

/-- No byte of display RAM has a known value unlisted: an address not listed reads as its chip's free value (log 9). -/
def dramDefault (_ : Nat) : Option Byte := none

/-- The registers of LCD chip `c`. -/
def State.chip (s : State) (c : Nat) : LcdChip := s.lcd.getD c (LcdChip.free c)

/-- The byte of display RAM at an address: what was written there, or a free value of its chip (92_eei_decisions.md D48, log
9). -/
def State.dramAt (s : State) (a : Nat) : Byte :=
  (Mem.read dramDefault s.dram a).getD (Config.freeDram (s.chip (a / 512)).ram a)

/-- `DRAM[c][page][col]` (R11). -/
def State.dramRead (s : State) (c page col : Nat) : Byte := s.dramAt (c * 512 + page * 64 + col)

def State.setChip (s : State) (c : Nat) (k : LcdChip) : State := { s with lcd := s.lcd.set c k }

/-- The response of chip `c` to an LCD word (41_lcd_commands.md R181 to R187). -/
def lcdRespond (c : Nat) (cmd : LcdCmd) (s : State) : State :=
  match cmd with
  | .on => s.setChip c { s.chip c with on := true }
  | .off => s.setChip c { s.chip c with on := false }
  | .startLine => s.setChip c { s.chip c with z := 0#6 }
  | .page p => s.setChip c { s.chip c with x := p }
  | .column => s.setChip c { s.chip c with y := 0#6 }
  | .data b =>
    let k := s.chip c
    { s.setChip c { k with y := k.y + 1#6 } with dram := Mem.write dramDefault s.dram (dramAddr c k.x k.y) b }
  | .status _ => s

/-- One LCD cycle on the chips selected (R46, R188). -/
def lcdCycle (chips : List Nat) (rs rw : Bool) (d : Byte) (s : State) : Except Refusal State :=
  match chips with
  | [c] =>
    match lcdDecode rs rw d with
    | .ok cmd => .ok (lcdRespond c cmd s)
    | .error r => .error (.lcdWord r)
  | _ => .error .notOneChip

/-- The pins of the relay's chip, from its OLAT registers (10_state.md R47). -/
def State.relayPins (s : State) : Half :=
  cat16 ((s.relay.devRead 0x15).getD 0#8) ((s.relay.devRead 0x14).getD 0#8)

/-- The electrical levels of the relay's pins (45_spi_relay.md R283). -/
def State.relayPinLevel (s : State) (i : Nat) : Bool :=
  vpLevel s.cfg.params.vportMap s.cfg.chips s.cfg.params.csActive s.relayPins i

/-- The control word the LCD sees from the offload lines: what they hold, or a draw before the first word drained
(44_fifo_offload.md R263). -/
def ctlSeen (s : State) : Nibble × State := if s.ctlDriven then (s.ctlLines, s) else drawCtl s

/-- The chips selected by what carries an LCD word on the active transport (30_encoding.md R120): the CS lines, the CS bits of
ctl_lines, with the draw that may take, or those of the virtual port, which reach the pins with the next write of it
(45_spi_relay.md R281). DEDUCED (log 11). -/
def selectedChips (s : State) : List Nat × State :=
  match s.cfg.transport with
  | .direct | .coop => (chipsWhere s.cfg.chips (fun k => s.cs.getD k false), s)
  | .offload => (chipsWhere s.cfg.chips (ctlChip s.cfg.params.ctlMap (ctlSeen s).1), (ctlSeen s).2)
  | .spiRelay =>
    (chipsWhere s.cfg.chips (fun k => s.vport.getLsbD (s.cfg.params.vportMap.cs.getD k 16)), s)

/-- The relay's pins changed from `old`: the LCD latches at a falling edge of E, with the levels the pins then have (R47, D26,
70_reset_and_hazards.md R405; log 26). Only under SPI_RELAY is the LCD wired to them (log 11). -/
def relayLatch (old : Half) (s : State) : Except Refusal State :=
  let m := s.cfg.params.vportMap
  let v := s.relayPins
  if s.cfg.transport = .spiRelay ∧ old.getLsbD m.e = true ∧ v.getLsbD m.e = false then
    lcdCycle (chipsWhere s.cfg.chips (fun k => v.getLsbD (m.cs.getD k 16))) (v.getLsbD m.rs) (v.getLsbD m.rw) (vpData m v) s
  else .ok s

/-! ## The bit-bang lines -/

/-- Drive the select lines to `c` alone (40_addressing.md R166, 43_bitbang_sequencer.md R233); held logically, log 19. -/
def driveCs (c : Nat) (s : State) : State := { s with cs := csPattern s.cfg.chips c }

/-- The electrical level of a select line (R166): CS_ACTIVE where asserted. -/
def State.csLevel (s : State) (c : Nat) : Bool :=
  if s.cs.getD c false then s.cfg.params.csActive else !s.cfg.params.csActive

/-- SET_READ_DIR (R233). -/
def setReadDir (s : State) : State := { s with ddir := .input, busDir := .read, rs := false, rw := true, e := false }

/-- SET_WRITE_DIR (R235). -/
def setWriteDir (rs : Bool) (b : Byte) (s : State) : State :=
  { s with rw := false, ddir := .output, busDir := .write, rs := rs, d := b, e := false }

/-- STROBE (R237): E pulses, and the selected chip latches RS, RW and D; the trace records the write. -/
def strobeLines (s : State) : Except Refusal State :=
  let chips := chipsWhere s.cfg.chips (fun k => s.cs.getD k false)
  match lcdCycle chips s.rs s.rw s.d s with
  | .ok s' => .ok (s'.enableLow.event (.lcd (chips.headD 0) s.rs s.d))
  | .error r => .error r

/-! ## Serial frames -/

/-- A frame cannot begin while another's command byte stands alone on the bus; the frame whose command byte that is can
(20_memory.md R82, log 13). -/
def frameMayBegin (cmd : Byte) (s : State) : Bool :=
  match s.openFrame with
  | none => true
  | some c => c == cmd

/-- `n` old-or-new draws. -/
def drawCoins : Nat → State → List Bool × State
  | 0, s => ([], s)
  | n + 1, s =>
    let r := drawCoin s
    let q := drawCoins n r.2
    (r.1 :: q.1, q.2)

/-- Bytes landing in the registers of an instance's chip, the LCD behind a relay seeing its pins change. -/
def devLand (x : ExpId) (reg : Byte) (vs : List (Byte × Bool)) (s : State) : Except Refusal State :=
  let s' := s.setExp x { s.exp x with dev := devStore (s.exp x).dev reg.toNat vs }
  match x with
  | .gpio => .ok s'
  | .relay => relayLatch s.relayPins s'

/-- A write frame (46_expander_ops.md R302, R303). If it fails, each register it addresses holds old or new by a draw, and
BusError is raised (60_exceptions.md R363). -/
def frameWrite (x : ExpId) (cmd reg : Byte) (data : List Byte) (s : State) : MRes :=
  if frameMayBegin cmd s then
    let f := drawFail s.closeFrame
    if f.1 then
      let c := drawCoins data.length f.2
      match devLand x reg (data.zip c.1) c.2 with
      | .ok s' => .raise (.busError cmd reg) (s'.event (.frameFailed cmd reg))
      | .error r => .refuse r
    else
      match devLand x reg (data.map (fun b => (b, true))) f.2 with
      | .ok s' => .next (s'.event (.frameW cmd reg data))
      | .error r => .refuse r
  else .refuse .frameOverlap

/-- A read frame whose `n` bytes are drawn (R303, R313), or are given by the word (log 12); they are kept in `rx`. -/
def frameRead (x : ExpId) (cmd reg : Byte) (given : Option (List Byte)) (n : Nat) (s : State) : MRes :=
  if frameMayBegin cmd s then
    let f := drawFail s.closeFrame
    if f.1 then .raise (.busError cmd reg) (f.2.event (.frameFailed cmd reg))
    else
      let d := match given with
        | some l => (l, f.2)
        | none => drawPins n f.2
      .next ((d.2.setExp x { d.2.exp x with rx := (d.2.exp x).rx ++ d.1 }).event (.frameR cmd reg d.1))
  else .refuse .frameOverlap

/-! ## The framebuffer in use -/

/-- The bytes written to an offset during the frame, in order (20_memory.md R101). -/
def modsOf (mods : List (Nat × Byte)) (off : Nat) : List Byte := (mods.filter (fun m => m.1 == off)).map (·.2)

/-- One of a byte and the later ones of its offset, by a draw for each: each modification reads as old or new (R101). -/
def fbPick (old : Byte) : List Byte → State → Byte × State
  | [], s => (old, s)
  | new :: news, s =>
    let r := drawCoin s
    fbPick (if r.1 then new else old) news r.2

/-- `MemRead(fb, off, 1)` (00_scope.md R11): a byte written during the frame reads as any of its values (R101, log 18). -/
def fbRead (off : Nat) (s : State) : Byte × State := fbPick (s.fb.getD off 0#8) (modsOf s.fbMods off) s

/-- The bytes at successive offsets (42_write_protocol.md R212). -/
def fbReads : List Nat → State → List Byte × State
  | [], s => ([], s)
  | o :: os, s =>
    let r := fbRead o s
    let q := fbReads os r.2
    (r.1 :: q.1, q.2)

/-- The byte a source names. -/
def Src.value (src : Src) (s : State) : Byte :=
  match src with
  | .imm b => b
  | .blk k => s.blk.getD k 0#8

/-! ## Operations in progress -/

/-- An operation begins: `op` names it, but stays DISPATCH inside a dispatch (47_expander_interrupts.md R343). -/
def beginOp (o : Op) (s : State) : State :=
  match s.disp with
  | .idle => { s with op := some o }
  | .betweenOps | .atYield => s

/-- An operation returns a value. -/
def endOp (v : RetVal) (s : State) : State :=
  match s.disp with
  | .idle => { s with ret := v, op := none }
  | .betweenOps | .atYield => { s with ret := v }

/-- A returned value, evaluated when the operation ends (46_expander_ops.md R308, R310, R313). -/
def RetSpec.value (r : RetSpec) (s : State) : RetVal :=
  match r with
  | .unit => .unit
  | .snapBit x n => .bit ((s.exp x).snap.getLsbD n)
  | .snapBits x ns => .bits (ns.map (fun n => (s.exp x).snap.getLsbD n))
  | .snap x => .half (s.exp x).snap
  | .rx x => .bytes (s.exp x).rx

/-- Whether HOST may start a dispatch for an instance now (R343). -/
def dispatchEnabled (x : ExpId) (s : State) : Bool :=
  !(s.exp x).pending.isEmpty && !s.inTxn && s.disp == .idle && (s.suspended || (s.op == none && s.work.isEmpty))

/-- Entering a dispatch (R343, 60_exceptions.md R371): a token is popped, nothing else of the point left is touched. -/
def enterDispatch (x : ExpId) (s : State) : State :=
  let s' := s.setExp x { s.exp x with pending := (s.exp x).pending.tail }
  { s' with op := some .dispatch, disp := if s.suspended then .atYield else .betweenOps, suspended := false }

/-- Returning from a dispatch to where it was entered (R372). -/
def returnDispatch (resume : Option Op) (s : State) : State :=
  { s with op := resume, disp := .idle, suspended := s.disp == .atYield }

/-- The edge signal (R342): a token, unless the queue is full. -/
def signalEdge (x : ExpId) (s : State) : State :=
  if (s.exp x).pending.length < (s.cfg.exp x).irqQueueDepth then
    s.setExp x { s.exp x with pending := (s.exp x).pending ++ [.edge] }
  else s

/-! ## The offload lines -/

/-- A control word drains onto ctl_lines (44_fifo_offload.md R262). -/
def drainCtl (w : Nibble) (s : State) : State :=
  { s with ctlLines := w, ctlDriven := true }.event (.dCtl w)

/-- A byte onto data_lines, and a pulse of the strobe (R263). -/
def driveData (b : Byte) (s : State) : State := { s with dataLines := b, strobe := false }.event (.dData b)

/-- A data word drains (R263): data_lines, a pulse of the strobe, and, the LCD being wired to these lines under OFFLOAD (R47, log
11), the LCD cycle on the chips ctl_lines select. Under drawn ctl_lines it is a write whatever their RW (90_conflicts.md C13, log 38). -/
def drainData (b : Byte) (s : State) : Except Refusal State :=
  let s1 := driveData b s
  match s.cfg.transport with
  | .offload =>
    let w := ctlSeen s1
    let m := s.cfg.params.ctlMap
    lcdCycle (chipsWhere s.cfg.chips (ctlChip m w.1)) (w.1.getLsbD m.rs) (s.ctlDriven && w.1.getLsbD m.rw) b w.2
  | .direct | .coop | .spiRelay => .ok s1

/-- An LCD write word on the offload lines (30_encoding.md R120): RS, RW = 0 (R269) and the CS bits of the chip selected on ctl_lines
(R135), the byte on data_lines with a pulse of the strobe (R136), and that chip acts (log 11). -/
def offloadWord (rs : Bool) (d : Byte) (s : State) : Except Refusal State :=
  let r := selectedChips s
  lcdCycle r.1 rs false d (driveData d (drainCtl (ctlWord s.cfg.params.ctlMap (r.1.headD 0) rs false) r.2))

/-! ## Outcomes -/

/-- The outcome of an operation on the targets. -/
def ofExcept (r : Except Refusal State) : Out :=
  match r with
  | .ok s => .next s
  | .error e => .refused e

/-- The answer of a primitive step that acts on the targets. -/
def MRes.ofExcept (r : Except Refusal State) : MRes :=
  match r with
  | .ok s => .next s
  | .error e => .refuse e

/-- The next state of an outcome, if it has one. -/
def next? : Out → Option State
  | .next s => some s
  | .fault _ => none
  | .refused _ => none

end Sys2Proof.Machine
end

