-- ==== Sys2Proof/Machine/Micro.lean ====
section
/-! DEFINITION. The primitive steps of HOST's operations, running them, and their sequences: the ready-polling FSM, the relay's
virtual-port writes, register writes, `write_gpio`, `read_gpio`, the groups and the sweep. -/

namespace Sys2Proof.Machine

/-- `select_chip(c)` (40_addressing.md R166). -/
def selectChipStep (c : Nat) (s : State) : MRes :=
  if c < s.cfg.chips then
    match s.cfg.transport with
    | .direct | .coop => .next (driveCs c (s.select (some c)))
    | .offload => .next (s.select (some c))
    | .spiRelay => .next ((s.select (some c)).withVport (vpSelect s.cfg.params.vportMap s.cfg.chips s.vport c))
  else .raise (.badIndex none (some c) none) s

/-- One status cycle and its test (43_bitbang_sequencer.md R234, R236): on a byte that is not ready the poll is to be made again,
under COOP after a suspension. -/
def pollStep (s : State) : MRes :=
  let r := drawStatus ((s.inFsm .pollBusy).suspend false)
  let s' := r.2.enableLow.event (.status (s.selChip.getD 0) r.1)
  if ready r.1 then .next s' else .hold (s'.suspend (s.cfg.transport == .coop))

/-- `Enqueue` on the control queue (44_fifo_offload.md R264, R265): it holds while the queue is full. -/
def enqueueCtl (w : Nibble) (s : State) : MRes :=
  if s.ctlQ.length < s.cfg.params.offloadFifoDepth then
    .next ((s.queueCtl w).event (.qCtl w))
  else .hold s

/-- `Enqueue` on the data queue. -/
def enqueueData (b : Byte) (s : State) : MRes :=
  if s.dataQ.length < s.cfg.params.offloadFifoDepth then
    .next ((s.queueData b).event (.qData b))
  else .hold s

/-- The value of a virtual-port write (45_spi_relay.md R282): `vp` of the selected chip, if there is one. -/
def VSrc.value (v : VSrc) (s : State) : Option Half :=
  match v with
  | .lit v => some v
  | .byte rs src e => s.selChip.map fun c => vp s.cfg.params.vportMap e false rs c (src.value s)

/-- The start of `write_gpio(v)` (46_expander_ops.md R312); on the relay's instance v is then the virtual port (10_state.md
R28). -/
def olatBegin (x : ExpId) (v : Half) (s : State) : State :=
  let e := s.exp x
  let s' := s.setExp x { e with sh := { e.sh with olat := { a := lowByte v, b := highByte v } } }
  match x with
  | .gpio => s'.txn true
  | .relay => (s'.txn true).withVport v

/-- `transport_setup` of DIRECT and COOP (43_bitbang_sequencer.md R240). -/
def bitBangSetup (s : State) : State :=
  { s with e := false, rw := false, rs := false, cs := List.replicate s.cfg.chips false, d := 0#8, ddir := .output,
           busDir := .write, selChip := none }

/-- The changed pins still to be reported: the subscribers, as they now are, of the first that has any are called, the pins after
it being left for then (47_expander_interrupts.md R344, log 39). -/
def reportPins (x : ExpId) (pins : List (Nat × Bool)) (s : State) : MRes :=
  match firstCalls (s.exp x).subs pins with
  | none => .next s
  | some (calls, later) => .push (calls ++ [.dispatchPins x later]) s

/-- What a callback does when called with a value (R345, log 17). -/
def State.callbackBody (s : State) (cb : Nat) (value : Bool) : List CbAct :=
  match s.callbacks.find? (fun c => c.1 == cb) with
  | none => []
  | some c => if value then c.2.high else c.2.low

/-- One action of a callback as a primitive step. -/
def CbAct.step : CbAct → Micro
  | .call it => .nested it
  | .raise code => .callbackRaise code
  | .fbWrite off b => .fbStore off b

/-- One primitive step. -/
def micro (m : Micro) (s : State) : MRes :=
  match m with
  | .selectChip c => selectChipStep c s
  | .groupSelect c => if s.selChip = some c then .next s else selectChipStep c s
  | .fsmSelect =>
    match s.selChip with
    | some c => .next (driveCs c (s.inFsm .selectChip))
    | none => .refuse .notOneChip
  | .fsmReadDir => .next (setReadDir (s.inFsm .setReadDir))
  | .fsmPoll => pollStep s
  | .fsmWriteDir rs src => .next (setWriteDir rs (src.value s) (s.inFsm .setWriteDir))
  | .fsmStrobe => .ofExcept (strobeLines (s.inFsm .strobe))
  | .fsmIdle => .next (s.inFsm .idle)
  | .enqCtl w => enqueueCtl w s
  | .enqData src => enqueueData (src.value s) s
  | .vportBegin v =>
    match v.value s with
    | some w => .next (olatBegin .relay w (s.event (.vport w)))
    | none => .refuse .notOneChip
  | .olatBegin x v => .next (olatBegin x v s)
  | .olatFrameA x =>
    let f := (s.exp x).sh
    if s.seq x then frameWrite x (s.cmdW x) (regAddr .olat .a) [f.olat.a, f.olat.b] s
    else frameWrite x (s.cmdW x) (regAddr .olat .a) [f.olat.a] s
  | .olatFrameB x =>
    if s.seq x then .next s else frameWrite x (s.cmdW x) (regAddr .olat .b) [(s.exp x).sh.olat.b] s
  | .txnBegin => .next (s.txn true)
  | .txnEnd => .next (s.txn false)
  | .shadowBit x k p i v => .next (s.setShadow x k p (setBit ((s.exp x).sh.get k p) i v))
  | .shadowSet x k p v => .next (s.setShadow x k p v)
  | .regFrame x k p => frameWrite x (s.cmdW x) (regAddr k p) [(s.exp x).sh.get k p] s
  | .gpioFrameA x =>
    let s' := s.setExp x { s.exp x with rx := [] }
    if s.seq x then frameRead x (s.cmdR x) gpioAddrA none 2 s' else frameRead x (s.cmdR x) gpioAddrA none 1 s'
  | .gpioFrameB x => if s.seq x then .next s else frameRead x (s.cmdR x) gpioAddrB none 1 s
  | .gpioEnd x =>
    let e := s.exp x
    .next ((s.setExp x { e with snap := cat16 (e.rx.getD 1 0#8) (e.rx.getD 0 0#8) }).txn false)
  | .wordWrite x cmd reg data => frameWrite x cmd reg data s
  | .wordRead x cmd reg data =>
    frameRead x cmd reg (some data) data.length (s.setExp x { s.exp x with rx := [] })
  | .position pg ch col phase => .next (s.atPosition pg ch col phase)
  | .loadBlock pg ch =>
    let r := fbReads ((List.range 64).map (s.cfg.offset pg ch)) s
    .next (r.2.withBlk r.1)
  | .bitBangSetup => .next (bitBangSetup s)
  | .selectNone => .next (s.select none)
  | .setInited => .next s.initialised
  | .ret r => .next (endOp (r.value s) s)
  | .dispatchScan x prev => reportPins x (changedPins prev (s.exp x).snap) s
  | .dispatchPins x pins => reportPins x pins s
  | .dispatchEnd resume => .next (returnDispatch resume s)
  | .callback pin value cb =>
    .push ((s.callbackBody cb value).map CbAct.step) (s.event (.cb pin value cb))
  | .nested _ => .hold s
  | .callbackRaise code => .raise (.callback code) s
  | .fbStore off b => .next (s.fbWrote off b)

/-- HOST has made the primitive steps its move allowed (log 3). -/
def State.sliceOver (s : State) : Bool := s.slice == some 0

/-- One primitive step of HOST's move counted. -/
def State.tick (s : State) : State := { s with slice := s.slice.map (· - 1) }

/-- Steps left to be made, before what stood in `work` (log 3). -/
def State.leave (ms : List Micro) (s : State) : State := { s with work := ms ++ s.work }

/-- Primitive steps made one after another, until they are done, one of them holds, the move is over, or an error or a refusal
ends them. What is left stands in `work`. -/
def run : List Micro → State → Out
  | [], s => .next s
  | m :: ms, s =>
    if s.sliceOver then .next (s.leave (m :: ms))
    else
      match micro m s.tick with
      | .next s' => run ms s'
      | .hold s' => .next (s'.leave (m :: ms))
      | .push [] s' => run ms s'
      | .push (t :: ts) s' => .next (s'.leave (t :: ts ++ ms))
      | .raise e s' => .next (raise e s')
      | .refuse r => .refused r

/-! ## Sequences of primitive steps -/

/-- `LcdWrite(rs, b)` on DIRECT and COOP (43_bitbang_sequencer.md R232). -/
def fsmSteps (rs : Bool) (src : Src) : List Micro :=
  [.fsmSelect, .fsmReadDir, .fsmPoll, .fsmWriteDir rs src, .fsmStrobe, .fsmIdle]

/-- `VPortWrite(v)` (45_spi_relay.md R283). -/
def vportSteps (v : VSrc) : List Micro := [.vportBegin v, .olatFrameA .relay, .olatFrameB .relay, .txnEnd]

/-- The virtual-port writes that pulse E (R282), `v e` the value with E at `e`; `Delay` has no effect (00_scope.md R12). -/
def strobeSteps (st : VportStrobe) (v : Bool → VSrc) : List Micro :=
  match st with
  | .threeWrite => vportSteps (v false) ++ vportSteps (v true) ++ vportSteps (v false)
  | .twoWrite => vportSteps (v true) ++ vportSteps (v false)

/-- `relay_byte(rs, b)` (R282). -/
def relaySteps (st : VportStrobe) (rs : Bool) (src : Src) : List Micro := strobeSteps st (.byte rs src)

/-- One byte of a group on the active transport (42_write_protocol.md R217, R218). -/
def byteSteps (c : Cfg) (rs : Bool) (src : Src) : List Micro :=
  match c.transport with
  | .direct | .coop => fsmSteps rs src
  | .offload => [.enqData src]
  | .spiRelay => relaySteps c.params.vportStrobe rs src

/-- The head of a group: the select if needed, and on OFFLOAD the control word, always (R217, R261). -/
def groupHead (c : Cfg) (chip : Nat) (rs : Bool) : List Micro :=
  match c.transport with
  | .direct | .coop | .spiRelay => [.groupSelect chip]
  | .offload => [.groupSelect chip, .enqCtl (ctlWord c.params.ctlMap chip rs false)]

/-- The control word a data word would be latched under, were the queues drained: the last one queued, or else the one driven
(44_fifo_offload.md R262). -/
def State.standingCtl (s : State) : Option Nibble :=
  match s.ctlQ.getLast? with
  | some w => some w.2
  | none => if s.ctlDriven then some s.ctlLines else none

/-- The control word before a single data word, unless it stands already (00_scope.md R12, 44_fifo_offload.md R261; DEDUCED, log 23). -/
def ctlSteps (w : Nibble) (s : State) : List Micro := if s.standingCtl = some w then [] else [.enqCtl w]

/-- `cmd_group` (rs = 0) and `data_group` (rs = 1) (R217, R218). -/
def groupSteps (c : Cfg) (chip : Nat) (rs : Bool) (bs : List Byte) : List Micro :=
  groupHead c chip rs ++ bs.flatMap (fun b => byteSteps c rs (.imm b))

/-- The 64 data bytes of a block, in increasing column order (R210, R212). -/
def dataSteps (c : Cfg) (pg ch : Nat) : List Micro :=
  (List.range 64).flatMap fun col => .position pg ch col .data :: byteSteps c true (.blk col)

/-- One block of the sweep (R210, R212), with the sequencer position of 10_state.md R23. -/
def blockSteps (c : Cfg) (pg ch : Nat) : List Micro :=
  [.position pg ch 0 .cmdPage, .selectChip ch] ++ groupHead c ch false
    ++ byteSteps c false (.imm (setPageByte pg)) ++ [.position pg ch 0 .cmdCol]
    ++ byteSteps c false (.imm 0x40#8) ++ [.position pg ch 0 .data, .loadBlock pg ch] ++ groupHead c ch true
    ++ dataSteps c pg ch ++ [.position pg ch 64 .data]

/-- The blocks of the sweep in order: pages outermost (R212). -/
def blocks (c : Cfg) : List (Nat × Nat) :=
  (List.range c.pages).flatMap fun pg => (List.range c.chips).map fun ch => (pg, ch)

/-- The sweep (R212). -/
def sweepSteps (c : Cfg) : List Micro := (blocks c).flatMap fun b => blockSteps c b.1 b.2

/-- `write_reg(kind, p)` (46_expander_ops.md R302). -/
def writeRegSteps (x : ExpId) (k : ShKind) (p : Port) : List Micro := [.txnBegin, .regFrame x k p, .txnEnd]

/-- `reg_write(kind, p, v)` after its checks (R315). -/
def regWriteSteps (x : ExpId) (k : ShKind) (p : Port) (v : Byte) : List Micro :=
  .shadowSet x k p v :: writeRegSteps x k p

/-- `write_gpio(v)` after its check (R312). -/
def writeGpioSteps (x : ExpId) (v : Half) : List Micro := [.olatBegin x v, .olatFrameA x, .olatFrameB x, .txnEnd]

/-- `read_gpio()` (R313). -/
def readGpioSteps (x : ExpId) : List Micro := [.txnBegin, .gpioFrameA x, .gpioFrameB x, .gpioEnd x]

/-- A refresh, if asked for (R308, R310). -/
def refreshSteps (x : ExpId) (refresh : Bool) : List Micro := if refresh then readGpioSteps x else []

/-- `transport_setup()` (43_bitbang_sequencer.md R240, 44_fifo_offload.md R267, 45_spi_relay.md R286). On OFFLOAD it leaves words
already queued, and the consumers run before it too (DESIGN CHOICE, log 40). -/
def setupSteps : Transport → List Micro
  | .direct | .coop => [.bitBangSetup]
  | .offload => [.selectNone]
  | .spiRelay =>
    regWriteSteps .relay .iocon .a 0#8 ++ regWriteSteps .relay .dir .a 0#8 ++ regWriteSteps .relay .dir .b 0#8
      ++ writeGpioSteps .relay 0#16 ++ [.selectNone]

/-- `init()` (42_write_protocol.md R214). -/
def initSteps (c : Cfg) : List Micro :=
  setupSteps c.transport
    ++ (List.range c.chips).flatMap (fun ch => .selectChip ch :: groupSteps c ch false [0x3F#8, 0xC0#8])
    ++ [.setInited, .ret .unit]

end Sys2Proof.Machine
end

