-- ==== Sys2Proof/Machine/ExpanderOps.lean ====
section
/-! DEFINITION. The meanings of the expander operations (46_expander_ops.md). Arguments are checked before any effect (R301,
60_exceptions.md R365, R368). -/

namespace Sys2Proof.Machine

/-- A pin is checked (R301): InvalidPin at the call site, with no other effect. -/
def withPin (n : Int) (s : State) (k : Nat → Out) : Out :=
  if validPin n then k n.toNat else .next (raise (.invalidPin n) s)

/-- Every pin of a batch is checked first; the first bad one is reported (R301, 60_exceptions.md R362). -/
def withPins (ns : List Int) (s : State) (k : Out) : Out :=
  match firstBadPin ns with
  | none => k
  | some n => .next (raise (.invalidPin n) s)

/-- A kind the block shadows, or Refused (R315, R316, R319). -/
def withShadow (k : Kind) (s : State) (f : ShKind → Out) : Out :=
  match k.shadow with
  | some sk => f sk
  | none => .next (raise (.refused (.kind k)) s)

/-- setup (R305). -/
def execSetup (x : ExpId) (pin : Int) (d : Direction) (flags : List SetupFlag) (s : State) : Out :=
  withPin pin s fun n =>
    if setupArgsOk d flags then
      run
        (.shadowBit x .dir (portOf n) (bitOf n) (d == .input) :: writeRegSteps x .dir (portOf n)
          ++ .shadowBit x .ipol (portOf n) (bitOf n) (flags.contains .invert) :: writeRegSteps x .ipol (portOf n)
          ++ .shadowBit x .gppu (portOf n) (bitOf n) (flags.contains .pullUp) :: writeRegSteps x .gppu (portOf n)
          ++ [.ret .unit])
        (beginOp .setup s)
    else .next (raise (.badArgument (.direction d flags)) s)

/-- output (R307); a nonzero level is 1. -/
def execOutput (x : ExpId) (pin level : Int) (s : State) : Out :=
  withPin pin s fun n =>
    run (.shadowBit x .olat (portOf n) (bitOf n) (level != 0) :: writeRegSteps x .olat (portOf n) ++ [.ret .unit])
      (beginOp .output s)

/-- input (R308). -/
def execInput (x : ExpId) (pin : Int) (refresh : Bool) (s : State) : Out :=
  withPin pin s fun n => run (refreshSteps x refresh ++ [.ret (.snapBit x n)]) (beginOp .input s)

/-- The latch updates of `output_pins`, in the mapping's order (R309). -/
def latchSteps (x : ExpId) (m : List (Int × Int)) : List Micro :=
  m.map fun nl => .shadowBit x .olat (portOf nl.1.toNat) (bitOf nl.1.toNat) (nl.2 != 0)

/-- output_pins (R309): one OLAT frame per port touched, A then B. -/
def execOutputPins (x : ExpId) (m : List (Int × Int)) (s : State) : Out :=
  withPins (m.map (·.1)) s
    (run
      (latchSteps x m
        ++ (if m.any (fun nl => nl.1 < 8) then writeRegSteps x .olat .a else [])
        ++ (if m.any (fun nl => 8 ≤ nl.1) then writeRegSteps x .olat .b else [])
        ++ [.ret .unit])
      (beginOp .outputPins s))

/-- input_pins (R310). -/
def execInputPins (x : ExpId) (pins : List Int) (refresh : Bool) (s : State) : Out :=
  withPins pins s
    (run (refreshSteps x refresh ++ [.ret (.snapBits x (pins.map Int.toNat))]) (beginOp .inputPins s))

/-- write_gpio (R312). -/
def execWriteGpio (x : ExpId) (v : Int) (s : State) : Out :=
  if 0 ≤ v ∧ v < 0x10000 then
    run (writeGpioSteps x (BitVec.ofNat 16 v.toNat) ++ [.ret .unit]) (beginOp .writeGpio s)
  else .next (raise (.badArgument (.value v)) s)

/-- read_gpio (R313). -/
def execReadGpio (x : ExpId) (s : State) : Out :=
  run (readGpioSteps x ++ [.ret (.snap x)]) (beginOp .readGpio s)

/-- reg_write (R315): the kind, the value (log 21), IOCON.BANK (R318), in that order. -/
def execRegWrite (x : ExpId) (k : Kind) (p : Port) (v : Int) (s : State) : Out :=
  withShadow k s fun sk =>
    if 0 ≤ v ∧ v < 0x100 then
      if sk = .iocon ∧ (BitVec.ofNat 8 v.toNat).getLsbD 7 = true then .next (raise (.refused .ioconBank) s)
      else run (regWriteSteps x sk p (BitVec.ofNat 8 v.toNat) ++ [.ret .unit]) (beginOp .regWrite s)
    else .next (raise (.badArgument (.value v)) s)

/-- reg_read (R316): the shadow, with no frame. -/
def execRegRead (x : ExpId) (k : Kind) (p : Port) (s : State) : Out :=
  withShadow k s fun sk => .next { s with ret := .byte ((s.exp x).sh.get sk p) }

end Sys2Proof.Machine
end

