-- ==== Sys2Proof/Machine/Facade.lean ====
section
/-! DEFINITION. The meanings of the display facade and of the transport primitives (40_addressing.md, 42_write_protocol.md,
43 to 45). -/

namespace Sys2Proof.Machine

/-- A transport operation called by a callback of a dispatch that was entered inside one is concurrent use
(70_reset_and_hazards.md R406). -/
def ownTransport (s : State) (k : Out) : Out :=
  if s.disp = .atYield then .refused .undefinedConcurrentUse else k

/-- The LCD operations R392 names are refused before `init`. -/
def afterInit (s : State) (k : Out) : Out := if s.inited then k else .refused .beforeInit

/-- An expander instance is built (46_expander_ops.md R300) and `k` goes on: its address is in [0, 8) (92_eei_decisions.md D4), and its
own chip, the one at that address, at its power-on values, or the model refuses (70_reset_and_hazards.md R393, U21). DESIGN CHOICE: in
that order (log 24). -/
def buildInstance (p : ExpParams) (s : State) (k : Out) : Out :=
  if p.addr < 0 ∨ 8 ≤ p.addr then .next (raise (.badArgument (.address p.addr)) s)
  else if s.powerOnAt p.addr.toNat then k
  else .refused .chipNotAtPowerOn

/-- The state after an expander instance alone has been built; the chip it had at another address stays as it is (log 43). -/
def builtInstance (x : ExpId) (p : ExpParams) (s : State) : State :=
  { s.setExp x Expander.reset with
    cfg := s.cfg.setExp x p, idleDevs := s.leaveChip x p.addr.toNat, inTxn := false, openFrame := none, ret := .unit }

/-- The state after the facade has been built (70_reset_and_hazards.md R390, R391): what is the facade's and the transport's takes
its value of R55, and so does the instance a relay transport owns (45_spi_relay.md R280); the caller's instance and what lies
outside the block (the caller's program, the environment, the trace, the LCD chips) stay (log 24). A chip the panel did not have
is any value (log 9). -/
def builtFacade (c : Cfg) (s : State) : State :=
  { State.initial c with
    gpio := s.gpio, relay := if c.transport = .spiRelay then Expander.reset else s.relay,
    idleDevs := if c.transport = .spiRelay then s.leaveChip .relay c.relay.addr.toNat else s.idleDevs,
    lcd := (List.range c.chips).map (fun k => s.lcd.getD k (LcdChip.free (s.draws + k))), dram := s.dram,
    ret := .unit, trace := s.trace, prog := s.prog,
    callbacks := s.callbacks, slice := s.slice, sched := s.sched, env := s.env, draws := s.draws + c.chips }

/-- construct (R160, R300, R390). DESIGN CHOICE: a bad geometry is reported before a bad address of the relay's instance, which is
looked at on SPI_RELAY alone (log 24). -/
def execConstruct (w h : Nat) (t : Transport) (b : Build) (s : State) : Out :=
  if s.op.isSome || !s.work.isEmpty then .refused .constructInOperation
  else
    match b with
    | .facade p r =>
      if !geometryOk w h t p then .next (raise (.badGeometry w h) s)
      else
        match t with
        | .spiRelay =>
          buildInstance r s
            (.next (builtFacade { width := w, height := h, transport := t, params := p, gpio := s.cfg.gpio, relay := r } s))
        | .direct | .coop | .offload =>
          .next
            (builtFacade
              { width := w, height := h, transport := t, params := p, gpio := s.cfg.gpio, relay := s.cfg.relay } s)
    | .expander x p => buildInstance p s (.next (builtInstance x p s))

/-- buffer_offset (R162): no state is written; the caller gets the offset. -/
def execBufferOffset (page chip column : Nat) (s : State) : Out :=
  if page < s.cfg.pages ∧ chip < s.cfg.chips ∧ column < 64 then
    .next { s with ret := .nat (s.cfg.offset page chip column) }
  else .next (raise (.badIndex (some page) (some chip) (some column)) s)

/-- select_chip (R166). -/
def execSelectChip (c : Nat) (s : State) : Out :=
  ownTransport s (afterInit s (run [.selectChip c, .ret .unit] (beginOp .selectChip s)))

/-- init (R214, R394). -/
def execInit (s : State) : Out := ownTransport s (run (initSteps s.cfg) (beginOp .init s))

/-- print_buffer (R215). -/
def execPrintBuffer (buffer : List Byte) (s : State) : Out :=
  ownTransport s (afterInit s
    (if buffer.length = s.cfg.buflen then
      run (sweepSteps s.cfg ++ [.ret .unit]) { beginOp .printBuffer s with fb := buffer, fbMods := [] }
    else .next (raise (.badBufferLength buffer.length) s)))

/-- cmd_group (R217). -/
def execCmdGroup (chip : Nat) (bs : List Byte) (s : State) : Out :=
  ownTransport s (afterInit s (run (groupSteps s.cfg chip false bs ++ [.ret .unit]) (beginOp .cmdGroup s)))

/-- data_group (R218). -/
def execDataGroup (chip : Nat) (ds : List Byte) (s : State) : Out :=
  ownTransport s (afterInit s (run (groupSteps s.cfg chip true ds ++ [.ret .unit]) (beginOp .dataGroup s)))

/-- LcdWrite (00_scope.md R12, 41_lcd_commands.md R180): the ready-polling sequencer on DIRECT and COOP (R232); on OFFLOAD the data
word, behind the control word of `sel_chip`, rs and RW = 0 if another stands (R261, log 23); `relay_byte` on SPI_RELAY (R282). -/
def execLcdWrite (rs : Bool) (b : Byte) (s : State) : Out :=
  ownTransport s
    (match s.cfg.transport with
    | .direct | .coop | .spiRelay => run (byteSteps s.cfg rs (.imm b) ++ [.ret .unit]) (beginOp .lcdWrite s)
    | .offload =>
      match s.selChip with
      | some c =>
        run (ctlSteps (ctlWord s.cfg.params.ctlMap c rs false) s ++ [.enqData (.imm b), .ret .unit]) (beginOp .lcdWrite s)
      | none => .refused .notOneChip)

/-- relay_byte (R282). -/
def execRelayByte (rs : Bool) (b : Byte) (s : State) : Out :=
  ownTransport s
    (if s.cfg.transport = .spiRelay then
      run (relaySteps s.cfg.params.vportStrobe rs (.imm b) ++ [.ret .unit]) (beginOp .relayByte s)
    else .refused .wrongTransport)

/-- Enqueue (R264). Before `init` too: R392 does not name it, and its word stays queued (DESIGN CHOICE, log 40). -/
def execEnqueue (w : QWord) (s : State) : Out :=
  ownTransport s
    (if s.cfg.transport = .offload then
      match w with
      | .ctl v => run [.enqCtl v, .ret .unit] (beginOp .enqueue s)
      | .data b => run [.enqData (.imm b), .ret .unit] (beginOp .enqueue s)
    else .refused .wrongTransport)

end Sys2Proof.Machine
end

