-- ==== Sys2Proof/Machine/Interrupts.lean ====
section
/-! DEFINITION. The meanings of subscription, dispatch and the edge signal (47_expander_interrupts.md). -/

namespace Sys2Proof.Machine

/-- subscribe (R341): no frame. -/
def execSubscribe (x : ExpId) (pin : Int) (cb : Nat) (s : State) : Out :=
  withPin pin s fun n =>
    .next { s.setExp x { s.exp x with subs := (s.exp x).subs ++ [(n, cb)] } with ret := .unit }

/-- dispatch (R343, R344): a token is popped, the port re-read, and the subscribers of every changed pin called; then HOST is
back where it was (60_exceptions.md R372). -/
def execDispatch (x : ExpId) (s : State) : Out :=
  if dispatchEnabled x s then
    run (readGpioSteps x ++ [.dispatchScan x (s.exp x).snap, .dispatchEnd s.op]) (enterDispatch x s)
  else .refused .dispatchNotEnabled

/-- EXP_EDGE (R342). -/
def execExpEdge (x : ExpId) (s : State) : Out := .next (signalEdge x s)

end Sys2Proof.Machine
end

