-- ==== Sys2Proof/Machine/LcdWords.lean ====
section
/-! DEFINITION. The meanings of the LCD10 words (41_lcd_commands.md): one LCD bus cycle, and the response of the chip
selected. -/

namespace Sys2Proof.Machine

/-- A word on the LCD lines while a transport operation is suspended at a yield is a second user of the bus (60_exceptions.md
R367, 70_reset_and_hazards.md R406). -/
def ownBus (s : State) (k : Out) : Out :=
  if s.disp = .atYield then .refused .undefinedConcurrentUse else k

/-- An LCD write word on the virtual port (30_encoding.md R120): its RS, RW = 0 (R284) and D for the chip the port's CS bits select, E
pulsed by the writes of R282 (log 11). As for every bare wire word, `op` stays as it is (DESIGN CHOICE, log 41). -/
def relayWord (rs : Bool) (d : Byte) (s : State) : Out :=
  match (selectedChips s).1 with
  | [c] => run (strobeSteps s.cfg.params.vportStrobe fun e => .lit (vp s.cfg.params.vportMap e false rs c d)) s
  | _ => .refused .notOneChip

/-- A write cycle (R180, R121), on the lines R120 has it carried on: DIRECT and COOP drive the LCD lines and strobe them, OFFLOAD
the offload lines, SPI_RELAY the virtual port. A word HOST runs itself is that one cycle: on DIRECT and COOP no status cycle comes
before it and no earlier status is looked at, busy or not (DESIGN CHOICE, log 44); `LcdWrite` polls (70_reset_and_hazards.md R401). -/
def writeCycle (rs : Bool) (b : Byte) (s : State) : Out :=
  match s.cfg.transport with
  | .direct | .coop => ofExcept (strobeLines (setWriteDir rs b s))
  | .offload => ofExcept (offloadWord rs b s)
  | .spiRelay => relayWord rs b s

/-- A status cycle in which the chip drives `v` (R187, log 12); the caller gets `v`. OFFLOAD and SPI_RELAY have none
(44_fifo_offload.md R269, 45_spi_relay.md R284). -/
def statusCycle (v : Byte) (s : State) : Out :=
  match s.cfg.transport with
  | .direct | .coop =>
    let r := selectedChips s
    match lcdCycle r.1 false true v (setReadDir s) with
    | .ok s' => .next ({ s' with ret := .byte v }.event (.status (r.1.headD 0) v))
    | .error e => .refused e
  | .offload | .spiRelay => .refused .noStatusRead

/-- DISPLAY_ON, 0x03F (R181). -/
def execDisplayOn (s : State) : Out := ownBus s (writeCycle false 0x3F#8 s)

/-- DISPLAY_OFF, 0x03E (R182). -/
def execDisplayOff (s : State) : Out := ownBus s (writeCycle false 0x3E#8 s)

/-- SET_START_LINE, 0x0C0 (R183). -/
def execSetStartLine (s : State) : Out := ownBus s (writeCycle false 0xC0#8 s)

/-- SET_PAGE, 0x0B8 | page (R184). -/
def execSetPage (page : BitVec 3) (s : State) : Out := ownBus s (writeCycle false (0xB8#8 ||| page.setWidth 8) s)

/-- SET_COLUMN, 0x040 (R185). -/
def execSetColumn (s : State) : Out := ownBus s (writeCycle false 0x40#8 s)

/-- WRITE_DATA, 0x200 | b (R186). -/
def execWriteData (b : Byte) (s : State) : Out := ownBus s (writeCycle true b s)

/-- READ_STATUS (R187). -/
def execReadStatus (v : Byte) (s : State) : Out := ownBus s (statusCycle v s)

end Sys2Proof.Machine
end

