-- ==== Sys2Proof/Machine/LineWords.lean ====
section
/-! DEFINITION. The meanings of the offload and relay words (30_encoding.md R135 to R137), each on its carrier; the control words
are those of CTL_MAP, 0x1, 0x2, 0x5 and 0x6 under the default one. -/

namespace Sys2Proof.Machine

/-- CTL_CHIP0_CMD on ctl_lines (44_fifo_offload.md R262, log 11). -/
def execCtlChip0Cmd (s : State) : Out := .next (drainCtl (ctlWord s.cfg.params.ctlMap 0 false false) s)

/-- CTL_CHIP1_CMD (R262, log 11). -/
def execCtlChip1Cmd (s : State) : Out := .next (drainCtl (ctlWord s.cfg.params.ctlMap 1 false false) s)

/-- CTL_CHIP0_DATA (R262, log 11). -/
def execCtlChip0Data (s : State) : Out := .next (drainCtl (ctlWord s.cfg.params.ctlMap 0 true false) s)

/-- CTL_CHIP1_DATA (R262, log 11). -/
def execCtlChip1Data (s : State) : Out := .next (drainCtl (ctlWord s.cfg.params.ctlMap 1 true false) s)

/-- DATA_WORD (R263). -/
def execDataWord (b : Byte) (s : State) : Out := ofExcept (drainData b s)

/-- VPORT_WRITE: `VPortWrite(v)` (45_spi_relay.md R283). `op` stays as it is meanwhile (DESIGN CHOICE, log 41). -/
def execVportWrite (v : Half) (s : State) : Out := run (vportSteps (.lit v)) s

end Sys2Proof.Machine
end

