-- ==== Sys2Proof/Machine/SerialWords.lean ====
section
/-! DEFINITION. The meanings of the expander's serial words (30_encoding.md R130 to R134): whole frames, and a command byte
alone. A frame word reaches the chip of the instance whose device address it carries (log 25); the shadows are the block's own
and stay as they are (10_state.md R32). -/

namespace Sys2Proof.Machine

/-- A write frame given whole (R130, R302). A bare wire word is no operation of R23: `op` stays as it is while its steps stand in
`work` (DESIGN CHOICE, log 41). -/
def writeFrameWord (addr : BitVec 3) (reg : Byte) (data : List Byte) (s : State) : Out :=
  match s.expAt addr with
  | none => .refused .noDevice
  | some x => run [.txnBegin, .wordWrite x (serCmd addr false) reg data, .txnEnd] s

/-- A read frame given whole: the device drives its data bytes (R132, log 12), which are returned. `op` as for a write frame
(DESIGN CHOICE, log 41). -/
def readFrameWord (addr : BitVec 3) (reg : Byte) (data : List Byte) (s : State) : Out :=
  match s.expAt addr with
  | none => .refused .noDevice
  | some x =>
    run [.txnBegin, .wordRead x (serCmd addr true) reg data, .txnEnd, .ret (.rx x)] s

/-- A two-byte frame is one transaction only in sequential mode (R130, 46_expander_ops.md R303). -/
def ifSequential (addr : BitVec 3) (s : State) (k : Out) : Out :=
  match s.expAt addr with
  | none => .refused .noDevice
  | some x => if s.seq x then k else .refused .notSequential

/-- FRAME_WRITE1 (R302). -/
def execFrameWrite1 (addr : BitVec 3) (reg d0 : Byte) (s : State) : Out := writeFrameWord addr reg [d0] s

/-- FRAME_WRITE2 (R312). -/
def execFrameWrite2 (addr : BitVec 3) (reg d0 d1 : Byte) (s : State) : Out :=
  ifSequential addr s (writeFrameWord addr reg [d0, d1] s)

/-- FRAME_READ1 (R313). -/
def execFrameRead1 (addr : BitVec 3) (reg d0 : Byte) (s : State) : Out := readFrameWord addr reg [d0] s

/-- FRAME_READ2 (R313). -/
def execFrameRead2 (addr : BitVec 3) (reg d0 d1 : Byte) (s : State) : Out :=
  ifSequential addr s (readFrameWord addr reg [d0, d1] s)

/-- A command byte on the bus: a frame begins, and `in_txn` holds from this first byte on (10_state.md R38, R303); the frame
word with the same command byte completes it (log 13). -/
def commandByte (cmd : Byte) (s : State) : Out :=
  match s.openFrame with
  | some _ => .refused .frameOverlap
  | none => .next { s with inTxn := true, openFrame := some cmd }

/-- SER_CMD_WRITE (R131, R303). -/
def execSerCmdWrite (addr : BitVec 3) (s : State) : Out := commandByte (serCmd addr false) s

/-- SER_CMD_READ (R131, R303). -/
def execSerCmdRead (addr : BitVec 3) (s : State) : Out := commandByte (serCmd addr true) s

end Sys2Proof.Machine
end

