-- ==== Sys2Proof/Machine/Dispatch.lean ====
section
/-! DEFINITION. One arm per row of opcode_table.json. -/

namespace Sys2Proof.Machine

def exec (i : Instr) (s : State) : Host.Outcome State Fault Refusal :=
  match i with
  | .displayOn => Sys2Proof.Machine.execDisplayOn s
  | .displayOff => Sys2Proof.Machine.execDisplayOff s
  | .setStartLine => Sys2Proof.Machine.execSetStartLine s
  | .setPage page => Sys2Proof.Machine.execSetPage page s
  | .setColumn => Sys2Proof.Machine.execSetColumn s
  | .writeData b => Sys2Proof.Machine.execWriteData b s
  | .readStatus v => Sys2Proof.Machine.execReadStatus v s
  | .frameWrite1 addr reg d0 => Sys2Proof.Machine.execFrameWrite1 addr reg d0 s
  | .frameWrite2 addr reg d0 d1 => Sys2Proof.Machine.execFrameWrite2 addr reg d0 d1 s
  | .frameRead1 addr reg d0 => Sys2Proof.Machine.execFrameRead1 addr reg d0 s
  | .frameRead2 addr reg d0 d1 => Sys2Proof.Machine.execFrameRead2 addr reg d0 d1 s
  | .serCmdWrite addr => Sys2Proof.Machine.execSerCmdWrite addr s
  | .serCmdRead addr => Sys2Proof.Machine.execSerCmdRead addr s
  | .ctlChip0Cmd => Sys2Proof.Machine.execCtlChip0Cmd s
  | .ctlChip1Cmd => Sys2Proof.Machine.execCtlChip1Cmd s
  | .ctlChip0Data => Sys2Proof.Machine.execCtlChip0Data s
  | .ctlChip1Data => Sys2Proof.Machine.execCtlChip1Data s
  | .dataWord b => Sys2Proof.Machine.execDataWord b s
  | .vportWrite v => Sys2Proof.Machine.execVportWrite v s
  | .construct w h t p => Sys2Proof.Machine.execConstruct w h t p s
  | .bufferOffset page chip column => Sys2Proof.Machine.execBufferOffset page chip column s
  | .selectChip c => Sys2Proof.Machine.execSelectChip c s
  | .init => Sys2Proof.Machine.execInit s
  | .printBuffer buffer => Sys2Proof.Machine.execPrintBuffer buffer s
  | .cmdGroup chip bs => Sys2Proof.Machine.execCmdGroup chip bs s
  | .dataGroup chip ds => Sys2Proof.Machine.execDataGroup chip ds s
  | .lcdWrite rs b => Sys2Proof.Machine.execLcdWrite rs b s
  | .relayByte rs b => Sys2Proof.Machine.execRelayByte rs b s
  | .enqueue w => Sys2Proof.Machine.execEnqueue w s
  | .setup x pin d flags => Sys2Proof.Machine.execSetup x pin d flags s
  | .output x pin level => Sys2Proof.Machine.execOutput x pin level s
  | .input x pin refresh => Sys2Proof.Machine.execInput x pin refresh s
  | .outputPins x m => Sys2Proof.Machine.execOutputPins x m s
  | .inputPins x pins refresh => Sys2Proof.Machine.execInputPins x pins refresh s
  | .writeGpio x v => Sys2Proof.Machine.execWriteGpio x v s
  | .readGpio x => Sys2Proof.Machine.execReadGpio x s
  | .regWrite x k p v => Sys2Proof.Machine.execRegWrite x k p v s
  | .regRead x k p => Sys2Proof.Machine.execRegRead x k p s
  | .subscribe x pin cb => Sys2Proof.Machine.execSubscribe x pin cb s
  | .dispatch x => Sys2Proof.Machine.execDispatch x s
  | .expEdge x => Sys2Proof.Machine.execExpEdge x s

end Sys2Proof.Machine
end

