-- ==== Sys2Proof/Machine/Agents.lean ====
section
/-! DEFINITION. The moves of the agents (10_state.md R20), and where HOST's next instruction stands. -/

namespace Sys2Proof.Machine

/-- An item is decoded and run; one that is no instruction is refused by name. -/
def fetch (it : Item) (s : State) : Out :=
  match decode s.cfg it with
  | .ok i => exec i s
  | .error r => .refused (.undecodable r)

/-- HOST's move: it goes on with what it has begun, or begins the next item of its program; with neither it does nothing. -/
def hostMove (s : State) : Out :=
  match s.work with
  | .nested it :: ms => fetch it { s with work := ms }
  | m :: ms => run (m :: ms) { s with work := [], suspended := false }
  | [] =>
    match s.prog with
    | [] => .next s
    | it :: its => fetch it { s with prog := its }

/-- Whether the head of a queue, numbered `n`, may drain given the other queue's head (44_fifo_offload.md R265). -/
def drainAdmitted (o : OffloadOrder) (n : Nat) (other : Option Nat) : Bool :=
  match o, other with
  | .independent, _ => true
  | .merged, none => true
  | .merged, some k => n < k

/-- OFF_CTL's move, if it is enabled (R262), from construction on (DESIGN CHOICE, log 40). -/
def offCtlMove (s : State) : Option State :=
  match s.cfg.transport, s.ctlQ with
  | .offload, (n, w) :: q =>
    if drainAdmitted s.cfg.params.offloadOrder n (s.dataQ.head?.map (·.1)) then some (drainCtl w { s with ctlQ := q })
    else none
  | _, _ => none

/-- OFF_DATA's move, if it is enabled (R263), from construction on (DESIGN CHOICE, log 40). -/
def offDataMove (s : State) : Option (Except Refusal State) :=
  match s.cfg.transport, s.dataQ with
  | .offload, (n, b) :: q =>
    if drainAdmitted s.cfg.params.offloadOrder n (s.ctlQ.head?.map (·.1)) then some (drainData b { s with dataQ := q })
    else none
  | _, _ => none

/-- OTHER's move, enabled only under COOP while HOST is suspended at a yield (43_bitbang_sequencer.md R236). -/
def otherMove (a : OtherAct) (s : State) : Out :=
  if s.cfg.transport = .coop ∧ s.suspended = true then
    match a with
    | .idle => .next s
    | .fbWrite off b => .next (s.fbWrote off b)
    | .driveBus => .refused .undefinedConcurrentUse
  else .next s

/-- An LCD chip's own reset (70_reset_and_hazards.md R395, D48): its registers and its display RAM are any value. -/
def lcdResetMove (c : Nat) (s : State) : State :=
  if c < s.cfg.chips then
    { s.setChip c (LcdChip.free s.draws) with
      draws := s.draws + 1, dram := Mem.clear s.dram (c * 512) (c * 512 + 512) }
  else s

/-- An expander chip's reset (R396): its registers return to their power-on values, the shadows stay. A relay's pins change with
them. -/
def expResetMove (x : ExpId) (s : State) : Except Refusal State :=
  let s' := s.setExp x { s.exp x with dev := [] }
  match x with
  | .gpio => .ok s'
  | .relay => relayLatch s.relayPins s'

/-- The reset of an expander chip that no instance uses (R396): a later build there finds it at its power-on values. -/
def idleResetMove (addr : Nat) (s : State) : State := { s with idleDevs := s.idleDevs.set addr [] }

/-- One move with no error pending; an agent that is not enabled does nothing. -/
def liveMove (m : Move) (s : State) : Out :=
  match m with
  | .host q => hostMove { s with slice := q }
  | .offCtl =>
    match offCtlMove s with
    | some s' => .next s'
    | none => .next s
  | .offData =>
    match offDataMove s with
    | some r => ofExcept r
    | none => .next s
  | .edge x => exec (.expEdge x) s
  | .dispatch x q => if dispatchEnabled x s then exec (.dispatch x) { s with slice := q } else .next s
  | .other a => otherMove a s
  | .lcdReset c => .next (lcdResetMove c s)
  | .expReset x => ofExcept (expResetMove x s)
  | .idleReset addr => .next (idleResetMove addr s)

/-- One move after an error (60_exceptions.md R360, 70_reset_and_hazards.md R409): HOST's run is over, words still queued drain;
otherwise the error is answered as a fault (log 16). -/
def faultedMove (e : Fault) (m : Move) (s : State) : Out :=
  match m with
  | .offCtl =>
    match offCtlMove s with
    | some s' => .next s'
    | none => .fault e
  | .offData =>
    match offDataMove s with
    | some r => ofExcept r
    | none => .fault e
  | .host _ | .edge _ | .dispatch _ _ | .other _ | .lcdReset _ | .expReset _ | .idleReset _ => .fault e

/-- One move of one agent. -/
def agentMove (m : Move) (s : State) : Out :=
  match s.err with
  | none => liveMove m s
  | some e => faultedMove e m s

/-- One step: the move `sched` names, or, when it names none, any move (log 2). -/
def stepMove (s : State) : Out :=
  match s.sched with
  | m :: ms => agentMove m { s with sched := ms }
  | [] => agentMove (Config.freeMove s.draws) s.drew

/-- An LCD cycle needs a chip selected (41_lcd_commands.md R188): the lines of the active transport select chip 0 if they select
no one chip (log 14). -/
def selectForCycle (s : State) : State :=
  match (selectedChips s).1 with
  | [_] => s
  | _ =>
    match s.cfg.transport with
    | .direct | .coop => driveCs 0 s
    | .offload => { s with ctlLines := ctlWord s.cfg.params.ctlMap 0 false false, ctlDriven := true }
    | .spiRelay => { s with vport := vp s.cfg.params.vportMap false false false 0 0#8 }

/-- `s` with an item as the next thing HOST begins, and HOST's as the next move. -/
def placeItem (it : Item) (s : State) : State :=
  { s with prog := it :: s.prog, sched := .host none :: s.sched, work := [], err := none, suspended := false }

/-- An opcode-table word placed where HOST fetches its next item (log 14). -/
def placeWord (s : State) (nbits w : Nat) : State :=
  match tableItem s.cfg nbits w with
  | none => placeItem (.wire .data8 []) s
  | some (.wire .lcd10 bs) => selectForCycle (placeItem (.wire .lcd10 bs) s)
  | some it => placeItem it s

end Sys2Proof.Machine
end

