-- ==== Sys2Proof/Machine/Step.lean ====
section
/-! DEFINITION. One step of the machine, and an instruction placed where the next step fetches it. -/

namespace Sys2Proof.Machine

/-- One step: one move of one agent (00_scope.md R19, 10_state.md R20). -/
def step : State → Host.Outcome State Fault Refusal := stepMove

/-- `s` with the table word `w` as the instruction the next step runs (log 1, log 14). -/
def State.withFetchWord (s : State) (nbits w : Nat) : State := placeWord s nbits w

end Sys2Proof.Machine
end

