-- ==== Sys2Proof/Safety.lean ====
section
/-! DEFINITION. The terms claims are stated in: final and faulted states (70_reset_and_hazards.md R409), the machine's
invariant, the state after construction (10_state.md R55), and which groups of state an instruction leaves alone. -/

namespace Sys2Proof

/-! ## Classes of instructions -/

/-- The LCD10 words (41_lcd_commands.md). -/
def Instr.isLcdWord (i : Instr) : Bool :=
  match i with
  | .displayOn | .displayOff | .setStartLine | .setPage _ | .setColumn | .writeData _ | .readStatus _ => true
  | _ => false

/-- The calls that use a transport (60_exceptions.md R367). -/
def Instr.isTransportCall (i : Instr) : Bool :=
  match i with
  | .selectChip _ | .init | .printBuffer _ | .cmdGroup .. | .dataGroup .. | .lcdWrite .. | .relayByte .. | .enqueue _ =>
    true
  | _ => false

/-- Whether an instruction makes a `read_gpio`, the one operation that writes the snapshot (10_state.md R35). -/
def Instr.writesSnap (i : Instr) : Bool :=
  match i with
  | .readGpio _ | .dispatch _ => true
  | .input _ _ r | .inputPins _ _ r => r
  | _ => false

/-- The addresses of the shadows an instruction may write (46_expander_ops.md, "Flags written"; an LCD word by the virtual port,
30_encoding.md R120). -/
def Instr.shadowAddrs (i : Instr) : List Byte :=
  match i with
  | .setup _ n _ _ =>
    let p := Machine.portOf n.toNat
    [Machine.regAddr .dir p, Machine.regAddr .ipol p, Machine.regAddr .gppu p]
  | .output _ n _ => [Machine.regAddr .olat (Machine.portOf n.toNat)]
  | .outputPins _ m => m.map fun nl => Machine.regAddr .olat (Machine.portOf nl.1.toNat)
  | .writeGpio .. | .vportWrite _ => [Machine.regAddr .olat .a, Machine.regAddr .olat .b]
  | .regWrite _ k p _ => k.shadow.toList.map fun sk => Machine.regAddr sk p
  | i => if i.isLcdWord then [Machine.regAddr .olat .a, Machine.regAddr .olat .b] else []

/-- The addresses of the chip registers an instruction's frames may store to: those of the shadows it writes, or those its frame
word reaches (30_encoding.md R130). -/
def Instr.chipAddrs (i : Instr) : List Nat :=
  match i with
  | .frameWrite1 _ r _ => Machine.storeAddrs r.toNat
  | .frameWrite2 _ r _ _ => Machine.storeAddrs r.toNat ++ Machine.storeAddrs (r.toNat + 1)
  | i => i.shadowAddrs.map (·.toNat)

end Sys2Proof

namespace Sys2Proof.Machine

/-- A final state (R409): HOST inside nothing, both queues empty, no edge pending. -/
def State.final (s : State) : Prop :=
  s.op = none ∧ s.work = [] ∧ s.ctlQ = [] ∧ s.dataQ = [] ∧ s.gpio.pending = [] ∧ s.relay.pending = []

/-- A state an error has been taken in (R409 d, 60_exceptions.md R360). -/
def State.faulted (s : State) : Prop := s.err.isSome

/-- HOST runs on with no bound, no frame failure is supplied, and no command byte stands alone on the bus: the conditions under
which a call is not interrupted (logs 3, 5, 13). -/
def State.calm (s : State) : Prop := s.slice = none ∧ s.env.frameFails = [] ∧ s.openFrame = none

/-! ## The state after construction -/

/-- Every value R55 gives an expander instance. -/
structure Expander.constructed (e : Expander) : Prop where
  dir : ∀ p, e.sh.get .dir p = 0xFF#8
  shadows : ∀ k p, k ≠ .dir → e.sh.get k p = 0x00#8
  snap : e.snap = 0x0000#16
  subs : e.subs = []
  pending : e.pending = []

/-- Every value R55 gives the facade and its transport, for the geometry, the transport and the parameters of `c`. -/
structure State.facadeConstructed (s : State) (c : Cfg) : Prop where
  geometry : s.cfg.width = c.width ∧ s.cfg.height = c.height ∧ s.cfg.transport = c.transport
  params : s.cfg.params = c.params
  op : s.op = none
  st : s.st = .idle
  selChip : s.selChip = none
  inited : s.inited = false
  busDir : s.busDir = .write
  ddir : s.ddir = .output
  lines : s.e = false ∧ s.rw = false ∧ s.rs = false ∧ s.d = 0#8
  cs : ∀ k < c.chips, s.csLevel k = !c.params.csActive
  queues : s.ctlQ = [] ∧ s.dataQ = []
  strobe : s.strobe = false
  vport : s.vport = 0#16
  inTxn : s.inTxn = false

/-- The chip at a device address, whether an instance uses it or none does, is at its power-on values (R393). -/
def State.chipFresh (s : State) (addr : Nat) : Prop :=
  s.idleDevs.getD addr [] = [] ∧ ∀ x, s.addrOf x = addr → (s.exp x).dev = []

/-- The chip instance `x` had, when it is built at `addr`: at another address (30_encoding.md R131) it stays there as it is, and so does
every chip no instance uses (log 43). -/
def LeavesChip (x : ExpId) (addr : Nat) (s u : State) : Prop :=
  (s.addrOf x = addr → u.idleDevs = s.idleDevs)
    ∧ (s.addrOf x ≠ addr → s.addrOf x < s.idleDevs.length → u.idleDevs.getD (s.addrOf x) [] = (s.exp x).dev)
    ∧ ∀ a, a ≠ s.addrOf x → u.idleDevs.getD a [] = s.idleDevs.getD a []

/-- The chip's registers equal the shadows, at the power-on values of R393. -/
def Expander.chipAtPowerOn (e : Expander) : Prop :=
  ∀ a, namedRegister a = true → e.devRead a = some (if a < 2 then 0xFF#8 else 0x00#8)

/-! ## The invariant -/

/-- A primitive step that would set IOCON.BANK in a shadow (46_expander_ops.md R318) is never left to be made. -/
def Micro.bankClear : Micro → Bool
  | .shadowSet _ .iocon _ v => !v.getLsbD 7
  | .shadowBit _ .iocon _ i v => !(i == 7 && v)
  | _ => true

/-- The numbers of a queue's words rise and lie below the count (44_fifo_offload.md R265). -/
def numbered {α : Type} (q : List (Nat × α)) (n : Nat) : Prop :=
  q.Pairwise (fun a b => a.1 < b.1) ∧ ∀ a ∈ q, a.1 < n

/-- The select lines: all deasserted, or the pattern of one chip (40_addressing.md R165). -/
def State.selectLinesOk (s : State) : Prop :=
  s.cs = List.replicate s.cfg.chips false ∨ ∃ c < s.cfg.chips, s.cs = csPattern s.cfg.chips c

/-- What holds at reset and every step keeps. -/
structure State.Inv (s : State) : Prop where
  /-- Every memory is in its canonical form. -/
  dramWf : Mem.wf dramDefault s.dram
  devWf : ∀ x, Mem.wf devDefault (s.exp x).dev
  idleWf : s.idleDevs.length = 8 ∧ ∀ m ∈ s.idleDevs, Mem.wf devDefault m
  /-- The geometry is one the transport admits (R160, R260, R280). -/
  geometry : geometryOk s.cfg.width s.cfg.height s.cfg.transport s.cfg.params = true
  params : s.cfg.ok = true
  /-- At most one chip is selected, and it exists (R165, R166). -/
  selected : ∀ c, s.selChip = some c → c < s.cfg.chips
  selectLines : s.selectLinesOk
  lcdChips : s.lcd.length = s.cfg.chips
  /-- No queue holds more than its capacity (R26, R37). -/
  ctlRoom : s.ctlQ.length ≤ s.cfg.params.offloadFifoDepth
  dataRoom : s.dataQ.length ≤ s.cfg.params.offloadFifoDepth
  edgeRoom : ∀ x, (s.exp x).pending.length ≤ (s.cfg.exp x).irqQueueDepth
  /-- Words drain in enqueue order (R265). -/
  ctlNumbered : numbered s.ctlQ s.enqCount
  dataNumbered : numbered s.dataQ s.enqCount
  /-- IOCON.BANK is never set in a shadow (R318). -/
  bank : ∀ x, (s.exp x).sh.iocon.getLsbD 7 = false
  bankWork : ∀ m ∈ s.work, m.bankClear = true
  /-- HOST is suspended only under COOP (42_write_protocol.md R220). -/
  coopOnly : s.suspended = true ∨ s.disp = .atYield → s.cfg.transport = .coop
  /-- After an error HOST is inside nothing and the bus is free (R360, R363). -/
  errorEnds : s.err.isSome → s.op = none ∧ s.work = [] ∧ s.inTxn = false ∧ s.suspended = false ∧ s.disp = .idle

/-! ## Groups of state, for what an instruction leaves unchanged -/

/-- The sequencer position (10_state.md R23). -/
def SameSequencer (s t : State) : Prop :=
  t.st = s.st ∧ t.pg = s.pg ∧ t.ch = s.ch ∧ t.col = s.col ∧ t.phase = s.phase

/-- The bit-bang lines (R25) and the direction of the bus (R24). -/
def SameLines (s t : State) : Prop :=
  t.e = s.e ∧ t.rw = s.rw ∧ t.rs = s.rs ∧ t.d = s.d ∧ t.ddir = s.ddir ∧ t.cs = s.cs ∧ t.busDir = s.busDir

/-- The rest of the transport session (R24, R28). -/
def SameSession (s t : State) : Prop := t.selChip = s.selChip ∧ t.inited = s.inited ∧ t.vport = s.vport

/-- The offload queues and lines (R26). -/
def SameOffload (s t : State) : Prop :=
  t.ctlQ = s.ctlQ ∧ t.dataQ = s.dataQ ∧ t.enqCount = s.enqCount ∧ t.ctlLines = s.ctlLines ∧ t.ctlDriven = s.ctlDriven
    ∧ t.dataLines = s.dataLines ∧ t.strobe = s.strobe

/-- The LCD target (R45). -/
def SameTarget (s t : State) : Prop := t.lcd = s.lcd ∧ t.dram = s.dram

/-- The serial bus (R38). -/
def SameBus (s t : State) : Prop := t.inTxn = s.inTxn ∧ t.openFrame = s.openFrame

/-- The framebuffer in use (R40). -/
def SameFramebuffer (s t : State) : Prop := t.fb = s.fb ∧ t.fbMods = s.fbMods ∧ t.blk = s.blk

/-- What lies outside the block (log 1, log 2): HOST's program, the callbacks, the schedule; and the expander chips no instance uses
(log 43). -/
def SameCaller (s t : State) : Prop :=
  t.prog = s.prog ∧ t.callbacks = s.callbacks ∧ t.sched = s.sched ∧ t.idleDevs = s.idleDevs

/-- Display RAM, read one byte at a time (R45). -/
def SameDisplayRam (s t : State) : Prop := ∀ a, t.dramAt a = s.dramAt a

/-- An instance's subscriptions and pending edges (R36, R37). -/
def SameInterrupts (e f : Expander) : Prop := f.subs = e.subs ∧ f.pending = e.pending

/-- Every register of an instance's chip but the addresses `a` to `a + n - 1`, read one byte at a time (R50). -/
def SameChipBut (e f : Expander) (a n : Nat) : Prop := ∀ k, (k < a ∨ a + n ≤ k) → f.devRead k = e.devRead k

/-! ## Terms of single statements -/

/-- The instance whose chip an instruction of the serial bus reaches: a frame word's by its address, a virtual-port write's the
relay's, as an LCD word's on SPI_RELAY, an operation's the one it names. -/
def State.instanceOf (s : State) (i : Instr) : Option ExpId :=
  match i with
  | .frameWrite1 a _ _ | .frameWrite2 a _ _ _ | .frameRead1 a _ _ | .frameRead2 a _ _ _ => s.expAt a
  | .vportWrite _ => some .relay
  | .setup x _ _ _ | .output x _ _ | .input x _ _ | .outputPins x _ | .inputPins x _ _ | .writeGpio x _ | .readGpio x
  | .regWrite x _ _ _ | .regRead x _ _ | .dispatch x => some x
  | i => if i.isLcdWord ∧ s.cfg.transport = .spiRelay then some .relay else none

/-- `op` after an operation has returned: NONE, or DISPATCH still inside a dispatch (10_state.md R23). -/
def State.opAfter (s : State) : Option Op :=
  match s.disp with
  | .idle => none
  | .betweenOps | .atYield => s.op

/-- The relay's pins hold E low, if they are the LCD's (10_state.md R47): no register write can then make it fall. -/
def State.eLow (x : ExpId) (s : State) : Prop :=
  x = .relay → s.cfg.transport = .spiRelay → s.relayPins.getLsbD s.cfg.params.vportMap.e = false

/-- Pins `v` on the relay would not be a falling edge of E. -/
def State.noFall (s : State) (v : Half) : Prop :=
  s.cfg.transport = .spiRelay → s.relayPins.getLsbD s.cfg.params.vportMap.e = true →
    v.getLsbD s.cfg.params.vportMap.e = true

/-- The next `n` status bytes are supplied and ready. -/
def State.pollsReady (s : State) (n : Nat) : Prop :=
  n ≤ s.env.status.length ∧ ∀ v ∈ s.env.status.take n, ready v = true

/-- An LCD write cycle: chip, RS, byte. -/
abbrev Write := Nat × Bool × Byte

/-- What the trace shows of writes on DIRECT and COOP, each after the one status cycle that was ready (43_bitbang_sequencer.md
R232). -/
def bitBangEvents (ws : List Write) (statuses : List Byte) : List Event :=
  (ws.zip statuses).flatMap fun p => [.status p.1.1 p.2, .lcd p.1.1 p.1.2.1 p.1.2.2]

/-- The writes of `init` (42_write_protocol.md R214). -/
def initWrites (c : Cfg) : List Write :=
  (List.range c.chips).flatMap fun ch => [(ch, false, 0x3F#8), (ch, false, 0xC0#8)]

/-- The writes of one block (R210). -/
def blockWrites (c : Cfg) (fb : List Byte) (pg ch : Nat) : List Write :=
  [(ch, false, 0xB8#8 ||| BitVec.ofNat 8 (pg % 8)), (ch, false, 0x40#8)]
    ++ (List.range 64).map fun col => (ch, true, fb.getD (col + 64 * ch + pg * c.width) 0#8)

/-- The writes of the sweep, pages outermost (R212). -/
def sweepWrites (c : Cfg) (fb : List Byte) : List Write :=
  (List.range c.pages).flatMap fun pg => (List.range c.chips).flatMap fun ch => blockWrites c fb pg ch

/-- What the trace shows of a group on OFFLOAD (44_fifo_offload.md R261). -/
def offloadGroupEvents (c : Cfg) (chip : Nat) (rs : Bool) (bs : List Byte) : List Event :=
  .qCtl (ctlWord c.params.ctlMap chip rs false) :: bs.map .qData

/-- What the trace shows of the sweep on OFFLOAD (R271). -/
def offloadSweepEvents (c : Cfg) (fb : List Byte) : List Event :=
  (List.range c.pages).flatMap fun pg => (List.range c.chips).flatMap fun ch =>
    offloadGroupEvents c ch false [0xB8#8 ||| BitVec.ofNat 8 (pg % 8), 0x40#8]
      ++ offloadGroupEvents c ch true ((List.range 64).map fun col => fb.getD (col + 64 * ch + pg * c.width) 0#8)

/-- The control words, and the data words, among events. -/
def ctlWords (evs : List Event) : List Nibble :=
  evs.filterMap fun
    | .qCtl w => some w
    | _ => none

def dataWords (evs : List Event) : List Byte :=
  evs.filterMap fun
    | .qData b => some b
    | _ => none

/-- What the trace shows of the frames of `write_gpio(v)` (46_expander_ops.md R312). -/
def olatEvents (cmd : Byte) (seq : Bool) (v : Half) : List Event :=
  if seq then [.frameW cmd 0x14#8 [v.extractLsb' 0 8, v.extractLsb' 8 8]]
  else [.frameW cmd 0x14#8 [v.extractLsb' 0 8], .frameW cmd 0x15#8 [v.extractLsb' 8 8]]

/-- What the trace shows of `VPortWrite(v)` (45_spi_relay.md R283). -/
def vportEvents (cmd : Byte) (seq : Bool) (v : Half) : List Event := .vport v :: olatEvents cmd seq v

/-- What the trace shows of `relay_byte` (R282), `v` its word with E = 0. -/
def relayEvents (p : Params) (cmd : Byte) (seq : Bool) (v : Half) : List Event :=
  match p.vportStrobe with
  | .threeWrite =>
    vportEvents cmd seq v ++ vportEvents cmd seq (v ||| 1#16 <<< p.vportMap.e) ++ vportEvents cmd seq v
  | .twoWrite => vportEvents cmd seq (v ||| 1#16 <<< p.vportMap.e) ++ vportEvents cmd seq v

/-- What the trace shows of LCD writes on SPI_RELAY, one `relay_byte` each, RW = 0 (R282). -/
def State.relayWriteEvents (s : State) (ws : List Write) : List Event :=
  ws.flatMap fun w =>
    relayEvents s.cfg.params (s.cmdW .relay) (s.seq .relay) (vp s.cfg.params.vportMap false false w.2.1 w.1 w.2.2)

/-- What the trace shows of `read_gpio` (46_expander_ops.md R313). -/
def gpioReadEvents (cmd : Byte) (seq : Bool) (a b : Byte) : List Event :=
  if seq then [.frameR cmd 0x12#8 [a, b]] else [.frameR cmd 0x12#8 [a], .frameR cmd 0x13#8 [b]]

/-- The two bytes EXP_ENV answers the next `read_gpio` with (10_state.md R51). -/
def State.nextPins (s : State) : Byte × Byte := ((drawPin s).1, (drawPin (drawPin s).2).1)

/-- The relay transport works as R280 and R286 leave it: sequential mode on its instance, or the default map, under which a
virtual-port write in two frames is harmless (70_reset_and_hazards.md R405); its pins, E low. -/
def State.relayReady (s : State) : Prop :=
  s.cfg.transport = .spiRelay ∧ s.calm ∧ (s.seq .relay = true ∨ s.cfg.params.vportMap = Config.vportMap) ∧ s.eLow .relay

/-- On SPI_RELAY, the relay carries an LCD word undisturbed: ready, with maps and a geometry that fit. -/
def State.wordReady (s : State) : Prop :=
  s.cfg.transport = .spiRelay →
    s.relayReady ∧ geometryOk s.cfg.width s.cfg.height s.cfg.transport s.cfg.params = true ∧ s.cfg.params.ok = true
      ∧ Mem.wf devDefault s.relay.dev

/-- What the trace shows of one LCD write word to chip `c` (20_memory.md R80), on the lines R120 has it carried on. -/
def State.lcdWordEvents (s : State) (c : Nat) (rs : Bool) (d : Byte) : List Event :=
  match s.cfg.transport with
  | .direct | .coop => [.lcd c rs d]
  | .offload => [.dCtl (ctlWord s.cfg.params.ctlMap c rs false), .dData d]
  | .spiRelay => relayEvents s.cfg.params (s.cmdW .relay) (s.seq .relay) (vp s.cfg.params.vportMap false false rs c d)

/-- The lines R120 has an LCD write word carried on hold it, RW = 0, after its cycle: the LCD lines on DIRECT and COOP; ctl_lines and
data_lines on OFFLOAD; the virtual port, its shadows and the relay's pins on SPI_RELAY. -/
def State.carries (s : State) (c : Nat) (rs : Bool) (d : Byte) : Prop :=
  match s.cfg.transport with
  | .direct | .coop => s.rs = rs ∧ s.rw = false ∧ s.e = false ∧ s.d = d
  | .offload =>
    s.ctlLines = ctlWord s.cfg.params.ctlMap c rs false ∧ s.ctlDriven = true ∧ s.dataLines = d ∧ s.strobe = false
  | .spiRelay =>
    s.vport = vp s.cfg.params.vportMap false false rs c d ∧ s.relayPins = s.vport
      ∧ cat16 (s.relay.sh.get .olat .b) (s.relay.sh.get .olat .a) = s.vport

/-- Any chip and display RAM as the chips `c` of `ws` leave them, each write acting as its word does (41_lcd_commands.md). -/
def actAll (ws : List Write) (s : State) : State :=
  ws.foldl (fun u w =>
    match lcdDecode w.2.1 false w.2.2 with
    | .ok cmd => lcdRespond w.1 cmd u
    | .error _ => u) s

end Sys2Proof.Machine
end

