-- ==== Sys2Proof/Certificates/Slice0/Obligations.lean ====
section
/-! DEFINITION. The statements for the provers, in the order of OBLIGATIONS.json. Where a statement has the hypotheses `s.calm` or
`s.slice = none`, they say that HOST's move is not cut short and no frame fails (logs 3, 5, 13); the statements about errors
and about frames are without them. -/

section

open Sys2Proof Sys2Proof.Machine

/-! ## Encodings -/

/-- Decoding an encoded well-formed instruction gives it back, every operand at every value (30_encoding.md R120 to R137), under
every CTL_MAP of four different bits and every VPORT_MAP (R135, R137). -/
def Obligations.DecodeEncode : Prop :=
  ∀ (g : Cfg) (i : Instr), g.params.ctlMap.ok = true → i.wellFormed g → decode g (encode g i) = .ok i

/-- An item that decodes is the encoding of its instruction, which is well formed: each word has one meaning. -/
def Obligations.EncodeDecode : Prop :=
  ∀ (g : Cfg) (it : Item) (i : Instr), decode g it = .ok i → encode g i = it ∧ i.wellFormed g

/-- Words written out from the encodings of 30_encoding.md decode to the instructions they stand for. Eight bits
with no format named can be a serial command byte or a data byte, so theirs is named. -/
def Obligations.SpecWordsDecode : Prop :=
  decodeTableWord 10 0b0000111111 = some .displayOn
    ∧ decodeTableWord 10 0b0010111011 = some (.setPage 3#3)
    ∧ decodeTableWord 10 0b1010000001 = some (.writeData 0x81#8)
    ∧ decodeTableWord 24 0b010000000001010000000001 = some (.frameWrite1 0#3 0x14#8 0x01#8)
    ∧ decodeTableWord 32 0b01001111000100100010000000000000 = some (.frameRead2 7#3 0x12#8 0x20#8 0x00#8)
    ∧ decode Config.cfg (.wire .serCmd8 [0b01001110#8]) = .ok (.serCmdWrite 7#3)
    ∧ decode Config.cfg (.wire .data8 [0b01001110#8]) = .ok (.dataWord 0x4E#8)
    ∧ decodeTableWord 4 0b0110 = some .ctlChip1Data
    ∧ decodeTableWord 16 0b0001010110100101 = some (.vportWrite 0x15A5#16)

/-- The reserved encodings of R140 and R188 are rejected, each by name, under every pair of maps: other LCD command bytes, a
display-data read, other serial command bytes, register addresses no frame carries (R133), a write that sets IOCON.BANK (R141),
control words with none or both of the CS bits or with RW, virtual-port words with RW, an unused bit or several CS bits. That a
4-byte frame is rejected for its second register alone (r = 0x0A, 0x0D, 0x15) is the model's choice (log 42). -/
def Obligations.ReservedEncodingsRejected : Prop :=
  ∀ g : Cfg, g.params.ok = true →
    let m := g.params.ctlMap
    let v := g.params.vportMap
    let badCtl := fun w : Nibble => w.getLsbD m.cs0 = w.getLsbD m.cs1 ∨ w.getLsbD m.rw = true
    let vport := fun w : Half => decode g (.wire .vport16 [w.extractLsb' 8 8, w.extractLsb' 0 8])
    let used := v.d ++ [v.e, v.rw, v.rs] ++ v.cs.take g.chips
    (∀ d : Byte, d ≠ 0x3F#8 → d ≠ 0x3E#8 → d ≠ 0xC0#8 → d ≠ 0x40#8 → (d < 0xB8#8 ∨ 0xBF#8 < d) →
      decode g (.wire .lcd10 [0x0#8, d]) = .error .lcdCommand)
    ∧ (∀ d : Byte, decode g (.wire .lcd10 [0x3#8, d]) = .error .displayDataRead)
    ∧ (∀ c r d : Byte, c >>> 4 ≠ 0x4#8 → decode g (.wire .serFrame [c, r, d]) = .error .serCommand)
    ∧ (∀ c : Byte, c >>> 4 ≠ 0x4#8 → decode g (.wire .serCmd8 [c]) = .error .serCommand)
    ∧ (∀ c r d d' : Byte, c >>> 4 = 0x4#8 →
      (r = 0x0B#8 ∨ 0x15#8 < r → decode g (.wire .serFrame [c, r, d]) = .error .unnamedRegister)
        ∧ (0x0E#8 ≤ r ∧ r ≤ 0x11#8 → decode g (.wire .serFrame [c, r, d]) = .error .unusedRegister)
        ∧ (r = 0x0A#8 ∨ r = 0x0B#8 ∨ 0x15#8 ≤ r → decode g (.wire .serFrame [c, r, d, d']) = .error .unnamedRegister)
        ∧ (0x0D#8 ≤ r ∧ r ≤ 0x11#8 → decode g (.wire .serFrame [c, r, d, d']) = .error .unusedRegister)
        ∧ (c.getLsbD 0 = false → d'.getLsbD 7 = true →
          decode g (.wire .serFrame [c, 0x0A#8, d']) = .error .bankSet
            ∧ decode g (.wire .serFrame [c, 0x09#8, d, d']) = .error .bankSet))
    ∧ (∀ w : Nibble, badCtl w →
      decode g (.wire .ctl4 [w.setWidth 8]) = .error .ctlWord ∧ decode g (.call (.enqueue (.ctl w))) = .error .ctlWord)
    ∧ (∀ w : Byte, 0x0F#8 < w → decode g (.wire .ctl4 [w]) = .error .ctlWord)
    ∧ ∀ w : Half,
      (w.getLsbD v.rw = true → vport w = .error .vportRw)
        ∧ (w.getLsbD v.rw = false → (∃ i, i < 16 ∧ i ∉ used ∧ w.getLsbD i = true) → vport w = .error .vportUnused)
        ∧ (w.getLsbD v.rw = false → (∀ i, i < 16 → i ∉ used → w.getLsbD i = false) →
          (∃ k l, k < l ∧ l < g.chips ∧ l < v.cs.length ∧ w.getLsbD (v.cs.getD k 16) = true
            ∧ w.getLsbD (v.cs.getD l 16) = true) → vport w = .error .vportSelects)

/-! ## Geometry and construction -/

/-- R163: `buffer_offset` is a bijection from [0,PAGES) × [0,CHIPS) × [0,64) onto [0,BUFLEN), with the inverse the rule gives. -/
def Obligations.OffsetBijection : Prop :=
  ∀ c : Cfg, 0 < c.width → c.width % 64 = 0 → c.height % 8 = 0 →
    (∀ page chip column, page < c.pages → chip < c.chips → column < 64 →
      let o := c.offset page chip column
      o < c.buflen ∧ o / c.width = page ∧ o % c.width / 64 = chip ∧ o % 64 = column)
    ∧ ∀ o, o < c.buflen →
      o / c.width < c.pages ∧ o % c.width / 64 < c.chips ∧ o % 64 < 64
        ∧ c.offset (o / c.width) (o % c.width / 64) (o % 64) = o

/-- R161 and the offset of R167: the lengths of an admitted geometry, and where pixel (x, y) stands in the framebuffer. -/
def Obligations.GeometryLaws : Prop :=
  ∀ c : Cfg, geometryOk c.width c.height c.transport c.params = true →
    c.buflen = c.width * c.height / 8 ∧ c.pages = c.height / 8 ∧ c.chips = c.width / 64
      ∧ c.buflen = c.pages * c.chips * 64
      ∧ ∀ x y, x < c.width → y < c.height →
        y / 8 < c.pages ∧ x / 64 < c.chips ∧ c.offset (y / 8) (x / 64) (x % 64) = y / 8 * c.width + x

/-- R162: the offset inside the ranges, BadIndex outside; no state is written. -/
def Obligations.BufferOffsetResult : Prop :=
  ∀ (s : State) (page chip column : Nat),
    (page < s.cfg.pages → chip < s.cfg.chips → column < 64 →
      exec (.bufferOffset page chip column) s
        = .next { s with ret := .nat (column + 64 * chip + page * s.cfg.width) })
    ∧ ((s.cfg.pages ≤ page ∨ s.cfg.chips ≤ chip ∨ 64 ≤ column) →
      exec (.bufferOffset page chip column) s = .next (raise (.badIndex (some page) (some chip) (some column)) s))

/-- R390, R391, R393: building the facade between operations leaves the facade and its transport at the values of R55, and, on
SPI_RELAY, the instance the relay owns (R280); building an expander instance, at any address whose chip is at its power-on values,
leaves that instance at them. Nothing is issued, and the rest stays (log 24), the chip it had at another address among it (log 43). -/
def Obligations.ConstructResult : Prop :=
  ∀ s : State, s.op = none → s.work = [] →
    (∀ (w h : Nat) (t : Transport) (p : Params) (r : ExpParams), geometryOk w h t p = true →
      (t = .spiRelay → 0 ≤ r.addr ∧ r.addr < 8 ∧ s.chipFresh r.addr.toNat) →
      ∃ u, exec (.construct w h t (.facade p r)) s = .next u
        ∧ u.facadeConstructed { width := w, height := h, transport := t, params := p, gpio := s.cfg.gpio, relay := r }
        ∧ u.gpio = s.gpio ∧ u.cfg.gpio = s.cfg.gpio
        ∧ (t = .spiRelay →
          u.relay.constructed ∧ u.relay.chipAtPowerOn ∧ u.cfg.relay = r ∧ LeavesChip .relay r.addr.toNat s u)
        ∧ (t ≠ .spiRelay → u.relay = s.relay ∧ u.cfg.relay = s.cfg.relay ∧ u.idleDevs = s.idleDevs)
        ∧ u.trace = s.trace ∧ u.dram = s.dram ∧ (∀ c, c < w / 64 → c < s.lcd.length → u.chip c = s.chip c) ∧ u.err = none
        ∧ u.prog = s.prog ∧ u.callbacks = s.callbacks ∧ u.sched = s.sched ∧ u.env = s.env)
    ∧ ∀ (w h : Nat) (t : Transport) (x : ExpId) (p : ExpParams), 0 ≤ p.addr → p.addr < 8 → s.chipFresh p.addr.toNat →
      ∃ u, exec (.construct w h t (.expander x p)) s = .next u
        ∧ (u.exp x).constructed ∧ (u.exp x).chipAtPowerOn ∧ u.cfg = s.cfg.setExp x p ∧ u.inTxn = false
        ∧ (∀ y, y ≠ x → u.exp y = s.exp y) ∧ u.trace = s.trace ∧ u.err = s.err ∧ SameSequencer s u ∧ SameLines s u
        ∧ SameSession s u ∧ SameOffload s u ∧ SameTarget s u ∧ SameFramebuffer s u ∧ u.prog = s.prog
        ∧ u.callbacks = s.callbacks ∧ u.sched = s.sched ∧ u.env = s.env ∧ LeavesChip x p.addr.toNat s u

/-- R160, R260, R280, R300, R365: a geometry the transport does not admit raises BadGeometry, an address outside [0, 8) raises
BadArgument, before any effect; an instance whose own chip is not at its power-on values is refused (R393, U21). The order of the
three, and that the relay's address is looked at on SPI_RELAY alone, are the model's choice (log 24). -/
def Obligations.ConstructErrors : Prop :=
  ∀ s : State, s.op = none → s.work = [] →
    (∀ (w h : Nat) (t : Transport) (p : Params) (r : ExpParams),
      ((w = 0 ∨ h = 0 ∨ w % 64 ≠ 0 ∨ h % 8 ≠ 0 ∨ (t = .offload ∧ 2 < w / 64)
          ∨ (t = .spiRelay ∧ p.vportMap.cs.length < w / 64)) →
        exec (.construct w h t (.facade p r)) s = .next (raise (.badGeometry w h) s))
      ∧ (geometryOk w h .spiRelay p = true → r.addr < 0 ∨ 8 ≤ r.addr →
        exec (.construct w h .spiRelay (.facade p r)) s = .next (raise (.badArgument (.address r.addr)) s))
      ∧ (geometryOk w h .spiRelay p = true → 0 ≤ r.addr → r.addr < 8 → ¬ s.chipFresh r.addr.toNat →
        exec (.construct w h .spiRelay (.facade p r)) s = .refused .chipNotAtPowerOn))
    ∧ ∀ (w h : Nat) (t : Transport) (x : ExpId) (p : ExpParams),
      (p.addr < 0 ∨ 8 ≤ p.addr → exec (.construct w h t (.expander x p)) s = .next (raise (.badArgument (.address p.addr)) s))
      ∧ (0 ≤ p.addr → p.addr < 8 → ¬ s.chipFresh p.addr.toNat →
        exec (.construct w h t (.expander x p)) s = .refused .chipNotAtPowerOn)

/-- The state after construction is the table of R55 (R390, R391), with the expander chips equal to the shadows (R393). -/
def Obligations.ResetState : Prop :=
  State.reset.facadeConstructed Config.cfg ∧ State.reset.gpio.constructed ∧ State.reset.relay.constructed
    ∧ State.reset.gpio.chipAtPowerOn ∧ State.reset.relay.chipAtPowerOn

/-! ## LCD words -/

/-- R181 to R185, R120: each command word has its encoding; with one chip selected it is carried on the lines of the active transport
and acts on that chip alone, as its rule says, and leaves display RAM. Which lines carry it is R120's; that they are driven at once,
past CTL_Q on OFFLOAD, and to the chip whose select bits stand on them, is the model's inference (DEDUCED, log 11). -/
def Obligations.LcdCommandWordsAct : Prop :=
  ∀ (s : State) (c : Nat), s.disp ≠ .atYield → (selectedChips s).1 = [c] → s.lcd.length = s.cfg.chips → s.wordReady →
    let acts := fun (i : Instr) (b : Byte) (k : LcdChip) =>
      encode s.cfg i = .wire .lcd10 [0x0#8, b]
        ∧ ∃ t, exec i s = .next t ∧ t.chip c = k ∧ (∀ j, j ≠ c → t.chip j = s.chip j) ∧ t.dram = s.dram
          ∧ t.trace = s.trace ++ s.lcdWordEvents c false b ∧ t.carries c false b
    acts .displayOn 0x3F#8 { s.chip c with on := true }
      ∧ acts .displayOff 0x3E#8 { s.chip c with on := false }
      ∧ acts .setStartLine 0xC0#8 { s.chip c with z := 0#6 }
      ∧ (∀ page, acts (.setPage page) (0xB8#8 ||| page.setWidth 8) { s.chip c with x := page })
      ∧ acts .setColumn 0x40#8 { s.chip c with y := 0#6 }

/-- R186, R120: a data word, RS = 1 and RW = 0 with its byte, carried as a command word is (DEDUCED, log 11), stores its byte at the
chip's page and column and advances the column, mod 64; every other byte of display RAM stays. -/
def Obligations.WriteDataWordActs : Prop :=
  ∀ (s : State) (c : Nat) (b : Byte), s.disp ≠ .atYield → (selectedChips s).1 = [c] → s.lcd.length = s.cfg.chips →
    s.wordReady → Mem.wf dramDefault s.dram →
    encode s.cfg (.writeData b) = .wire .lcd10 [0x2#8, b] ∧ ∃ t, exec (.writeData b) s = .next t
      ∧ t.dramRead c (s.chip c).x.toNat (s.chip c).y.toNat = b
      ∧ (∀ a, a ≠ dramAddr c (s.chip c).x (s.chip c).y → t.dramAt a = s.dramAt a)
      ∧ t.chip c = { s.chip c with y := (s.chip c).y + 1#6 } ∧ (∀ j, j ≠ c → t.chip j = s.chip j)
      ∧ t.trace = s.trace ++ s.lcdWordEvents c true b ∧ t.carries c true b

/-- R187, with the byte the word carries as the one the chip drives (log 12): on DIRECT and COOP, which alone emit the word, the lines
are at RS = 0 and RW = 1, the caller gets the byte, and no target state changes. -/
def Obligations.ReadStatusWordReturns : Prop :=
  ∀ (s : State) (c : Nat) (v : Byte), s.cfg.transport.bitBang = true → s.disp ≠ .atYield → (selectedChips s).1 = [c] →
    ∃ t, exec (.readStatus v) s = .next t ∧ t.ret = .byte v ∧ t.trace = s.trace ++ [.status c v]
      ∧ t.rs = false ∧ t.rw = true ∧ t.e = false ∧ t.ddir = .input ∧ t.busDir = .read ∧ SameTarget s t

/-- R188, R367: an LCD cycle with no chip selected, or with several, is refused; so is one while a transport operation is
suspended at a yield. R187, R269, R284: OFFLOAD and SPI_RELAY, which never set RW = 1 and never read the LCD, have no status read, and
its word is refused there. -/
def Obligations.LcdWordStops : Prop :=
  ∀ (s : State) (i : Instr), i.isLcdWord = true →
    (s.disp = .atYield → exec i s = .refused .undefinedConcurrentUse)
    ∧ (s.disp ≠ .atYield → s.cfg.transport.bitBang = false → ∀ v, i = .readStatus v → exec i s = .refused .noStatusRead)
    ∧ (s.disp ≠ .atYield → (s.cfg.transport.bitBang = true ∨ ∀ v, i ≠ .readStatus v) → (∀ c, (selectedChips s).1 ≠ [c]) →
      exec i s = .refused .notOneChip)

/-- What an LCD word leaves unchanged: everything but the lines R120 has it carried on, the chip it selects, and, for a data word, the
byte at that chip's page and column. On SPI_RELAY it is stated of the target and of HOST's own state, for a relay that carries the
word undisturbed; what the word leaves of the rest there, in every case, is in SerialFrame. That OFFLOAD's queues and SPI_RELAY's
selected chip stay, as the word is driven at once, is the model's inference (DEDUCED, log 11), and that `op` stays its choice (log
41). -/
def Obligations.LcdWordFrame : Prop :=
  ∀ (s t : State) (i : Instr), i.isLcdWord = true → exec i s = .next t →
    (s.cfg.transport ≠ .spiRelay →
      t.cfg = s.cfg ∧ t.gpio = s.gpio ∧ t.relay = s.relay ∧ SameSequencer s t ∧ SameSession s t ∧ SameBus s t
        ∧ SameFramebuffer s t ∧ SameCaller s t ∧ t.suspended = s.suspended ∧ t.cs = s.cs
        ∧ (s.cfg.transport.bitBang = true → SameOffload s t) ∧ (s.cfg.transport = .offload → SameLines s t)
        ∧ t.ctlQ = s.ctlQ ∧ t.dataQ = s.dataQ ∧ t.enqCount = s.enqCount)
    ∧ (s.wordReady →
      t.work = s.work ∧ t.err = s.err ∧ t.disp = s.disp ∧ t.op = s.op
        ∧ ((∀ v, i ≠ .readStatus v) → t.ret = s.ret ∧ (s.cfg.transport.bitBang = true → t.rw = false ∧ t.e = false))
        ∧ (∀ c, (selectedChips s).1 ≠ [c] → t.chip c = s.chip c)
        ∧ ((∀ b, i ≠ .writeData b) → SameDisplayRam s t)
        ∧ (Mem.wf dramDefault s.dram →
          ∀ a, (∀ c, (selectedChips s).1 = [c] → a ≠ dramAddr c (s.chip c).x (s.chip c).y) → t.dramAt a = s.dramAt a))

/-! ## Writes on DIRECT and COOP -/

/-- R27, R234: ready if and only if bits 7 and 4 of the sampled status are both 0; no other bit matters. -/
def Obligations.ReadyPredicate : Prop :=
  ∀ v : Byte, ready v = true ↔ v.getLsbD 7 = false ∧ v.getLsbD 4 = false

/-- R232 to R237: where the first status is ready, one status cycle, then the write: the chip acts on the word, and the lines are
left in write direction with E low. -/
def Obligations.LcdWriteReady : Prop :=
  ∀ (s : State) (c : Nat) (rs : Bool) (b : Byte) (cmd : LcdCmd), s.cfg.transport.bitBang = true → s.disp ≠ .atYield →
    s.slice = none → s.selChip = some c → c < s.cfg.chips → lcdDecode rs false b = .ok cmd →
    ready (drawStatus s).1 = true →
    ∃ t, exec (.lcdWrite rs b) s = .next t
      ∧ t.trace = s.trace ++ [.status c (drawStatus s).1, .lcd c rs b]
      ∧ t.lcd = (lcdRespond c cmd s).lcd ∧ t.dram = (lcdRespond c cmd s).dram
      ∧ t.st = .idle ∧ t.e = false ∧ t.rw = false ∧ t.rs = rs ∧ t.d = b ∧ t.ddir = .output ∧ t.busDir = .write
      ∧ t.cs = csPattern s.cfg.chips c ∧ t.selChip = some c ∧ t.ret = .unit ∧ t.op = s.opAfter ∧ t.work = s.work
      ∧ t.suspended = false

/-- R234, R236, R401: where it is not ready, no write cycle is made: the poll is to be made again, after a suspension under COOP
and at once under DIRECT; the lines keep their SET_READ_DIR levels. -/
def Obligations.LcdWriteNotReadyPollsAgain : Prop :=
  ∀ (s : State) (c : Nat) (rs : Bool) (b : Byte), s.cfg.transport.bitBang = true → s.disp ≠ .atYield →
    s.slice = none → s.selChip = some c → ready (drawStatus s).1 = false →
    ∃ t, exec (.lcdWrite rs b) s = .next t ∧ t.trace = s.trace ++ [.status c (drawStatus s).1] ∧ SameTarget s t
      ∧ t.st = .pollBusy ∧ t.suspended = (s.cfg.transport == .coop)
      ∧ t.work = [.fsmPoll, .fsmWriteDir rs (.imm b), .fsmStrobe, .fsmIdle, .ret .unit] ++ s.work
      ∧ t.rw = true ∧ t.rs = false ∧ t.e = false ∧ t.ddir = .input ∧ t.busDir = .read

/-- R232, R239: however many polls are not ready, if a ready one comes, HOST's moves reach the write, and the trace is those status
cycles, the ready one, and one write cycle. -/
def Obligations.LcdWriteCompletesAfterBusyPolls : Prop :=
  ∀ (s : State) (c : Nat) (rs : Bool) (b v : Byte) (cmd : LcdCmd) (busy rest : List Byte) (later : List Item)
    (moves : List Move), s.cfg.transport.bitBang = true → s.err = none → s.disp = .idle → s.work = [] →
    s.selChip = some c → c < s.cfg.chips → lcdDecode rs false b = .ok cmd →
    (∀ x ∈ busy, ready x = false) → ready v = true → s.env.status = busy ++ v :: rest →
    s.prog = .call (.lcdWrite rs b) :: later →
    s.sched = List.replicate (busy.length + 1) (.host none) ++ moves →
    ∃ t : State, Host.Core.run core (busy.length + 1) s = .next t
      ∧ t.trace = s.trace ++ busy.map (.status c ·) ++ [.status c v, .lcd c rs b]
      ∧ t.op = none ∧ t.work = [] ∧ t.prog = later ∧ t.sched = moves ∧ t.env.status = rest ∧ t.st = .idle
      ∧ t.lcd = (lcdRespond c cmd s).lcd ∧ t.dram = (lcdRespond c cmd s).dram

/-! ## The facade -/

/-- R166, R281: `sel_chip` is written; DIRECT and COOP drive the lines at once, OFFLOAD drives nothing, SPI_RELAY sets the CS bits
of the virtual port, CS0 to CS(CHIPS-1), and no other; a chip outside its range raises BadIndex. -/
def Obligations.SelectChipResult : Prop :=
  ∀ (s : State) (c : Nat), s.disp ≠ .atYield → s.inited = true → s.slice = none →
    (c < s.cfg.chips →
      ∃ t, exec (.selectChip c) s = .next t ∧ t.selChip = some c ∧ t.trace = s.trace ∧ t.ret = .unit ∧ t.op = s.opAfter
        ∧ (s.cfg.transport.bitBang = true →
          t.vport = s.vport
            ∧ ∀ k, k < s.cfg.chips → t.csLevel k = if k = c then s.cfg.params.csActive else !s.cfg.params.csActive)
        ∧ (s.cfg.transport = .offload → t.cs = s.cs ∧ t.vport = s.vport)
        ∧ (s.cfg.transport = .spiRelay →
          t.cs = s.cs ∧ ∀ i, i < 16 →
            t.vport.getLsbD i =
              if i ∈ s.cfg.params.vportMap.cs.take s.cfg.chips then decide (s.cfg.params.vportMap.cs[c]? = some i)
              else s.vport.getLsbD i))
    ∧ (s.cfg.chips ≤ c → exec (.selectChip c) s = .next (raise (.badIndex none (some c) none) s))

/-- R392, R215, R406: before `init` the four calls R392 names are refused as BeforeInit; a buffer of another length raises
BadBufferLength before any effect; a transport call by a callback of a dispatch entered at a yield is refused as
UndefinedConcurrentUse. `relay_byte` without SPI_RELAY and `Enqueue` without OFFLOAD are refused, and, where no chip is selected (R232's
assertion), `LcdWrite` and `relay_byte`; these are the model's choice (log 23). -/
def Obligations.FacadeErrors : Prop :=
  (∀ s : State, s.disp ≠ .atYield → s.inited = false →
      (∀ c, exec (.selectChip c) s = .refused .beforeInit)
        ∧ (∀ c bs, exec (.cmdGroup c bs) s = .refused .beforeInit)
        ∧ (∀ c ds, exec (.dataGroup c ds) s = .refused .beforeInit)
        ∧ ∀ buffer, exec (.printBuffer buffer) s = .refused .beforeInit)
    ∧ (∀ (s : State) (buffer : List Byte), s.disp ≠ .atYield → s.inited = true → buffer.length ≠ s.cfg.buflen →
      exec (.printBuffer buffer) s = .next (raise (.badBufferLength buffer.length) s))
    ∧ (∀ (s : State) (i : Instr), i.isTransportCall = true → s.disp = .atYield →
      exec i s = .refused .undefinedConcurrentUse)
    ∧ ∀ s : State, s.disp ≠ .atYield →
      (s.cfg.transport ≠ .spiRelay → ∀ rs b, exec (.relayByte rs b) s = .refused .wrongTransport)
        ∧ (s.cfg.transport ≠ .offload → ∀ w, exec (.enqueue w) s = .refused .wrongTransport)
        ∧ (s.selChip = none → s.slice = none → ∀ rs b,
          exec (.lcdWrite rs b) s = .refused .notOneChip
            ∧ (s.cfg.transport = .spiRelay → exec (.relayByte rs b) s = .refused .notOneChip))

/-- R214, R240 on DIRECT and COOP: `transport_setup()` leaves the lines at their setup levels, every select line deasserted and no
chip selected, with no LCD cycle; `init` is that and then DISPLAY_ON and SET_START_LINE to every chip, each after its ready status;
every chip is on with start line 0; the facade is initialised. -/
def Obligations.InitOnBitBang : Prop :=
  ∀ s : State, s.cfg.transport.bitBang = true → s.slice = none →
    (∃ u, run (setupSteps s.cfg.transport) s = .next u
      ∧ u.e = false ∧ u.rw = false ∧ u.rs = false ∧ u.d = 0x00#8 ∧ u.ddir = .output ∧ u.busDir = .write
      ∧ (∀ k, k < s.cfg.chips → u.csLevel k = !s.cfg.params.csActive) ∧ u.selChip = none ∧ u.trace = s.trace
      ∧ SameTarget s u)
    ∧ (s.disp ≠ .atYield → s.lcd.length = s.cfg.chips → s.pollsReady (2 * s.cfg.chips) →
      ∃ t, exec .init s = .next t ∧ t.inited = true
      ∧ t.trace = s.trace ++ bitBangEvents (initWrites s.cfg) s.env.status
      ∧ (∀ c, c < s.cfg.chips → t.chip c = { s.chip c with on := true, z := 0#6 })
      ∧ t.dram = s.dram ∧ t.ret = .unit ∧ t.op = s.opAfter ∧ t.work = s.work)

/-- R214, R267, R270 on OFFLOAD, where the queues have room: per chip one control word and the two commands, queued behind what was
there, as R266 says of a later operation's words; that words queued before the first `init` stay too is the model's choice (log
40). -/
def Obligations.InitOnOffload : Prop :=
  ∀ s : State, s.cfg.transport = .offload → s.disp ≠ .atYield → s.slice = none →
    s.ctlQ.length + s.cfg.chips ≤ s.cfg.params.offloadFifoDepth →
    s.dataQ.length + 2 * s.cfg.chips ≤ s.cfg.params.offloadFifoDepth →
    let evs := (List.range s.cfg.chips).flatMap fun c => offloadGroupEvents s.cfg c false [0x3F#8, 0xC0#8]
    ∃ t, exec .init s = .next t ∧ t.inited = true ∧ t.trace = s.trace ++ evs
      ∧ t.ctlQ.map (·.2) = s.ctlQ.map (·.2) ++ ctlWords evs ∧ t.dataQ.map (·.2) = s.dataQ.map (·.2) ++ dataWords evs
      ∧ (ctlWords evs).length = s.cfg.chips ∧ (dataWords evs).length = 2 * s.cfg.chips
      ∧ SameTarget s t ∧ t.ret = .unit ∧ t.op = s.opAfter

/-- R286, R214, R282 on SPI_RELAY: `transport_setup()` issues its four frames in order and leaves all 16 pins outputs, the virtual
port 0 and no chip selected; `init` is that and then DISPLAY_ON and SET_START_LINE to every chip by `relay_byte`. It is stated
with the pins' E low before and the default SEQ_ENABLED. -/
def Obligations.InitOnRelay : Prop :=
  ∀ s : State, s.calm → s.eLow .relay → s.cfg.relay.seqTest = .seqopClear → Mem.wf devDefault s.relay.dev →
    let w := cmdW s.cfg.relay.addr.toNat
    let frames := [Event.frameW w 0x0A#8 [0x00#8], .frameW w 0x00#8 [0x00#8], .frameW w 0x01#8 [0x00#8],
      .frameW w 0x14#8 [0x00#8, 0x00#8]]
    (∃ t, run (setupSteps .spiRelay) s = .next t
      ∧ t.trace = s.trace ++ frames ∧ t.vport = 0x0000#16 ∧ t.selChip = none
      ∧ t.relay.sh.get .dir .a = 0x00#8 ∧ t.relay.sh.get .dir .b = 0x00#8 ∧ t.relay.sh.iocon = 0x00#8
      ∧ t.relay.sh.get .olat .a = 0x00#8 ∧ t.relay.sh.get .olat .b = 0x00#8 ∧ SameTarget s t ∧ t.inTxn = false)
    ∧ (s.cfg.transport = .spiRelay → s.disp ≠ .atYield → s.lcd.length = s.cfg.chips →
      geometryOk s.cfg.width s.cfg.height s.cfg.transport s.cfg.params = true → s.cfg.params.ok = true →
      ∃ t, exec .init s = .next t ∧ t.inited = true
        ∧ t.trace = s.trace ++ frames ++ ((initWrites s.cfg).flatMap fun x =>
            relayEvents s.cfg.params w true (vp s.cfg.params.vportMap false false x.2.1 x.1 x.2.2))
        ∧ (∀ c, c < s.cfg.chips → t.chip c = { s.chip c with on := true, z := 0#6 })
        ∧ t.dram = s.dram ∧ t.ret = .unit ∧ t.op = s.opAfter ∧ t.work = s.work)

/-- R210, R212, R213, R215 on DIRECT and COOP with every status ready: `print_buffer` emits exactly the writes of the sweep, page
by page and chip by chip, 66 to a block, each after its status cycle. -/
def Obligations.PrintBufferSweeps : Prop :=
  ∀ (s : State) (buffer : List Byte), geometryOk s.cfg.width s.cfg.height s.cfg.transport s.cfg.params = true →
    s.cfg.transport.bitBang = true → s.disp ≠ .atYield → s.inited = true →
    s.slice = none → buffer.length = s.cfg.buflen → s.pollsReady (66 * s.cfg.pages * s.cfg.chips) →
    ∃ t, exec (.printBuffer buffer) s = .next t
      ∧ t.trace = s.trace ++ bitBangEvents (sweepWrites s.cfg buffer) s.env.status
      ∧ (sweepWrites s.cfg buffer).length = 66 * s.cfg.pages * s.cfg.chips
      ∧ t.ret = .unit ∧ t.op = s.opAfter ∧ t.work = s.work ∧ t.st = .idle

/-- R215 with R164: after `print_buffer` has returned on DIRECT, on COOP or on SPI_RELAY, every chip's display RAM holds the bytes
of the framebuffer, where a page that a later one of the sweep aliases holds the later one's. The SPI_RELAY half rests on the chip
accepting every byte, which R189 and R408 mark ASSUMED (log 36). -/
def Obligations.PrintBufferShows : Prop :=
  ∀ (s : State) (buffer : List Byte),
    ((s.cfg.transport.bitBang = true ∧ s.slice = none ∧ s.pollsReady (66 * s.cfg.pages * s.cfg.chips)) ∨ s.relayReady) →
    geometryOk s.cfg.width s.cfg.height s.cfg.transport s.cfg.params = true → s.cfg.params.ok = true →
    s.disp ≠ .atYield → s.inited = true → buffer.length = s.cfg.buflen → s.lcd.length = s.cfg.chips →
    (∀ x, Mem.wf devDefault (s.exp x).dev) → Mem.wf dramDefault s.dram →
    ∃ t, exec (.printBuffer buffer) s = .next t ∧ t.err = s.err ∧ t.op = s.opAfter ∧ t.ret = .unit
      ∧ (s.cfg.transport = .spiRelay → t.trace = s.trace ++ s.relayWriteEvents (sweepWrites s.cfg buffer))
      ∧ ∀ page chip column, page < s.cfg.pages → s.cfg.pages ≤ page + 8 → chip < s.cfg.chips → column < 64 →
        buffer[column + 64 * chip + page * s.cfg.width]? = some (t.dramRead chip (page % 8) column)

/-- R261, R270, R271 on OFFLOAD, where the queues have room: `print_buffer` queues, block by block, the control word of the command
group before its two bytes and that of the data group before its 64, and counts them. -/
def Obligations.PrintBufferQueues : Prop :=
  ∀ (s : State) (buffer : List Byte), s.cfg.transport = .offload → s.disp ≠ .atYield → s.inited = true → s.slice = none →
    buffer.length = s.cfg.buflen →
    s.ctlQ.length + 2 * s.cfg.pages * s.cfg.chips ≤ s.cfg.params.offloadFifoDepth →
    s.dataQ.length + 66 * s.cfg.pages * s.cfg.chips ≤ s.cfg.params.offloadFifoDepth →
    let evs := offloadSweepEvents s.cfg buffer
    ∃ t, exec (.printBuffer buffer) s = .next t ∧ t.trace = s.trace ++ evs
      ∧ t.ctlQ.map (·.2) = s.ctlQ.map (·.2) ++ ctlWords evs ∧ t.dataQ.map (·.2) = s.dataQ.map (·.2) ++ dataWords evs
      ∧ (ctlWords evs).length = 2 * s.cfg.pages * s.cfg.chips
      ∧ (dataWords evs).length = 66 * s.cfg.pages * s.cfg.chips
      ∧ SameTarget s t ∧ t.ret = .unit ∧ t.op = s.opAfter

/-- R217, R218, R232 on DIRECT and COOP with every status ready: the bytes go out in list order, each after its status, to the
chip named, and act on it as their words do. -/
def Obligations.GroupsOnBitBang : Prop :=
  ∀ (s : State) (c : Nat) (bs : List Byte), s.cfg.transport.bitBang = true → s.disp ≠ .atYield → s.inited = true →
    s.slice = none → c < s.cfg.chips → s.pollsReady bs.length →
    let result := fun (i : Instr) (rs : Bool) =>
      let ws := bs.map fun b => (c, rs, b)
      ∃ t, exec i s = .next t ∧ t.trace = s.trace ++ bitBangEvents ws s.env.status ∧ t.selChip = some c
        ∧ t.lcd = (actAll ws s).lcd ∧ t.dram = (actAll ws s).dram ∧ t.ret = .unit ∧ t.op = s.opAfter
    ((∀ b ∈ bs, ∃ cmd, lcdDecode false false b = .ok cmd) → result (.cmdGroup c bs) false)
      ∧ result (.dataGroup c bs) true

/-- R217, R218, R282 on SPI_RELAY: the bytes go out in list order, each by `relay_byte`, to the chip named, and act on it as their
words do. -/
def Obligations.GroupsOnRelay : Prop :=
  ∀ (s : State) (c : Nat) (bs : List Byte), s.relayReady →
    geometryOk s.cfg.width s.cfg.height s.cfg.transport s.cfg.params = true → s.cfg.params.ok = true →
    Mem.wf devDefault s.relay.dev → s.disp ≠ .atYield → s.inited = true → c < s.cfg.chips →
    let result := fun (i : Instr) (rs : Bool) =>
      let ws := bs.map fun b => (c, rs, b)
      ∃ t, exec i s = .next t ∧ t.trace = s.trace ++ s.relayWriteEvents ws ∧ t.selChip = some c
        ∧ t.lcd = (actAll ws s).lcd ∧ t.dram = (actAll ws s).dram ∧ t.ret = .unit ∧ t.op = s.opAfter
    ((∀ b ∈ bs, ∃ cmd, lcdDecode false false b = .ok cmd) → result (.cmdGroup c bs) false)
      ∧ result (.dataGroup c bs) true

/-- R261, with the default words of R135, where the queues have room: one control word for every group, then one data word per byte.
One `LcdWrite(rs, b)` queues its one data word behind the control word of the selected chip with RS = rs and RW = 0 (R12, R180): alone
where that word stands already, as the table of R412 counts it, and else with it. That it does so in the second case alone is read from
these rules together (DEDUCED, log 23). -/
def Obligations.GroupsOnOffload : Prop :=
  (∀ (s : State) (c : Nat) (bs : List Byte), s.cfg.transport = .offload → s.disp ≠ .atYield → s.inited = true →
    s.slice = none → c < s.cfg.chips → s.ctlQ.length < s.cfg.params.offloadFifoDepth →
    s.dataQ.length + bs.length ≤ s.cfg.params.offloadFifoDepth →
    let result := fun (i : Instr) (rs : Bool) =>
      ∃ t, exec i s = .next t ∧ t.trace = s.trace ++ offloadGroupEvents s.cfg c rs bs
        ∧ t.ctlQ.map (·.2) = s.ctlQ.map (·.2) ++ [ctlWord s.cfg.params.ctlMap c rs false]
        ∧ t.dataQ.map (·.2) = s.dataQ.map (·.2) ++ bs ∧ t.selChip = some c ∧ SameTarget s t ∧ t.ret = .unit
        ∧ t.op = s.opAfter
    result (.cmdGroup c bs) false ∧ result (.dataGroup c bs) true)
    ∧ (∀ (s : State) (c : Nat) (rs : Bool) (b : Byte), s.cfg.transport = .offload → s.disp ≠ .atYield → s.slice = none →
      s.selChip = some c → s.ctlQ.length < s.cfg.params.offloadFifoDepth → s.dataQ.length < s.cfg.params.offloadFifoDepth →
      let w := ctlWord s.cfg.params.ctlMap c rs false
      ∃ t, exec (.lcdWrite rs b) s = .next t ∧ t.standingCtl = some w ∧ t.dataQ.map (·.2) = s.dataQ.map (·.2) ++ [b]
        ∧ (s.standingCtl = some w → t.trace = s.trace ++ [.qData b] ∧ t.ctlQ = s.ctlQ)
        ∧ (s.standingCtl ≠ some w → t.trace = s.trace ++ [.qCtl w, .qData b]
          ∧ t.ctlQ = s.ctlQ ++ [(s.enqCount, w)] ∧ t.dataQ = s.dataQ ++ [(s.enqCount + 1, b)])
        ∧ t.selChip = s.selChip ∧ SameTarget s t ∧ t.ret = .unit ∧ t.op = s.opAfter)
    ∧ ctlWord Config.ctlMap 0 false false = 0x1#4 ∧ ctlWord Config.ctlMap 1 false false = 0x2#4
    ∧ ctlWord Config.ctlMap 0 true false = 0x5#4 ∧ ctlWord Config.ctlMap 1 true false = 0x6#4

/-- What the transport calls and `buffer_offset` leave unchanged. -/
def Obligations.FacadeFrame : Prop :=
  ∀ (s t : State) (i : Instr), (i.isTransportCall = true ∨ ∃ p c k, i = .bufferOffset p c k) → exec i s = .next t →
    t.cfg = s.cfg ∧ t.gpio = s.gpio ∧ SameCaller s t ∧ SameInterrupts s.relay t.relay ∧ t.relay.snap = s.relay.snap
      ∧ t.ctlLines = s.ctlLines ∧ t.ctlDriven = s.ctlDriven ∧ t.dataLines = s.dataLines ∧ t.strobe = s.strobe
      ∧ ((∀ buffer, i ≠ .printBuffer buffer) → SameFramebuffer s t)
      ∧ (s.cfg.transport.bitBang = true →
        t.relay = s.relay ∧ SameOffload s t ∧ t.vport = s.vport ∧ (t.err = s.err ∨ t.err.isSome)
          ∧ (t.err = none → SameBus s t))
      ∧ (s.cfg.transport = .offload →
        t.relay = s.relay ∧ SameLines s t ∧ SameTarget s t ∧ t.vport = s.vport ∧ t.st = s.st ∧ (t.err = none → SameBus s t))
      ∧ (s.cfg.transport = .spiRelay → SameLines s t ∧ SameOffload s t ∧ t.st = s.st)

/-- What the transport calls and `buffer_offset` leave of display RAM: all of it, for those that send no data; on DIRECT and COOP,
all but the page the chip's page register names, for the data calls, and all but the panel's chips, for the sweep. -/
def Obligations.FacadeDisplayRamFrame : Prop :=
  ∀ (s t : State) (i : Instr), exec i s = .next t → Mem.wf dramDefault s.dram →
    let same := fun a => t.dramAt a = s.dramAt a
    ((∃ c, i = .selectChip c) ∨ (∃ w, i = .enqueue w) ∨ (∃ p c k, i = .bufferOffset p c k) → ∀ a, same a)
      ∧ (s.cfg.transport.bitBang = true → i = .init ∨ (∃ c bs, i = .cmdGroup c bs) ∨ (∃ b, i = .lcdWrite false b) →
        ∀ a, same a)
      ∧ (s.cfg.transport.bitBang = true → ∀ c b, s.selChip = some c → i = .lcdWrite true b →
        ∀ a, a ≠ dramAddr c (s.chip c).x (s.chip c).y → same a)
      ∧ (s.cfg.transport.bitBang = true → ∀ c ds, i = .dataGroup c ds →
        ∀ a, (a < dramAddr c (s.chip c).x 0#6 ∨ dramAddr c (s.chip c).x 0#6 + 64 ≤ a) → same a)
      ∧ (s.cfg.transport ≠ .offload → i.isTransportCall = true → ∀ a, 512 * s.cfg.chips ≤ a → same a)

/-! ## The relay -/

/-- R282, R283: `relay_byte` and, on SPI_RELAY, `LcdWrite`: three or two virtual-port writes, RW = 0 in each, E set in the one that
raises it; at the end the virtual port, the shadows and the chip's OLAT hold the word with E = 0, and the selected LCD chip has
acted on the byte at the falling edge of E. -/
def Obligations.RelayByteResult : Prop :=
  ∀ (s : State) (c : Nat) (rs : Bool) (b : Byte) (cmd : LcdCmd), s.relayReady →
    geometryOk s.cfg.width s.cfg.height s.cfg.transport s.cfg.params = true → s.cfg.params.ok = true →
    Mem.wf devDefault s.relay.dev → s.disp ≠ .atYield → s.selChip = some c → c < s.cfg.chips →
    lcdDecode rs false b = .ok cmd →
    let v := vp s.cfg.params.vportMap false false rs c b
    ∀ i, i = .relayByte rs b ∨ i = .lcdWrite rs b →
      ∃ t, exec i s = .next t
        ∧ t.trace = s.trace ++ relayEvents s.cfg.params (s.cmdW .relay) (s.seq .relay) v
        ∧ t.vport = v ∧ cat16 (t.relay.sh.get .olat .b) (t.relay.sh.get .olat .a) = v ∧ t.relayPins = v
        ∧ t.lcd = (lcdRespond c cmd s).lcd ∧ t.dram = (lcdRespond c cmd s).dram
        ∧ t.inTxn = false ∧ t.ret = .unit ∧ t.op = s.opAfter ∧ t.work = s.work

/-- R283: `VPortWrite(v)`, where E does not fall: the virtual port, the OLAT shadows and registers hold v, in one frame with
sequential mode, in two without; the pins are at CS_ACTIVE where a CS bit, of CS0 to CS(CHIPS-1), is 1 and at the other level where
it is 0, the others at their own values. -/
def Obligations.VportWriteResult : Prop :=
  ∀ (s : State) (v : Half), s.calm → s.noFall v → Mem.wf devDefault s.relay.dev →
    ∃ t, exec (.vportWrite v) s = .next t
      ∧ t.trace = s.trace ++ vportEvents (s.cmdW .relay) (s.seq .relay) v
      ∧ t.vport = v ∧ t.relay.sh.get .olat .a = v.extractLsb' 0 8 ∧ t.relay.sh.get .olat .b = v.extractLsb' 8 8
      ∧ (∀ i, t.relayPinLevel i =
        if i ∈ s.cfg.params.vportMap.cs.take s.cfg.chips then (if v.getLsbD i then s.cfg.params.csActive else !s.cfg.params.csActive)
        else v.getLsbD i)
      ∧ t.relayPins = v ∧ SameChipBut s.relay t.relay 0x14 2 ∧ SameTarget s t ∧ t.inTxn = false ∧ t.op = s.op

/-- R47, R282: a virtual-port write in one frame that makes E fall is an LCD cycle on the chip its CS bits select. -/
def Obligations.VportFallingEdgeLatches : Prop :=
  ∀ (s : State) (v : Half) (c : Nat) (cmd : LcdCmd), s.calm → s.cfg.transport = .spiRelay → s.seq .relay = true →
    Mem.wf devDefault s.relay.dev →
    let m := s.cfg.params.vportMap
    s.relayPins.getLsbD m.e = true → v.getLsbD m.e = false → c < s.cfg.chips →
    (∀ k, k < s.cfg.chips → v.getLsbD (m.cs.getD k 16) = decide (k = c)) →
    lcdDecode (v.getLsbD m.rs) (v.getLsbD m.rw) (vpData m v) = .ok cmd →
    ∃ t, exec (.vportWrite v) s = .next t ∧ t.lcd = (lcdRespond c cmd s).lcd ∧ t.dram = (lcdRespond c cmd s).dram
      ∧ t.relayPins = v ∧ t.vport = v ∧ t.trace = s.trace ++ vportEvents (s.cmdW .relay) true v

/-! ## The offload device -/

/-- R135, R262: a control word of CTL_MAP, its CS bit and, for data, its RS bit set, is driven onto ctl_lines and recorded; nothing
else changes. That a control word HOST runs itself goes straight onto the lines, past CTL_Q and on every transport, is the model's
choice (log 11). -/
def Obligations.ControlWordsDrive : Prop :=
  ∀ s : State,
    let m := s.cfg.params.ctlMap
    let driven := fun w : Nibble => { s with ctlLines := w, ctlDriven := true, trace := s.trace ++ [.dCtl w] }
    exec .ctlChip0Cmd s = .next (driven (1#4 <<< m.cs0)) ∧ exec .ctlChip1Cmd s = .next (driven (1#4 <<< m.cs1))
      ∧ exec .ctlChip0Data s = .next (driven (1#4 <<< m.cs0 ||| 1#4 <<< m.rs))
      ∧ exec .ctlChip1Data s = .next (driven (1#4 <<< m.cs1 ||| 1#4 <<< m.rs))

/-- R263: a data word goes onto data_lines; under OFFLOAD the chip that ctl_lines select acts on it as they say, and a pattern that
does not select one chip is refused (R188). Before any control word has been driven the lines are a draw, and the cycle is a write
to the chip drawn, whatever RW was drawn (R188, ruling C13; DEDUCED, log 38). On another transport the LCD is not wired to these
lines (log 11). -/
def Obligations.DataWordLatches : Prop :=
  ∀ (s : State) (b : Byte),
    let s1 := { s with dataLines := b, strobe := false, trace := s.trace ++ [.dData b] }
    let m := s.cfg.params.ctlMap
    let oneChip := fun (w : Nibble) (c : Nat) => c < s.cfg.chips ∧ ∀ k, k < s.cfg.chips → ctlChip m w k = decide (k = c)
    (s.cfg.transport ≠ .offload → exec (.dataWord b) s = .next s1)
      ∧ (s.cfg.transport = .offload → s.ctlDriven = true →
        (∀ c cmd, oneChip s.ctlLines c → lcdDecode (s.ctlLines.getLsbD m.rs) (s.ctlLines.getLsbD m.rw) b = .ok cmd →
          exec (.dataWord b) s = .next (lcdRespond c cmd s1))
          ∧ ((∀ c, ¬ oneChip s.ctlLines c) → exec (.dataWord b) s = .refused .notOneChip))
      ∧ (s.cfg.transport = .offload → s.ctlDriven = false →
        let d := drawCtl s1
        (∀ c cmd, oneChip d.1 c → lcdDecode (d.1.getLsbD m.rs) false b = .ok cmd →
          exec (.dataWord b) s = .next (lcdRespond c cmd d.2))
          ∧ ((∀ c, ¬ oneChip d.1 c) → exec (.dataWord b) s = .refused .notOneChip))

/-- R264: `Enqueue` appends where there is room; on a full queue HOST holds, and after the consumer has drained one word the word is
appended. -/
def Obligations.EnqueueResult : Prop :=
  ∀ s : State, s.cfg.transport = .offload → s.disp ≠ .atYield → s.slice = none →
    (∀ w, s.ctlQ.length < s.cfg.params.offloadFifoDepth →
      ∃ t, exec (.enqueue (.ctl w)) s = .next t ∧ t.ctlQ = s.ctlQ ++ [(s.enqCount, w)] ∧ t.dataQ = s.dataQ
        ∧ t.trace = s.trace ++ [.qCtl w] ∧ t.enqCount = s.enqCount + 1 ∧ t.ret = .unit ∧ t.op = s.opAfter)
    ∧ (∀ b, s.dataQ.length < s.cfg.params.offloadFifoDepth →
      ∃ t, exec (.enqueue (.data b)) s = .next t ∧ t.dataQ = s.dataQ ++ [(s.enqCount, b)] ∧ t.ctlQ = s.ctlQ
        ∧ t.trace = s.trace ++ [.qData b] ∧ t.enqCount = s.enqCount + 1 ∧ t.ret = .unit ∧ t.op = s.opAfter)
    ∧ (∀ w n v q, s.ctlQ = (n, v) :: q → s.ctlQ.length = s.cfg.params.offloadFifoDepth → s.work = [] →
      s.cfg.params.offloadOrder = .independent →
      ∃ t u z, exec (.enqueue (.ctl w)) s = .next t ∧ t.ctlQ = s.ctlQ ∧ t.trace = s.trace ∧ t.suspended = s.suspended
        ∧ liveMove .offCtl t = .next u ∧ u.ctlQ = q
        ∧ liveMove (.host none) u = .next z ∧ z.ctlQ = q ++ [(s.enqCount, w)] ∧ z.op = s.opAfter)
    ∧ ∀ b, s.dataQ.length = s.cfg.params.offloadFifoDepth →
      ∃ t, exec (.enqueue (.data b)) s = .next t ∧ t.dataQ = s.dataQ ∧ t.trace = s.trace
        ∧ t.work = [.enqData (.imm b), .ret .unit] ++ s.work ∧ t.suspended = s.suspended

/-- R265: each queue drains its head, in FIFO order; INDEPENDENT puts no other constraint, and neither does MERGED where the other
queue is empty; under MERGED a consumer drains only where its head's number is below the other head's, so every word enqueued
before it has drained (queues numbered as the invariant says). -/
def Obligations.ConsumersDrainInOrder : Prop :=
  (∀ (s : State) (k : Nat) (b : Byte) (r : List (Nat × Byte)), s.cfg.transport = .offload → s.dataQ = (k, b) :: r →
    numbered s.dataQ s.enqCount →
    (s.cfg.params.offloadOrder = .independent ∨ s.ctlQ = [] →
      liveMove .offData s = ofExcept (drainData b { s with dataQ := r }))
      ∧ ∀ a ∈ r, k < a.1)
  ∧ ∀ (s : State) (n : Nat) (w : Nibble) (q : List (Nat × Nibble)), s.cfg.transport = .offload → s.ctlQ = (n, w) :: q →
    numbered s.ctlQ s.enqCount → numbered s.dataQ s.enqCount →
    let drained := { s with ctlQ := q, ctlLines := w, ctlDriven := true, trace := s.trace ++ [.dCtl w] }
    (s.cfg.params.offloadOrder = .independent → liveMove .offCtl s = .next drained)
      ∧ (s.cfg.params.offloadOrder = .merged → (∀ a ∈ s.dataQ, n < a.1) → liveMove .offCtl s = .next drained)
      ∧ (s.cfg.params.offloadOrder = .merged → (∃ a ∈ s.dataQ, a.1 ≤ n) → liveMove .offCtl s = .next s)
      ∧ (∀ a ∈ q, n < a.1)
      ∧ ∀ k b r, s.dataQ = (k, b) :: r → s.cfg.params.offloadOrder = .merged →
        (n ≤ k → liveMove .offData s = .next s)
          ∧ (k < n → liveMove .offData s = ofExcept (drainData b { s with dataQ := r }))

/-! ## Errors -/

/-- R361, R360, R363 (c), R409: each error has its code; taking an error records it, ends the operation and whatever called it,
frees the bus, and leaves every effect so far; afterwards HOST makes no move, while words still queued drain. -/
def Obligations.ErrorsEndTheRun : Prop :=
  (∀ (e : Fault) (s : State),
      let t := raise e s
      t.err = some e ∧ t.op = none ∧ t.work = [] ∧ t.inTxn = false ∧ t.gpio = s.gpio ∧ t.relay = s.relay
        ∧ t.trace = s.trace ∧ SameTarget s t ∧ SameOffload s t ∧ SameLines s t ∧ SameSession s t)
    ∧ (∀ (s : State) (e : Fault) (m : Move) (ms : List Move), s.err = some e → s.sched = m :: ms →
      ((∃ q, m = .host q) ∨ (∃ x q, m = .dispatch x q) → step s = .fault e)
        ∧ (s.ctlQ = [] → s.dataQ = [] → step s = .fault e)
        ∧ ∀ n w q, m = .offCtl → s.cfg.transport = .offload → s.cfg.params.offloadOrder = .independent →
          s.ctlQ = (n, w) :: q → step s = .next (drainCtl w { s with sched := ms, ctlQ := q }))
    ∧ (∀ n, (Fault.invalidPin n).code = some 1) ∧ (∀ c g, (Fault.busError c g).code = some 2)
    ∧ (∀ w h, (Fault.badGeometry w h).code = some 3) ∧ (∀ n, (Fault.badBufferLength n).code = some 4)
    ∧ (∀ p c k, (Fault.badIndex p c k).code = some 5) ∧ (∀ a, (Fault.badArgument a).code = some 6)
    ∧ ∀ w, (Fault.refused w).code = some 7

/-- R301, R362: a pin outside [0, 16) raises InvalidPin before any effect; in a batch, the first bad one in argument order. -/
def Obligations.InvalidPinHasNoEffect : Prop :=
  ∀ (s : State) (x : ExpId) (n : Int), (n < 0 ∨ 16 ≤ n) →
    let bad : Out := .next (raise (.invalidPin n) s)
    (∀ d fs, exec (.setup x n d fs) s = bad) ∧ (∀ l, exec (.output x n l) s = bad)
      ∧ (∀ r, exec (.input x n r) s = bad) ∧ (∀ cb, exec (.subscribe x n cb) s = bad)
      ∧ (∀ (good rest : List Int) r, (∀ k ∈ good, 0 ≤ k ∧ k < 16) → exec (.inputPins x (good ++ n :: rest) r) s = bad)
      ∧ ∀ (good rest : List (Int × Int)) l, (∀ k ∈ good, 0 ≤ k.1 ∧ k.1 < 16) →
        exec (.outputPins x (good ++ (n, l) :: rest)) s = bad

/-- R305, R312, R315, R316, R318, R319, R366: arguments out of range and kinds with no shadow raise their errors before any effect,
in the order the pseudocode lists the checks. -/
def Obligations.ArgumentErrors : Prop :=
  ∀ (s : State) (x : ExpId),
    (∀ (n : Int) d fs, 0 ≤ n → n < 16 →
      ((∃ k, d = .other k) ∨ ∃ k, SetupFlag.other k ∈ fs) →
      exec (.setup x n d fs) s = .next (raise (.badArgument (.direction d fs)) s))
    ∧ (∀ v : Int, (v < 0 ∨ 0x10000 ≤ v) → exec (.writeGpio x v) s = .next (raise (.badArgument (.value v)) s))
    ∧ (∀ k p v, k = .intf ∨ k = .intcap ∨ k = .gpio →
      exec (.regWrite x k p v) s = .next (raise (.refused (.kind k)) s)
        ∧ exec (.regRead x k p) s = .next (raise (.refused (.kind k)) s))
    ∧ (∀ k p (v : Int), k ≠ .intf → k ≠ .intcap → k ≠ .gpio → (v < 0 ∨ 0x100 ≤ v) →
      exec (.regWrite x k p v) s = .next (raise (.badArgument (.value v)) s))
    ∧ ∀ p (v : Int), 0x80 ≤ v → v < 0x100 →
      exec (.regWrite x .iocon p v) s = .next (raise (.refused .ioconBank) s)

/-- R363, R344: a `reg_write` whose frame fails: BusError with the frame's command and register bytes, the shadow new, the chip's
register old or new by a draw, the snapshot as before, the bus free, and no retry. A `read_gpio` whose first frame fails, or its
second without sequential mode, and a dispatch whose `read_gpio` fails: BusError, the snapshot, the shadows and the chip as
before, and no callback runs. -/
def Obligations.BusErrorOnFrame : Prop :=
  ∀ (s : State) (x : ExpId), s.slice = none → s.openFrame = none →
    (∀ (k : Kind) (sk : ShKind) (p : Port) (v : Byte) (later : List Bool), s.env.frameFails = true :: later →
      k.shadow = some sk → (sk = .iocon → v.getLsbD 7 = false) → s.eLow x → Mem.wf devDefault (s.exp x).dev →
      ∃ t, exec (.regWrite x k p v.toNat) s = .next t
        ∧ t.err = some (.busError (s.cmdW x) (regAddr sk p)) ∧ t.op = none ∧ t.inTxn = false ∧ t.work = []
        ∧ (t.exp x).sh.get sk p = v ∧ (t.exp x).snap = (s.exp x).snap
        ∧ (t.exp x).devRead (regAddr sk p).toNat
          = (if (drawCoin s).1 then some v else (s.exp x).devRead (regAddr sk p).toNat)
        ∧ t.trace = s.trace ++ [.frameFailed (s.cmdW x) (regAddr sk p)])
    ∧ (let failed := fun (i : Instr) (reg : Byte) (evs : List Event) =>
        ∃ t, exec i s = .next t ∧ t.err = some (.busError (s.cmdR x) reg) ∧ t.op = none ∧ t.inTxn = false ∧ t.work = []
          ∧ (t.exp x).snap = (s.exp x).snap ∧ (t.exp x).sh = (s.exp x).sh ∧ (t.exp x).dev = (s.exp x).dev
          ∧ t.trace = s.trace ++ evs ++ [.frameFailed (s.cmdR x) reg]
      let enabled := (s.exp x).pending ≠ [] ∧ s.inTxn = false ∧ s.disp = .idle ∧ (s.suspended = true ∨ (s.op = none ∧ s.work = []))
      (∀ later, s.env.frameFails = true :: later →
        failed (.readGpio x) 0x12#8 [] ∧ (enabled → failed (.dispatch x) 0x12#8 []))
      ∧ ∀ later, s.env.frameFails = false :: true :: later → s.seq x = false →
        failed (.readGpio x) 0x13#8 [.frameR (s.cmdR x) 0x12#8 [s.nextPins.1]]
          ∧ (enabled → failed (.dispatch x) 0x13#8 [.frameR (s.cmdR x) 0x12#8 [s.nextPins.1]]))

/-! ## Expander operations -/

/-- R305: the three shadows get pin n's bit, direction IN as 1, each followed by its full-register frame, also where nothing
changes; the chip then holds them. -/
def Obligations.SetupResult : Prop :=
  ∀ (s : State) (x : ExpId) (n : Nat) (d : Direction) (fs : List SetupFlag), s.calm → n < 16 →
    (d = .input ∨ d = .output) → (∀ f ∈ fs, f = .pullUp ∨ f = .invert) → Mem.wf devDefault (s.exp x).dev →
    let p := portOf n
    let w := s.cmdW x
    ∃ t, exec (.setup x n d fs) s = .next t
      ∧ (∀ k i, i < 8 → k = .dir ∨ k = .ipol ∨ k = .gppu →
        ((t.exp x).sh.get k p).getLsbD i =
          if i = n % 8 then
            (if k = .dir then decide (d = .input) else if k = .ipol then decide (.invert ∈ fs) else decide (.pullUp ∈ fs))
          else ((s.exp x).sh.get k p).getLsbD i)
      ∧ t.trace = s.trace ++ [.frameW w (regAddr .dir p) [(t.exp x).sh.get .dir p],
          .frameW w (regAddr .ipol p) [(t.exp x).sh.get .ipol p], .frameW w (regAddr .gppu p) [(t.exp x).sh.get .gppu p]]
      ∧ (∀ k, k = .dir ∨ k = .ipol ∨ k = .gppu →
        (t.exp x).devRead (regAddr k p).toNat = some ((t.exp x).sh.get k p))
      ∧ t.inTxn = false ∧ t.ret = .unit ∧ t.op = s.opAfter ∧ t.work = s.work

/-- R307: the latch's bit n is written, any nonzero level as 1, and one OLAT frame carries the whole register. -/
def Obligations.OutputResult : Prop :=
  ∀ (s : State) (x : ExpId) (n : Nat) (level : Int), s.calm → n < 16 → s.eLow x → Mem.wf devDefault (s.exp x).dev →
    let p := portOf n
    ∃ t, exec (.output x n level) s = .next t
      ∧ (∀ i, i < 8 → ((t.exp x).sh.get .olat p).getLsbD i =
        if i = n % 8 then decide (level ≠ 0) else ((s.exp x).sh.get .olat p).getLsbD i)
      ∧ t.trace = s.trace ++ [.frameW (s.cmdW x) (regAddr .olat p) [(t.exp x).sh.get .olat p]]
      ∧ (t.exp x).devRead (regAddr .olat p).toNat = some ((t.exp x).sh.get .olat p)
      ∧ t.inTxn = false ∧ t.ret = .unit ∧ t.op = s.opAfter ∧ t.work = s.work

/-- R309: every pin of the mapping gets its level in the latch, the other pins keep theirs, and one frame per port touched is
issued, A then B, none for an empty mapping. -/
def Obligations.OutputPinsResult : Prop :=
  ∀ (s : State) (x : ExpId) (m : List (Nat × Int)), s.calm → (∀ nl ∈ m, nl.1 < 16) → (m.map (·.1)).Nodup → s.eLow x →
    Mem.wf devDefault (s.exp x).dev →
    let frame := fun (t : State) (p : Port) =>
      if ∃ nl ∈ m, portOf nl.1 = p then [Event.frameW (s.cmdW x) (regAddr .olat p) [(t.exp x).sh.get .olat p]] else []
    ∃ t, exec (.outputPins x (m.map fun nl => ((nl.1 : Int), nl.2))) s = .next t
      ∧ (∀ nl ∈ m, ((t.exp x).sh.get .olat (portOf nl.1)).getLsbD (nl.1 % 8) = decide (nl.2 ≠ 0))
      ∧ (∀ n, n < 16 → n ∉ m.map (·.1) →
        ((t.exp x).sh.get .olat (portOf n)).getLsbD (n % 8) = ((s.exp x).sh.get .olat (portOf n)).getLsbD (n % 8))
      ∧ t.trace = s.trace ++ frame t .a ++ frame t .b
      ∧ (∀ nl ∈ m, (t.exp x).devRead (regAddr .olat (portOf nl.1)).toNat = some ((t.exp x).sh.get .olat (portOf nl.1)))
      ∧ t.inTxn = (s.inTxn && m.isEmpty) ∧ t.ret = .unit ∧ t.op = s.opAfter

/-- R308, R310: the snapshot's bits, in argument order with duplicates kept: with no frame and no effect, or, with refresh, after
one `read_gpio`. -/
def Obligations.InputResult : Prop :=
  ∀ (s : State) (x : ExpId), s.calm →
    let a := s.nextPins.1
    let b := s.nextPins.2
    (∀ n, n < 16 →
      (∃ t, exec (.input x (n : Nat) false) s = .next t ∧ t.ret = .bit ((s.exp x).snap.getLsbD n)
        ∧ t.trace = s.trace ∧ t.exp x = s.exp x ∧ t.op = s.opAfter)
      ∧ ∃ t, exec (.input x (n : Nat) true) s = .next t ∧ t.ret = .bit ((cat16 b a).getLsbD n)
        ∧ t.trace = s.trace ++ gpioReadEvents (s.cmdR x) (s.seq x) a b ∧ (t.exp x).snap = cat16 b a ∧ t.op = s.opAfter)
    ∧ ∀ ns : List Nat, (∀ n ∈ ns, n < 16) →
      (∃ t, exec (.inputPins x (ns.map Int.ofNat) false) s = .next t
        ∧ t.ret = .bits (ns.map fun n => (s.exp x).snap.getLsbD n) ∧ t.trace = s.trace ∧ t.exp x = s.exp x ∧ t.op = s.opAfter)
      ∧ ∃ t, exec (.inputPins x (ns.map Int.ofNat) true) s = .next t
        ∧ t.ret = .bits (ns.map fun n => (cat16 b a).getLsbD n)
        ∧ t.trace = s.trace ++ gpioReadEvents (s.cmdR x) (s.seq x) a b ∧ (t.exp x).snap = cat16 b a ∧ t.op = s.opAfter

/-- R312: both OLAT shadows and registers hold v, in one frame with sequential mode, in two without. -/
def Obligations.WriteGpioResult : Prop :=
  ∀ (s : State) (x : ExpId) (v : Half), s.calm → (x = .relay → s.noFall v) → Mem.wf devDefault (s.exp x).dev →
    ∃ t, exec (.writeGpio x v.toNat) s = .next t
      ∧ (t.exp x).sh.get .olat .a = v.extractLsb' 0 8 ∧ (t.exp x).sh.get .olat .b = v.extractLsb' 8 8
      ∧ t.trace = s.trace ++ olatEvents (s.cmdW x) (s.seq x) v
      ∧ (t.exp x).devRead 0x14 = some (v.extractLsb' 0 8) ∧ (t.exp x).devRead 0x15 = some (v.extractLsb' 8 8)
      ∧ t.inTxn = false ∧ t.ret = .unit ∧ t.op = s.opAfter ∧ t.work = s.work

/-- R313, R86, R98: one read frame of both bytes with sequential mode, two of one byte without; the snapshot and the result are the
two bytes drawn, port B's high; no shadow and no chip register is written. -/
def Obligations.ReadGpioResult : Prop :=
  ∀ (s : State) (x : ExpId), s.calm →
    let a := s.nextPins.1
    let b := s.nextPins.2
    ∃ t, exec (.readGpio x) s = .next t ∧ (t.exp x).snap = cat16 b a ∧ t.ret = .half (cat16 b a)
      ∧ t.trace = s.trace ++ gpioReadEvents (s.cmdR x) (s.seq x) a b
      ∧ (t.exp x).sh = (s.exp x).sh ∧ (t.exp x).dev = (s.exp x).dev
      ∧ t.inTxn = false ∧ t.op = s.opAfter ∧ t.work = s.work

/-- R315, R316, R317, R404: the shadow and the chip's register hold the value, whatever the chip held before, after one frame of one
byte; `reg_read` then returns it. At every time `reg_read` returns the shadow, whatever the chip holds, with no frame and no effect.
IOCON takes no port. -/
def Obligations.RegWriteReadsBack : Prop :=
  ∀ (s : State) (x : ExpId) (k : Kind) (sk : ShKind) (p : Port), k.shadow = some sk →
    exec (.regRead x k p) s = .next { s with ret := .byte ((s.exp x).sh.get sk p) }
    ∧ ∀ v : Byte, s.calm → (sk = .iocon → v.getLsbD 7 = false) → (sk = .olat → s.eLow x) →
      Mem.wf devDefault (s.exp x).dev →
      ∃ t, exec (.regWrite x k p v.toNat) s = .next t
        ∧ (t.exp x).sh.get sk p = v ∧ (t.exp x).devRead (regAddr sk p).toNat = some v
        ∧ t.trace = s.trace ++ [.frameW (s.cmdW x) (regAddr sk p) [v]]
        ∧ t.inTxn = false ∧ t.ret = .unit ∧ t.op = s.opAfter ∧ t.work = s.work
        ∧ exec (.regRead x k p) t = .next { t with ret := .byte v }

/-- R50, R130, R302, R303: a frame word to an instance's address: a write stores its bytes at the registers addressed, one of GPIO
also at OLAT, a read returns the bytes it carries (log 12), two bytes only in sequential mode; the shadows stay. To an address no
instance has, and two bytes without sequential mode, it stops by name (logs 25, 13). -/
def Obligations.FrameWordsAct : Prop :=
  (∀ (s : State) (addr : BitVec 3) (r d0 d1 : Byte), s.expAt addr = none →
    exec (.frameWrite1 addr r d0) s = .refused .noDevice ∧ exec (.frameRead1 addr r d0) s = .refused .noDevice
      ∧ exec (.frameWrite2 addr r d0 d1) s = .refused .noDevice ∧ exec (.frameRead2 addr r d0 d1) s = .refused .noDevice)
  ∧ ∀ (s : State) (addr : BitVec 3) (x : ExpId) (r d0 d1 : Byte), s.calm → s.expAt addr = some x → s.eLow x →
    Mem.wf devDefault (s.exp x).dev →
    let w := serCmd addr false
    let q := serCmd addr true
    let done := fun (i : Instr) (ev : Event) (ret : RetVal → Prop) (dev : Expander → Prop) =>
      ∃ t, exec i s = .next t ∧ t.trace = s.trace ++ [ev] ∧ ret t.ret ∧ dev (t.exp x) ∧ (t.exp x).sh = (s.exp x).sh
        ∧ t.inTxn = false ∧ t.openFrame = none ∧ t.work = s.work
    let holds := fun (e : Expander) (r : Nat) (d : Byte) =>
      e.devRead r = some d ∧ (r = 0x12 ∨ r = 0x13 → e.devRead (r + 2) = some d)
    done (.frameWrite1 addr r d0) (.frameW w r [d0]) (· = s.ret) (fun e => holds e r.toNat d0)
      ∧ done (.frameRead1 addr r d0) (.frameR q r [d0]) (· = .bytes [d0]) (fun e => e.dev = (s.exp x).dev)
      ∧ (s.seq x = true →
        done (.frameWrite2 addr r d0 d1) (.frameW w r [d0, d1]) (· = s.ret)
            (fun e => holds e r.toNat d0 ∧ holds e (r.toNat + 1) d1)
          ∧ done (.frameRead2 addr r d0 d1) (.frameR q r [d0, d1]) (· = .bytes [d0, d1])
            (fun e => e.dev = (s.exp x).dev))
      ∧ (s.seq x = false →
        exec (.frameWrite2 addr r d0 d1) s = .refused .notSequential
          ∧ exec (.frameRead2 addr r d0 d1) s = .refused .notSequential)

/-- R38, R303 as the model splits a frame (log 13): a command byte opens a frame, `in_txn` holds from it on, and nothing else
changes; a second command byte is refused; the write word with the same command byte closes it, another frame is refused. -/
def Obligations.CommandByteOpensFrame : Prop :=
  ∀ (s : State) (addr : BitVec 3),
    (s.openFrame = none →
      exec (.serCmdWrite addr) s
          = .next { s with inTxn := true, openFrame := some (0x40#8 ||| (addr.setWidth 8 <<< 1)) }
        ∧ exec (.serCmdRead addr) s
          = .next { s with inTxn := true, openFrame := some (0x41#8 ||| (addr.setWidth 8 <<< 1)) })
    ∧ (s.openFrame ≠ none →
      exec (.serCmdWrite addr) s = .refused .frameOverlap ∧ exec (.serCmdRead addr) s = .refused .frameOverlap)
    ∧ (∀ r d, s.slice = none → s.env.frameFails = [] → s.expAt addr = some .gpio →
      s.openFrame = some (0x40#8 ||| (addr.setWidth 8 <<< 1)) →
      ∃ t, exec (.frameWrite1 addr r d) s = .next t ∧ t.openFrame = none ∧ t.inTxn = false)
    ∧ ∀ r d c x, s.slice = none → s.expAt addr = some x → s.openFrame = some c →
      c ≠ 0x40#8 ||| (addr.setWidth 8 <<< 1) → exec (.frameWrite1 addr r d) s = .refused .frameOverlap

/-- What a frame word, a virtual-port write, an LCD word on SPI_RELAY, an expander operation or `dispatch` leaves unchanged, whether
it ends well or in an error: everything of the other instance and of the display side, the instance's subscriptions, the snapshot
unless it makes a `read_gpio` (R35), every shadow and every chip register but those it names, and the LCD, unless the pins of a relay
are written under SPI_RELAY. That `output`, `output_pins` and `reg_write` of OLAT on the relay's instance leave the virtual port as it
was is the model's choice (log 27): R28 calls it the value last passed to `write_gpio`, and also that instance's OLAT shadow pair. -/
def Obligations.SerialFrame : Prop :=
  ∀ (s t : State) (i : Instr) (x : ExpId), s.instanceOf i = some x → exec i s = .next t → Mem.wf devDefault (s.exp x).dev →
    t.cfg = s.cfg ∧ SameSequencer s t ∧ SameLines s t ∧ SameOffload s t ∧ SameFramebuffer s t ∧ SameCaller s t
      ∧ t.selChip = s.selChip ∧ t.inited = s.inited ∧ (∀ y, y ≠ x → t.exp y = s.exp y)
      ∧ (t.exp x).subs = (s.exp x).subs
      ∧ ((∀ y, i ≠ .dispatch y) → (t.exp x).pending = (s.exp x).pending)
      ∧ (i.writesSnap = false → (t.exp x).snap = (s.exp x).snap)
      ∧ (∀ k p, regAddr k p ∉ i.shadowAddrs → (t.exp x).sh.get k p = (s.exp x).sh.get k p)
      ∧ (∀ a, a ∉ i.chipAddrs → (t.exp x).devRead a = (s.exp x).devRead a)
      ∧ (i.isLcdWord = false → (∀ v, i ≠ .vportWrite v) → (∀ v, i ≠ .writeGpio .relay v) → t.vport = s.vport)
      ∧ (x = .gpio ∨ s.cfg.transport ≠ .spiRelay ∨ (0x14 ∉ i.chipAddrs ∧ 0x15 ∉ i.chipAddrs) → SameTarget s t)

/-! ## Interrupts -/

/-- R341, R342: `subscribe` appends its pair, with no frame, or raises InvalidPin; an edge appends a token, or is coalesced into
the ones pending when the queue is full; nothing else changes. -/
def Obligations.SubscribeAndEdge : Prop :=
  ∀ (s : State) (x : ExpId),
    (∀ n cb, n < 16 →
      exec (.subscribe x (n : Nat) cb) s
        = .next { s.setExp x { s.exp x with subs := (s.exp x).subs ++ [(n, cb)] } with ret := .unit })
    ∧ (∀ (n : Int) cb, (n < 0 ∨ 16 ≤ n) → exec (.subscribe x n cb) s = .next (raise (.invalidPin n) s))
    ∧ ((s.exp x).pending.length < (s.cfg.exp x).irqQueueDepth →
      exec (.expEdge x) s = .next (s.setExp x { s.exp x with pending := (s.exp x).pending ++ [.edge] }))
    ∧ ((s.cfg.exp x).irqQueueDepth ≤ (s.exp x).pending.length → exec (.expEdge x) s = .next s)

/-- R343, R82: a dispatch starts only where a token is pending, no frame is in flight, no dispatch is in progress, and HOST is
between operations or suspended at a yield. -/
def Obligations.DispatchStartsOnlyWhereEnabled : Prop :=
  ∀ (s : State) (x : ExpId),
    ((s.exp x).pending = [] ∨ s.inTxn = true ∨ s.disp ≠ .idle ∨ (s.suspended = false ∧ (s.op ≠ none ∨ s.work ≠ []))) →
    exec (.dispatch x) s = .refused .dispatchNotEnabled

/-- R343, R344, R345, R349, R371, R372: a dispatch pops one token, re-reads the port into the snapshot, and reports the changed
pins in increasing order: with no subscriber on any of them HOST is back where it was; otherwise the subscribers of the first that
has any stand next, in registration order with the new value, then the pins after it, then the return. Of what then stands next in
`work`: a callback is recorded and its actions for the value stand next, in order; a call of it is run; an error of its own ends
the run, the rest of the round skipped and the snapshot as it is; the pins left are reported to the subscribers there then are
(log 39); the return restores the point left. -/
def Obligations.DispatchResult : Prop :=
  (∀ (s : State) (x : ExpId), s.calm → (s.exp x).pending ≠ [] → s.inTxn = false → s.disp = .idle →
    (s.suspended = true ∨ (s.op = none ∧ s.work = [])) →
    let a := s.nextPins.1
    let b := s.nextPins.2
    let new := cat16 b a
    let changed := ((List.range 16).filter fun n => (s.exp x).snap.getLsbD n != new.getLsbD n).map fun n => (n, new.getLsbD n)
    ∃ t, exec (.dispatch x) s = .next t ∧ (t.exp x).pending = (s.exp x).pending.tail ∧ (t.exp x).snap = new
      ∧ t.trace = s.trace ++ gpioReadEvents (s.cmdR x) (s.seq x) a b ∧ t.inTxn = false
      ∧ ((∀ pv ∈ changed, ∀ sub ∈ (s.exp x).subs, sub.1 ≠ pv.1) →
        t.op = s.op ∧ t.disp = .idle ∧ t.suspended = s.suspended ∧ t.work = s.work)
      ∧ ∀ before n v later, changed = before ++ (n, v) :: later → (∀ pv ∈ before, ∀ sub ∈ (s.exp x).subs, sub.1 ≠ pv.1) →
        n ∈ (s.exp x).subs.map (·.1) →
        t.op = some .dispatch ∧ t.disp = (if s.suspended then .atYield else .betweenOps)
          ∧ t.work = ((s.exp x).subs.filter (·.1 = n)).map (fun sub => Micro.callback n v sub.2)
            ++ [.dispatchPins x later, .dispatchEnd s.op] ++ s.work)
  ∧ ∀ (s : State) (ms : List Micro),
    let after := { s with slice := none, suspended := false, work := ms }
    let goOn := fun u : State => run ms { u with work := [] }
    (∀ n v cb before after' body, s.work = .callback n v cb :: ms → s.callbacks = before ++ (cb, body) :: after' →
      (∀ c ∈ before, c.1 ≠ cb) →
      let acts := if v then body.high else body.low
      let u := { after with trace := s.trace ++ [.cb n v cb] }
      (acts ≠ [] → liveMove (.host none) s = .next { u with work := acts.map CbAct.step ++ ms })
        ∧ (acts = [] → liveMove (.host none) s = goOn u))
    ∧ (∀ it, s.work = .nested it :: ms →
      (∀ i, decode s.cfg it = .ok i → liveMove (.host none) s = exec i { s with slice := none, work := ms })
        ∧ ∀ e, decode s.cfg it = .error e → liveMove (.host none) s = .refused (.undecodable e))
    ∧ (∀ code, s.work = .callbackRaise code :: ms →
      ∃ t, liveMove (.host none) s = .next t ∧ t.err = some (.callback code) ∧ t.work = [] ∧ t.op = none ∧ t.disp = .idle
        ∧ t.gpio = s.gpio ∧ t.relay = s.relay ∧ t.trace = s.trace)
    ∧ (∀ off b, s.work = .fbStore off b :: ms →
      liveMove (.host none) s = goOn { after with fbMods := s.fbMods ++ [(off, b)] })
    ∧ (∀ x pins, s.work = .dispatchPins x pins :: ms →
      ((∀ pv ∈ pins, ∀ sub ∈ (s.exp x).subs, sub.1 ≠ pv.1) → liveMove (.host none) s = goOn after)
        ∧ ∀ before n v later, pins = before ++ (n, v) :: later → (∀ pv ∈ before, ∀ sub ∈ (s.exp x).subs, sub.1 ≠ pv.1) →
          n ∈ (s.exp x).subs.map (·.1) →
          liveMove (.host none) s = .next { after with
            work := ((s.exp x).subs.filter (·.1 = n)).map (fun sub => Micro.callback n v sub.2) ++ .dispatchPins x later :: ms })
    ∧ ∀ o, s.work = .dispatchEnd o :: ms →
      liveMove (.host none) s = goOn { after with op := o, disp := .idle, suspended := s.disp == .atYield }

/-! ## The machine -/

/-- R19, R20, R140: when HOST moves and has nothing in progress, a step is `exec` of the instruction its next item decodes to, on
the state past that item and that move; an item that is no instruction is refused by name. -/
def Obligations.StepRunsDecodedInstruction : Prop :=
  ∀ (s : State) (q : Option Nat) (moves : List Move) (it : Item) (later : List Item), s.err = none →
    s.sched = .host q :: moves → s.work = [] → s.prog = it :: later →
    (∀ i, decode s.cfg it = .ok i → step s = exec i { s with sched := moves, slice := q, prog := later })
      ∧ ∀ r, decode s.cfg it = .error r → step s = .refused (.undecodable r)

/-- R22: no instruction but `construct` writes the configuration, and no step of any agent but one in which HOST begins a
`construct`. -/
def Obligations.ConfigurationIsFixed : Prop :=
  (∀ (s t : State) (i : Instr), (∀ w h tr b, i ≠ .construct w h tr b) → exec i s = .next t → t.cfg = s.cfg)
  ∧ ∀ s t : State,
    (∀ it w h tr b, s.work.head? = some (.nested it) ∨ (s.work = [] ∧ s.prog.head? = some it) →
      decode s.cfg it ≠ .ok (.construct w h tr b)) →
    step s = .next t → t.cfg = s.cfg

/-- The state after reset meets the invariant (its clauses cite their rules in Safety.lean), for whatever values the OPEN parameters
have. -/
def Obligations.InvariantAtReset : Prop := State.reset.Inv

/-- Every step, of whichever agent, keeps the invariant: canonical memories, an admitted geometry (R160), at most one chip selected
(R165), no queue over its capacity (R26, R37), words numbered in enqueue order (R265), IOCON.BANK clear (R318), suspension only
under COOP (R220), nothing in progress after an error (R360). -/
def Obligations.InvariantKept : Prop := ∀ s t : State, s.Inv → step s = .next t → t.Inv

end
end

