-- ==== Sys2Proof/Laws/State.lean ====
section
/-! SUPPORT. One lemma per field per named update of the state, so that no proof unfolds a record update. -/

namespace Sys2Proof.Machine

@[simp] theorem event_cfg (s : State) (ev : Event) : (s.event ev).cfg = s.cfg := rfl
@[simp] theorem event_op (s : State) (ev : Event) : (s.event ev).op = s.op := rfl
@[simp] theorem event_st (s : State) (ev : Event) : (s.event ev).st = s.st := rfl
@[simp] theorem event_pg (s : State) (ev : Event) : (s.event ev).pg = s.pg := rfl
@[simp] theorem event_ch (s : State) (ev : Event) : (s.event ev).ch = s.ch := rfl
@[simp] theorem event_col (s : State) (ev : Event) : (s.event ev).col = s.col := rfl
@[simp] theorem event_phase (s : State) (ev : Event) : (s.event ev).phase = s.phase := rfl
@[simp] theorem event_selChip (s : State) (ev : Event) : (s.event ev).selChip = s.selChip := rfl
@[simp] theorem event_busDir (s : State) (ev : Event) : (s.event ev).busDir = s.busDir := rfl
@[simp] theorem event_inited (s : State) (ev : Event) : (s.event ev).inited = s.inited := rfl
@[simp] theorem event_e (s : State) (ev : Event) : (s.event ev).e = s.e := rfl
@[simp] theorem event_rw (s : State) (ev : Event) : (s.event ev).rw = s.rw := rfl
@[simp] theorem event_rs (s : State) (ev : Event) : (s.event ev).rs = s.rs := rfl
@[simp] theorem event_d (s : State) (ev : Event) : (s.event ev).d = s.d := rfl
@[simp] theorem event_ddir (s : State) (ev : Event) : (s.event ev).ddir = s.ddir := rfl
@[simp] theorem event_cs (s : State) (ev : Event) : (s.event ev).cs = s.cs := rfl
@[simp] theorem event_ctlQ (s : State) (ev : Event) : (s.event ev).ctlQ = s.ctlQ := rfl
@[simp] theorem event_dataQ (s : State) (ev : Event) : (s.event ev).dataQ = s.dataQ := rfl
@[simp] theorem event_enqCount (s : State) (ev : Event) : (s.event ev).enqCount = s.enqCount := rfl
@[simp] theorem event_ctlLines (s : State) (ev : Event) : (s.event ev).ctlLines = s.ctlLines := rfl
@[simp] theorem event_ctlDriven (s : State) (ev : Event) : (s.event ev).ctlDriven = s.ctlDriven := rfl
@[simp] theorem event_dataLines (s : State) (ev : Event) : (s.event ev).dataLines = s.dataLines := rfl
@[simp] theorem event_strobe (s : State) (ev : Event) : (s.event ev).strobe = s.strobe := rfl
@[simp] theorem event_vport (s : State) (ev : Event) : (s.event ev).vport = s.vport := rfl
@[simp] theorem event_gpio (s : State) (ev : Event) : (s.event ev).gpio = s.gpio := rfl
@[simp] theorem event_relay (s : State) (ev : Event) : (s.event ev).relay = s.relay := rfl
@[simp] theorem event_inTxn (s : State) (ev : Event) : (s.event ev).inTxn = s.inTxn := rfl
@[simp] theorem event_idleDevs (s : State) (ev : Event) : (s.event ev).idleDevs = s.idleDevs := rfl
@[simp] theorem event_openFrame (s : State) (ev : Event) : (s.event ev).openFrame = s.openFrame := rfl
@[simp] theorem event_lcd (s : State) (ev : Event) : (s.event ev).lcd = s.lcd := rfl
@[simp] theorem event_dram (s : State) (ev : Event) : (s.event ev).dram = s.dram := rfl
@[simp] theorem event_fb (s : State) (ev : Event) : (s.event ev).fb = s.fb := rfl
@[simp] theorem event_fbMods (s : State) (ev : Event) : (s.event ev).fbMods = s.fbMods := rfl
@[simp] theorem event_blk (s : State) (ev : Event) : (s.event ev).blk = s.blk := rfl
@[simp] theorem event_ret (s : State) (ev : Event) : (s.event ev).ret = s.ret := rfl
@[simp] theorem event_err (s : State) (ev : Event) : (s.event ev).err = s.err := rfl
@[simp] theorem event_trace (s : State) (ev : Event) : (s.event ev).trace = s.trace ++ [ev] := rfl
@[simp] theorem event_prog (s : State) (ev : Event) : (s.event ev).prog = s.prog := rfl
@[simp] theorem event_work (s : State) (ev : Event) : (s.event ev).work = s.work := rfl
@[simp] theorem event_callbacks (s : State) (ev : Event) : (s.event ev).callbacks = s.callbacks := rfl
@[simp] theorem event_suspended (s : State) (ev : Event) : (s.event ev).suspended = s.suspended := rfl
@[simp] theorem event_disp (s : State) (ev : Event) : (s.event ev).disp = s.disp := rfl
@[simp] theorem event_slice (s : State) (ev : Event) : (s.event ev).slice = s.slice := rfl
@[simp] theorem event_sched (s : State) (ev : Event) : (s.event ev).sched = s.sched := rfl
@[simp] theorem event_env (s : State) (ev : Event) : (s.event ev).env = s.env := rfl
@[simp] theorem event_draws (s : State) (ev : Event) : (s.event ev).draws = s.draws := rfl

@[simp] theorem drew_cfg (s : State) : (s.drew).cfg = s.cfg := rfl
@[simp] theorem drew_op (s : State) : (s.drew).op = s.op := rfl
@[simp] theorem drew_st (s : State) : (s.drew).st = s.st := rfl
@[simp] theorem drew_pg (s : State) : (s.drew).pg = s.pg := rfl
@[simp] theorem drew_ch (s : State) : (s.drew).ch = s.ch := rfl
@[simp] theorem drew_col (s : State) : (s.drew).col = s.col := rfl
@[simp] theorem drew_phase (s : State) : (s.drew).phase = s.phase := rfl
@[simp] theorem drew_selChip (s : State) : (s.drew).selChip = s.selChip := rfl
@[simp] theorem drew_busDir (s : State) : (s.drew).busDir = s.busDir := rfl
@[simp] theorem drew_inited (s : State) : (s.drew).inited = s.inited := rfl
@[simp] theorem drew_e (s : State) : (s.drew).e = s.e := rfl
@[simp] theorem drew_rw (s : State) : (s.drew).rw = s.rw := rfl
@[simp] theorem drew_rs (s : State) : (s.drew).rs = s.rs := rfl
@[simp] theorem drew_d (s : State) : (s.drew).d = s.d := rfl
@[simp] theorem drew_ddir (s : State) : (s.drew).ddir = s.ddir := rfl
@[simp] theorem drew_cs (s : State) : (s.drew).cs = s.cs := rfl
@[simp] theorem drew_ctlQ (s : State) : (s.drew).ctlQ = s.ctlQ := rfl
@[simp] theorem drew_dataQ (s : State) : (s.drew).dataQ = s.dataQ := rfl
@[simp] theorem drew_enqCount (s : State) : (s.drew).enqCount = s.enqCount := rfl
@[simp] theorem drew_ctlLines (s : State) : (s.drew).ctlLines = s.ctlLines := rfl
@[simp] theorem drew_ctlDriven (s : State) : (s.drew).ctlDriven = s.ctlDriven := rfl
@[simp] theorem drew_dataLines (s : State) : (s.drew).dataLines = s.dataLines := rfl
@[simp] theorem drew_strobe (s : State) : (s.drew).strobe = s.strobe := rfl
@[simp] theorem drew_vport (s : State) : (s.drew).vport = s.vport := rfl
@[simp] theorem drew_gpio (s : State) : (s.drew).gpio = s.gpio := rfl
@[simp] theorem drew_relay (s : State) : (s.drew).relay = s.relay := rfl
@[simp] theorem drew_inTxn (s : State) : (s.drew).inTxn = s.inTxn := rfl
@[simp] theorem drew_idleDevs (s : State) : (s.drew).idleDevs = s.idleDevs := rfl
@[simp] theorem drew_openFrame (s : State) : (s.drew).openFrame = s.openFrame := rfl
@[simp] theorem drew_lcd (s : State) : (s.drew).lcd = s.lcd := rfl
@[simp] theorem drew_dram (s : State) : (s.drew).dram = s.dram := rfl
@[simp] theorem drew_fb (s : State) : (s.drew).fb = s.fb := rfl
@[simp] theorem drew_fbMods (s : State) : (s.drew).fbMods = s.fbMods := rfl
@[simp] theorem drew_blk (s : State) : (s.drew).blk = s.blk := rfl
@[simp] theorem drew_ret (s : State) : (s.drew).ret = s.ret := rfl
@[simp] theorem drew_err (s : State) : (s.drew).err = s.err := rfl
@[simp] theorem drew_trace (s : State) : (s.drew).trace = s.trace := rfl
@[simp] theorem drew_prog (s : State) : (s.drew).prog = s.prog := rfl
@[simp] theorem drew_work (s : State) : (s.drew).work = s.work := rfl
@[simp] theorem drew_callbacks (s : State) : (s.drew).callbacks = s.callbacks := rfl
@[simp] theorem drew_suspended (s : State) : (s.drew).suspended = s.suspended := rfl
@[simp] theorem drew_disp (s : State) : (s.drew).disp = s.disp := rfl
@[simp] theorem drew_slice (s : State) : (s.drew).slice = s.slice := rfl
@[simp] theorem drew_sched (s : State) : (s.drew).sched = s.sched := rfl
@[simp] theorem drew_env (s : State) : (s.drew).env = s.env := rfl
@[simp] theorem drew_draws (s : State) : (s.drew).draws = s.draws + 1 := rfl

@[simp] theorem tick_cfg (s : State) : (s.tick).cfg = s.cfg := rfl
@[simp] theorem tick_op (s : State) : (s.tick).op = s.op := rfl
@[simp] theorem tick_st (s : State) : (s.tick).st = s.st := rfl
@[simp] theorem tick_pg (s : State) : (s.tick).pg = s.pg := rfl
@[simp] theorem tick_ch (s : State) : (s.tick).ch = s.ch := rfl
@[simp] theorem tick_col (s : State) : (s.tick).col = s.col := rfl
@[simp] theorem tick_phase (s : State) : (s.tick).phase = s.phase := rfl
@[simp] theorem tick_selChip (s : State) : (s.tick).selChip = s.selChip := rfl
@[simp] theorem tick_busDir (s : State) : (s.tick).busDir = s.busDir := rfl
@[simp] theorem tick_inited (s : State) : (s.tick).inited = s.inited := rfl
@[simp] theorem tick_e (s : State) : (s.tick).e = s.e := rfl
@[simp] theorem tick_rw (s : State) : (s.tick).rw = s.rw := rfl
@[simp] theorem tick_rs (s : State) : (s.tick).rs = s.rs := rfl
@[simp] theorem tick_d (s : State) : (s.tick).d = s.d := rfl
@[simp] theorem tick_ddir (s : State) : (s.tick).ddir = s.ddir := rfl
@[simp] theorem tick_cs (s : State) : (s.tick).cs = s.cs := rfl
@[simp] theorem tick_ctlQ (s : State) : (s.tick).ctlQ = s.ctlQ := rfl
@[simp] theorem tick_dataQ (s : State) : (s.tick).dataQ = s.dataQ := rfl
@[simp] theorem tick_enqCount (s : State) : (s.tick).enqCount = s.enqCount := rfl
@[simp] theorem tick_ctlLines (s : State) : (s.tick).ctlLines = s.ctlLines := rfl
@[simp] theorem tick_ctlDriven (s : State) : (s.tick).ctlDriven = s.ctlDriven := rfl
@[simp] theorem tick_dataLines (s : State) : (s.tick).dataLines = s.dataLines := rfl
@[simp] theorem tick_strobe (s : State) : (s.tick).strobe = s.strobe := rfl
@[simp] theorem tick_vport (s : State) : (s.tick).vport = s.vport := rfl
@[simp] theorem tick_gpio (s : State) : (s.tick).gpio = s.gpio := rfl
@[simp] theorem tick_relay (s : State) : (s.tick).relay = s.relay := rfl
@[simp] theorem tick_inTxn (s : State) : (s.tick).inTxn = s.inTxn := rfl
@[simp] theorem tick_idleDevs (s : State) : (s.tick).idleDevs = s.idleDevs := rfl
@[simp] theorem tick_openFrame (s : State) : (s.tick).openFrame = s.openFrame := rfl
@[simp] theorem tick_lcd (s : State) : (s.tick).lcd = s.lcd := rfl
@[simp] theorem tick_dram (s : State) : (s.tick).dram = s.dram := rfl
@[simp] theorem tick_fb (s : State) : (s.tick).fb = s.fb := rfl
@[simp] theorem tick_fbMods (s : State) : (s.tick).fbMods = s.fbMods := rfl
@[simp] theorem tick_blk (s : State) : (s.tick).blk = s.blk := rfl
@[simp] theorem tick_ret (s : State) : (s.tick).ret = s.ret := rfl
@[simp] theorem tick_err (s : State) : (s.tick).err = s.err := rfl
@[simp] theorem tick_trace (s : State) : (s.tick).trace = s.trace := rfl
@[simp] theorem tick_prog (s : State) : (s.tick).prog = s.prog := rfl
@[simp] theorem tick_work (s : State) : (s.tick).work = s.work := rfl
@[simp] theorem tick_callbacks (s : State) : (s.tick).callbacks = s.callbacks := rfl
@[simp] theorem tick_suspended (s : State) : (s.tick).suspended = s.suspended := rfl
@[simp] theorem tick_disp (s : State) : (s.tick).disp = s.disp := rfl
@[simp] theorem tick_slice (s : State) : (s.tick).slice = s.slice.map (· - 1) := rfl
@[simp] theorem tick_sched (s : State) : (s.tick).sched = s.sched := rfl
@[simp] theorem tick_env (s : State) : (s.tick).env = s.env := rfl
@[simp] theorem tick_draws (s : State) : (s.tick).draws = s.draws := rfl

@[simp] theorem setChip_cfg (s : State) (c : Nat) (k : LcdChip) : (s.setChip c k).cfg = s.cfg := rfl
@[simp] theorem setChip_op (s : State) (c : Nat) (k : LcdChip) : (s.setChip c k).op = s.op := rfl
@[simp] theorem setChip_st (s : State) (c : Nat) (k : LcdChip) : (s.setChip c k).st = s.st := rfl
@[simp] theorem setChip_pg (s : State) (c : Nat) (k : LcdChip) : (s.setChip c k).pg = s.pg := rfl
@[simp] theorem setChip_ch (s : State) (c : Nat) (k : LcdChip) : (s.setChip c k).ch = s.ch := rfl
@[simp] theorem setChip_col (s : State) (c : Nat) (k : LcdChip) : (s.setChip c k).col = s.col := rfl
@[simp] theorem setChip_phase (s : State) (c : Nat) (k : LcdChip) : (s.setChip c k).phase = s.phase := rfl
@[simp] theorem setChip_selChip (s : State) (c : Nat) (k : LcdChip) : (s.setChip c k).selChip = s.selChip := rfl
@[simp] theorem setChip_busDir (s : State) (c : Nat) (k : LcdChip) : (s.setChip c k).busDir = s.busDir := rfl
@[simp] theorem setChip_inited (s : State) (c : Nat) (k : LcdChip) : (s.setChip c k).inited = s.inited := rfl
@[simp] theorem setChip_e (s : State) (c : Nat) (k : LcdChip) : (s.setChip c k).e = s.e := rfl
@[simp] theorem setChip_rw (s : State) (c : Nat) (k : LcdChip) : (s.setChip c k).rw = s.rw := rfl
@[simp] theorem setChip_rs (s : State) (c : Nat) (k : LcdChip) : (s.setChip c k).rs = s.rs := rfl
@[simp] theorem setChip_d (s : State) (c : Nat) (k : LcdChip) : (s.setChip c k).d = s.d := rfl
@[simp] theorem setChip_ddir (s : State) (c : Nat) (k : LcdChip) : (s.setChip c k).ddir = s.ddir := rfl
@[simp] theorem setChip_cs (s : State) (c : Nat) (k : LcdChip) : (s.setChip c k).cs = s.cs := rfl
@[simp] theorem setChip_ctlQ (s : State) (c : Nat) (k : LcdChip) : (s.setChip c k).ctlQ = s.ctlQ := rfl
@[simp] theorem setChip_dataQ (s : State) (c : Nat) (k : LcdChip) : (s.setChip c k).dataQ = s.dataQ := rfl
@[simp] theorem setChip_enqCount (s : State) (c : Nat) (k : LcdChip) : (s.setChip c k).enqCount = s.enqCount := rfl
@[simp] theorem setChip_ctlLines (s : State) (c : Nat) (k : LcdChip) : (s.setChip c k).ctlLines = s.ctlLines := rfl
@[simp] theorem setChip_ctlDriven (s : State) (c : Nat) (k : LcdChip) : (s.setChip c k).ctlDriven = s.ctlDriven := rfl
@[simp] theorem setChip_dataLines (s : State) (c : Nat) (k : LcdChip) : (s.setChip c k).dataLines = s.dataLines := rfl
@[simp] theorem setChip_strobe (s : State) (c : Nat) (k : LcdChip) : (s.setChip c k).strobe = s.strobe := rfl
@[simp] theorem setChip_vport (s : State) (c : Nat) (k : LcdChip) : (s.setChip c k).vport = s.vport := rfl
@[simp] theorem setChip_gpio (s : State) (c : Nat) (k : LcdChip) : (s.setChip c k).gpio = s.gpio := rfl
@[simp] theorem setChip_relay (s : State) (c : Nat) (k : LcdChip) : (s.setChip c k).relay = s.relay := rfl
@[simp] theorem setChip_inTxn (s : State) (c : Nat) (k : LcdChip) : (s.setChip c k).inTxn = s.inTxn := rfl
@[simp] theorem setChip_idleDevs (s : State) (c : Nat) (k : LcdChip) : (s.setChip c k).idleDevs = s.idleDevs := rfl
@[simp] theorem setChip_openFrame (s : State) (c : Nat) (k : LcdChip) : (s.setChip c k).openFrame = s.openFrame := rfl
@[simp] theorem setChip_lcd (s : State) (c : Nat) (k : LcdChip) : (s.setChip c k).lcd = s.lcd.set c k := rfl
@[simp] theorem setChip_dram (s : State) (c : Nat) (k : LcdChip) : (s.setChip c k).dram = s.dram := rfl
@[simp] theorem setChip_fb (s : State) (c : Nat) (k : LcdChip) : (s.setChip c k).fb = s.fb := rfl
@[simp] theorem setChip_fbMods (s : State) (c : Nat) (k : LcdChip) : (s.setChip c k).fbMods = s.fbMods := rfl
@[simp] theorem setChip_blk (s : State) (c : Nat) (k : LcdChip) : (s.setChip c k).blk = s.blk := rfl
@[simp] theorem setChip_ret (s : State) (c : Nat) (k : LcdChip) : (s.setChip c k).ret = s.ret := rfl
@[simp] theorem setChip_err (s : State) (c : Nat) (k : LcdChip) : (s.setChip c k).err = s.err := rfl
@[simp] theorem setChip_trace (s : State) (c : Nat) (k : LcdChip) : (s.setChip c k).trace = s.trace := rfl
@[simp] theorem setChip_prog (s : State) (c : Nat) (k : LcdChip) : (s.setChip c k).prog = s.prog := rfl
@[simp] theorem setChip_work (s : State) (c : Nat) (k : LcdChip) : (s.setChip c k).work = s.work := rfl
@[simp] theorem setChip_callbacks (s : State) (c : Nat) (k : LcdChip) : (s.setChip c k).callbacks = s.callbacks := rfl
@[simp] theorem setChip_suspended (s : State) (c : Nat) (k : LcdChip) : (s.setChip c k).suspended = s.suspended := rfl
@[simp] theorem setChip_disp (s : State) (c : Nat) (k : LcdChip) : (s.setChip c k).disp = s.disp := rfl
@[simp] theorem setChip_slice (s : State) (c : Nat) (k : LcdChip) : (s.setChip c k).slice = s.slice := rfl
@[simp] theorem setChip_sched (s : State) (c : Nat) (k : LcdChip) : (s.setChip c k).sched = s.sched := rfl
@[simp] theorem setChip_env (s : State) (c : Nat) (k : LcdChip) : (s.setChip c k).env = s.env := rfl
@[simp] theorem setChip_draws (s : State) (c : Nat) (k : LcdChip) : (s.setChip c k).draws = s.draws := rfl

@[simp] theorem raise_cfg (e : Fault) (s : State) : (raise e s).cfg = s.cfg := rfl
@[simp] theorem raise_op (e : Fault) (s : State) : (raise e s).op = none := rfl
@[simp] theorem raise_st (e : Fault) (s : State) : (raise e s).st = s.st := rfl
@[simp] theorem raise_pg (e : Fault) (s : State) : (raise e s).pg = s.pg := rfl
@[simp] theorem raise_ch (e : Fault) (s : State) : (raise e s).ch = s.ch := rfl
@[simp] theorem raise_col (e : Fault) (s : State) : (raise e s).col = s.col := rfl
@[simp] theorem raise_phase (e : Fault) (s : State) : (raise e s).phase = s.phase := rfl
@[simp] theorem raise_selChip (e : Fault) (s : State) : (raise e s).selChip = s.selChip := rfl
@[simp] theorem raise_busDir (e : Fault) (s : State) : (raise e s).busDir = s.busDir := rfl
@[simp] theorem raise_inited (e : Fault) (s : State) : (raise e s).inited = s.inited := rfl
@[simp] theorem raise_e (e : Fault) (s : State) : (raise e s).e = s.e := rfl
@[simp] theorem raise_rw (e : Fault) (s : State) : (raise e s).rw = s.rw := rfl
@[simp] theorem raise_rs (e : Fault) (s : State) : (raise e s).rs = s.rs := rfl
@[simp] theorem raise_d (e : Fault) (s : State) : (raise e s).d = s.d := rfl
@[simp] theorem raise_ddir (e : Fault) (s : State) : (raise e s).ddir = s.ddir := rfl
@[simp] theorem raise_cs (e : Fault) (s : State) : (raise e s).cs = s.cs := rfl
@[simp] theorem raise_ctlQ (e : Fault) (s : State) : (raise e s).ctlQ = s.ctlQ := rfl
@[simp] theorem raise_dataQ (e : Fault) (s : State) : (raise e s).dataQ = s.dataQ := rfl
@[simp] theorem raise_enqCount (e : Fault) (s : State) : (raise e s).enqCount = s.enqCount := rfl
@[simp] theorem raise_ctlLines (e : Fault) (s : State) : (raise e s).ctlLines = s.ctlLines := rfl
@[simp] theorem raise_ctlDriven (e : Fault) (s : State) : (raise e s).ctlDriven = s.ctlDriven := rfl
@[simp] theorem raise_dataLines (e : Fault) (s : State) : (raise e s).dataLines = s.dataLines := rfl
@[simp] theorem raise_strobe (e : Fault) (s : State) : (raise e s).strobe = s.strobe := rfl
@[simp] theorem raise_vport (e : Fault) (s : State) : (raise e s).vport = s.vport := rfl
@[simp] theorem raise_gpio (e : Fault) (s : State) : (raise e s).gpio = s.gpio := rfl
@[simp] theorem raise_relay (e : Fault) (s : State) : (raise e s).relay = s.relay := rfl
@[simp] theorem raise_inTxn (e : Fault) (s : State) : (raise e s).inTxn = false := rfl
@[simp] theorem raise_idleDevs (e : Fault) (s : State) : (raise e s).idleDevs = s.idleDevs := rfl
@[simp] theorem raise_openFrame (e : Fault) (s : State) : (raise e s).openFrame = none := rfl
@[simp] theorem raise_lcd (e : Fault) (s : State) : (raise e s).lcd = s.lcd := rfl
@[simp] theorem raise_dram (e : Fault) (s : State) : (raise e s).dram = s.dram := rfl
@[simp] theorem raise_fb (e : Fault) (s : State) : (raise e s).fb = s.fb := rfl
@[simp] theorem raise_fbMods (e : Fault) (s : State) : (raise e s).fbMods = s.fbMods := rfl
@[simp] theorem raise_blk (e : Fault) (s : State) : (raise e s).blk = s.blk := rfl
@[simp] theorem raise_ret (e : Fault) (s : State) : (raise e s).ret = s.ret := rfl
@[simp] theorem raise_err (e : Fault) (s : State) : (raise e s).err = some e := rfl
@[simp] theorem raise_trace (e : Fault) (s : State) : (raise e s).trace = s.trace := rfl
@[simp] theorem raise_prog (e : Fault) (s : State) : (raise e s).prog = s.prog := rfl
@[simp] theorem raise_work (e : Fault) (s : State) : (raise e s).work = [] := rfl
@[simp] theorem raise_callbacks (e : Fault) (s : State) : (raise e s).callbacks = s.callbacks := rfl
@[simp] theorem raise_suspended (e : Fault) (s : State) : (raise e s).suspended = false := rfl
@[simp] theorem raise_disp (e : Fault) (s : State) : (raise e s).disp = .idle := rfl
@[simp] theorem raise_slice (e : Fault) (s : State) : (raise e s).slice = s.slice := rfl
@[simp] theorem raise_sched (e : Fault) (s : State) : (raise e s).sched = s.sched := rfl
@[simp] theorem raise_env (e : Fault) (s : State) : (raise e s).env = s.env := rfl
@[simp] theorem raise_draws (e : Fault) (s : State) : (raise e s).draws = s.draws := rfl

@[simp] theorem setExp_cfg (s : State) (x : ExpId) (e : Expander) : (s.setExp x e).cfg = s.cfg := by cases x <;> rfl
@[simp] theorem setExp_op (s : State) (x : ExpId) (e : Expander) : (s.setExp x e).op = s.op := by cases x <;> rfl
@[simp] theorem setExp_st (s : State) (x : ExpId) (e : Expander) : (s.setExp x e).st = s.st := by cases x <;> rfl
@[simp] theorem setExp_pg (s : State) (x : ExpId) (e : Expander) : (s.setExp x e).pg = s.pg := by cases x <;> rfl
@[simp] theorem setExp_ch (s : State) (x : ExpId) (e : Expander) : (s.setExp x e).ch = s.ch := by cases x <;> rfl
@[simp] theorem setExp_col (s : State) (x : ExpId) (e : Expander) : (s.setExp x e).col = s.col := by cases x <;> rfl
@[simp] theorem setExp_phase (s : State) (x : ExpId) (e : Expander) : (s.setExp x e).phase = s.phase := by cases x <;> rfl
@[simp] theorem setExp_selChip (s : State) (x : ExpId) (e : Expander) : (s.setExp x e).selChip = s.selChip := by cases x <;> rfl
@[simp] theorem setExp_busDir (s : State) (x : ExpId) (e : Expander) : (s.setExp x e).busDir = s.busDir := by cases x <;> rfl
@[simp] theorem setExp_inited (s : State) (x : ExpId) (e : Expander) : (s.setExp x e).inited = s.inited := by cases x <;> rfl
@[simp] theorem setExp_e (s : State) (x : ExpId) (e : Expander) : (s.setExp x e).e = s.e := by cases x <;> rfl
@[simp] theorem setExp_rw (s : State) (x : ExpId) (e : Expander) : (s.setExp x e).rw = s.rw := by cases x <;> rfl
@[simp] theorem setExp_rs (s : State) (x : ExpId) (e : Expander) : (s.setExp x e).rs = s.rs := by cases x <;> rfl
@[simp] theorem setExp_d (s : State) (x : ExpId) (e : Expander) : (s.setExp x e).d = s.d := by cases x <;> rfl
@[simp] theorem setExp_ddir (s : State) (x : ExpId) (e : Expander) : (s.setExp x e).ddir = s.ddir := by cases x <;> rfl
@[simp] theorem setExp_cs (s : State) (x : ExpId) (e : Expander) : (s.setExp x e).cs = s.cs := by cases x <;> rfl
@[simp] theorem setExp_ctlQ (s : State) (x : ExpId) (e : Expander) : (s.setExp x e).ctlQ = s.ctlQ := by cases x <;> rfl
@[simp] theorem setExp_dataQ (s : State) (x : ExpId) (e : Expander) : (s.setExp x e).dataQ = s.dataQ := by cases x <;> rfl
@[simp] theorem setExp_enqCount (s : State) (x : ExpId) (e : Expander) : (s.setExp x e).enqCount = s.enqCount := by cases x <;> rfl
@[simp] theorem setExp_ctlLines (s : State) (x : ExpId) (e : Expander) : (s.setExp x e).ctlLines = s.ctlLines := by cases x <;> rfl
@[simp] theorem setExp_ctlDriven (s : State) (x : ExpId) (e : Expander) : (s.setExp x e).ctlDriven = s.ctlDriven := by cases x <;> rfl
@[simp] theorem setExp_dataLines (s : State) (x : ExpId) (e : Expander) : (s.setExp x e).dataLines = s.dataLines := by cases x <;> rfl
@[simp] theorem setExp_strobe (s : State) (x : ExpId) (e : Expander) : (s.setExp x e).strobe = s.strobe := by cases x <;> rfl
@[simp] theorem setExp_vport (s : State) (x : ExpId) (e : Expander) : (s.setExp x e).vport = s.vport := by cases x <;> rfl
@[simp] theorem setExp_inTxn (s : State) (x : ExpId) (e : Expander) : (s.setExp x e).inTxn = s.inTxn := by cases x <;> rfl
@[simp] theorem setExp_idleDevs (s : State) (x : ExpId) (e : Expander) : (s.setExp x e).idleDevs = s.idleDevs := by cases x <;> rfl
@[simp] theorem setExp_openFrame (s : State) (x : ExpId) (e : Expander) : (s.setExp x e).openFrame = s.openFrame := by cases x <;> rfl
@[simp] theorem setExp_lcd (s : State) (x : ExpId) (e : Expander) : (s.setExp x e).lcd = s.lcd := by cases x <;> rfl
@[simp] theorem setExp_dram (s : State) (x : ExpId) (e : Expander) : (s.setExp x e).dram = s.dram := by cases x <;> rfl
@[simp] theorem setExp_fb (s : State) (x : ExpId) (e : Expander) : (s.setExp x e).fb = s.fb := by cases x <;> rfl
@[simp] theorem setExp_fbMods (s : State) (x : ExpId) (e : Expander) : (s.setExp x e).fbMods = s.fbMods := by cases x <;> rfl
@[simp] theorem setExp_blk (s : State) (x : ExpId) (e : Expander) : (s.setExp x e).blk = s.blk := by cases x <;> rfl
@[simp] theorem setExp_ret (s : State) (x : ExpId) (e : Expander) : (s.setExp x e).ret = s.ret := by cases x <;> rfl
@[simp] theorem setExp_err (s : State) (x : ExpId) (e : Expander) : (s.setExp x e).err = s.err := by cases x <;> rfl
@[simp] theorem setExp_trace (s : State) (x : ExpId) (e : Expander) : (s.setExp x e).trace = s.trace := by cases x <;> rfl
@[simp] theorem setExp_prog (s : State) (x : ExpId) (e : Expander) : (s.setExp x e).prog = s.prog := by cases x <;> rfl
@[simp] theorem setExp_work (s : State) (x : ExpId) (e : Expander) : (s.setExp x e).work = s.work := by cases x <;> rfl
@[simp] theorem setExp_callbacks (s : State) (x : ExpId) (e : Expander) : (s.setExp x e).callbacks = s.callbacks := by cases x <;> rfl
@[simp] theorem setExp_suspended (s : State) (x : ExpId) (e : Expander) : (s.setExp x e).suspended = s.suspended := by cases x <;> rfl
@[simp] theorem setExp_disp (s : State) (x : ExpId) (e : Expander) : (s.setExp x e).disp = s.disp := by cases x <;> rfl
@[simp] theorem setExp_slice (s : State) (x : ExpId) (e : Expander) : (s.setExp x e).slice = s.slice := by cases x <;> rfl
@[simp] theorem setExp_sched (s : State) (x : ExpId) (e : Expander) : (s.setExp x e).sched = s.sched := by cases x <;> rfl
@[simp] theorem setExp_env (s : State) (x : ExpId) (e : Expander) : (s.setExp x e).env = s.env := by cases x <;> rfl
@[simp] theorem setExp_draws (s : State) (x : ExpId) (e : Expander) : (s.setExp x e).draws = s.draws := by cases x <;> rfl

@[simp] theorem beginOp_cfg (o : Op) (s : State) : (beginOp o s).cfg = s.cfg := by unfold beginOp; split <;> rfl
@[simp] theorem beginOp_st (o : Op) (s : State) : (beginOp o s).st = s.st := by unfold beginOp; split <;> rfl
@[simp] theorem beginOp_pg (o : Op) (s : State) : (beginOp o s).pg = s.pg := by unfold beginOp; split <;> rfl
@[simp] theorem beginOp_ch (o : Op) (s : State) : (beginOp o s).ch = s.ch := by unfold beginOp; split <;> rfl
@[simp] theorem beginOp_col (o : Op) (s : State) : (beginOp o s).col = s.col := by unfold beginOp; split <;> rfl
@[simp] theorem beginOp_phase (o : Op) (s : State) : (beginOp o s).phase = s.phase := by unfold beginOp; split <;> rfl
@[simp] theorem beginOp_selChip (o : Op) (s : State) : (beginOp o s).selChip = s.selChip := by unfold beginOp; split <;> rfl
@[simp] theorem beginOp_busDir (o : Op) (s : State) : (beginOp o s).busDir = s.busDir := by unfold beginOp; split <;> rfl
@[simp] theorem beginOp_inited (o : Op) (s : State) : (beginOp o s).inited = s.inited := by unfold beginOp; split <;> rfl
@[simp] theorem beginOp_e (o : Op) (s : State) : (beginOp o s).e = s.e := by unfold beginOp; split <;> rfl
@[simp] theorem beginOp_rw (o : Op) (s : State) : (beginOp o s).rw = s.rw := by unfold beginOp; split <;> rfl
@[simp] theorem beginOp_rs (o : Op) (s : State) : (beginOp o s).rs = s.rs := by unfold beginOp; split <;> rfl
@[simp] theorem beginOp_d (o : Op) (s : State) : (beginOp o s).d = s.d := by unfold beginOp; split <;> rfl
@[simp] theorem beginOp_ddir (o : Op) (s : State) : (beginOp o s).ddir = s.ddir := by unfold beginOp; split <;> rfl
@[simp] theorem beginOp_cs (o : Op) (s : State) : (beginOp o s).cs = s.cs := by unfold beginOp; split <;> rfl
@[simp] theorem beginOp_ctlQ (o : Op) (s : State) : (beginOp o s).ctlQ = s.ctlQ := by unfold beginOp; split <;> rfl
@[simp] theorem beginOp_dataQ (o : Op) (s : State) : (beginOp o s).dataQ = s.dataQ := by unfold beginOp; split <;> rfl
@[simp] theorem beginOp_enqCount (o : Op) (s : State) : (beginOp o s).enqCount = s.enqCount := by unfold beginOp; split <;> rfl
@[simp] theorem beginOp_ctlLines (o : Op) (s : State) : (beginOp o s).ctlLines = s.ctlLines := by unfold beginOp; split <;> rfl
@[simp] theorem beginOp_ctlDriven (o : Op) (s : State) : (beginOp o s).ctlDriven = s.ctlDriven := by unfold beginOp; split <;> rfl
@[simp] theorem beginOp_dataLines (o : Op) (s : State) : (beginOp o s).dataLines = s.dataLines := by unfold beginOp; split <;> rfl
@[simp] theorem beginOp_strobe (o : Op) (s : State) : (beginOp o s).strobe = s.strobe := by unfold beginOp; split <;> rfl
@[simp] theorem beginOp_vport (o : Op) (s : State) : (beginOp o s).vport = s.vport := by unfold beginOp; split <;> rfl
@[simp] theorem beginOp_gpio (o : Op) (s : State) : (beginOp o s).gpio = s.gpio := by unfold beginOp; split <;> rfl
@[simp] theorem beginOp_relay (o : Op) (s : State) : (beginOp o s).relay = s.relay := by unfold beginOp; split <;> rfl
@[simp] theorem beginOp_inTxn (o : Op) (s : State) : (beginOp o s).inTxn = s.inTxn := by unfold beginOp; split <;> rfl
@[simp] theorem beginOp_idleDevs (o : Op) (s : State) : (beginOp o s).idleDevs = s.idleDevs := by unfold beginOp; split <;> rfl
@[simp] theorem beginOp_openFrame (o : Op) (s : State) : (beginOp o s).openFrame = s.openFrame := by unfold beginOp; split <;> rfl
@[simp] theorem beginOp_lcd (o : Op) (s : State) : (beginOp o s).lcd = s.lcd := by unfold beginOp; split <;> rfl
@[simp] theorem beginOp_dram (o : Op) (s : State) : (beginOp o s).dram = s.dram := by unfold beginOp; split <;> rfl
@[simp] theorem beginOp_fb (o : Op) (s : State) : (beginOp o s).fb = s.fb := by unfold beginOp; split <;> rfl
@[simp] theorem beginOp_fbMods (o : Op) (s : State) : (beginOp o s).fbMods = s.fbMods := by unfold beginOp; split <;> rfl
@[simp] theorem beginOp_blk (o : Op) (s : State) : (beginOp o s).blk = s.blk := by unfold beginOp; split <;> rfl
@[simp] theorem beginOp_ret (o : Op) (s : State) : (beginOp o s).ret = s.ret := by unfold beginOp; split <;> rfl
@[simp] theorem beginOp_err (o : Op) (s : State) : (beginOp o s).err = s.err := by unfold beginOp; split <;> rfl
@[simp] theorem beginOp_trace (o : Op) (s : State) : (beginOp o s).trace = s.trace := by unfold beginOp; split <;> rfl
@[simp] theorem beginOp_prog (o : Op) (s : State) : (beginOp o s).prog = s.prog := by unfold beginOp; split <;> rfl
@[simp] theorem beginOp_work (o : Op) (s : State) : (beginOp o s).work = s.work := by unfold beginOp; split <;> rfl
@[simp] theorem beginOp_callbacks (o : Op) (s : State) : (beginOp o s).callbacks = s.callbacks := by unfold beginOp; split <;> rfl
@[simp] theorem beginOp_suspended (o : Op) (s : State) : (beginOp o s).suspended = s.suspended := by unfold beginOp; split <;> rfl
@[simp] theorem beginOp_disp (o : Op) (s : State) : (beginOp o s).disp = s.disp := by unfold beginOp; split <;> rfl
@[simp] theorem beginOp_slice (o : Op) (s : State) : (beginOp o s).slice = s.slice := by unfold beginOp; split <;> rfl
@[simp] theorem beginOp_sched (o : Op) (s : State) : (beginOp o s).sched = s.sched := by unfold beginOp; split <;> rfl
@[simp] theorem beginOp_env (o : Op) (s : State) : (beginOp o s).env = s.env := by unfold beginOp; split <;> rfl
@[simp] theorem beginOp_draws (o : Op) (s : State) : (beginOp o s).draws = s.draws := by unfold beginOp; split <;> rfl

@[simp] theorem endOp_cfg (v : RetVal) (s : State) : (endOp v s).cfg = s.cfg := by unfold endOp; split <;> rfl
@[simp] theorem endOp_st (v : RetVal) (s : State) : (endOp v s).st = s.st := by unfold endOp; split <;> rfl
@[simp] theorem endOp_pg (v : RetVal) (s : State) : (endOp v s).pg = s.pg := by unfold endOp; split <;> rfl
@[simp] theorem endOp_ch (v : RetVal) (s : State) : (endOp v s).ch = s.ch := by unfold endOp; split <;> rfl
@[simp] theorem endOp_col (v : RetVal) (s : State) : (endOp v s).col = s.col := by unfold endOp; split <;> rfl
@[simp] theorem endOp_phase (v : RetVal) (s : State) : (endOp v s).phase = s.phase := by unfold endOp; split <;> rfl
@[simp] theorem endOp_selChip (v : RetVal) (s : State) : (endOp v s).selChip = s.selChip := by unfold endOp; split <;> rfl
@[simp] theorem endOp_busDir (v : RetVal) (s : State) : (endOp v s).busDir = s.busDir := by unfold endOp; split <;> rfl
@[simp] theorem endOp_inited (v : RetVal) (s : State) : (endOp v s).inited = s.inited := by unfold endOp; split <;> rfl
@[simp] theorem endOp_e (v : RetVal) (s : State) : (endOp v s).e = s.e := by unfold endOp; split <;> rfl
@[simp] theorem endOp_rw (v : RetVal) (s : State) : (endOp v s).rw = s.rw := by unfold endOp; split <;> rfl
@[simp] theorem endOp_rs (v : RetVal) (s : State) : (endOp v s).rs = s.rs := by unfold endOp; split <;> rfl
@[simp] theorem endOp_d (v : RetVal) (s : State) : (endOp v s).d = s.d := by unfold endOp; split <;> rfl
@[simp] theorem endOp_ddir (v : RetVal) (s : State) : (endOp v s).ddir = s.ddir := by unfold endOp; split <;> rfl
@[simp] theorem endOp_cs (v : RetVal) (s : State) : (endOp v s).cs = s.cs := by unfold endOp; split <;> rfl
@[simp] theorem endOp_ctlQ (v : RetVal) (s : State) : (endOp v s).ctlQ = s.ctlQ := by unfold endOp; split <;> rfl
@[simp] theorem endOp_dataQ (v : RetVal) (s : State) : (endOp v s).dataQ = s.dataQ := by unfold endOp; split <;> rfl
@[simp] theorem endOp_enqCount (v : RetVal) (s : State) : (endOp v s).enqCount = s.enqCount := by unfold endOp; split <;> rfl
@[simp] theorem endOp_ctlLines (v : RetVal) (s : State) : (endOp v s).ctlLines = s.ctlLines := by unfold endOp; split <;> rfl
@[simp] theorem endOp_ctlDriven (v : RetVal) (s : State) : (endOp v s).ctlDriven = s.ctlDriven := by unfold endOp; split <;> rfl
@[simp] theorem endOp_dataLines (v : RetVal) (s : State) : (endOp v s).dataLines = s.dataLines := by unfold endOp; split <;> rfl
@[simp] theorem endOp_strobe (v : RetVal) (s : State) : (endOp v s).strobe = s.strobe := by unfold endOp; split <;> rfl
@[simp] theorem endOp_vport (v : RetVal) (s : State) : (endOp v s).vport = s.vport := by unfold endOp; split <;> rfl
@[simp] theorem endOp_gpio (v : RetVal) (s : State) : (endOp v s).gpio = s.gpio := by unfold endOp; split <;> rfl
@[simp] theorem endOp_relay (v : RetVal) (s : State) : (endOp v s).relay = s.relay := by unfold endOp; split <;> rfl
@[simp] theorem endOp_inTxn (v : RetVal) (s : State) : (endOp v s).inTxn = s.inTxn := by unfold endOp; split <;> rfl
@[simp] theorem endOp_idleDevs (v : RetVal) (s : State) : (endOp v s).idleDevs = s.idleDevs := by unfold endOp; split <;> rfl
@[simp] theorem endOp_openFrame (v : RetVal) (s : State) : (endOp v s).openFrame = s.openFrame := by unfold endOp; split <;> rfl
@[simp] theorem endOp_lcd (v : RetVal) (s : State) : (endOp v s).lcd = s.lcd := by unfold endOp; split <;> rfl
@[simp] theorem endOp_dram (v : RetVal) (s : State) : (endOp v s).dram = s.dram := by unfold endOp; split <;> rfl
@[simp] theorem endOp_fb (v : RetVal) (s : State) : (endOp v s).fb = s.fb := by unfold endOp; split <;> rfl
@[simp] theorem endOp_fbMods (v : RetVal) (s : State) : (endOp v s).fbMods = s.fbMods := by unfold endOp; split <;> rfl
@[simp] theorem endOp_blk (v : RetVal) (s : State) : (endOp v s).blk = s.blk := by unfold endOp; split <;> rfl
@[simp] theorem endOp_ret (v : RetVal) (s : State) : (endOp v s).ret = v := by unfold endOp; split <;> rfl
@[simp] theorem endOp_err (v : RetVal) (s : State) : (endOp v s).err = s.err := by unfold endOp; split <;> rfl
@[simp] theorem endOp_trace (v : RetVal) (s : State) : (endOp v s).trace = s.trace := by unfold endOp; split <;> rfl
@[simp] theorem endOp_prog (v : RetVal) (s : State) : (endOp v s).prog = s.prog := by unfold endOp; split <;> rfl
@[simp] theorem endOp_work (v : RetVal) (s : State) : (endOp v s).work = s.work := by unfold endOp; split <;> rfl
@[simp] theorem endOp_callbacks (v : RetVal) (s : State) : (endOp v s).callbacks = s.callbacks := by unfold endOp; split <;> rfl
@[simp] theorem endOp_suspended (v : RetVal) (s : State) : (endOp v s).suspended = s.suspended := by unfold endOp; split <;> rfl
@[simp] theorem endOp_disp (v : RetVal) (s : State) : (endOp v s).disp = s.disp := by unfold endOp; split <;> rfl
@[simp] theorem endOp_slice (v : RetVal) (s : State) : (endOp v s).slice = s.slice := by unfold endOp; split <;> rfl
@[simp] theorem endOp_sched (v : RetVal) (s : State) : (endOp v s).sched = s.sched := by unfold endOp; split <;> rfl
@[simp] theorem endOp_env (v : RetVal) (s : State) : (endOp v s).env = s.env := by unfold endOp; split <;> rfl
@[simp] theorem endOp_draws (v : RetVal) (s : State) : (endOp v s).draws = s.draws := by unfold endOp; split <;> rfl

@[simp] theorem leave_cfg (s : State) (ms : List Micro) : (s.leave ms).cfg = s.cfg := rfl
@[simp] theorem leave_op (s : State) (ms : List Micro) : (s.leave ms).op = s.op := rfl
@[simp] theorem leave_st (s : State) (ms : List Micro) : (s.leave ms).st = s.st := rfl
@[simp] theorem leave_pg (s : State) (ms : List Micro) : (s.leave ms).pg = s.pg := rfl
@[simp] theorem leave_ch (s : State) (ms : List Micro) : (s.leave ms).ch = s.ch := rfl
@[simp] theorem leave_col (s : State) (ms : List Micro) : (s.leave ms).col = s.col := rfl
@[simp] theorem leave_phase (s : State) (ms : List Micro) : (s.leave ms).phase = s.phase := rfl
@[simp] theorem leave_selChip (s : State) (ms : List Micro) : (s.leave ms).selChip = s.selChip := rfl
@[simp] theorem leave_busDir (s : State) (ms : List Micro) : (s.leave ms).busDir = s.busDir := rfl
@[simp] theorem leave_inited (s : State) (ms : List Micro) : (s.leave ms).inited = s.inited := rfl
@[simp] theorem leave_e (s : State) (ms : List Micro) : (s.leave ms).e = s.e := rfl
@[simp] theorem leave_rw (s : State) (ms : List Micro) : (s.leave ms).rw = s.rw := rfl
@[simp] theorem leave_rs (s : State) (ms : List Micro) : (s.leave ms).rs = s.rs := rfl
@[simp] theorem leave_d (s : State) (ms : List Micro) : (s.leave ms).d = s.d := rfl
@[simp] theorem leave_ddir (s : State) (ms : List Micro) : (s.leave ms).ddir = s.ddir := rfl
@[simp] theorem leave_cs (s : State) (ms : List Micro) : (s.leave ms).cs = s.cs := rfl
@[simp] theorem leave_ctlQ (s : State) (ms : List Micro) : (s.leave ms).ctlQ = s.ctlQ := rfl
@[simp] theorem leave_dataQ (s : State) (ms : List Micro) : (s.leave ms).dataQ = s.dataQ := rfl
@[simp] theorem leave_enqCount (s : State) (ms : List Micro) : (s.leave ms).enqCount = s.enqCount := rfl
@[simp] theorem leave_ctlLines (s : State) (ms : List Micro) : (s.leave ms).ctlLines = s.ctlLines := rfl
@[simp] theorem leave_ctlDriven (s : State) (ms : List Micro) : (s.leave ms).ctlDriven = s.ctlDriven := rfl
@[simp] theorem leave_dataLines (s : State) (ms : List Micro) : (s.leave ms).dataLines = s.dataLines := rfl
@[simp] theorem leave_strobe (s : State) (ms : List Micro) : (s.leave ms).strobe = s.strobe := rfl
@[simp] theorem leave_vport (s : State) (ms : List Micro) : (s.leave ms).vport = s.vport := rfl
@[simp] theorem leave_gpio (s : State) (ms : List Micro) : (s.leave ms).gpio = s.gpio := rfl
@[simp] theorem leave_relay (s : State) (ms : List Micro) : (s.leave ms).relay = s.relay := rfl
@[simp] theorem leave_inTxn (s : State) (ms : List Micro) : (s.leave ms).inTxn = s.inTxn := rfl
@[simp] theorem leave_idleDevs (s : State) (ms : List Micro) : (s.leave ms).idleDevs = s.idleDevs := rfl
@[simp] theorem leave_openFrame (s : State) (ms : List Micro) : (s.leave ms).openFrame = s.openFrame := rfl
@[simp] theorem leave_lcd (s : State) (ms : List Micro) : (s.leave ms).lcd = s.lcd := rfl
@[simp] theorem leave_dram (s : State) (ms : List Micro) : (s.leave ms).dram = s.dram := rfl
@[simp] theorem leave_fb (s : State) (ms : List Micro) : (s.leave ms).fb = s.fb := rfl
@[simp] theorem leave_fbMods (s : State) (ms : List Micro) : (s.leave ms).fbMods = s.fbMods := rfl
@[simp] theorem leave_blk (s : State) (ms : List Micro) : (s.leave ms).blk = s.blk := rfl
@[simp] theorem leave_ret (s : State) (ms : List Micro) : (s.leave ms).ret = s.ret := rfl
@[simp] theorem leave_err (s : State) (ms : List Micro) : (s.leave ms).err = s.err := rfl
@[simp] theorem leave_trace (s : State) (ms : List Micro) : (s.leave ms).trace = s.trace := rfl
@[simp] theorem leave_prog (s : State) (ms : List Micro) : (s.leave ms).prog = s.prog := rfl
@[simp] theorem leave_work (s : State) (ms : List Micro) : (s.leave ms).work = ms ++ s.work := rfl
@[simp] theorem leave_callbacks (s : State) (ms : List Micro) : (s.leave ms).callbacks = s.callbacks := rfl
@[simp] theorem leave_suspended (s : State) (ms : List Micro) : (s.leave ms).suspended = s.suspended := rfl
@[simp] theorem leave_disp (s : State) (ms : List Micro) : (s.leave ms).disp = s.disp := rfl
@[simp] theorem leave_slice (s : State) (ms : List Micro) : (s.leave ms).slice = s.slice := rfl
@[simp] theorem leave_sched (s : State) (ms : List Micro) : (s.leave ms).sched = s.sched := rfl
@[simp] theorem leave_env (s : State) (ms : List Micro) : (s.leave ms).env = s.env := rfl
@[simp] theorem leave_draws (s : State) (ms : List Micro) : (s.leave ms).draws = s.draws := rfl

@[simp] theorem txn_cfg (s : State) (b : Bool) : (s.txn b).cfg = s.cfg := rfl
@[simp] theorem txn_op (s : State) (b : Bool) : (s.txn b).op = s.op := rfl
@[simp] theorem txn_st (s : State) (b : Bool) : (s.txn b).st = s.st := rfl
@[simp] theorem txn_pg (s : State) (b : Bool) : (s.txn b).pg = s.pg := rfl
@[simp] theorem txn_ch (s : State) (b : Bool) : (s.txn b).ch = s.ch := rfl
@[simp] theorem txn_col (s : State) (b : Bool) : (s.txn b).col = s.col := rfl
@[simp] theorem txn_phase (s : State) (b : Bool) : (s.txn b).phase = s.phase := rfl
@[simp] theorem txn_selChip (s : State) (b : Bool) : (s.txn b).selChip = s.selChip := rfl
@[simp] theorem txn_busDir (s : State) (b : Bool) : (s.txn b).busDir = s.busDir := rfl
@[simp] theorem txn_inited (s : State) (b : Bool) : (s.txn b).inited = s.inited := rfl
@[simp] theorem txn_e (s : State) (b : Bool) : (s.txn b).e = s.e := rfl
@[simp] theorem txn_rw (s : State) (b : Bool) : (s.txn b).rw = s.rw := rfl
@[simp] theorem txn_rs (s : State) (b : Bool) : (s.txn b).rs = s.rs := rfl
@[simp] theorem txn_d (s : State) (b : Bool) : (s.txn b).d = s.d := rfl
@[simp] theorem txn_ddir (s : State) (b : Bool) : (s.txn b).ddir = s.ddir := rfl
@[simp] theorem txn_cs (s : State) (b : Bool) : (s.txn b).cs = s.cs := rfl
@[simp] theorem txn_ctlQ (s : State) (b : Bool) : (s.txn b).ctlQ = s.ctlQ := rfl
@[simp] theorem txn_dataQ (s : State) (b : Bool) : (s.txn b).dataQ = s.dataQ := rfl
@[simp] theorem txn_enqCount (s : State) (b : Bool) : (s.txn b).enqCount = s.enqCount := rfl
@[simp] theorem txn_ctlLines (s : State) (b : Bool) : (s.txn b).ctlLines = s.ctlLines := rfl
@[simp] theorem txn_ctlDriven (s : State) (b : Bool) : (s.txn b).ctlDriven = s.ctlDriven := rfl
@[simp] theorem txn_dataLines (s : State) (b : Bool) : (s.txn b).dataLines = s.dataLines := rfl
@[simp] theorem txn_strobe (s : State) (b : Bool) : (s.txn b).strobe = s.strobe := rfl
@[simp] theorem txn_vport (s : State) (b : Bool) : (s.txn b).vport = s.vport := rfl
@[simp] theorem txn_gpio (s : State) (b : Bool) : (s.txn b).gpio = s.gpio := rfl
@[simp] theorem txn_relay (s : State) (b : Bool) : (s.txn b).relay = s.relay := rfl
@[simp] theorem txn_inTxn (s : State) (b : Bool) : (s.txn b).inTxn = b := rfl
@[simp] theorem txn_idleDevs (s : State) (b : Bool) : (s.txn b).idleDevs = s.idleDevs := rfl
@[simp] theorem txn_openFrame (s : State) (b : Bool) : (s.txn b).openFrame = s.openFrame := rfl
@[simp] theorem txn_lcd (s : State) (b : Bool) : (s.txn b).lcd = s.lcd := rfl
@[simp] theorem txn_dram (s : State) (b : Bool) : (s.txn b).dram = s.dram := rfl
@[simp] theorem txn_fb (s : State) (b : Bool) : (s.txn b).fb = s.fb := rfl
@[simp] theorem txn_fbMods (s : State) (b : Bool) : (s.txn b).fbMods = s.fbMods := rfl
@[simp] theorem txn_blk (s : State) (b : Bool) : (s.txn b).blk = s.blk := rfl
@[simp] theorem txn_ret (s : State) (b : Bool) : (s.txn b).ret = s.ret := rfl
@[simp] theorem txn_err (s : State) (b : Bool) : (s.txn b).err = s.err := rfl
@[simp] theorem txn_trace (s : State) (b : Bool) : (s.txn b).trace = s.trace := rfl
@[simp] theorem txn_prog (s : State) (b : Bool) : (s.txn b).prog = s.prog := rfl
@[simp] theorem txn_work (s : State) (b : Bool) : (s.txn b).work = s.work := rfl
@[simp] theorem txn_callbacks (s : State) (b : Bool) : (s.txn b).callbacks = s.callbacks := rfl
@[simp] theorem txn_suspended (s : State) (b : Bool) : (s.txn b).suspended = s.suspended := rfl
@[simp] theorem txn_disp (s : State) (b : Bool) : (s.txn b).disp = s.disp := rfl
@[simp] theorem txn_slice (s : State) (b : Bool) : (s.txn b).slice = s.slice := rfl
@[simp] theorem txn_sched (s : State) (b : Bool) : (s.txn b).sched = s.sched := rfl
@[simp] theorem txn_env (s : State) (b : Bool) : (s.txn b).env = s.env := rfl
@[simp] theorem txn_draws (s : State) (b : Bool) : (s.txn b).draws = s.draws := rfl

@[simp] theorem closeFrame_cfg (s : State) : s.closeFrame.cfg = s.cfg := rfl
@[simp] theorem closeFrame_op (s : State) : s.closeFrame.op = s.op := rfl
@[simp] theorem closeFrame_st (s : State) : s.closeFrame.st = s.st := rfl
@[simp] theorem closeFrame_pg (s : State) : s.closeFrame.pg = s.pg := rfl
@[simp] theorem closeFrame_ch (s : State) : s.closeFrame.ch = s.ch := rfl
@[simp] theorem closeFrame_col (s : State) : s.closeFrame.col = s.col := rfl
@[simp] theorem closeFrame_phase (s : State) : s.closeFrame.phase = s.phase := rfl
@[simp] theorem closeFrame_selChip (s : State) : s.closeFrame.selChip = s.selChip := rfl
@[simp] theorem closeFrame_busDir (s : State) : s.closeFrame.busDir = s.busDir := rfl
@[simp] theorem closeFrame_inited (s : State) : s.closeFrame.inited = s.inited := rfl
@[simp] theorem closeFrame_e (s : State) : s.closeFrame.e = s.e := rfl
@[simp] theorem closeFrame_rw (s : State) : s.closeFrame.rw = s.rw := rfl
@[simp] theorem closeFrame_rs (s : State) : s.closeFrame.rs = s.rs := rfl
@[simp] theorem closeFrame_d (s : State) : s.closeFrame.d = s.d := rfl
@[simp] theorem closeFrame_ddir (s : State) : s.closeFrame.ddir = s.ddir := rfl
@[simp] theorem closeFrame_cs (s : State) : s.closeFrame.cs = s.cs := rfl
@[simp] theorem closeFrame_ctlQ (s : State) : s.closeFrame.ctlQ = s.ctlQ := rfl
@[simp] theorem closeFrame_dataQ (s : State) : s.closeFrame.dataQ = s.dataQ := rfl
@[simp] theorem closeFrame_enqCount (s : State) : s.closeFrame.enqCount = s.enqCount := rfl
@[simp] theorem closeFrame_ctlLines (s : State) : s.closeFrame.ctlLines = s.ctlLines := rfl
@[simp] theorem closeFrame_ctlDriven (s : State) : s.closeFrame.ctlDriven = s.ctlDriven := rfl
@[simp] theorem closeFrame_dataLines (s : State) : s.closeFrame.dataLines = s.dataLines := rfl
@[simp] theorem closeFrame_strobe (s : State) : s.closeFrame.strobe = s.strobe := rfl
@[simp] theorem closeFrame_vport (s : State) : s.closeFrame.vport = s.vport := rfl
@[simp] theorem closeFrame_gpio (s : State) : s.closeFrame.gpio = s.gpio := rfl
@[simp] theorem closeFrame_relay (s : State) : s.closeFrame.relay = s.relay := rfl
@[simp] theorem closeFrame_inTxn (s : State) : s.closeFrame.inTxn = s.inTxn := rfl
@[simp] theorem closeFrame_idleDevs (s : State) : s.closeFrame.idleDevs = s.idleDevs := rfl
@[simp] theorem closeFrame_openFrame (s : State) : s.closeFrame.openFrame = none := rfl
@[simp] theorem closeFrame_lcd (s : State) : s.closeFrame.lcd = s.lcd := rfl
@[simp] theorem closeFrame_dram (s : State) : s.closeFrame.dram = s.dram := rfl
@[simp] theorem closeFrame_fb (s : State) : s.closeFrame.fb = s.fb := rfl
@[simp] theorem closeFrame_fbMods (s : State) : s.closeFrame.fbMods = s.fbMods := rfl
@[simp] theorem closeFrame_blk (s : State) : s.closeFrame.blk = s.blk := rfl
@[simp] theorem closeFrame_ret (s : State) : s.closeFrame.ret = s.ret := rfl
@[simp] theorem closeFrame_err (s : State) : s.closeFrame.err = s.err := rfl
@[simp] theorem closeFrame_trace (s : State) : s.closeFrame.trace = s.trace := rfl
@[simp] theorem closeFrame_prog (s : State) : s.closeFrame.prog = s.prog := rfl
@[simp] theorem closeFrame_work (s : State) : s.closeFrame.work = s.work := rfl
@[simp] theorem closeFrame_callbacks (s : State) : s.closeFrame.callbacks = s.callbacks := rfl
@[simp] theorem closeFrame_suspended (s : State) : s.closeFrame.suspended = s.suspended := rfl
@[simp] theorem closeFrame_disp (s : State) : s.closeFrame.disp = s.disp := rfl
@[simp] theorem closeFrame_slice (s : State) : s.closeFrame.slice = s.slice := rfl
@[simp] theorem closeFrame_sched (s : State) : s.closeFrame.sched = s.sched := rfl
@[simp] theorem closeFrame_env (s : State) : s.closeFrame.env = s.env := rfl
@[simp] theorem closeFrame_draws (s : State) : s.closeFrame.draws = s.draws := rfl

@[simp] theorem inFsm_cfg (s : State) (f : FsmState) : (s.inFsm f).cfg = s.cfg := rfl
@[simp] theorem inFsm_op (s : State) (f : FsmState) : (s.inFsm f).op = s.op := rfl
@[simp] theorem inFsm_st (s : State) (f : FsmState) : (s.inFsm f).st = f := rfl
@[simp] theorem inFsm_pg (s : State) (f : FsmState) : (s.inFsm f).pg = s.pg := rfl
@[simp] theorem inFsm_ch (s : State) (f : FsmState) : (s.inFsm f).ch = s.ch := rfl
@[simp] theorem inFsm_col (s : State) (f : FsmState) : (s.inFsm f).col = s.col := rfl
@[simp] theorem inFsm_phase (s : State) (f : FsmState) : (s.inFsm f).phase = s.phase := rfl
@[simp] theorem inFsm_selChip (s : State) (f : FsmState) : (s.inFsm f).selChip = s.selChip := rfl
@[simp] theorem inFsm_busDir (s : State) (f : FsmState) : (s.inFsm f).busDir = s.busDir := rfl
@[simp] theorem inFsm_inited (s : State) (f : FsmState) : (s.inFsm f).inited = s.inited := rfl
@[simp] theorem inFsm_e (s : State) (f : FsmState) : (s.inFsm f).e = s.e := rfl
@[simp] theorem inFsm_rw (s : State) (f : FsmState) : (s.inFsm f).rw = s.rw := rfl
@[simp] theorem inFsm_rs (s : State) (f : FsmState) : (s.inFsm f).rs = s.rs := rfl
@[simp] theorem inFsm_d (s : State) (f : FsmState) : (s.inFsm f).d = s.d := rfl
@[simp] theorem inFsm_ddir (s : State) (f : FsmState) : (s.inFsm f).ddir = s.ddir := rfl
@[simp] theorem inFsm_cs (s : State) (f : FsmState) : (s.inFsm f).cs = s.cs := rfl
@[simp] theorem inFsm_ctlQ (s : State) (f : FsmState) : (s.inFsm f).ctlQ = s.ctlQ := rfl
@[simp] theorem inFsm_dataQ (s : State) (f : FsmState) : (s.inFsm f).dataQ = s.dataQ := rfl
@[simp] theorem inFsm_enqCount (s : State) (f : FsmState) : (s.inFsm f).enqCount = s.enqCount := rfl
@[simp] theorem inFsm_ctlLines (s : State) (f : FsmState) : (s.inFsm f).ctlLines = s.ctlLines := rfl
@[simp] theorem inFsm_ctlDriven (s : State) (f : FsmState) : (s.inFsm f).ctlDriven = s.ctlDriven := rfl
@[simp] theorem inFsm_dataLines (s : State) (f : FsmState) : (s.inFsm f).dataLines = s.dataLines := rfl
@[simp] theorem inFsm_strobe (s : State) (f : FsmState) : (s.inFsm f).strobe = s.strobe := rfl
@[simp] theorem inFsm_vport (s : State) (f : FsmState) : (s.inFsm f).vport = s.vport := rfl
@[simp] theorem inFsm_gpio (s : State) (f : FsmState) : (s.inFsm f).gpio = s.gpio := rfl
@[simp] theorem inFsm_relay (s : State) (f : FsmState) : (s.inFsm f).relay = s.relay := rfl
@[simp] theorem inFsm_inTxn (s : State) (f : FsmState) : (s.inFsm f).inTxn = s.inTxn := rfl
@[simp] theorem inFsm_idleDevs (s : State) (f : FsmState) : (s.inFsm f).idleDevs = s.idleDevs := rfl
@[simp] theorem inFsm_openFrame (s : State) (f : FsmState) : (s.inFsm f).openFrame = s.openFrame := rfl
@[simp] theorem inFsm_lcd (s : State) (f : FsmState) : (s.inFsm f).lcd = s.lcd := rfl
@[simp] theorem inFsm_dram (s : State) (f : FsmState) : (s.inFsm f).dram = s.dram := rfl
@[simp] theorem inFsm_fb (s : State) (f : FsmState) : (s.inFsm f).fb = s.fb := rfl
@[simp] theorem inFsm_fbMods (s : State) (f : FsmState) : (s.inFsm f).fbMods = s.fbMods := rfl
@[simp] theorem inFsm_blk (s : State) (f : FsmState) : (s.inFsm f).blk = s.blk := rfl
@[simp] theorem inFsm_ret (s : State) (f : FsmState) : (s.inFsm f).ret = s.ret := rfl
@[simp] theorem inFsm_err (s : State) (f : FsmState) : (s.inFsm f).err = s.err := rfl
@[simp] theorem inFsm_trace (s : State) (f : FsmState) : (s.inFsm f).trace = s.trace := rfl
@[simp] theorem inFsm_prog (s : State) (f : FsmState) : (s.inFsm f).prog = s.prog := rfl
@[simp] theorem inFsm_work (s : State) (f : FsmState) : (s.inFsm f).work = s.work := rfl
@[simp] theorem inFsm_callbacks (s : State) (f : FsmState) : (s.inFsm f).callbacks = s.callbacks := rfl
@[simp] theorem inFsm_suspended (s : State) (f : FsmState) : (s.inFsm f).suspended = s.suspended := rfl
@[simp] theorem inFsm_disp (s : State) (f : FsmState) : (s.inFsm f).disp = s.disp := rfl
@[simp] theorem inFsm_slice (s : State) (f : FsmState) : (s.inFsm f).slice = s.slice := rfl
@[simp] theorem inFsm_sched (s : State) (f : FsmState) : (s.inFsm f).sched = s.sched := rfl
@[simp] theorem inFsm_env (s : State) (f : FsmState) : (s.inFsm f).env = s.env := rfl
@[simp] theorem inFsm_draws (s : State) (f : FsmState) : (s.inFsm f).draws = s.draws := rfl

@[simp] theorem select_cfg (s : State) (c : Option Nat) : (s.select c).cfg = s.cfg := rfl
@[simp] theorem select_op (s : State) (c : Option Nat) : (s.select c).op = s.op := rfl
@[simp] theorem select_st (s : State) (c : Option Nat) : (s.select c).st = s.st := rfl
@[simp] theorem select_pg (s : State) (c : Option Nat) : (s.select c).pg = s.pg := rfl
@[simp] theorem select_ch (s : State) (c : Option Nat) : (s.select c).ch = s.ch := rfl
@[simp] theorem select_col (s : State) (c : Option Nat) : (s.select c).col = s.col := rfl
@[simp] theorem select_phase (s : State) (c : Option Nat) : (s.select c).phase = s.phase := rfl
@[simp] theorem select_selChip (s : State) (c : Option Nat) : (s.select c).selChip = c := rfl
@[simp] theorem select_busDir (s : State) (c : Option Nat) : (s.select c).busDir = s.busDir := rfl
@[simp] theorem select_inited (s : State) (c : Option Nat) : (s.select c).inited = s.inited := rfl
@[simp] theorem select_e (s : State) (c : Option Nat) : (s.select c).e = s.e := rfl
@[simp] theorem select_rw (s : State) (c : Option Nat) : (s.select c).rw = s.rw := rfl
@[simp] theorem select_rs (s : State) (c : Option Nat) : (s.select c).rs = s.rs := rfl
@[simp] theorem select_d (s : State) (c : Option Nat) : (s.select c).d = s.d := rfl
@[simp] theorem select_ddir (s : State) (c : Option Nat) : (s.select c).ddir = s.ddir := rfl
@[simp] theorem select_cs (s : State) (c : Option Nat) : (s.select c).cs = s.cs := rfl
@[simp] theorem select_ctlQ (s : State) (c : Option Nat) : (s.select c).ctlQ = s.ctlQ := rfl
@[simp] theorem select_dataQ (s : State) (c : Option Nat) : (s.select c).dataQ = s.dataQ := rfl
@[simp] theorem select_enqCount (s : State) (c : Option Nat) : (s.select c).enqCount = s.enqCount := rfl
@[simp] theorem select_ctlLines (s : State) (c : Option Nat) : (s.select c).ctlLines = s.ctlLines := rfl
@[simp] theorem select_ctlDriven (s : State) (c : Option Nat) : (s.select c).ctlDriven = s.ctlDriven := rfl
@[simp] theorem select_dataLines (s : State) (c : Option Nat) : (s.select c).dataLines = s.dataLines := rfl
@[simp] theorem select_strobe (s : State) (c : Option Nat) : (s.select c).strobe = s.strobe := rfl
@[simp] theorem select_vport (s : State) (c : Option Nat) : (s.select c).vport = s.vport := rfl
@[simp] theorem select_gpio (s : State) (c : Option Nat) : (s.select c).gpio = s.gpio := rfl
@[simp] theorem select_relay (s : State) (c : Option Nat) : (s.select c).relay = s.relay := rfl
@[simp] theorem select_inTxn (s : State) (c : Option Nat) : (s.select c).inTxn = s.inTxn := rfl
@[simp] theorem select_idleDevs (s : State) (c : Option Nat) : (s.select c).idleDevs = s.idleDevs := rfl
@[simp] theorem select_openFrame (s : State) (c : Option Nat) : (s.select c).openFrame = s.openFrame := rfl
@[simp] theorem select_lcd (s : State) (c : Option Nat) : (s.select c).lcd = s.lcd := rfl
@[simp] theorem select_dram (s : State) (c : Option Nat) : (s.select c).dram = s.dram := rfl
@[simp] theorem select_fb (s : State) (c : Option Nat) : (s.select c).fb = s.fb := rfl
@[simp] theorem select_fbMods (s : State) (c : Option Nat) : (s.select c).fbMods = s.fbMods := rfl
@[simp] theorem select_blk (s : State) (c : Option Nat) : (s.select c).blk = s.blk := rfl
@[simp] theorem select_ret (s : State) (c : Option Nat) : (s.select c).ret = s.ret := rfl
@[simp] theorem select_err (s : State) (c : Option Nat) : (s.select c).err = s.err := rfl
@[simp] theorem select_trace (s : State) (c : Option Nat) : (s.select c).trace = s.trace := rfl
@[simp] theorem select_prog (s : State) (c : Option Nat) : (s.select c).prog = s.prog := rfl
@[simp] theorem select_work (s : State) (c : Option Nat) : (s.select c).work = s.work := rfl
@[simp] theorem select_callbacks (s : State) (c : Option Nat) : (s.select c).callbacks = s.callbacks := rfl
@[simp] theorem select_suspended (s : State) (c : Option Nat) : (s.select c).suspended = s.suspended := rfl
@[simp] theorem select_disp (s : State) (c : Option Nat) : (s.select c).disp = s.disp := rfl
@[simp] theorem select_slice (s : State) (c : Option Nat) : (s.select c).slice = s.slice := rfl
@[simp] theorem select_sched (s : State) (c : Option Nat) : (s.select c).sched = s.sched := rfl
@[simp] theorem select_env (s : State) (c : Option Nat) : (s.select c).env = s.env := rfl
@[simp] theorem select_draws (s : State) (c : Option Nat) : (s.select c).draws = s.draws := rfl

@[simp] theorem withVport_cfg (s : State) (v : Half) : (s.withVport v).cfg = s.cfg := rfl
@[simp] theorem withVport_op (s : State) (v : Half) : (s.withVport v).op = s.op := rfl
@[simp] theorem withVport_st (s : State) (v : Half) : (s.withVport v).st = s.st := rfl
@[simp] theorem withVport_pg (s : State) (v : Half) : (s.withVport v).pg = s.pg := rfl
@[simp] theorem withVport_ch (s : State) (v : Half) : (s.withVport v).ch = s.ch := rfl
@[simp] theorem withVport_col (s : State) (v : Half) : (s.withVport v).col = s.col := rfl
@[simp] theorem withVport_phase (s : State) (v : Half) : (s.withVport v).phase = s.phase := rfl
@[simp] theorem withVport_selChip (s : State) (v : Half) : (s.withVport v).selChip = s.selChip := rfl
@[simp] theorem withVport_busDir (s : State) (v : Half) : (s.withVport v).busDir = s.busDir := rfl
@[simp] theorem withVport_inited (s : State) (v : Half) : (s.withVport v).inited = s.inited := rfl
@[simp] theorem withVport_e (s : State) (v : Half) : (s.withVport v).e = s.e := rfl
@[simp] theorem withVport_rw (s : State) (v : Half) : (s.withVport v).rw = s.rw := rfl
@[simp] theorem withVport_rs (s : State) (v : Half) : (s.withVport v).rs = s.rs := rfl
@[simp] theorem withVport_d (s : State) (v : Half) : (s.withVport v).d = s.d := rfl
@[simp] theorem withVport_ddir (s : State) (v : Half) : (s.withVport v).ddir = s.ddir := rfl
@[simp] theorem withVport_cs (s : State) (v : Half) : (s.withVport v).cs = s.cs := rfl
@[simp] theorem withVport_ctlQ (s : State) (v : Half) : (s.withVport v).ctlQ = s.ctlQ := rfl
@[simp] theorem withVport_dataQ (s : State) (v : Half) : (s.withVport v).dataQ = s.dataQ := rfl
@[simp] theorem withVport_enqCount (s : State) (v : Half) : (s.withVport v).enqCount = s.enqCount := rfl
@[simp] theorem withVport_ctlLines (s : State) (v : Half) : (s.withVport v).ctlLines = s.ctlLines := rfl
@[simp] theorem withVport_ctlDriven (s : State) (v : Half) : (s.withVport v).ctlDriven = s.ctlDriven := rfl
@[simp] theorem withVport_dataLines (s : State) (v : Half) : (s.withVport v).dataLines = s.dataLines := rfl
@[simp] theorem withVport_strobe (s : State) (v : Half) : (s.withVport v).strobe = s.strobe := rfl
@[simp] theorem withVport_vport (s : State) (v : Half) : (s.withVport v).vport = v := rfl
@[simp] theorem withVport_gpio (s : State) (v : Half) : (s.withVport v).gpio = s.gpio := rfl
@[simp] theorem withVport_relay (s : State) (v : Half) : (s.withVport v).relay = s.relay := rfl
@[simp] theorem withVport_inTxn (s : State) (v : Half) : (s.withVport v).inTxn = s.inTxn := rfl
@[simp] theorem withVport_idleDevs (s : State) (v : Half) : (s.withVport v).idleDevs = s.idleDevs := rfl
@[simp] theorem withVport_openFrame (s : State) (v : Half) : (s.withVport v).openFrame = s.openFrame := rfl
@[simp] theorem withVport_lcd (s : State) (v : Half) : (s.withVport v).lcd = s.lcd := rfl
@[simp] theorem withVport_dram (s : State) (v : Half) : (s.withVport v).dram = s.dram := rfl
@[simp] theorem withVport_fb (s : State) (v : Half) : (s.withVport v).fb = s.fb := rfl
@[simp] theorem withVport_fbMods (s : State) (v : Half) : (s.withVport v).fbMods = s.fbMods := rfl
@[simp] theorem withVport_blk (s : State) (v : Half) : (s.withVport v).blk = s.blk := rfl
@[simp] theorem withVport_ret (s : State) (v : Half) : (s.withVport v).ret = s.ret := rfl
@[simp] theorem withVport_err (s : State) (v : Half) : (s.withVport v).err = s.err := rfl
@[simp] theorem withVport_trace (s : State) (v : Half) : (s.withVport v).trace = s.trace := rfl
@[simp] theorem withVport_prog (s : State) (v : Half) : (s.withVport v).prog = s.prog := rfl
@[simp] theorem withVport_work (s : State) (v : Half) : (s.withVport v).work = s.work := rfl
@[simp] theorem withVport_callbacks (s : State) (v : Half) : (s.withVport v).callbacks = s.callbacks := rfl
@[simp] theorem withVport_suspended (s : State) (v : Half) : (s.withVport v).suspended = s.suspended := rfl
@[simp] theorem withVport_disp (s : State) (v : Half) : (s.withVport v).disp = s.disp := rfl
@[simp] theorem withVport_slice (s : State) (v : Half) : (s.withVport v).slice = s.slice := rfl
@[simp] theorem withVport_sched (s : State) (v : Half) : (s.withVport v).sched = s.sched := rfl
@[simp] theorem withVport_env (s : State) (v : Half) : (s.withVport v).env = s.env := rfl
@[simp] theorem withVport_draws (s : State) (v : Half) : (s.withVport v).draws = s.draws := rfl

@[simp] theorem enableLow_cfg (s : State) : s.enableLow.cfg = s.cfg := rfl
@[simp] theorem enableLow_op (s : State) : s.enableLow.op = s.op := rfl
@[simp] theorem enableLow_st (s : State) : s.enableLow.st = s.st := rfl
@[simp] theorem enableLow_pg (s : State) : s.enableLow.pg = s.pg := rfl
@[simp] theorem enableLow_ch (s : State) : s.enableLow.ch = s.ch := rfl
@[simp] theorem enableLow_col (s : State) : s.enableLow.col = s.col := rfl
@[simp] theorem enableLow_phase (s : State) : s.enableLow.phase = s.phase := rfl
@[simp] theorem enableLow_selChip (s : State) : s.enableLow.selChip = s.selChip := rfl
@[simp] theorem enableLow_busDir (s : State) : s.enableLow.busDir = s.busDir := rfl
@[simp] theorem enableLow_inited (s : State) : s.enableLow.inited = s.inited := rfl
@[simp] theorem enableLow_e (s : State) : s.enableLow.e = false := rfl
@[simp] theorem enableLow_rw (s : State) : s.enableLow.rw = s.rw := rfl
@[simp] theorem enableLow_rs (s : State) : s.enableLow.rs = s.rs := rfl
@[simp] theorem enableLow_d (s : State) : s.enableLow.d = s.d := rfl
@[simp] theorem enableLow_ddir (s : State) : s.enableLow.ddir = s.ddir := rfl
@[simp] theorem enableLow_cs (s : State) : s.enableLow.cs = s.cs := rfl
@[simp] theorem enableLow_ctlQ (s : State) : s.enableLow.ctlQ = s.ctlQ := rfl
@[simp] theorem enableLow_dataQ (s : State) : s.enableLow.dataQ = s.dataQ := rfl
@[simp] theorem enableLow_enqCount (s : State) : s.enableLow.enqCount = s.enqCount := rfl
@[simp] theorem enableLow_ctlLines (s : State) : s.enableLow.ctlLines = s.ctlLines := rfl
@[simp] theorem enableLow_ctlDriven (s : State) : s.enableLow.ctlDriven = s.ctlDriven := rfl
@[simp] theorem enableLow_dataLines (s : State) : s.enableLow.dataLines = s.dataLines := rfl
@[simp] theorem enableLow_strobe (s : State) : s.enableLow.strobe = s.strobe := rfl
@[simp] theorem enableLow_vport (s : State) : s.enableLow.vport = s.vport := rfl
@[simp] theorem enableLow_gpio (s : State) : s.enableLow.gpio = s.gpio := rfl
@[simp] theorem enableLow_relay (s : State) : s.enableLow.relay = s.relay := rfl
@[simp] theorem enableLow_inTxn (s : State) : s.enableLow.inTxn = s.inTxn := rfl
@[simp] theorem enableLow_idleDevs (s : State) : s.enableLow.idleDevs = s.idleDevs := rfl
@[simp] theorem enableLow_openFrame (s : State) : s.enableLow.openFrame = s.openFrame := rfl
@[simp] theorem enableLow_lcd (s : State) : s.enableLow.lcd = s.lcd := rfl
@[simp] theorem enableLow_dram (s : State) : s.enableLow.dram = s.dram := rfl
@[simp] theorem enableLow_fb (s : State) : s.enableLow.fb = s.fb := rfl
@[simp] theorem enableLow_fbMods (s : State) : s.enableLow.fbMods = s.fbMods := rfl
@[simp] theorem enableLow_blk (s : State) : s.enableLow.blk = s.blk := rfl
@[simp] theorem enableLow_ret (s : State) : s.enableLow.ret = s.ret := rfl
@[simp] theorem enableLow_err (s : State) : s.enableLow.err = s.err := rfl
@[simp] theorem enableLow_trace (s : State) : s.enableLow.trace = s.trace := rfl
@[simp] theorem enableLow_prog (s : State) : s.enableLow.prog = s.prog := rfl
@[simp] theorem enableLow_work (s : State) : s.enableLow.work = s.work := rfl
@[simp] theorem enableLow_callbacks (s : State) : s.enableLow.callbacks = s.callbacks := rfl
@[simp] theorem enableLow_suspended (s : State) : s.enableLow.suspended = s.suspended := rfl
@[simp] theorem enableLow_disp (s : State) : s.enableLow.disp = s.disp := rfl
@[simp] theorem enableLow_slice (s : State) : s.enableLow.slice = s.slice := rfl
@[simp] theorem enableLow_sched (s : State) : s.enableLow.sched = s.sched := rfl
@[simp] theorem enableLow_env (s : State) : s.enableLow.env = s.env := rfl
@[simp] theorem enableLow_draws (s : State) : s.enableLow.draws = s.draws := rfl

@[simp] theorem suspend_cfg (s : State) (b : Bool) : (s.suspend b).cfg = s.cfg := rfl
@[simp] theorem suspend_op (s : State) (b : Bool) : (s.suspend b).op = s.op := rfl
@[simp] theorem suspend_st (s : State) (b : Bool) : (s.suspend b).st = s.st := rfl
@[simp] theorem suspend_pg (s : State) (b : Bool) : (s.suspend b).pg = s.pg := rfl
@[simp] theorem suspend_ch (s : State) (b : Bool) : (s.suspend b).ch = s.ch := rfl
@[simp] theorem suspend_col (s : State) (b : Bool) : (s.suspend b).col = s.col := rfl
@[simp] theorem suspend_phase (s : State) (b : Bool) : (s.suspend b).phase = s.phase := rfl
@[simp] theorem suspend_selChip (s : State) (b : Bool) : (s.suspend b).selChip = s.selChip := rfl
@[simp] theorem suspend_busDir (s : State) (b : Bool) : (s.suspend b).busDir = s.busDir := rfl
@[simp] theorem suspend_inited (s : State) (b : Bool) : (s.suspend b).inited = s.inited := rfl
@[simp] theorem suspend_e (s : State) (b : Bool) : (s.suspend b).e = s.e := rfl
@[simp] theorem suspend_rw (s : State) (b : Bool) : (s.suspend b).rw = s.rw := rfl
@[simp] theorem suspend_rs (s : State) (b : Bool) : (s.suspend b).rs = s.rs := rfl
@[simp] theorem suspend_d (s : State) (b : Bool) : (s.suspend b).d = s.d := rfl
@[simp] theorem suspend_ddir (s : State) (b : Bool) : (s.suspend b).ddir = s.ddir := rfl
@[simp] theorem suspend_cs (s : State) (b : Bool) : (s.suspend b).cs = s.cs := rfl
@[simp] theorem suspend_ctlQ (s : State) (b : Bool) : (s.suspend b).ctlQ = s.ctlQ := rfl
@[simp] theorem suspend_dataQ (s : State) (b : Bool) : (s.suspend b).dataQ = s.dataQ := rfl
@[simp] theorem suspend_enqCount (s : State) (b : Bool) : (s.suspend b).enqCount = s.enqCount := rfl
@[simp] theorem suspend_ctlLines (s : State) (b : Bool) : (s.suspend b).ctlLines = s.ctlLines := rfl
@[simp] theorem suspend_ctlDriven (s : State) (b : Bool) : (s.suspend b).ctlDriven = s.ctlDriven := rfl
@[simp] theorem suspend_dataLines (s : State) (b : Bool) : (s.suspend b).dataLines = s.dataLines := rfl
@[simp] theorem suspend_strobe (s : State) (b : Bool) : (s.suspend b).strobe = s.strobe := rfl
@[simp] theorem suspend_vport (s : State) (b : Bool) : (s.suspend b).vport = s.vport := rfl
@[simp] theorem suspend_gpio (s : State) (b : Bool) : (s.suspend b).gpio = s.gpio := rfl
@[simp] theorem suspend_relay (s : State) (b : Bool) : (s.suspend b).relay = s.relay := rfl
@[simp] theorem suspend_inTxn (s : State) (b : Bool) : (s.suspend b).inTxn = s.inTxn := rfl
@[simp] theorem suspend_idleDevs (s : State) (b : Bool) : (s.suspend b).idleDevs = s.idleDevs := rfl
@[simp] theorem suspend_openFrame (s : State) (b : Bool) : (s.suspend b).openFrame = s.openFrame := rfl
@[simp] theorem suspend_lcd (s : State) (b : Bool) : (s.suspend b).lcd = s.lcd := rfl
@[simp] theorem suspend_dram (s : State) (b : Bool) : (s.suspend b).dram = s.dram := rfl
@[simp] theorem suspend_fb (s : State) (b : Bool) : (s.suspend b).fb = s.fb := rfl
@[simp] theorem suspend_fbMods (s : State) (b : Bool) : (s.suspend b).fbMods = s.fbMods := rfl
@[simp] theorem suspend_blk (s : State) (b : Bool) : (s.suspend b).blk = s.blk := rfl
@[simp] theorem suspend_ret (s : State) (b : Bool) : (s.suspend b).ret = s.ret := rfl
@[simp] theorem suspend_err (s : State) (b : Bool) : (s.suspend b).err = s.err := rfl
@[simp] theorem suspend_trace (s : State) (b : Bool) : (s.suspend b).trace = s.trace := rfl
@[simp] theorem suspend_prog (s : State) (b : Bool) : (s.suspend b).prog = s.prog := rfl
@[simp] theorem suspend_work (s : State) (b : Bool) : (s.suspend b).work = s.work := rfl
@[simp] theorem suspend_callbacks (s : State) (b : Bool) : (s.suspend b).callbacks = s.callbacks := rfl
@[simp] theorem suspend_suspended (s : State) (b : Bool) : (s.suspend b).suspended = b := rfl
@[simp] theorem suspend_disp (s : State) (b : Bool) : (s.suspend b).disp = s.disp := rfl
@[simp] theorem suspend_slice (s : State) (b : Bool) : (s.suspend b).slice = s.slice := rfl
@[simp] theorem suspend_sched (s : State) (b : Bool) : (s.suspend b).sched = s.sched := rfl
@[simp] theorem suspend_env (s : State) (b : Bool) : (s.suspend b).env = s.env := rfl
@[simp] theorem suspend_draws (s : State) (b : Bool) : (s.suspend b).draws = s.draws := rfl

@[simp] theorem atPosition_cfg (s : State) (pg ch col : Nat) (phase : Phase) : (s.atPosition pg ch col phase).cfg = s.cfg := rfl
@[simp] theorem atPosition_op (s : State) (pg ch col : Nat) (phase : Phase) : (s.atPosition pg ch col phase).op = s.op := rfl
@[simp] theorem atPosition_st (s : State) (pg ch col : Nat) (phase : Phase) : (s.atPosition pg ch col phase).st = s.st := rfl
@[simp] theorem atPosition_pg (s : State) (pg ch col : Nat) (phase : Phase) : (s.atPosition pg ch col phase).pg = pg := rfl
@[simp] theorem atPosition_ch (s : State) (pg ch col : Nat) (phase : Phase) : (s.atPosition pg ch col phase).ch = ch := rfl
@[simp] theorem atPosition_col (s : State) (pg ch col : Nat) (phase : Phase) : (s.atPosition pg ch col phase).col = col := rfl
@[simp] theorem atPosition_phase (s : State) (pg ch col : Nat) (phase : Phase) : (s.atPosition pg ch col phase).phase = phase := rfl
@[simp] theorem atPosition_selChip (s : State) (pg ch col : Nat) (phase : Phase) : (s.atPosition pg ch col phase).selChip = s.selChip := rfl
@[simp] theorem atPosition_busDir (s : State) (pg ch col : Nat) (phase : Phase) : (s.atPosition pg ch col phase).busDir = s.busDir := rfl
@[simp] theorem atPosition_inited (s : State) (pg ch col : Nat) (phase : Phase) : (s.atPosition pg ch col phase).inited = s.inited := rfl
@[simp] theorem atPosition_e (s : State) (pg ch col : Nat) (phase : Phase) : (s.atPosition pg ch col phase).e = s.e := rfl
@[simp] theorem atPosition_rw (s : State) (pg ch col : Nat) (phase : Phase) : (s.atPosition pg ch col phase).rw = s.rw := rfl
@[simp] theorem atPosition_rs (s : State) (pg ch col : Nat) (phase : Phase) : (s.atPosition pg ch col phase).rs = s.rs := rfl
@[simp] theorem atPosition_d (s : State) (pg ch col : Nat) (phase : Phase) : (s.atPosition pg ch col phase).d = s.d := rfl
@[simp] theorem atPosition_ddir (s : State) (pg ch col : Nat) (phase : Phase) : (s.atPosition pg ch col phase).ddir = s.ddir := rfl
@[simp] theorem atPosition_cs (s : State) (pg ch col : Nat) (phase : Phase) : (s.atPosition pg ch col phase).cs = s.cs := rfl
@[simp] theorem atPosition_ctlQ (s : State) (pg ch col : Nat) (phase : Phase) : (s.atPosition pg ch col phase).ctlQ = s.ctlQ := rfl
@[simp] theorem atPosition_dataQ (s : State) (pg ch col : Nat) (phase : Phase) : (s.atPosition pg ch col phase).dataQ = s.dataQ := rfl
@[simp] theorem atPosition_enqCount (s : State) (pg ch col : Nat) (phase : Phase) : (s.atPosition pg ch col phase).enqCount = s.enqCount := rfl
@[simp] theorem atPosition_ctlLines (s : State) (pg ch col : Nat) (phase : Phase) : (s.atPosition pg ch col phase).ctlLines = s.ctlLines := rfl
@[simp] theorem atPosition_ctlDriven (s : State) (pg ch col : Nat) (phase : Phase) : (s.atPosition pg ch col phase).ctlDriven = s.ctlDriven := rfl
@[simp] theorem atPosition_dataLines (s : State) (pg ch col : Nat) (phase : Phase) : (s.atPosition pg ch col phase).dataLines = s.dataLines := rfl
@[simp] theorem atPosition_strobe (s : State) (pg ch col : Nat) (phase : Phase) : (s.atPosition pg ch col phase).strobe = s.strobe := rfl
@[simp] theorem atPosition_vport (s : State) (pg ch col : Nat) (phase : Phase) : (s.atPosition pg ch col phase).vport = s.vport := rfl
@[simp] theorem atPosition_gpio (s : State) (pg ch col : Nat) (phase : Phase) : (s.atPosition pg ch col phase).gpio = s.gpio := rfl
@[simp] theorem atPosition_relay (s : State) (pg ch col : Nat) (phase : Phase) : (s.atPosition pg ch col phase).relay = s.relay := rfl
@[simp] theorem atPosition_inTxn (s : State) (pg ch col : Nat) (phase : Phase) : (s.atPosition pg ch col phase).inTxn = s.inTxn := rfl
@[simp] theorem atPosition_idleDevs (s : State) (pg ch col : Nat) (phase : Phase) : (s.atPosition pg ch col phase).idleDevs = s.idleDevs := rfl
@[simp] theorem atPosition_openFrame (s : State) (pg ch col : Nat) (phase : Phase) : (s.atPosition pg ch col phase).openFrame = s.openFrame := rfl
@[simp] theorem atPosition_lcd (s : State) (pg ch col : Nat) (phase : Phase) : (s.atPosition pg ch col phase).lcd = s.lcd := rfl
@[simp] theorem atPosition_dram (s : State) (pg ch col : Nat) (phase : Phase) : (s.atPosition pg ch col phase).dram = s.dram := rfl
@[simp] theorem atPosition_fb (s : State) (pg ch col : Nat) (phase : Phase) : (s.atPosition pg ch col phase).fb = s.fb := rfl
@[simp] theorem atPosition_fbMods (s : State) (pg ch col : Nat) (phase : Phase) : (s.atPosition pg ch col phase).fbMods = s.fbMods := rfl
@[simp] theorem atPosition_blk (s : State) (pg ch col : Nat) (phase : Phase) : (s.atPosition pg ch col phase).blk = s.blk := rfl
@[simp] theorem atPosition_ret (s : State) (pg ch col : Nat) (phase : Phase) : (s.atPosition pg ch col phase).ret = s.ret := rfl
@[simp] theorem atPosition_err (s : State) (pg ch col : Nat) (phase : Phase) : (s.atPosition pg ch col phase).err = s.err := rfl
@[simp] theorem atPosition_trace (s : State) (pg ch col : Nat) (phase : Phase) : (s.atPosition pg ch col phase).trace = s.trace := rfl
@[simp] theorem atPosition_prog (s : State) (pg ch col : Nat) (phase : Phase) : (s.atPosition pg ch col phase).prog = s.prog := rfl
@[simp] theorem atPosition_work (s : State) (pg ch col : Nat) (phase : Phase) : (s.atPosition pg ch col phase).work = s.work := rfl
@[simp] theorem atPosition_callbacks (s : State) (pg ch col : Nat) (phase : Phase) : (s.atPosition pg ch col phase).callbacks = s.callbacks := rfl
@[simp] theorem atPosition_suspended (s : State) (pg ch col : Nat) (phase : Phase) : (s.atPosition pg ch col phase).suspended = s.suspended := rfl
@[simp] theorem atPosition_disp (s : State) (pg ch col : Nat) (phase : Phase) : (s.atPosition pg ch col phase).disp = s.disp := rfl
@[simp] theorem atPosition_slice (s : State) (pg ch col : Nat) (phase : Phase) : (s.atPosition pg ch col phase).slice = s.slice := rfl
@[simp] theorem atPosition_sched (s : State) (pg ch col : Nat) (phase : Phase) : (s.atPosition pg ch col phase).sched = s.sched := rfl
@[simp] theorem atPosition_env (s : State) (pg ch col : Nat) (phase : Phase) : (s.atPosition pg ch col phase).env = s.env := rfl
@[simp] theorem atPosition_draws (s : State) (pg ch col : Nat) (phase : Phase) : (s.atPosition pg ch col phase).draws = s.draws := rfl

@[simp] theorem withBlk_cfg (s : State) (l : List Byte) : (s.withBlk l).cfg = s.cfg := rfl
@[simp] theorem withBlk_op (s : State) (l : List Byte) : (s.withBlk l).op = s.op := rfl
@[simp] theorem withBlk_st (s : State) (l : List Byte) : (s.withBlk l).st = s.st := rfl
@[simp] theorem withBlk_pg (s : State) (l : List Byte) : (s.withBlk l).pg = s.pg := rfl
@[simp] theorem withBlk_ch (s : State) (l : List Byte) : (s.withBlk l).ch = s.ch := rfl
@[simp] theorem withBlk_col (s : State) (l : List Byte) : (s.withBlk l).col = s.col := rfl
@[simp] theorem withBlk_phase (s : State) (l : List Byte) : (s.withBlk l).phase = s.phase := rfl
@[simp] theorem withBlk_selChip (s : State) (l : List Byte) : (s.withBlk l).selChip = s.selChip := rfl
@[simp] theorem withBlk_busDir (s : State) (l : List Byte) : (s.withBlk l).busDir = s.busDir := rfl
@[simp] theorem withBlk_inited (s : State) (l : List Byte) : (s.withBlk l).inited = s.inited := rfl
@[simp] theorem withBlk_e (s : State) (l : List Byte) : (s.withBlk l).e = s.e := rfl
@[simp] theorem withBlk_rw (s : State) (l : List Byte) : (s.withBlk l).rw = s.rw := rfl
@[simp] theorem withBlk_rs (s : State) (l : List Byte) : (s.withBlk l).rs = s.rs := rfl
@[simp] theorem withBlk_d (s : State) (l : List Byte) : (s.withBlk l).d = s.d := rfl
@[simp] theorem withBlk_ddir (s : State) (l : List Byte) : (s.withBlk l).ddir = s.ddir := rfl
@[simp] theorem withBlk_cs (s : State) (l : List Byte) : (s.withBlk l).cs = s.cs := rfl
@[simp] theorem withBlk_ctlQ (s : State) (l : List Byte) : (s.withBlk l).ctlQ = s.ctlQ := rfl
@[simp] theorem withBlk_dataQ (s : State) (l : List Byte) : (s.withBlk l).dataQ = s.dataQ := rfl
@[simp] theorem withBlk_enqCount (s : State) (l : List Byte) : (s.withBlk l).enqCount = s.enqCount := rfl
@[simp] theorem withBlk_ctlLines (s : State) (l : List Byte) : (s.withBlk l).ctlLines = s.ctlLines := rfl
@[simp] theorem withBlk_ctlDriven (s : State) (l : List Byte) : (s.withBlk l).ctlDriven = s.ctlDriven := rfl
@[simp] theorem withBlk_dataLines (s : State) (l : List Byte) : (s.withBlk l).dataLines = s.dataLines := rfl
@[simp] theorem withBlk_strobe (s : State) (l : List Byte) : (s.withBlk l).strobe = s.strobe := rfl
@[simp] theorem withBlk_vport (s : State) (l : List Byte) : (s.withBlk l).vport = s.vport := rfl
@[simp] theorem withBlk_gpio (s : State) (l : List Byte) : (s.withBlk l).gpio = s.gpio := rfl
@[simp] theorem withBlk_relay (s : State) (l : List Byte) : (s.withBlk l).relay = s.relay := rfl
@[simp] theorem withBlk_inTxn (s : State) (l : List Byte) : (s.withBlk l).inTxn = s.inTxn := rfl
@[simp] theorem withBlk_idleDevs (s : State) (l : List Byte) : (s.withBlk l).idleDevs = s.idleDevs := rfl
@[simp] theorem withBlk_openFrame (s : State) (l : List Byte) : (s.withBlk l).openFrame = s.openFrame := rfl
@[simp] theorem withBlk_lcd (s : State) (l : List Byte) : (s.withBlk l).lcd = s.lcd := rfl
@[simp] theorem withBlk_dram (s : State) (l : List Byte) : (s.withBlk l).dram = s.dram := rfl
@[simp] theorem withBlk_fb (s : State) (l : List Byte) : (s.withBlk l).fb = s.fb := rfl
@[simp] theorem withBlk_fbMods (s : State) (l : List Byte) : (s.withBlk l).fbMods = s.fbMods := rfl
@[simp] theorem withBlk_blk (s : State) (l : List Byte) : (s.withBlk l).blk = l := rfl
@[simp] theorem withBlk_ret (s : State) (l : List Byte) : (s.withBlk l).ret = s.ret := rfl
@[simp] theorem withBlk_err (s : State) (l : List Byte) : (s.withBlk l).err = s.err := rfl
@[simp] theorem withBlk_trace (s : State) (l : List Byte) : (s.withBlk l).trace = s.trace := rfl
@[simp] theorem withBlk_prog (s : State) (l : List Byte) : (s.withBlk l).prog = s.prog := rfl
@[simp] theorem withBlk_work (s : State) (l : List Byte) : (s.withBlk l).work = s.work := rfl
@[simp] theorem withBlk_callbacks (s : State) (l : List Byte) : (s.withBlk l).callbacks = s.callbacks := rfl
@[simp] theorem withBlk_suspended (s : State) (l : List Byte) : (s.withBlk l).suspended = s.suspended := rfl
@[simp] theorem withBlk_disp (s : State) (l : List Byte) : (s.withBlk l).disp = s.disp := rfl
@[simp] theorem withBlk_slice (s : State) (l : List Byte) : (s.withBlk l).slice = s.slice := rfl
@[simp] theorem withBlk_sched (s : State) (l : List Byte) : (s.withBlk l).sched = s.sched := rfl
@[simp] theorem withBlk_env (s : State) (l : List Byte) : (s.withBlk l).env = s.env := rfl
@[simp] theorem withBlk_draws (s : State) (l : List Byte) : (s.withBlk l).draws = s.draws := rfl

@[simp] theorem initialised_cfg (s : State) : s.initialised.cfg = s.cfg := rfl
@[simp] theorem initialised_op (s : State) : s.initialised.op = s.op := rfl
@[simp] theorem initialised_st (s : State) : s.initialised.st = s.st := rfl
@[simp] theorem initialised_pg (s : State) : s.initialised.pg = s.pg := rfl
@[simp] theorem initialised_ch (s : State) : s.initialised.ch = s.ch := rfl
@[simp] theorem initialised_col (s : State) : s.initialised.col = s.col := rfl
@[simp] theorem initialised_phase (s : State) : s.initialised.phase = s.phase := rfl
@[simp] theorem initialised_selChip (s : State) : s.initialised.selChip = s.selChip := rfl
@[simp] theorem initialised_busDir (s : State) : s.initialised.busDir = s.busDir := rfl
@[simp] theorem initialised_inited (s : State) : s.initialised.inited = true := rfl
@[simp] theorem initialised_e (s : State) : s.initialised.e = s.e := rfl
@[simp] theorem initialised_rw (s : State) : s.initialised.rw = s.rw := rfl
@[simp] theorem initialised_rs (s : State) : s.initialised.rs = s.rs := rfl
@[simp] theorem initialised_d (s : State) : s.initialised.d = s.d := rfl
@[simp] theorem initialised_ddir (s : State) : s.initialised.ddir = s.ddir := rfl
@[simp] theorem initialised_cs (s : State) : s.initialised.cs = s.cs := rfl
@[simp] theorem initialised_ctlQ (s : State) : s.initialised.ctlQ = s.ctlQ := rfl
@[simp] theorem initialised_dataQ (s : State) : s.initialised.dataQ = s.dataQ := rfl
@[simp] theorem initialised_enqCount (s : State) : s.initialised.enqCount = s.enqCount := rfl
@[simp] theorem initialised_ctlLines (s : State) : s.initialised.ctlLines = s.ctlLines := rfl
@[simp] theorem initialised_ctlDriven (s : State) : s.initialised.ctlDriven = s.ctlDriven := rfl
@[simp] theorem initialised_dataLines (s : State) : s.initialised.dataLines = s.dataLines := rfl
@[simp] theorem initialised_strobe (s : State) : s.initialised.strobe = s.strobe := rfl
@[simp] theorem initialised_vport (s : State) : s.initialised.vport = s.vport := rfl
@[simp] theorem initialised_gpio (s : State) : s.initialised.gpio = s.gpio := rfl
@[simp] theorem initialised_relay (s : State) : s.initialised.relay = s.relay := rfl
@[simp] theorem initialised_inTxn (s : State) : s.initialised.inTxn = s.inTxn := rfl
@[simp] theorem initialised_idleDevs (s : State) : s.initialised.idleDevs = s.idleDevs := rfl
@[simp] theorem initialised_openFrame (s : State) : s.initialised.openFrame = s.openFrame := rfl
@[simp] theorem initialised_lcd (s : State) : s.initialised.lcd = s.lcd := rfl
@[simp] theorem initialised_dram (s : State) : s.initialised.dram = s.dram := rfl
@[simp] theorem initialised_fb (s : State) : s.initialised.fb = s.fb := rfl
@[simp] theorem initialised_fbMods (s : State) : s.initialised.fbMods = s.fbMods := rfl
@[simp] theorem initialised_blk (s : State) : s.initialised.blk = s.blk := rfl
@[simp] theorem initialised_ret (s : State) : s.initialised.ret = s.ret := rfl
@[simp] theorem initialised_err (s : State) : s.initialised.err = s.err := rfl
@[simp] theorem initialised_trace (s : State) : s.initialised.trace = s.trace := rfl
@[simp] theorem initialised_prog (s : State) : s.initialised.prog = s.prog := rfl
@[simp] theorem initialised_work (s : State) : s.initialised.work = s.work := rfl
@[simp] theorem initialised_callbacks (s : State) : s.initialised.callbacks = s.callbacks := rfl
@[simp] theorem initialised_suspended (s : State) : s.initialised.suspended = s.suspended := rfl
@[simp] theorem initialised_disp (s : State) : s.initialised.disp = s.disp := rfl
@[simp] theorem initialised_slice (s : State) : s.initialised.slice = s.slice := rfl
@[simp] theorem initialised_sched (s : State) : s.initialised.sched = s.sched := rfl
@[simp] theorem initialised_env (s : State) : s.initialised.env = s.env := rfl
@[simp] theorem initialised_draws (s : State) : s.initialised.draws = s.draws := rfl

@[simp] theorem fbWrote_cfg (s : State) (off : Nat) (b : Byte) : (s.fbWrote off b).cfg = s.cfg := rfl
@[simp] theorem fbWrote_op (s : State) (off : Nat) (b : Byte) : (s.fbWrote off b).op = s.op := rfl
@[simp] theorem fbWrote_st (s : State) (off : Nat) (b : Byte) : (s.fbWrote off b).st = s.st := rfl
@[simp] theorem fbWrote_pg (s : State) (off : Nat) (b : Byte) : (s.fbWrote off b).pg = s.pg := rfl
@[simp] theorem fbWrote_ch (s : State) (off : Nat) (b : Byte) : (s.fbWrote off b).ch = s.ch := rfl
@[simp] theorem fbWrote_col (s : State) (off : Nat) (b : Byte) : (s.fbWrote off b).col = s.col := rfl
@[simp] theorem fbWrote_phase (s : State) (off : Nat) (b : Byte) : (s.fbWrote off b).phase = s.phase := rfl
@[simp] theorem fbWrote_selChip (s : State) (off : Nat) (b : Byte) : (s.fbWrote off b).selChip = s.selChip := rfl
@[simp] theorem fbWrote_busDir (s : State) (off : Nat) (b : Byte) : (s.fbWrote off b).busDir = s.busDir := rfl
@[simp] theorem fbWrote_inited (s : State) (off : Nat) (b : Byte) : (s.fbWrote off b).inited = s.inited := rfl
@[simp] theorem fbWrote_e (s : State) (off : Nat) (b : Byte) : (s.fbWrote off b).e = s.e := rfl
@[simp] theorem fbWrote_rw (s : State) (off : Nat) (b : Byte) : (s.fbWrote off b).rw = s.rw := rfl
@[simp] theorem fbWrote_rs (s : State) (off : Nat) (b : Byte) : (s.fbWrote off b).rs = s.rs := rfl
@[simp] theorem fbWrote_d (s : State) (off : Nat) (b : Byte) : (s.fbWrote off b).d = s.d := rfl
@[simp] theorem fbWrote_ddir (s : State) (off : Nat) (b : Byte) : (s.fbWrote off b).ddir = s.ddir := rfl
@[simp] theorem fbWrote_cs (s : State) (off : Nat) (b : Byte) : (s.fbWrote off b).cs = s.cs := rfl
@[simp] theorem fbWrote_ctlQ (s : State) (off : Nat) (b : Byte) : (s.fbWrote off b).ctlQ = s.ctlQ := rfl
@[simp] theorem fbWrote_dataQ (s : State) (off : Nat) (b : Byte) : (s.fbWrote off b).dataQ = s.dataQ := rfl
@[simp] theorem fbWrote_enqCount (s : State) (off : Nat) (b : Byte) : (s.fbWrote off b).enqCount = s.enqCount := rfl
@[simp] theorem fbWrote_ctlLines (s : State) (off : Nat) (b : Byte) : (s.fbWrote off b).ctlLines = s.ctlLines := rfl
@[simp] theorem fbWrote_ctlDriven (s : State) (off : Nat) (b : Byte) : (s.fbWrote off b).ctlDriven = s.ctlDriven := rfl
@[simp] theorem fbWrote_dataLines (s : State) (off : Nat) (b : Byte) : (s.fbWrote off b).dataLines = s.dataLines := rfl
@[simp] theorem fbWrote_strobe (s : State) (off : Nat) (b : Byte) : (s.fbWrote off b).strobe = s.strobe := rfl
@[simp] theorem fbWrote_vport (s : State) (off : Nat) (b : Byte) : (s.fbWrote off b).vport = s.vport := rfl
@[simp] theorem fbWrote_gpio (s : State) (off : Nat) (b : Byte) : (s.fbWrote off b).gpio = s.gpio := rfl
@[simp] theorem fbWrote_relay (s : State) (off : Nat) (b : Byte) : (s.fbWrote off b).relay = s.relay := rfl
@[simp] theorem fbWrote_inTxn (s : State) (off : Nat) (b : Byte) : (s.fbWrote off b).inTxn = s.inTxn := rfl
@[simp] theorem fbWrote_idleDevs (s : State) (off : Nat) (b : Byte) : (s.fbWrote off b).idleDevs = s.idleDevs := rfl
@[simp] theorem fbWrote_openFrame (s : State) (off : Nat) (b : Byte) : (s.fbWrote off b).openFrame = s.openFrame := rfl
@[simp] theorem fbWrote_lcd (s : State) (off : Nat) (b : Byte) : (s.fbWrote off b).lcd = s.lcd := rfl
@[simp] theorem fbWrote_dram (s : State) (off : Nat) (b : Byte) : (s.fbWrote off b).dram = s.dram := rfl
@[simp] theorem fbWrote_fb (s : State) (off : Nat) (b : Byte) : (s.fbWrote off b).fb = s.fb := rfl
@[simp] theorem fbWrote_fbMods (s : State) (off : Nat) (b : Byte) : (s.fbWrote off b).fbMods = s.fbMods ++ [(off, b)] := rfl
@[simp] theorem fbWrote_blk (s : State) (off : Nat) (b : Byte) : (s.fbWrote off b).blk = s.blk := rfl
@[simp] theorem fbWrote_ret (s : State) (off : Nat) (b : Byte) : (s.fbWrote off b).ret = s.ret := rfl
@[simp] theorem fbWrote_err (s : State) (off : Nat) (b : Byte) : (s.fbWrote off b).err = s.err := rfl
@[simp] theorem fbWrote_trace (s : State) (off : Nat) (b : Byte) : (s.fbWrote off b).trace = s.trace := rfl
@[simp] theorem fbWrote_prog (s : State) (off : Nat) (b : Byte) : (s.fbWrote off b).prog = s.prog := rfl
@[simp] theorem fbWrote_work (s : State) (off : Nat) (b : Byte) : (s.fbWrote off b).work = s.work := rfl
@[simp] theorem fbWrote_callbacks (s : State) (off : Nat) (b : Byte) : (s.fbWrote off b).callbacks = s.callbacks := rfl
@[simp] theorem fbWrote_suspended (s : State) (off : Nat) (b : Byte) : (s.fbWrote off b).suspended = s.suspended := rfl
@[simp] theorem fbWrote_disp (s : State) (off : Nat) (b : Byte) : (s.fbWrote off b).disp = s.disp := rfl
@[simp] theorem fbWrote_slice (s : State) (off : Nat) (b : Byte) : (s.fbWrote off b).slice = s.slice := rfl
@[simp] theorem fbWrote_sched (s : State) (off : Nat) (b : Byte) : (s.fbWrote off b).sched = s.sched := rfl
@[simp] theorem fbWrote_env (s : State) (off : Nat) (b : Byte) : (s.fbWrote off b).env = s.env := rfl
@[simp] theorem fbWrote_draws (s : State) (off : Nat) (b : Byte) : (s.fbWrote off b).draws = s.draws := rfl

@[simp] theorem queueCtl_cfg (s : State) (w : Nibble) : (s.queueCtl w).cfg = s.cfg := rfl
@[simp] theorem queueCtl_op (s : State) (w : Nibble) : (s.queueCtl w).op = s.op := rfl
@[simp] theorem queueCtl_st (s : State) (w : Nibble) : (s.queueCtl w).st = s.st := rfl
@[simp] theorem queueCtl_pg (s : State) (w : Nibble) : (s.queueCtl w).pg = s.pg := rfl
@[simp] theorem queueCtl_ch (s : State) (w : Nibble) : (s.queueCtl w).ch = s.ch := rfl
@[simp] theorem queueCtl_col (s : State) (w : Nibble) : (s.queueCtl w).col = s.col := rfl
@[simp] theorem queueCtl_phase (s : State) (w : Nibble) : (s.queueCtl w).phase = s.phase := rfl
@[simp] theorem queueCtl_selChip (s : State) (w : Nibble) : (s.queueCtl w).selChip = s.selChip := rfl
@[simp] theorem queueCtl_busDir (s : State) (w : Nibble) : (s.queueCtl w).busDir = s.busDir := rfl
@[simp] theorem queueCtl_inited (s : State) (w : Nibble) : (s.queueCtl w).inited = s.inited := rfl
@[simp] theorem queueCtl_e (s : State) (w : Nibble) : (s.queueCtl w).e = s.e := rfl
@[simp] theorem queueCtl_rw (s : State) (w : Nibble) : (s.queueCtl w).rw = s.rw := rfl
@[simp] theorem queueCtl_rs (s : State) (w : Nibble) : (s.queueCtl w).rs = s.rs := rfl
@[simp] theorem queueCtl_d (s : State) (w : Nibble) : (s.queueCtl w).d = s.d := rfl
@[simp] theorem queueCtl_ddir (s : State) (w : Nibble) : (s.queueCtl w).ddir = s.ddir := rfl
@[simp] theorem queueCtl_cs (s : State) (w : Nibble) : (s.queueCtl w).cs = s.cs := rfl
@[simp] theorem queueCtl_ctlQ (s : State) (w : Nibble) : (s.queueCtl w).ctlQ = s.ctlQ ++ [(s.enqCount, w)] := rfl
@[simp] theorem queueCtl_dataQ (s : State) (w : Nibble) : (s.queueCtl w).dataQ = s.dataQ := rfl
@[simp] theorem queueCtl_enqCount (s : State) (w : Nibble) : (s.queueCtl w).enqCount = s.enqCount + 1 := rfl
@[simp] theorem queueCtl_ctlLines (s : State) (w : Nibble) : (s.queueCtl w).ctlLines = s.ctlLines := rfl
@[simp] theorem queueCtl_ctlDriven (s : State) (w : Nibble) : (s.queueCtl w).ctlDriven = s.ctlDriven := rfl
@[simp] theorem queueCtl_dataLines (s : State) (w : Nibble) : (s.queueCtl w).dataLines = s.dataLines := rfl
@[simp] theorem queueCtl_strobe (s : State) (w : Nibble) : (s.queueCtl w).strobe = s.strobe := rfl
@[simp] theorem queueCtl_vport (s : State) (w : Nibble) : (s.queueCtl w).vport = s.vport := rfl
@[simp] theorem queueCtl_gpio (s : State) (w : Nibble) : (s.queueCtl w).gpio = s.gpio := rfl
@[simp] theorem queueCtl_relay (s : State) (w : Nibble) : (s.queueCtl w).relay = s.relay := rfl
@[simp] theorem queueCtl_inTxn (s : State) (w : Nibble) : (s.queueCtl w).inTxn = s.inTxn := rfl
@[simp] theorem queueCtl_idleDevs (s : State) (w : Nibble) : (s.queueCtl w).idleDevs = s.idleDevs := rfl
@[simp] theorem queueCtl_openFrame (s : State) (w : Nibble) : (s.queueCtl w).openFrame = s.openFrame := rfl
@[simp] theorem queueCtl_lcd (s : State) (w : Nibble) : (s.queueCtl w).lcd = s.lcd := rfl
@[simp] theorem queueCtl_dram (s : State) (w : Nibble) : (s.queueCtl w).dram = s.dram := rfl
@[simp] theorem queueCtl_fb (s : State) (w : Nibble) : (s.queueCtl w).fb = s.fb := rfl
@[simp] theorem queueCtl_fbMods (s : State) (w : Nibble) : (s.queueCtl w).fbMods = s.fbMods := rfl
@[simp] theorem queueCtl_blk (s : State) (w : Nibble) : (s.queueCtl w).blk = s.blk := rfl
@[simp] theorem queueCtl_ret (s : State) (w : Nibble) : (s.queueCtl w).ret = s.ret := rfl
@[simp] theorem queueCtl_err (s : State) (w : Nibble) : (s.queueCtl w).err = s.err := rfl
@[simp] theorem queueCtl_trace (s : State) (w : Nibble) : (s.queueCtl w).trace = s.trace := rfl
@[simp] theorem queueCtl_prog (s : State) (w : Nibble) : (s.queueCtl w).prog = s.prog := rfl
@[simp] theorem queueCtl_work (s : State) (w : Nibble) : (s.queueCtl w).work = s.work := rfl
@[simp] theorem queueCtl_callbacks (s : State) (w : Nibble) : (s.queueCtl w).callbacks = s.callbacks := rfl
@[simp] theorem queueCtl_suspended (s : State) (w : Nibble) : (s.queueCtl w).suspended = s.suspended := rfl
@[simp] theorem queueCtl_disp (s : State) (w : Nibble) : (s.queueCtl w).disp = s.disp := rfl
@[simp] theorem queueCtl_slice (s : State) (w : Nibble) : (s.queueCtl w).slice = s.slice := rfl
@[simp] theorem queueCtl_sched (s : State) (w : Nibble) : (s.queueCtl w).sched = s.sched := rfl
@[simp] theorem queueCtl_env (s : State) (w : Nibble) : (s.queueCtl w).env = s.env := rfl
@[simp] theorem queueCtl_draws (s : State) (w : Nibble) : (s.queueCtl w).draws = s.draws := rfl

@[simp] theorem queueData_cfg (s : State) (b : Byte) : (s.queueData b).cfg = s.cfg := rfl
@[simp] theorem queueData_op (s : State) (b : Byte) : (s.queueData b).op = s.op := rfl
@[simp] theorem queueData_st (s : State) (b : Byte) : (s.queueData b).st = s.st := rfl
@[simp] theorem queueData_pg (s : State) (b : Byte) : (s.queueData b).pg = s.pg := rfl
@[simp] theorem queueData_ch (s : State) (b : Byte) : (s.queueData b).ch = s.ch := rfl
@[simp] theorem queueData_col (s : State) (b : Byte) : (s.queueData b).col = s.col := rfl
@[simp] theorem queueData_phase (s : State) (b : Byte) : (s.queueData b).phase = s.phase := rfl
@[simp] theorem queueData_selChip (s : State) (b : Byte) : (s.queueData b).selChip = s.selChip := rfl
@[simp] theorem queueData_busDir (s : State) (b : Byte) : (s.queueData b).busDir = s.busDir := rfl
@[simp] theorem queueData_inited (s : State) (b : Byte) : (s.queueData b).inited = s.inited := rfl
@[simp] theorem queueData_e (s : State) (b : Byte) : (s.queueData b).e = s.e := rfl
@[simp] theorem queueData_rw (s : State) (b : Byte) : (s.queueData b).rw = s.rw := rfl
@[simp] theorem queueData_rs (s : State) (b : Byte) : (s.queueData b).rs = s.rs := rfl
@[simp] theorem queueData_d (s : State) (b : Byte) : (s.queueData b).d = s.d := rfl
@[simp] theorem queueData_ddir (s : State) (b : Byte) : (s.queueData b).ddir = s.ddir := rfl
@[simp] theorem queueData_cs (s : State) (b : Byte) : (s.queueData b).cs = s.cs := rfl
@[simp] theorem queueData_ctlQ (s : State) (b : Byte) : (s.queueData b).ctlQ = s.ctlQ := rfl
@[simp] theorem queueData_dataQ (s : State) (b : Byte) : (s.queueData b).dataQ = s.dataQ ++ [(s.enqCount, b)] := rfl
@[simp] theorem queueData_enqCount (s : State) (b : Byte) : (s.queueData b).enqCount = s.enqCount + 1 := rfl
@[simp] theorem queueData_ctlLines (s : State) (b : Byte) : (s.queueData b).ctlLines = s.ctlLines := rfl
@[simp] theorem queueData_ctlDriven (s : State) (b : Byte) : (s.queueData b).ctlDriven = s.ctlDriven := rfl
@[simp] theorem queueData_dataLines (s : State) (b : Byte) : (s.queueData b).dataLines = s.dataLines := rfl
@[simp] theorem queueData_strobe (s : State) (b : Byte) : (s.queueData b).strobe = s.strobe := rfl
@[simp] theorem queueData_vport (s : State) (b : Byte) : (s.queueData b).vport = s.vport := rfl
@[simp] theorem queueData_gpio (s : State) (b : Byte) : (s.queueData b).gpio = s.gpio := rfl
@[simp] theorem queueData_relay (s : State) (b : Byte) : (s.queueData b).relay = s.relay := rfl
@[simp] theorem queueData_inTxn (s : State) (b : Byte) : (s.queueData b).inTxn = s.inTxn := rfl
@[simp] theorem queueData_idleDevs (s : State) (b : Byte) : (s.queueData b).idleDevs = s.idleDevs := rfl
@[simp] theorem queueData_openFrame (s : State) (b : Byte) : (s.queueData b).openFrame = s.openFrame := rfl
@[simp] theorem queueData_lcd (s : State) (b : Byte) : (s.queueData b).lcd = s.lcd := rfl
@[simp] theorem queueData_dram (s : State) (b : Byte) : (s.queueData b).dram = s.dram := rfl
@[simp] theorem queueData_fb (s : State) (b : Byte) : (s.queueData b).fb = s.fb := rfl
@[simp] theorem queueData_fbMods (s : State) (b : Byte) : (s.queueData b).fbMods = s.fbMods := rfl
@[simp] theorem queueData_blk (s : State) (b : Byte) : (s.queueData b).blk = s.blk := rfl
@[simp] theorem queueData_ret (s : State) (b : Byte) : (s.queueData b).ret = s.ret := rfl
@[simp] theorem queueData_err (s : State) (b : Byte) : (s.queueData b).err = s.err := rfl
@[simp] theorem queueData_trace (s : State) (b : Byte) : (s.queueData b).trace = s.trace := rfl
@[simp] theorem queueData_prog (s : State) (b : Byte) : (s.queueData b).prog = s.prog := rfl
@[simp] theorem queueData_work (s : State) (b : Byte) : (s.queueData b).work = s.work := rfl
@[simp] theorem queueData_callbacks (s : State) (b : Byte) : (s.queueData b).callbacks = s.callbacks := rfl
@[simp] theorem queueData_suspended (s : State) (b : Byte) : (s.queueData b).suspended = s.suspended := rfl
@[simp] theorem queueData_disp (s : State) (b : Byte) : (s.queueData b).disp = s.disp := rfl
@[simp] theorem queueData_slice (s : State) (b : Byte) : (s.queueData b).slice = s.slice := rfl
@[simp] theorem queueData_sched (s : State) (b : Byte) : (s.queueData b).sched = s.sched := rfl
@[simp] theorem queueData_env (s : State) (b : Byte) : (s.queueData b).env = s.env := rfl
@[simp] theorem queueData_draws (s : State) (b : Byte) : (s.queueData b).draws = s.draws := rfl

@[simp] theorem driveCs_cfg (s : State) (c : Nat) : (driveCs c s).cfg = s.cfg := rfl
@[simp] theorem driveCs_op (s : State) (c : Nat) : (driveCs c s).op = s.op := rfl
@[simp] theorem driveCs_st (s : State) (c : Nat) : (driveCs c s).st = s.st := rfl
@[simp] theorem driveCs_pg (s : State) (c : Nat) : (driveCs c s).pg = s.pg := rfl
@[simp] theorem driveCs_ch (s : State) (c : Nat) : (driveCs c s).ch = s.ch := rfl
@[simp] theorem driveCs_col (s : State) (c : Nat) : (driveCs c s).col = s.col := rfl
@[simp] theorem driveCs_phase (s : State) (c : Nat) : (driveCs c s).phase = s.phase := rfl
@[simp] theorem driveCs_selChip (s : State) (c : Nat) : (driveCs c s).selChip = s.selChip := rfl
@[simp] theorem driveCs_busDir (s : State) (c : Nat) : (driveCs c s).busDir = s.busDir := rfl
@[simp] theorem driveCs_inited (s : State) (c : Nat) : (driveCs c s).inited = s.inited := rfl
@[simp] theorem driveCs_e (s : State) (c : Nat) : (driveCs c s).e = s.e := rfl
@[simp] theorem driveCs_rw (s : State) (c : Nat) : (driveCs c s).rw = s.rw := rfl
@[simp] theorem driveCs_rs (s : State) (c : Nat) : (driveCs c s).rs = s.rs := rfl
@[simp] theorem driveCs_d (s : State) (c : Nat) : (driveCs c s).d = s.d := rfl
@[simp] theorem driveCs_ddir (s : State) (c : Nat) : (driveCs c s).ddir = s.ddir := rfl
@[simp] theorem driveCs_cs (s : State) (c : Nat) : (driveCs c s).cs = csPattern s.cfg.chips c := rfl
@[simp] theorem driveCs_ctlQ (s : State) (c : Nat) : (driveCs c s).ctlQ = s.ctlQ := rfl
@[simp] theorem driveCs_dataQ (s : State) (c : Nat) : (driveCs c s).dataQ = s.dataQ := rfl
@[simp] theorem driveCs_enqCount (s : State) (c : Nat) : (driveCs c s).enqCount = s.enqCount := rfl
@[simp] theorem driveCs_ctlLines (s : State) (c : Nat) : (driveCs c s).ctlLines = s.ctlLines := rfl
@[simp] theorem driveCs_ctlDriven (s : State) (c : Nat) : (driveCs c s).ctlDriven = s.ctlDriven := rfl
@[simp] theorem driveCs_dataLines (s : State) (c : Nat) : (driveCs c s).dataLines = s.dataLines := rfl
@[simp] theorem driveCs_strobe (s : State) (c : Nat) : (driveCs c s).strobe = s.strobe := rfl
@[simp] theorem driveCs_vport (s : State) (c : Nat) : (driveCs c s).vport = s.vport := rfl
@[simp] theorem driveCs_gpio (s : State) (c : Nat) : (driveCs c s).gpio = s.gpio := rfl
@[simp] theorem driveCs_relay (s : State) (c : Nat) : (driveCs c s).relay = s.relay := rfl
@[simp] theorem driveCs_inTxn (s : State) (c : Nat) : (driveCs c s).inTxn = s.inTxn := rfl
@[simp] theorem driveCs_idleDevs (s : State) (c : Nat) : (driveCs c s).idleDevs = s.idleDevs := rfl
@[simp] theorem driveCs_openFrame (s : State) (c : Nat) : (driveCs c s).openFrame = s.openFrame := rfl
@[simp] theorem driveCs_lcd (s : State) (c : Nat) : (driveCs c s).lcd = s.lcd := rfl
@[simp] theorem driveCs_dram (s : State) (c : Nat) : (driveCs c s).dram = s.dram := rfl
@[simp] theorem driveCs_fb (s : State) (c : Nat) : (driveCs c s).fb = s.fb := rfl
@[simp] theorem driveCs_fbMods (s : State) (c : Nat) : (driveCs c s).fbMods = s.fbMods := rfl
@[simp] theorem driveCs_blk (s : State) (c : Nat) : (driveCs c s).blk = s.blk := rfl
@[simp] theorem driveCs_ret (s : State) (c : Nat) : (driveCs c s).ret = s.ret := rfl
@[simp] theorem driveCs_err (s : State) (c : Nat) : (driveCs c s).err = s.err := rfl
@[simp] theorem driveCs_trace (s : State) (c : Nat) : (driveCs c s).trace = s.trace := rfl
@[simp] theorem driveCs_prog (s : State) (c : Nat) : (driveCs c s).prog = s.prog := rfl
@[simp] theorem driveCs_work (s : State) (c : Nat) : (driveCs c s).work = s.work := rfl
@[simp] theorem driveCs_callbacks (s : State) (c : Nat) : (driveCs c s).callbacks = s.callbacks := rfl
@[simp] theorem driveCs_suspended (s : State) (c : Nat) : (driveCs c s).suspended = s.suspended := rfl
@[simp] theorem driveCs_disp (s : State) (c : Nat) : (driveCs c s).disp = s.disp := rfl
@[simp] theorem driveCs_slice (s : State) (c : Nat) : (driveCs c s).slice = s.slice := rfl
@[simp] theorem driveCs_sched (s : State) (c : Nat) : (driveCs c s).sched = s.sched := rfl
@[simp] theorem driveCs_env (s : State) (c : Nat) : (driveCs c s).env = s.env := rfl
@[simp] theorem driveCs_draws (s : State) (c : Nat) : (driveCs c s).draws = s.draws := rfl

@[simp] theorem setReadDir_cfg (s : State) : (setReadDir s).cfg = s.cfg := rfl
@[simp] theorem setReadDir_op (s : State) : (setReadDir s).op = s.op := rfl
@[simp] theorem setReadDir_st (s : State) : (setReadDir s).st = s.st := rfl
@[simp] theorem setReadDir_pg (s : State) : (setReadDir s).pg = s.pg := rfl
@[simp] theorem setReadDir_ch (s : State) : (setReadDir s).ch = s.ch := rfl
@[simp] theorem setReadDir_col (s : State) : (setReadDir s).col = s.col := rfl
@[simp] theorem setReadDir_phase (s : State) : (setReadDir s).phase = s.phase := rfl
@[simp] theorem setReadDir_selChip (s : State) : (setReadDir s).selChip = s.selChip := rfl
@[simp] theorem setReadDir_busDir (s : State) : (setReadDir s).busDir = .read := rfl
@[simp] theorem setReadDir_inited (s : State) : (setReadDir s).inited = s.inited := rfl
@[simp] theorem setReadDir_e (s : State) : (setReadDir s).e = false := rfl
@[simp] theorem setReadDir_rw (s : State) : (setReadDir s).rw = true := rfl
@[simp] theorem setReadDir_rs (s : State) : (setReadDir s).rs = false := rfl
@[simp] theorem setReadDir_d (s : State) : (setReadDir s).d = s.d := rfl
@[simp] theorem setReadDir_ddir (s : State) : (setReadDir s).ddir = .input := rfl
@[simp] theorem setReadDir_cs (s : State) : (setReadDir s).cs = s.cs := rfl
@[simp] theorem setReadDir_ctlQ (s : State) : (setReadDir s).ctlQ = s.ctlQ := rfl
@[simp] theorem setReadDir_dataQ (s : State) : (setReadDir s).dataQ = s.dataQ := rfl
@[simp] theorem setReadDir_enqCount (s : State) : (setReadDir s).enqCount = s.enqCount := rfl
@[simp] theorem setReadDir_ctlLines (s : State) : (setReadDir s).ctlLines = s.ctlLines := rfl
@[simp] theorem setReadDir_ctlDriven (s : State) : (setReadDir s).ctlDriven = s.ctlDriven := rfl
@[simp] theorem setReadDir_dataLines (s : State) : (setReadDir s).dataLines = s.dataLines := rfl
@[simp] theorem setReadDir_strobe (s : State) : (setReadDir s).strobe = s.strobe := rfl
@[simp] theorem setReadDir_vport (s : State) : (setReadDir s).vport = s.vport := rfl
@[simp] theorem setReadDir_gpio (s : State) : (setReadDir s).gpio = s.gpio := rfl
@[simp] theorem setReadDir_relay (s : State) : (setReadDir s).relay = s.relay := rfl
@[simp] theorem setReadDir_inTxn (s : State) : (setReadDir s).inTxn = s.inTxn := rfl
@[simp] theorem setReadDir_idleDevs (s : State) : (setReadDir s).idleDevs = s.idleDevs := rfl
@[simp] theorem setReadDir_openFrame (s : State) : (setReadDir s).openFrame = s.openFrame := rfl
@[simp] theorem setReadDir_lcd (s : State) : (setReadDir s).lcd = s.lcd := rfl
@[simp] theorem setReadDir_dram (s : State) : (setReadDir s).dram = s.dram := rfl
@[simp] theorem setReadDir_fb (s : State) : (setReadDir s).fb = s.fb := rfl
@[simp] theorem setReadDir_fbMods (s : State) : (setReadDir s).fbMods = s.fbMods := rfl
@[simp] theorem setReadDir_blk (s : State) : (setReadDir s).blk = s.blk := rfl
@[simp] theorem setReadDir_ret (s : State) : (setReadDir s).ret = s.ret := rfl
@[simp] theorem setReadDir_err (s : State) : (setReadDir s).err = s.err := rfl
@[simp] theorem setReadDir_trace (s : State) : (setReadDir s).trace = s.trace := rfl
@[simp] theorem setReadDir_prog (s : State) : (setReadDir s).prog = s.prog := rfl
@[simp] theorem setReadDir_work (s : State) : (setReadDir s).work = s.work := rfl
@[simp] theorem setReadDir_callbacks (s : State) : (setReadDir s).callbacks = s.callbacks := rfl
@[simp] theorem setReadDir_suspended (s : State) : (setReadDir s).suspended = s.suspended := rfl
@[simp] theorem setReadDir_disp (s : State) : (setReadDir s).disp = s.disp := rfl
@[simp] theorem setReadDir_slice (s : State) : (setReadDir s).slice = s.slice := rfl
@[simp] theorem setReadDir_sched (s : State) : (setReadDir s).sched = s.sched := rfl
@[simp] theorem setReadDir_env (s : State) : (setReadDir s).env = s.env := rfl
@[simp] theorem setReadDir_draws (s : State) : (setReadDir s).draws = s.draws := rfl

@[simp] theorem setWriteDir_cfg (s : State) (rs : Bool) (b : Byte) : (setWriteDir rs b s).cfg = s.cfg := rfl
@[simp] theorem setWriteDir_op (s : State) (rs : Bool) (b : Byte) : (setWriteDir rs b s).op = s.op := rfl
@[simp] theorem setWriteDir_st (s : State) (rs : Bool) (b : Byte) : (setWriteDir rs b s).st = s.st := rfl
@[simp] theorem setWriteDir_pg (s : State) (rs : Bool) (b : Byte) : (setWriteDir rs b s).pg = s.pg := rfl
@[simp] theorem setWriteDir_ch (s : State) (rs : Bool) (b : Byte) : (setWriteDir rs b s).ch = s.ch := rfl
@[simp] theorem setWriteDir_col (s : State) (rs : Bool) (b : Byte) : (setWriteDir rs b s).col = s.col := rfl
@[simp] theorem setWriteDir_phase (s : State) (rs : Bool) (b : Byte) : (setWriteDir rs b s).phase = s.phase := rfl
@[simp] theorem setWriteDir_selChip (s : State) (rs : Bool) (b : Byte) : (setWriteDir rs b s).selChip = s.selChip := rfl
@[simp] theorem setWriteDir_busDir (s : State) (rs : Bool) (b : Byte) : (setWriteDir rs b s).busDir = .write := rfl
@[simp] theorem setWriteDir_inited (s : State) (rs : Bool) (b : Byte) : (setWriteDir rs b s).inited = s.inited := rfl
@[simp] theorem setWriteDir_e (s : State) (rs : Bool) (b : Byte) : (setWriteDir rs b s).e = false := rfl
@[simp] theorem setWriteDir_rw (s : State) (rs : Bool) (b : Byte) : (setWriteDir rs b s).rw = false := rfl
@[simp] theorem setWriteDir_rs (s : State) (rs : Bool) (b : Byte) : (setWriteDir rs b s).rs = rs := rfl
@[simp] theorem setWriteDir_d (s : State) (rs : Bool) (b : Byte) : (setWriteDir rs b s).d = b := rfl
@[simp] theorem setWriteDir_ddir (s : State) (rs : Bool) (b : Byte) : (setWriteDir rs b s).ddir = .output := rfl
@[simp] theorem setWriteDir_cs (s : State) (rs : Bool) (b : Byte) : (setWriteDir rs b s).cs = s.cs := rfl
@[simp] theorem setWriteDir_ctlQ (s : State) (rs : Bool) (b : Byte) : (setWriteDir rs b s).ctlQ = s.ctlQ := rfl
@[simp] theorem setWriteDir_dataQ (s : State) (rs : Bool) (b : Byte) : (setWriteDir rs b s).dataQ = s.dataQ := rfl
@[simp] theorem setWriteDir_enqCount (s : State) (rs : Bool) (b : Byte) : (setWriteDir rs b s).enqCount = s.enqCount := rfl
@[simp] theorem setWriteDir_ctlLines (s : State) (rs : Bool) (b : Byte) : (setWriteDir rs b s).ctlLines = s.ctlLines := rfl
@[simp] theorem setWriteDir_ctlDriven (s : State) (rs : Bool) (b : Byte) : (setWriteDir rs b s).ctlDriven = s.ctlDriven := rfl
@[simp] theorem setWriteDir_dataLines (s : State) (rs : Bool) (b : Byte) : (setWriteDir rs b s).dataLines = s.dataLines := rfl
@[simp] theorem setWriteDir_strobe (s : State) (rs : Bool) (b : Byte) : (setWriteDir rs b s).strobe = s.strobe := rfl
@[simp] theorem setWriteDir_vport (s : State) (rs : Bool) (b : Byte) : (setWriteDir rs b s).vport = s.vport := rfl
@[simp] theorem setWriteDir_gpio (s : State) (rs : Bool) (b : Byte) : (setWriteDir rs b s).gpio = s.gpio := rfl
@[simp] theorem setWriteDir_relay (s : State) (rs : Bool) (b : Byte) : (setWriteDir rs b s).relay = s.relay := rfl
@[simp] theorem setWriteDir_inTxn (s : State) (rs : Bool) (b : Byte) : (setWriteDir rs b s).inTxn = s.inTxn := rfl
@[simp] theorem setWriteDir_idleDevs (s : State) (rs : Bool) (b : Byte) : (setWriteDir rs b s).idleDevs = s.idleDevs := rfl
@[simp] theorem setWriteDir_openFrame (s : State) (rs : Bool) (b : Byte) : (setWriteDir rs b s).openFrame = s.openFrame := rfl
@[simp] theorem setWriteDir_lcd (s : State) (rs : Bool) (b : Byte) : (setWriteDir rs b s).lcd = s.lcd := rfl
@[simp] theorem setWriteDir_dram (s : State) (rs : Bool) (b : Byte) : (setWriteDir rs b s).dram = s.dram := rfl
@[simp] theorem setWriteDir_fb (s : State) (rs : Bool) (b : Byte) : (setWriteDir rs b s).fb = s.fb := rfl
@[simp] theorem setWriteDir_fbMods (s : State) (rs : Bool) (b : Byte) : (setWriteDir rs b s).fbMods = s.fbMods := rfl
@[simp] theorem setWriteDir_blk (s : State) (rs : Bool) (b : Byte) : (setWriteDir rs b s).blk = s.blk := rfl
@[simp] theorem setWriteDir_ret (s : State) (rs : Bool) (b : Byte) : (setWriteDir rs b s).ret = s.ret := rfl
@[simp] theorem setWriteDir_err (s : State) (rs : Bool) (b : Byte) : (setWriteDir rs b s).err = s.err := rfl
@[simp] theorem setWriteDir_trace (s : State) (rs : Bool) (b : Byte) : (setWriteDir rs b s).trace = s.trace := rfl
@[simp] theorem setWriteDir_prog (s : State) (rs : Bool) (b : Byte) : (setWriteDir rs b s).prog = s.prog := rfl
@[simp] theorem setWriteDir_work (s : State) (rs : Bool) (b : Byte) : (setWriteDir rs b s).work = s.work := rfl
@[simp] theorem setWriteDir_callbacks (s : State) (rs : Bool) (b : Byte) : (setWriteDir rs b s).callbacks = s.callbacks := rfl
@[simp] theorem setWriteDir_suspended (s : State) (rs : Bool) (b : Byte) : (setWriteDir rs b s).suspended = s.suspended := rfl
@[simp] theorem setWriteDir_disp (s : State) (rs : Bool) (b : Byte) : (setWriteDir rs b s).disp = s.disp := rfl
@[simp] theorem setWriteDir_slice (s : State) (rs : Bool) (b : Byte) : (setWriteDir rs b s).slice = s.slice := rfl
@[simp] theorem setWriteDir_sched (s : State) (rs : Bool) (b : Byte) : (setWriteDir rs b s).sched = s.sched := rfl
@[simp] theorem setWriteDir_env (s : State) (rs : Bool) (b : Byte) : (setWriteDir rs b s).env = s.env := rfl
@[simp] theorem setWriteDir_draws (s : State) (rs : Bool) (b : Byte) : (setWriteDir rs b s).draws = s.draws := rfl

@[simp] theorem bitBangSetup_cfg (s : State) : (bitBangSetup s).cfg = s.cfg := rfl
@[simp] theorem bitBangSetup_op (s : State) : (bitBangSetup s).op = s.op := rfl
@[simp] theorem bitBangSetup_st (s : State) : (bitBangSetup s).st = s.st := rfl
@[simp] theorem bitBangSetup_pg (s : State) : (bitBangSetup s).pg = s.pg := rfl
@[simp] theorem bitBangSetup_ch (s : State) : (bitBangSetup s).ch = s.ch := rfl
@[simp] theorem bitBangSetup_col (s : State) : (bitBangSetup s).col = s.col := rfl
@[simp] theorem bitBangSetup_phase (s : State) : (bitBangSetup s).phase = s.phase := rfl
@[simp] theorem bitBangSetup_selChip (s : State) : (bitBangSetup s).selChip = none := rfl
@[simp] theorem bitBangSetup_busDir (s : State) : (bitBangSetup s).busDir = .write := rfl
@[simp] theorem bitBangSetup_inited (s : State) : (bitBangSetup s).inited = s.inited := rfl
@[simp] theorem bitBangSetup_e (s : State) : (bitBangSetup s).e = false := rfl
@[simp] theorem bitBangSetup_rw (s : State) : (bitBangSetup s).rw = false := rfl
@[simp] theorem bitBangSetup_rs (s : State) : (bitBangSetup s).rs = false := rfl
@[simp] theorem bitBangSetup_d (s : State) : (bitBangSetup s).d = 0#8 := rfl
@[simp] theorem bitBangSetup_ddir (s : State) : (bitBangSetup s).ddir = .output := rfl
@[simp] theorem bitBangSetup_cs (s : State) : (bitBangSetup s).cs = List.replicate s.cfg.chips false := rfl
@[simp] theorem bitBangSetup_ctlQ (s : State) : (bitBangSetup s).ctlQ = s.ctlQ := rfl
@[simp] theorem bitBangSetup_dataQ (s : State) : (bitBangSetup s).dataQ = s.dataQ := rfl
@[simp] theorem bitBangSetup_enqCount (s : State) : (bitBangSetup s).enqCount = s.enqCount := rfl
@[simp] theorem bitBangSetup_ctlLines (s : State) : (bitBangSetup s).ctlLines = s.ctlLines := rfl
@[simp] theorem bitBangSetup_ctlDriven (s : State) : (bitBangSetup s).ctlDriven = s.ctlDriven := rfl
@[simp] theorem bitBangSetup_dataLines (s : State) : (bitBangSetup s).dataLines = s.dataLines := rfl
@[simp] theorem bitBangSetup_strobe (s : State) : (bitBangSetup s).strobe = s.strobe := rfl
@[simp] theorem bitBangSetup_vport (s : State) : (bitBangSetup s).vport = s.vport := rfl
@[simp] theorem bitBangSetup_gpio (s : State) : (bitBangSetup s).gpio = s.gpio := rfl
@[simp] theorem bitBangSetup_relay (s : State) : (bitBangSetup s).relay = s.relay := rfl
@[simp] theorem bitBangSetup_inTxn (s : State) : (bitBangSetup s).inTxn = s.inTxn := rfl
@[simp] theorem bitBangSetup_idleDevs (s : State) : (bitBangSetup s).idleDevs = s.idleDevs := rfl
@[simp] theorem bitBangSetup_openFrame (s : State) : (bitBangSetup s).openFrame = s.openFrame := rfl
@[simp] theorem bitBangSetup_lcd (s : State) : (bitBangSetup s).lcd = s.lcd := rfl
@[simp] theorem bitBangSetup_dram (s : State) : (bitBangSetup s).dram = s.dram := rfl
@[simp] theorem bitBangSetup_fb (s : State) : (bitBangSetup s).fb = s.fb := rfl
@[simp] theorem bitBangSetup_fbMods (s : State) : (bitBangSetup s).fbMods = s.fbMods := rfl
@[simp] theorem bitBangSetup_blk (s : State) : (bitBangSetup s).blk = s.blk := rfl
@[simp] theorem bitBangSetup_ret (s : State) : (bitBangSetup s).ret = s.ret := rfl
@[simp] theorem bitBangSetup_err (s : State) : (bitBangSetup s).err = s.err := rfl
@[simp] theorem bitBangSetup_trace (s : State) : (bitBangSetup s).trace = s.trace := rfl
@[simp] theorem bitBangSetup_prog (s : State) : (bitBangSetup s).prog = s.prog := rfl
@[simp] theorem bitBangSetup_work (s : State) : (bitBangSetup s).work = s.work := rfl
@[simp] theorem bitBangSetup_callbacks (s : State) : (bitBangSetup s).callbacks = s.callbacks := rfl
@[simp] theorem bitBangSetup_suspended (s : State) : (bitBangSetup s).suspended = s.suspended := rfl
@[simp] theorem bitBangSetup_disp (s : State) : (bitBangSetup s).disp = s.disp := rfl
@[simp] theorem bitBangSetup_slice (s : State) : (bitBangSetup s).slice = s.slice := rfl
@[simp] theorem bitBangSetup_sched (s : State) : (bitBangSetup s).sched = s.sched := rfl
@[simp] theorem bitBangSetup_env (s : State) : (bitBangSetup s).env = s.env := rfl
@[simp] theorem bitBangSetup_draws (s : State) : (bitBangSetup s).draws = s.draws := rfl

@[simp] theorem setExp_exp_same (s : State) (x : ExpId) (e : Expander) : (s.setExp x e).exp x = e := by cases x <;> rfl

theorem setExp_exp_other (s : State) {x y : ExpId} (e : Expander) (h : y ≠ x) : (s.setExp x e).exp y = s.exp y := by
  cases x <;> cases y <;> first | rfl | exact absurd rfl h

@[simp] theorem setExp_gpio_gpio (s : State) (e : Expander) : (s.setExp .gpio e).gpio = e := rfl
@[simp] theorem setExp_gpio_relay (s : State) (e : Expander) : (s.setExp .gpio e).relay = s.relay := rfl
@[simp] theorem setExp_relay_relay (s : State) (e : Expander) : (s.setExp .relay e).relay = e := rfl
@[simp] theorem setExp_relay_gpio (s : State) (e : Expander) : (s.setExp .relay e).gpio = s.gpio := rfl

@[simp] theorem event_exp (s : State) (ev : Event) (x : ExpId) : (s.event ev).exp x = s.exp x := by cases x <;> rfl
@[simp] theorem drew_exp (s : State) (x : ExpId) : s.drew.exp x = s.exp x := by cases x <;> rfl
@[simp] theorem leave_exp (s : State) (ms : List Micro) (x : ExpId) : (s.leave ms).exp x = s.exp x := by cases x <;> rfl
@[simp] theorem txn_exp (s : State) (b : Bool) (x : ExpId) : (s.txn b).exp x = s.exp x := by cases x <;> rfl
@[simp] theorem closeFrame_exp (s : State) (x : ExpId) : s.closeFrame.exp x = s.exp x := by cases x <;> rfl
@[simp] theorem inFsm_exp (s : State) (f : FsmState) (x : ExpId) : (s.inFsm f).exp x = s.exp x := by cases x <;> rfl
@[simp] theorem select_exp (s : State) (c : Option Nat) (x : ExpId) : (s.select c).exp x = s.exp x := by cases x <;> rfl
@[simp] theorem withVport_exp (s : State) (v : Half) (x : ExpId) : (s.withVport v).exp x = s.exp x := by cases x <;> rfl
@[simp] theorem enableLow_exp (s : State) (x : ExpId) : s.enableLow.exp x = s.exp x := by cases x <;> rfl
@[simp] theorem suspend_exp (s : State) (b : Bool) (x : ExpId) : (s.suspend b).exp x = s.exp x := by cases x <;> rfl
@[simp] theorem atPosition_exp (s : State) (pg ch col : Nat) (phase : Phase) (x : ExpId) : (s.atPosition pg ch col phase).exp x = s.exp x := by cases x <;> rfl
@[simp] theorem withBlk_exp (s : State) (l : List Byte) (x : ExpId) : (s.withBlk l).exp x = s.exp x := by cases x <;> rfl
@[simp] theorem initialised_exp (s : State) (x : ExpId) : s.initialised.exp x = s.exp x := by cases x <;> rfl
@[simp] theorem fbWrote_exp (s : State) (off : Nat) (b : Byte) (x : ExpId) : (s.fbWrote off b).exp x = s.exp x := by cases x <;> rfl
@[simp] theorem queueCtl_exp (s : State) (w : Nibble) (x : ExpId) : (s.queueCtl w).exp x = s.exp x := by cases x <;> rfl
@[simp] theorem queueData_exp (s : State) (b : Byte) (x : ExpId) : (s.queueData b).exp x = s.exp x := by cases x <;> rfl
@[simp] theorem driveCs_exp (s : State) (c : Nat) (x : ExpId) : (driveCs c s).exp x = s.exp x := by cases x <;> rfl
@[simp] theorem setReadDir_exp (s : State) (x : ExpId) : (setReadDir s).exp x = s.exp x := by cases x <;> rfl
@[simp] theorem setWriteDir_exp (s : State) (rs : Bool) (b : Byte) (x : ExpId) : (setWriteDir rs b s).exp x = s.exp x := by cases x <;> rfl
@[simp] theorem bitBangSetup_exp (s : State) (x : ExpId) : (bitBangSetup s).exp x = s.exp x := by cases x <;> rfl
@[simp] theorem tick_exp (s : State) (x : ExpId) : s.tick.exp x = s.exp x := by cases x <;> rfl
@[simp] theorem setChip_exp (s : State) (c : Nat) (k : LcdChip) (x : ExpId) : (s.setChip c k).exp x = s.exp x := by
  cases x <;> rfl
@[simp] theorem raise_exp (e : Fault) (s : State) (x : ExpId) : (raise e s).exp x = s.exp x := by cases x <;> rfl
@[simp] theorem beginOp_exp (o : Op) (s : State) (x : ExpId) : (beginOp o s).exp x = s.exp x := by
  cases x <;> simp [State.exp]
@[simp] theorem endOp_exp (v : RetVal) (s : State) (x : ExpId) : (endOp v s).exp x = s.exp x := by
  cases x <;> simp [State.exp]

theorem beginOp_op_idle {o : Op} {s : State} (h : s.disp = .idle) : (beginOp o s).op = some o := by
  simp [beginOp, h]

theorem endOp_op_idle {v : RetVal} {s : State} (h : s.disp = .idle) : (endOp v s).op = none := by
  simp [endOp, h]

theorem beginOp_op_dispatch {o : Op} {s : State} (h : s.disp ≠ .idle) : (beginOp o s).op = s.op := by
  unfold beginOp; split <;> simp_all

theorem endOp_op_dispatch {v : RetVal} {s : State} (h : s.disp ≠ .idle) : (endOp v s).op = s.op := by
  unfold endOp; split <;> simp_all

/-- With no bound on HOST's move, counting a primitive step changes nothing. -/
theorem tick_of_unbounded {s : State} (h : s.slice = none) : s.tick = s := by
  cases s; simp_all [State.tick]

theorem not_sliceOver_of_unbounded {s : State} (h : s.slice = none) : s.sliceOver = false := by
  simp [State.sliceOver, h]

@[simp] theorem drainCtl_cfg (w : Nibble) (s : State) : (drainCtl w s).cfg = s.cfg := rfl
@[simp] theorem drainCtl_op (w : Nibble) (s : State) : (drainCtl w s).op = s.op := rfl
@[simp] theorem drainCtl_st (w : Nibble) (s : State) : (drainCtl w s).st = s.st := rfl
@[simp] theorem drainCtl_pg (w : Nibble) (s : State) : (drainCtl w s).pg = s.pg := rfl
@[simp] theorem drainCtl_ch (w : Nibble) (s : State) : (drainCtl w s).ch = s.ch := rfl
@[simp] theorem drainCtl_col (w : Nibble) (s : State) : (drainCtl w s).col = s.col := rfl
@[simp] theorem drainCtl_phase (w : Nibble) (s : State) : (drainCtl w s).phase = s.phase := rfl
@[simp] theorem drainCtl_selChip (w : Nibble) (s : State) : (drainCtl w s).selChip = s.selChip := rfl
@[simp] theorem drainCtl_busDir (w : Nibble) (s : State) : (drainCtl w s).busDir = s.busDir := rfl
@[simp] theorem drainCtl_inited (w : Nibble) (s : State) : (drainCtl w s).inited = s.inited := rfl
@[simp] theorem drainCtl_e (w : Nibble) (s : State) : (drainCtl w s).e = s.e := rfl
@[simp] theorem drainCtl_rw (w : Nibble) (s : State) : (drainCtl w s).rw = s.rw := rfl
@[simp] theorem drainCtl_rs (w : Nibble) (s : State) : (drainCtl w s).rs = s.rs := rfl
@[simp] theorem drainCtl_d (w : Nibble) (s : State) : (drainCtl w s).d = s.d := rfl
@[simp] theorem drainCtl_ddir (w : Nibble) (s : State) : (drainCtl w s).ddir = s.ddir := rfl
@[simp] theorem drainCtl_cs (w : Nibble) (s : State) : (drainCtl w s).cs = s.cs := rfl
@[simp] theorem drainCtl_ctlQ (w : Nibble) (s : State) : (drainCtl w s).ctlQ = s.ctlQ := rfl
@[simp] theorem drainCtl_dataQ (w : Nibble) (s : State) : (drainCtl w s).dataQ = s.dataQ := rfl
@[simp] theorem drainCtl_enqCount (w : Nibble) (s : State) : (drainCtl w s).enqCount = s.enqCount := rfl
@[simp] theorem drainCtl_ctlLines (w : Nibble) (s : State) : (drainCtl w s).ctlLines = w := rfl
@[simp] theorem drainCtl_ctlDriven (w : Nibble) (s : State) : (drainCtl w s).ctlDriven = true := rfl
@[simp] theorem drainCtl_dataLines (w : Nibble) (s : State) : (drainCtl w s).dataLines = s.dataLines := rfl
@[simp] theorem drainCtl_strobe (w : Nibble) (s : State) : (drainCtl w s).strobe = s.strobe := rfl
@[simp] theorem drainCtl_vport (w : Nibble) (s : State) : (drainCtl w s).vport = s.vport := rfl
@[simp] theorem drainCtl_gpio (w : Nibble) (s : State) : (drainCtl w s).gpio = s.gpio := rfl
@[simp] theorem drainCtl_relay (w : Nibble) (s : State) : (drainCtl w s).relay = s.relay := rfl
@[simp] theorem drainCtl_inTxn (w : Nibble) (s : State) : (drainCtl w s).inTxn = s.inTxn := rfl
@[simp] theorem drainCtl_idleDevs (w : Nibble) (s : State) : (drainCtl w s).idleDevs = s.idleDevs := rfl
@[simp] theorem drainCtl_openFrame (w : Nibble) (s : State) : (drainCtl w s).openFrame = s.openFrame := rfl
@[simp] theorem drainCtl_lcd (w : Nibble) (s : State) : (drainCtl w s).lcd = s.lcd := rfl
@[simp] theorem drainCtl_dram (w : Nibble) (s : State) : (drainCtl w s).dram = s.dram := rfl
@[simp] theorem drainCtl_fb (w : Nibble) (s : State) : (drainCtl w s).fb = s.fb := rfl
@[simp] theorem drainCtl_fbMods (w : Nibble) (s : State) : (drainCtl w s).fbMods = s.fbMods := rfl
@[simp] theorem drainCtl_blk (w : Nibble) (s : State) : (drainCtl w s).blk = s.blk := rfl
@[simp] theorem drainCtl_ret (w : Nibble) (s : State) : (drainCtl w s).ret = s.ret := rfl
@[simp] theorem drainCtl_err (w : Nibble) (s : State) : (drainCtl w s).err = s.err := rfl
@[simp] theorem drainCtl_trace (w : Nibble) (s : State) : (drainCtl w s).trace = s.trace ++ [.dCtl w] := rfl
@[simp] theorem drainCtl_prog (w : Nibble) (s : State) : (drainCtl w s).prog = s.prog := rfl
@[simp] theorem drainCtl_work (w : Nibble) (s : State) : (drainCtl w s).work = s.work := rfl
@[simp] theorem drainCtl_callbacks (w : Nibble) (s : State) : (drainCtl w s).callbacks = s.callbacks := rfl
@[simp] theorem drainCtl_suspended (w : Nibble) (s : State) : (drainCtl w s).suspended = s.suspended := rfl
@[simp] theorem drainCtl_disp (w : Nibble) (s : State) : (drainCtl w s).disp = s.disp := rfl
@[simp] theorem drainCtl_slice (w : Nibble) (s : State) : (drainCtl w s).slice = s.slice := rfl
@[simp] theorem drainCtl_sched (w : Nibble) (s : State) : (drainCtl w s).sched = s.sched := rfl
@[simp] theorem drainCtl_env (w : Nibble) (s : State) : (drainCtl w s).env = s.env := rfl
@[simp] theorem drainCtl_draws (w : Nibble) (s : State) : (drainCtl w s).draws = s.draws := rfl
@[simp] theorem drainCtl_exp (w : Nibble) (s : State) : (drainCtl w s).exp = s.exp := rfl

@[simp] theorem driveData_cfg (b : Byte) (s : State) : (driveData b s).cfg = s.cfg := rfl
@[simp] theorem driveData_op (b : Byte) (s : State) : (driveData b s).op = s.op := rfl
@[simp] theorem driveData_st (b : Byte) (s : State) : (driveData b s).st = s.st := rfl
@[simp] theorem driveData_pg (b : Byte) (s : State) : (driveData b s).pg = s.pg := rfl
@[simp] theorem driveData_ch (b : Byte) (s : State) : (driveData b s).ch = s.ch := rfl
@[simp] theorem driveData_col (b : Byte) (s : State) : (driveData b s).col = s.col := rfl
@[simp] theorem driveData_phase (b : Byte) (s : State) : (driveData b s).phase = s.phase := rfl
@[simp] theorem driveData_selChip (b : Byte) (s : State) : (driveData b s).selChip = s.selChip := rfl
@[simp] theorem driveData_busDir (b : Byte) (s : State) : (driveData b s).busDir = s.busDir := rfl
@[simp] theorem driveData_inited (b : Byte) (s : State) : (driveData b s).inited = s.inited := rfl
@[simp] theorem driveData_e (b : Byte) (s : State) : (driveData b s).e = s.e := rfl
@[simp] theorem driveData_rw (b : Byte) (s : State) : (driveData b s).rw = s.rw := rfl
@[simp] theorem driveData_rs (b : Byte) (s : State) : (driveData b s).rs = s.rs := rfl
@[simp] theorem driveData_d (b : Byte) (s : State) : (driveData b s).d = s.d := rfl
@[simp] theorem driveData_ddir (b : Byte) (s : State) : (driveData b s).ddir = s.ddir := rfl
@[simp] theorem driveData_cs (b : Byte) (s : State) : (driveData b s).cs = s.cs := rfl
@[simp] theorem driveData_ctlQ (b : Byte) (s : State) : (driveData b s).ctlQ = s.ctlQ := rfl
@[simp] theorem driveData_dataQ (b : Byte) (s : State) : (driveData b s).dataQ = s.dataQ := rfl
@[simp] theorem driveData_enqCount (b : Byte) (s : State) : (driveData b s).enqCount = s.enqCount := rfl
@[simp] theorem driveData_ctlLines (b : Byte) (s : State) : (driveData b s).ctlLines = s.ctlLines := rfl
@[simp] theorem driveData_ctlDriven (b : Byte) (s : State) : (driveData b s).ctlDriven = s.ctlDriven := rfl
@[simp] theorem driveData_dataLines (b : Byte) (s : State) : (driveData b s).dataLines = b := rfl
@[simp] theorem driveData_strobe (b : Byte) (s : State) : (driveData b s).strobe = false := rfl
@[simp] theorem driveData_vport (b : Byte) (s : State) : (driveData b s).vport = s.vport := rfl
@[simp] theorem driveData_gpio (b : Byte) (s : State) : (driveData b s).gpio = s.gpio := rfl
@[simp] theorem driveData_relay (b : Byte) (s : State) : (driveData b s).relay = s.relay := rfl
@[simp] theorem driveData_inTxn (b : Byte) (s : State) : (driveData b s).inTxn = s.inTxn := rfl
@[simp] theorem driveData_idleDevs (b : Byte) (s : State) : (driveData b s).idleDevs = s.idleDevs := rfl
@[simp] theorem driveData_openFrame (b : Byte) (s : State) : (driveData b s).openFrame = s.openFrame := rfl
@[simp] theorem driveData_lcd (b : Byte) (s : State) : (driveData b s).lcd = s.lcd := rfl
@[simp] theorem driveData_dram (b : Byte) (s : State) : (driveData b s).dram = s.dram := rfl
@[simp] theorem driveData_fb (b : Byte) (s : State) : (driveData b s).fb = s.fb := rfl
@[simp] theorem driveData_fbMods (b : Byte) (s : State) : (driveData b s).fbMods = s.fbMods := rfl
@[simp] theorem driveData_blk (b : Byte) (s : State) : (driveData b s).blk = s.blk := rfl
@[simp] theorem driveData_ret (b : Byte) (s : State) : (driveData b s).ret = s.ret := rfl
@[simp] theorem driveData_err (b : Byte) (s : State) : (driveData b s).err = s.err := rfl
@[simp] theorem driveData_trace (b : Byte) (s : State) : (driveData b s).trace = s.trace ++ [.dData b] := rfl
@[simp] theorem driveData_prog (b : Byte) (s : State) : (driveData b s).prog = s.prog := rfl
@[simp] theorem driveData_work (b : Byte) (s : State) : (driveData b s).work = s.work := rfl
@[simp] theorem driveData_callbacks (b : Byte) (s : State) : (driveData b s).callbacks = s.callbacks := rfl
@[simp] theorem driveData_suspended (b : Byte) (s : State) : (driveData b s).suspended = s.suspended := rfl
@[simp] theorem driveData_disp (b : Byte) (s : State) : (driveData b s).disp = s.disp := rfl
@[simp] theorem driveData_slice (b : Byte) (s : State) : (driveData b s).slice = s.slice := rfl
@[simp] theorem driveData_sched (b : Byte) (s : State) : (driveData b s).sched = s.sched := rfl
@[simp] theorem driveData_env (b : Byte) (s : State) : (driveData b s).env = s.env := rfl
@[simp] theorem driveData_draws (b : Byte) (s : State) : (driveData b s).draws = s.draws := rfl
@[simp] theorem driveData_exp (b : Byte) (s : State) : (driveData b s).exp = s.exp := rfl

end Sys2Proof.Machine
end

