-- ==== Sys2Proof/Laws/Memory.lean ====
section
/-! SUPPORT. The laws of the sparse memories: a read after a write, and the canonical form kept by every operation. -/

namespace Sys2Proof.Machine

variable {dflt : Nat → Option Byte}

@[simp] theorem Mem.read_nil (a : Nat) : Mem.read dflt [] a = dflt a := rfl

theorem Mem.read_cons (k : Nat) (v : Byte) (m : Mem) (a : Nat) :
    Mem.read dflt ((k, v) :: m) a = if a = k then some v else Mem.read dflt m a := rfl

theorem Mem.wf_nil : Mem.wf dflt [] := ⟨List.Pairwise.nil, by simp⟩

theorem Mem.wf_cons {k : Nat} {v : Byte} {m : Mem} :
    Mem.wf dflt ((k, v) :: m) ↔ (∀ c ∈ m, k < c.1) ∧ dflt k ≠ some v ∧ Mem.wf dflt m := by
  simp only [Mem.wf, List.pairwise_cons, List.mem_cons, forall_eq_or_imp]
  tauto

/-- An address below every entry reads as unlisted. -/
theorem Mem.read_below {m : Mem} {a : Nat} (h : ∀ c ∈ m, a < c.1) : Mem.read dflt m a = dflt a := by
  induction m with
  | nil => rfl
  | cons c m ih =>
    obtain ⟨k, v⟩ := c
    have hk : a < k := h (k, v) (by simp)
    rw [Mem.read_cons, if_neg (by omega)]
    exact ih fun c hc => h c (by simp [hc])

/-- Writing keeps every address above a bound the write and the list stand above. -/
theorem Mem.write_above {m : Mem} {a b : Nat} {v : Byte} (hm : ∀ c ∈ m, b < c.1) (ha : b < a) :
    ∀ c ∈ Mem.write dflt m a v, b < c.1 := by
  induction m with
  | nil =>
    intro c hc
    unfold Mem.write at hc
    split at hc <;> simp at hc
    subst hc
    exact ha
  | cons c m ih =>
    obtain ⟨k, w⟩ := c
    have hk : b < k := hm (k, w) (by simp)
    have hm' : ∀ c ∈ m, b < c.1 := fun c hc => hm c (by simp [hc])
    intro c hc
    unfold Mem.write at hc
    split_ifs at hc <;> try simp only [List.mem_cons] at hc
    · exact hc.elim (fun e => e ▸ hk) (hm' c)
    · exact hc.elim (fun e => e ▸ ha) fun hc => hc.elim (fun e => e ▸ hk) (hm' c)
    · exact hm' c hc
    · exact hc.elim (fun e => e ▸ ha) (hm' c)
    · exact hc.elim (fun e => e ▸ hk) (ih hm' c)

/-- A write keeps the canonical form. -/
theorem Mem.write_wf {m : Mem} (h : Mem.wf dflt m) (a : Nat) (v : Byte) : Mem.wf dflt (Mem.write dflt m a v) := by
  induction m with
  | nil =>
    unfold Mem.write
    split
    · exact Mem.wf_nil
    · exact Mem.wf_cons.2 ⟨by simp, ‹_›, Mem.wf_nil⟩
  | cons c m ih =>
    obtain ⟨k, w⟩ := c
    obtain ⟨hk, hw, hm⟩ := Mem.wf_cons.1 h
    unfold Mem.write
    split_ifs with h1 h2 h3 h4
    · exact h
    · refine Mem.wf_cons.2 ⟨?_, h2, h⟩
      intro c hc
      simp only [List.mem_cons] at hc
      exact hc.elim (fun e => e ▸ h1) fun hc => lt_trans h1 (hk c hc)
    · exact hm
    · subst h3
      exact Mem.wf_cons.2 ⟨hk, h4, hm⟩
    · exact Mem.wf_cons.2 ⟨Mem.write_above hk (by omega), hw, ih hm⟩

/-- A read after a write: the new value at the address, the old one elsewhere. -/
theorem Mem.read_write {m : Mem} (h : Mem.wf dflt m) (a b : Nat) (v : Byte) :
    Mem.read dflt (Mem.write dflt m a v) b = if b = a then some v else Mem.read dflt m b := by
  induction m with
  | nil =>
    unfold Mem.write
    split_ifs with h1 h2 <;> simp_all [Mem.read_cons]
  | cons c m ih =>
    obtain ⟨k, w⟩ := c
    obtain ⟨hk, hw, hm⟩ := Mem.wf_cons.1 h
    unfold Mem.write
    split_ifs with h1 h2 hb hb h3 h4 hb hb
    · rw [hb, h2.symm, Mem.read_cons, if_neg (by omega)]
      exact (Mem.read_below fun c hc => lt_trans h1 (hk c hc))
    · rfl
    · rw [Mem.read_cons, if_pos hb]
    · rw [Mem.read_cons, if_neg hb]
    · rw [hb, h4.symm, h3]
      exact (Mem.read_below hk)
    · rw [Mem.read_cons, if_neg (by omega)]
    · rw [Mem.read_cons, if_pos hb]
    · rw [Mem.read_cons, Mem.read_cons, if_neg hb, if_neg (by omega)]
    · rw [Mem.read_cons, if_neg (by omega), ih hm, if_pos (by omega)]
    · rw [Mem.read_cons, Mem.read_cons, ih hm]
      split_ifs <;> rfl

theorem Mem.read_write_same {m : Mem} (h : Mem.wf dflt m) (a : Nat) (v : Byte) :
    Mem.read dflt (Mem.write dflt m a v) a = some v := by
  rw [Mem.read_write h, if_pos rfl]

theorem Mem.read_write_other {m : Mem} (h : Mem.wf dflt m) {a b : Nat} (v : Byte) (hb : b ≠ a) :
    Mem.read dflt (Mem.write dflt m a v) b = Mem.read dflt m b := by
  rw [Mem.read_write h, if_neg hb]

/-- Clearing keeps the canonical form. -/
theorem Mem.clear_wf {m : Mem} (h : Mem.wf dflt m) (lo hi : Nat) : Mem.wf dflt (Mem.clear m lo hi) :=
  ⟨h.1.filter _, fun c hc => h.2 c (List.mem_of_mem_filter hc)⟩

/-- What a cleared range reads as. -/
theorem Mem.read_clear (m : Mem) (lo hi a : Nat) :
    Mem.read dflt (Mem.clear m lo hi) a = if lo ≤ a ∧ a < hi then dflt a else Mem.read dflt m a := by
  induction m with
  | nil => simp [Mem.clear]
  | cons c m ih =>
    obtain ⟨k, v⟩ := c
    by_cases hk : k < lo ∨ hi ≤ k
    · have : Mem.clear ((k, v) :: m) lo hi = (k, v) :: Mem.clear m lo hi := by simp [Mem.clear, hk]
      rw [this, Mem.read_cons, Mem.read_cons, ih]
      split_ifs <;> first | rfl | omega
    · have : Mem.clear ((k, v) :: m) lo hi = Mem.clear m lo hi := by
        simp only [Mem.clear]
        rw [List.filter_cons_of_neg]
        simpa using hk
      rw [this, Mem.read_cons, ih]
      split_ifs <;> first | rfl | omega

/-! ## Successive registers of a chip -/

theorem mem_storeAddrs {a b : Nat} : b ∈ storeAddrs a ↔ b = a ∨ ((a = 0x12 ∨ a = 0x13) ∧ b = a + 2) := by
  unfold storeAddrs
  split_ifs with h <;> simp [h]

theorem devPut_wf {m : Mem} (h : Mem.wf devDefault m) (a : Nat) (v : Byte) : Mem.wf devDefault (devPut m a v) := by
  unfold devPut storeAddrs
  split_ifs
  · exact Mem.write_wf (Mem.write_wf h _ _) _ _
  · exact Mem.write_wf h _ _

/-- What a register reads as after one has been written. -/
theorem read_devPut {m : Mem} (h : Mem.wf devDefault m) (a b : Nat) (v : Byte) :
    Mem.read devDefault (devPut m a v) b = if b ∈ storeAddrs a then some v else Mem.read devDefault m b := by
  unfold devPut storeAddrs
  by_cases hg : a = 0x12 ∨ a = 0x13
  · simp only [if_pos hg, List.foldl_cons, List.foldl_nil, List.mem_cons, List.not_mem_nil, or_false]
    rw [Mem.read_write (Mem.write_wf h _ _), Mem.read_write h]
    split_ifs <;> first | rfl | omega
  · simp only [if_neg hg, List.foldl_cons, List.foldl_nil, List.mem_cons, List.not_mem_nil, or_false]
    rw [Mem.read_write h]

theorem devStore_wf {m : Mem} (h : Mem.wf devDefault m) (a : Nat) (vs : List (Byte × Bool)) :
    Mem.wf devDefault (devStore m a vs) := by
  induction vs generalizing m a with
  | nil => exact h
  | cons v vs ih =>
    obtain ⟨v, landed⟩ := v
    unfold devStore
    cases landed
    · exact ih h _
    · exact ih (devPut_wf h _ _) _

/-- A register no byte of a frame reaches is not stored to. -/
theorem read_devStore_untouched {m : Mem} (h : Mem.wf devDefault m) {a b : Nat} (vs : List (Byte × Bool))
    (hb : ∀ i < vs.length, b ∉ storeAddrs (a + i)) : Mem.read devDefault (devStore m a vs) b = Mem.read devDefault m b := by
  induction vs generalizing m a with
  | nil => rfl
  | cons v vs ih =>
    obtain ⟨v, landed⟩ := v
    have hs : ∀ i < vs.length, b ∉ storeAddrs (a + 1 + i) := fun i hi => by
      rw [Nat.add_assoc, Nat.add_comm 1]
      exact hb (i + 1) (by simpa using hi)
    unfold devStore
    cases landed
    · exact ih h hs
    · exact (ih (devPut_wf h _ _) hs).trans ((read_devPut h _ _ _).trans (if_neg (hb 0 (by simp))))

/-- A register whose own byte landed holds it. -/
theorem read_devStore_at {m : Mem} (h : Mem.wf devDefault m) (a i : Nat) {vs : List (Byte × Bool)} {v : Byte}
    (hv : vs[i]? = some (v, true)) : Mem.read devDefault (devStore m a vs) (a + i) = some v := by
  induction vs generalizing m a i with
  | nil => simp at hv
  | cons w vs ih =>
    unfold devStore
    cases i with
    | zero =>
      obtain rfl : w = (v, true) := by simpa using hv
      rw [read_devStore_untouched (by simpa using devPut_wf h a v) vs
        (fun i _ hi => by rcases mem_storeAddrs.1 hi with h | h <;> omega)]
      simp [read_devPut h, mem_storeAddrs]
    | succ i =>
      rw [show a + (i + 1) = a + 1 + i by omega]
      refine ih ?_ _ _ (by simpa using hv)
      split_ifs
      · exact devPut_wf h _ _
      · exact h

/-- A one-byte frame's register holds its byte. -/
theorem read_devStore_one {m : Mem} (h : Mem.wf devDefault m) (a : Nat) (v : Byte) :
    Mem.read devDefault (devStore m a [(v, true)]) a = some v := read_devStore_at h a 0 rfl

/-- Registers outside a frame of written bytes are as before, where the frame does not write GPIO. -/
theorem read_devStore_outside {m : Mem} (h : Mem.wf devDefault m) {a b : Nat} (vs : List (Byte × Bool))
    (hp : a + vs.length ≤ 0x12 ∨ 0x14 ≤ a) (hb : b < a ∨ a + vs.length ≤ b) :
    Mem.read devDefault (devStore m a vs) b = Mem.read devDefault m b :=
  read_devStore_untouched h vs fun i hi hm => by rcases mem_storeAddrs.1 hm with h | h <;> omega

end Sys2Proof.Machine
end

