-- ==== Sys2Proof/Laws/Run.lean ====
section
/-! SUPPORT. Running primitive steps: the equations of `run` when HOST's move has no bound, sequences all of whose steps
complete, and the one induction over `run` that invariants and frames rest on. -/

namespace Sys2Proof.Machine

@[simp] theorem run_nil (s : State) : run [] s = .next s := rfl

theorem run_cons (m : Micro) (ms : List Micro) (s : State) :
    run (m :: ms) s =
      if s.sliceOver then .next (s.leave (m :: ms))
      else
        match micro m s.tick with
        | .next s' => run ms s'
        | .hold s' => .next (s'.leave (m :: ms))
        | .push [] s' => run ms s'
        | .push (t :: ts) s' => .next (s'.leave (t :: ts ++ ms))
        | .raise e s' => .next (raise e s')
        | .refuse r => .refused r := by
  rw [run] <;> rfl

/-- With no bound on HOST's move a step is simply made. -/
theorem run_cons_unbounded {s : State} (h : s.slice = none) (m : Micro) (ms : List Micro) :
    run (m :: ms) s =
      match micro m s with
      | .next s' => run ms s'
      | .hold s' => .next (s'.leave (m :: ms))
      | .push [] s' => run ms s'
      | .push (t :: ts) s' => .next (s'.leave (t :: ts ++ ms))
      | .raise e s' => .next (raise e s')
      | .refuse r => .refused r := by
  rw [run_cons, not_sliceOver_of_unbounded h, tick_of_unbounded h]
  rfl

/-- A step that completes. -/
theorem run_next {s s' : State} {m : Micro} {ms : List Micro} (h : s.slice = none) (hm : micro m s = .next s') :
    run (m :: ms) s = run ms s' := by
  rw [run_cons_unbounded h, hm]

/-- A step that holds ends HOST's move and stands in `work` with what follows it. -/
theorem run_hold {s s' : State} {m : Micro} {ms : List Micro} (h : s.slice = none) (hm : micro m s = .hold s') :
    run (m :: ms) s = .next (s'.leave (m :: ms)) := by
  rw [run_cons_unbounded h, hm]

/-- A step that meets an error. -/
theorem run_raise {s s' : State} {m : Micro} {ms : List Micro} {e : Fault} (h : s.slice = none)
    (hm : micro m s = .raise e s') : run (m :: ms) s = .next (raise e s') := by
  rw [run_cons_unbounded h, hm]

/-- The steps `ms` lead from `s` to `t`, each completing. -/
inductive Steps : List Micro → State → State → Prop where
  | nil (s : State) : Steps [] s s
  | cons {m : Micro} {ms : List Micro} {s s' t : State} (bound : s.slice = none) (here : micro m s = .next s')
      (rest : Steps ms s' t) : Steps (m :: ms) s t

theorem Steps.one {m : Micro} {s t : State} (h : s.slice = none) (hm : micro m s = .next t) : Steps [m] s t :=
  .cons h hm (.nil t)

theorem Steps.append {ms ns : List Micro} {s t u : State} (h : Steps ms s t) (h' : Steps ns t u) :
    Steps (ms ++ ns) s u := by
  induction h with
  | nil => exact h'
  | cons b m _ ih => exact .cons b m (ih h')

/-- Steps that all complete are made, and the rest follows. -/
theorem Steps.run_append {ms : List Micro} {s t : State} (h : Steps ms s t) (ns : List Micro) :
    run (ms ++ ns) s = run ns t := by
  induction h with
  | nil => rfl
  | cons b m _ ih => rw [List.cons_append, run_next b m, ih]

theorem Steps.run {ms : List Micro} {s t : State} (h : Steps ms s t) : run ms s = .next t := by
  simpa using h.run_append []

/-- What one primitive step may answer, for a property `P` of states HOST goes on from, a property `R` of the states its move
may end in, and a class `Q` of the steps that may follow. -/
def MRes.keeps (P R : State → Prop) (Q : Micro → Prop) : MRes → Prop
  | .next s => P s
  | .hold s => P s
  | .push ms s => P s ∧ ∀ m ∈ ms, Q m
  | .raise e s => R (Machine.raise e s)
  | .refuse _ => True

/-- The induction over `run`: what one primitive step of the class `Q` keeps, and what does not break when steps are left to be
made, holds after any sequence of them. -/
theorem run_keeps {P R : State → Prop} {Q : Micro → Prop} (tick : ∀ s, P s → P s.tick)
    (left : ∀ s w, P s → (∀ m ∈ w, Q m) → R (s.leave w)) (done : ∀ s, P s → R s)
    (step : ∀ m s, Q m → P s → (micro m s).keeps P R Q) {ms : List Micro} (hms : ∀ m ∈ ms, Q m) {s t : State} (hs : P s)
    (h : run ms s = .next t) : R t := by
  induction ms generalizing s with
  | nil =>
    cases h
    exact done _ hs
  | cons m ms ih =>
    have hQ : ∀ m' ∈ ms, Q m' := fun m' hm' => hms m' (by simp [hm'])
    have hm := step m s.tick (hms m (by simp)) (tick s hs)
    rw [run_cons] at h
    split at h
    · cases h
      exact left _ (m :: ms) hs hms
    · split at h <;> rename_i hmic <;> rw [hmic] at hm
      · exact ih hQ hm h
      · cases h
        exact left _ (m :: ms) hm hms
      · exact ih hQ hm.1 h
      · cases h
        exact left _ _ hm.1 fun m' hm' => (List.mem_append.1 hm').elim (hm.2 m') (hQ m')
      · cases h
        exact hm
      · cases h

/-- What a step may answer, weakened. -/
theorem MRes.keeps_mono {P P' R R' : State → Prop} {Q Q' : Micro → Prop} {r : MRes} (h : r.keeps P R Q) (h1 : ∀ u, P u → P' u) (h2 : ∀ u, R u → R' u) (h3 : ∀ m, Q m → Q' m) : r.keeps P' R' Q' := by
  cases r with
  | next u => exact h1 _ h
  | hold u => exact h1 _ h
  | push l u => exact ⟨h1 _ h.1, fun m hm => h3 _ (h.2 m hm)⟩
  | raise e u => exact h2 _ h
  | refuse r => trivial

/-- `run_keeps` where nothing is asked of the steps left to be made. -/
theorem run_keeps_class {P R : State → Prop} {Q : Micro → Prop} (tick : ∀ s, P s → P s.tick)
    (left : ∀ s w, P s → R (s.leave w)) (done : ∀ s, P s → R s)
    (step : ∀ m s, Q m → P s → (micro m s).keeps P R (fun _ => True)) {ms : List Micro} (hms : ∀ m ∈ ms, Q m) {s t : State} (hs : P s)
    (h : run ms s = .next t) : R t := by
  induction ms generalizing s with
  | nil =>
    cases h
    exact done _ hs
  | cons m ms ih =>
    have hQ : ∀ m' ∈ ms, Q m' := fun m' hm' => hms m' (by simp [hm'])
    have hm := step m s.tick (hms m (by simp)) (tick s hs)
    rw [run_cons] at h
    split at h
    · cases h
      exact left _ (m :: ms) hs
    · split at h <;> rename_i hmic <;> rw [hmic] at hm
      · exact ih hQ hm h
      · cases h
        exact left _ (m :: ms) hm
      · exact ih hQ hm.1 h
      · cases h
        exact left _ _ hm.1
      · cases h
        exact hm
      · cases h

/-- The first step of a sequence: HOST's move ends with it, or the rest is run from where it led. -/
theorem run_first {P' R : State → Prop} {m : Micro} {ms : List Micro} {s t : State} (hm : (micro m s.tick).keeps P' R (fun _ => True)) (hover : R (s.leave (m :: ms)))
   (left : ∀ u w, P' u → R (u.leave w)) (h : run (m :: ms) s = .next t) : R t ∨ ∃ u, P' u ∧ run ms u = .next t := by
  rw [run_cons] at h
  split at h
  · cases h; exact .inl hover
  · split at h <;> rename_i hmic <;> rw [hmic] at hm
    · exact .inr ⟨_, hm, h⟩
    · cases h; exact .inl (left _ _ hm)
    · exact .inr ⟨_, hm.1, h⟩
    · cases h; exact .inl (left _ _ hm.1)
    · cases h; exact .inl hm
    · cases h

end Sys2Proof.Machine
end

