-- ==== Sys2Proof/Laws/Ops.lean ====
section
/-! SUPPORT. One lemma per shared operation, saying once everything it can do. -/

namespace Sys2Proof.Machine

/-! ## Draws -/

/-- The state after some draws: only the environment's supplies and the counter of the free values move. -/
def State.redraw (s : State) (env : Env) (n : Nat) : State := { s with env := env, draws := n }

/-- `t` is `s` after some draws. -/
def Drawn (s t : State) : Prop := ∃ env n, t = s.redraw env n

theorem Drawn.refl (s : State) : Drawn s s := ⟨s.env, s.draws, rfl⟩

theorem Drawn.trans {s t u : State} (h : Drawn s t) (h' : Drawn t u) : Drawn s u := by
  obtain ⟨_, _, rfl⟩ := h
  obtain ⟨env, n, rfl⟩ := h'
  exact ⟨env, n, rfl⟩

theorem drawStatus_drawn (s : State) : Drawn s (drawStatus s).2 := by
  unfold drawStatus
  split
  · exact ⟨_, s.draws, rfl⟩
  · exact ⟨s.env, s.draws + 1, rfl⟩

theorem drawPin_drawn (s : State) : Drawn s (drawPin s).2 := by
  unfold drawPin
  split
  · exact ⟨_, s.draws, rfl⟩
  · exact ⟨s.env, s.draws + 1, rfl⟩

theorem drawPins_drawn (n : Nat) (s : State) : Drawn s (drawPins n s).2 := by
  induction n generalizing s with
  | zero => exact .refl s
  | succ n ih => exact (drawPin_drawn s).trans (ih _)

theorem drawCtl_drawn (s : State) : Drawn s (drawCtl s).2 := by
  unfold drawCtl
  split
  · exact ⟨_, s.draws, rfl⟩
  · exact ⟨s.env, s.draws + 1, rfl⟩

theorem drawCoin_drawn (s : State) : Drawn s (drawCoin s).2 := by
  unfold drawCoin
  split
  · exact ⟨_, s.draws, rfl⟩
  · exact ⟨s.env, s.draws + 1, rfl⟩

theorem drawCoins_drawn (n : Nat) (s : State) : Drawn s (drawCoins n s).2 := by
  induction n generalizing s with
  | zero => exact .refl s
  | succ n ih => exact (drawCoin_drawn s).trans (ih _)

theorem drawFail_drawn (s : State) : Drawn s (drawFail s).2 := by
  unfold drawFail
  split
  · exact ⟨_, s.draws, rfl⟩
  · exact .refl s

theorem fbRead_drawn (off : Nat) (s : State) : Drawn s (fbRead off s).2 := by
  unfold fbRead
  generalize modsOf s.fbMods off = news
  generalize s.fb.getD off 0#8 = old
  induction news generalizing old s with
  | nil => exact .refl s
  | cons new news ih => exact (drawCoin_drawn s).trans (ih _ _)

theorem fbReads_drawn (os : List Nat) (s : State) : Drawn s (fbReads os s).2 := by
  induction os generalizing s with
  | nil => exact .refl s
  | cons o os ih => exact (fbRead_drawn o s).trans (ih _)

theorem ctlSeen_drawn (s : State) : Drawn s (ctlSeen s).2 := by
  unfold ctlSeen
  split
  · exact .refl s
  · exact drawCtl_drawn s

theorem selectedChips_drawn (s : State) : Drawn s (selectedChips s).2 := by
  unfold selectedChips
  split
  · exact .refl s
  · exact .refl s
  · exact ctlSeen_drawn s
  · exact .refl s

/-- A framebuffer nothing has written reads as it is. -/
theorem fbRead_unmodified {s : State} (h : s.fbMods = []) (off : Nat) : fbRead off s = (s.fb.getD off 0#8, s) := by
  simp [fbRead, fbPick, modsOf, h]

theorem fbReads_unmodified {s : State} (h : s.fbMods = []) (os : List Nat) :
    fbReads os s = (os.map (fun o => s.fb.getD o 0#8), s) := by
  induction os with
  | nil => rfl
  | cons o os ih => simp [fbReads, fbRead_unmodified h, ih]

/-- With no failure supplied a frame does not fail. -/
theorem drawFail_none {s : State} (h : s.env.frameFails = []) : drawFail s = (false, s) := by
  simp [drawFail, h]

/-! ## LCD cycles -/

theorem lcdCycle_one (c : Nat) (rs rw : Bool) (d : Byte) (s : State) {cmd : LcdCmd} (h : lcdDecode rs rw d = .ok cmd) :
    lcdCycle [c] rs rw d s = .ok (lcdRespond c cmd s) := by
  simp [lcdCycle, h]

/-- An LCD cycle that completes had one chip selected, and a word the target knows. -/
theorem lcdCycle_ok {chips : List Nat} {rs rw : Bool} {d : Byte} {s t : State} (h : lcdCycle chips rs rw d s = .ok t) :
    ∃ c cmd, chips = [c] ∧ lcdDecode rs rw d = .ok cmd ∧ t = lcdRespond c cmd s := by
  unfold lcdCycle at h
  split at h
  · split at h
    · cases h
      exact ⟨_, _, rfl, ‹_›, rfl⟩
    · cases h
  · cases h

/-- What a chip's response may change: its registers, and one byte of display RAM. -/
theorem lcdRespond_cases (c : Nat) (cmd : LcdCmd) (s : State) :
    ∃ k m, lcdRespond c cmd s = { s with lcd := s.lcd.set c k, dram := m } ∧
      (m = s.dram ∨ ∃ b, cmd = .data b ∧ m = Mem.write dramDefault s.dram (dramAddr c (s.chip c).x (s.chip c).y) b) := by
  cases cmd with
  | on => exact ⟨_, _, rfl, .inl rfl⟩
  | off => exact ⟨_, _, rfl, .inl rfl⟩
  | startLine => exact ⟨_, _, rfl, .inl rfl⟩
  | page p => exact ⟨_, _, rfl, .inl rfl⟩
  | column => exact ⟨_, _, rfl, .inl rfl⟩
  | data b => exact ⟨_, _, rfl, .inr ⟨b, rfl, rfl⟩⟩
  | status b =>
    refine ⟨s.lcd.getD c (LcdChip.free c), s.dram, ?_, .inl rfl⟩
    have : s.lcd.set c (s.lcd.getD c (LcdChip.free c)) = s.lcd := by
      apply List.ext_getElem (by simp)
      intro i h1 h2
      rw [List.getElem_set]
      split
      · subst_vars
        simp [List.getD, List.getElem?_eq_getElem h2]
      · rfl
    rw [this]
    rfl

/-! ## Chips and pins of the expanders -/

/-- Only a change of its pins under SPI_RELAY reaches the LCD, and then it is one LCD cycle (D26). -/
theorem relayLatch_ok {old : Half} {s t : State} (h : relayLatch old s = .ok t) :
    t = s ∨ ∃ c cmd, s.cfg.transport = .spiRelay ∧ t = lcdRespond c cmd s := by
  unfold relayLatch at h
  simp only at h
  split at h
  · obtain ⟨c, cmd, -, -, rfl⟩ := lcdCycle_ok h
    exact .inr ⟨c, cmd, by tauto, rfl⟩
  · cases h
    exact .inl rfl

/-- A frame's bytes land in the chip; the LCD behind a relay may see an edge. -/
theorem devLand_ok {x : ExpId} {reg : Byte} {vs : List (Byte × Bool)} {s t : State} (h : devLand x reg vs s = .ok t) :
    t = s.setExp x { s.exp x with dev := devStore (s.exp x).dev reg.toNat vs } ∨
      ∃ c cmd, x = .relay ∧ s.cfg.transport = .spiRelay ∧
        t = lcdRespond c cmd (s.setExp x { s.exp x with dev := devStore (s.exp x).dev reg.toNat vs }) := by
  unfold devLand at h
  cases x with
  | gpio =>
    cases h
    exact .inl rfl
  | relay =>
    rcases relayLatch_ok h with rfl | ⟨c, cmd, ht, rfl⟩
    · exact .inl rfl
    · exact .inr ⟨c, cmd, rfl, ht, rfl⟩

/-- What a write frame can answer: the state after its bytes landed, with its event; or, if it failed, BusError after some of
them landed; or a refusal. -/
theorem frameWrite_cases (x : ExpId) (cmd reg : Byte) (data : List Byte) (s : State) :
    (∃ s1 t, Drawn s.closeFrame s1 ∧ devLand x reg (data.map fun b => (b, true)) s1 = .ok t ∧
        frameWrite x cmd reg data s = .next (t.event (.frameW cmd reg data))) ∨
      (∃ s1 t vs, Drawn s.closeFrame s1 ∧ devLand x reg vs s1 = .ok t ∧ vs.length ≤ data.length ∧
        frameWrite x cmd reg data s = .raise (.busError cmd reg) (t.event (.frameFailed cmd reg))) ∨
      ∃ r, frameWrite x cmd reg data s = .refuse r := by
  unfold frameWrite
  split
  · simp only
    split
    · split
      · exact .inr (.inl ⟨_, _, _, (drawFail_drawn _).trans (drawCoins_drawn _ _), ‹_›, by simp, rfl⟩)
      · exact .inr (.inr ⟨_, rfl⟩)
    · split
      · exact .inl ⟨_, _, drawFail_drawn _, ‹_›, rfl⟩
      · exact .inr (.inr ⟨_, rfl⟩)
  · exact .inr (.inr ⟨_, rfl⟩)

/-- What a read frame can answer. -/
theorem frameRead_cases (x : ExpId) (cmd reg : Byte) (given : Option (List Byte)) (n : Nat) (s : State) :
    (∃ s1 l, Drawn s.closeFrame s1 ∧
        frameRead x cmd reg given n s =
          .next ((s1.setExp x { s1.exp x with rx := (s1.exp x).rx ++ l }).event (.frameR cmd reg l))) ∨
      (∃ s1, Drawn s.closeFrame s1 ∧
        frameRead x cmd reg given n s = .raise (.busError cmd reg) (s1.event (.frameFailed cmd reg))) ∨
      ∃ r, frameRead x cmd reg given n s = .refuse r := by
  unfold frameRead
  split
  · simp only
    split
    · exact .inr (.inl ⟨_, drawFail_drawn _, rfl⟩)
    · cases given with
      | some l => exact .inl ⟨_, l, drawFail_drawn _, rfl⟩
      | none => exact .inl ⟨_, _, (drawFail_drawn _).trans (drawPins_drawn _ _), rfl⟩
  · exact .inr (.inr ⟨_, rfl⟩)

/-- A write frame on a free bus that does not fail and changes no pin the LCD watches. -/
theorem frameWrite_next {x : ExpId} {cmd reg : Byte} {data : List Byte} {s t : State} (hf : s.env.frameFails = [])
    (ho : frameMayBegin cmd s = true)
    (h : devLand x reg (data.map fun b => (b, true)) s.closeFrame = .ok t) :
    frameWrite x cmd reg data s = .next (t.event (.frameW cmd reg data)) := by
  unfold frameWrite
  rw [if_pos ho, drawFail_none (by exact hf)]
  simp [h]

theorem devLand_gpio (reg : Byte) (vs : List (Byte × Bool)) (s : State) :
    devLand .gpio reg vs s = .ok (s.setExp .gpio { s.gpio with dev := devStore s.gpio.dev reg.toNat vs }) := rfl

/-- Where the enable line does not fall the LCD latches nothing. -/
theorem relayLatch_low {old : Half} {s : State} (h : s.cfg.transport = .spiRelay → old.getLsbD s.cfg.params.vportMap.e = false) :
    relayLatch old s = .ok s := by
  unfold relayLatch
  simp only
  split
  · rename_i hc
    rw [h hc.1] at hc
    simp at hc
  · rfl

/-! ## Reporting the changed pins -/

/-- Where the first changed pin with a subscriber stands. -/
theorem firstCalls_cases (subs : List (Nat × Nat)) (pins : List (Nat × Bool)) :
    (firstCalls subs pins = none ∧ ∀ pv ∈ pins, callsOf subs pv.1 pv.2 = [])
      ∨ ∃ before pv later, pins = before ++ pv :: later ∧ (∀ q ∈ before, callsOf subs q.1 q.2 = [])
        ∧ callsOf subs pv.1 pv.2 ≠ [] ∧ firstCalls subs pins = some (callsOf subs pv.1 pv.2, later) := by
  induction pins with
  | nil => exact .inl ⟨rfl, by simp⟩
  | cons pv pvs ih =>
    by_cases h : callsOf subs pv.1 pv.2 = []
    · have he : firstCalls subs (pv :: pvs) = firstCalls subs pvs := by simp [firstCalls, h]
      rcases ih with ⟨hn, hall⟩ | ⟨before, q, later, rfl, hb, hq, hs⟩
      · exact .inl ⟨he.trans hn, fun p hp => (List.mem_cons.1 hp).elim (· ▸ h) (hall p)⟩
      · exact .inr ⟨pv :: before, q, later, rfl, fun p hp => (List.mem_cons.1 hp).elim (· ▸ h) (hb p), hq, he.trans hs⟩
    · exact .inr ⟨[], pv, pvs, rfl, by simp, h, by simp [firstCalls, h]⟩

/-- Reporting changed pins ends the report, or calls a pin's subscribers and leaves the pins after it. -/
theorem reportPins_cases (x : ExpId) (pins : List (Nat × Bool)) (s : State) :
    reportPins x pins s = .next s
      ∨ ∃ pin value later, reportPins x pins s = .push (callsOf (s.exp x).subs pin value ++ [.dispatchPins x later]) s := by
  unfold reportPins
  rcases firstCalls_cases (s.exp x).subs pins with ⟨h, -⟩ | ⟨_, pv, later, -, -, -, h⟩ <;> rw [h]
  · exact .inl rfl
  · exact .inr ⟨pv.1, pv.2, later, rfl⟩

/-- A pin makes no call exactly where no subscription is of it. -/
theorem callsOf_eq_nil {subs : List (Nat × Nat)} {n : Nat} {v : Bool} : callsOf subs n v = [] ↔ ∀ sub ∈ subs, sub.1 ≠ n := by
  simp [callsOf]

/-- With no subscriber on any pin the report is over. -/
theorem reportPins_none {x : ExpId} {pins : List (Nat × Bool)} {s : State}
    (h : ∀ pv ∈ pins, ∀ sub ∈ (s.exp x).subs, sub.1 ≠ pv.1) : reportPins x pins s = .next s := by
  unfold reportPins
  rcases firstCalls_cases (s.exp x).subs pins with ⟨hn, -⟩ | ⟨before, pv, later, rfl, -, hne, -⟩
  · rw [hn]
  · exact absurd (callsOf_eq_nil.2 (h pv (by simp))) hne

/-- The first changed pin with a subscriber has its calls made. -/
theorem reportPins_first {x : ExpId} {before later : List (Nat × Bool)} {pv : Nat × Bool} {s : State}
    (hb : ∀ q ∈ before, ∀ sub ∈ (s.exp x).subs, sub.1 ≠ q.1) (hp : ∃ sub ∈ (s.exp x).subs, sub.1 = pv.1) :
    reportPins x (before ++ pv :: later) s
      = .push (callsOf (s.exp x).subs pv.1 pv.2 ++ [.dispatchPins x later]) s := by
  have hne : callsOf (s.exp x).subs pv.1 pv.2 ≠ [] := fun h => by
    obtain ⟨sub, hs, e⟩ := hp
    exact callsOf_eq_nil.1 h sub hs e
  unfold reportPins
  suffices h : firstCalls (s.exp x).subs (before ++ pv :: later) = some (callsOf (s.exp x).subs pv.1 pv.2, later) by rw [h]
  induction before with
  | nil => simp [firstCalls, hne]
  | cons q qs ih =>
    rw [List.cons_append, firstCalls, if_pos (callsOf_eq_nil.2 (hb q (by simp)))]
    exact ih fun r hr => hb r (by simp [hr])

end Sys2Proof.Machine
end

