-- ==== Sys2Proof/Laws/Lcd.lean ====
section
/-! SUPPORT. LCD cycles: the chip selected, a write cycle by a word and by the ready-polling sequencer. -/

namespace Sys2Proof.Machine

/-! ## What a draw leaves -/

theorem Drawn.chip {s t : State} (h : Drawn s t) (c : Nat) : t.chip c = s.chip c := by
  obtain ⟨_, _, rfl⟩ := h
  rfl

theorem Drawn.lcd {s t : State} (h : Drawn s t) : t.lcd = s.lcd := by
  obtain ⟨_, _, rfl⟩ := h
  rfl

theorem Drawn.dram {s t : State} (h : Drawn s t) : t.dram = s.dram := by
  obtain ⟨_, _, rfl⟩ := h
  rfl

theorem Drawn.trace {s t : State} (h : Drawn s t) : t.trace = s.trace := by
  obtain ⟨_, _, rfl⟩ := h
  rfl

/-! ## Chips -/

theorem chipsWhere_lt {n c : Nat} {sel : Nat → Bool} (h : chipsWhere n sel = [c]) : c < n := by
  have hm : c ∈ chipsWhere n sel := by simp [h]
  simp only [chipsWhere, List.mem_filter, List.mem_range] at hm
  exact hm.1

/-- The chips of a pattern that picks `c` alone. -/
theorem chipsWhere_one {n c : Nat} {sel : Nat → Bool} (hc : c < n) (h : ∀ k, k < n → sel k = decide (k = c)) :
    chipsWhere n sel = [c] := by
  have e : chipsWhere n sel = (List.range n).filter (fun k => decide (k = c)) :=
    List.filter_congr fun k hk => h k (List.mem_range.1 hk)
  rw [e]
  induction n with
  | zero => omega
  | succ n ih =>
    rw [List.range_succ, List.filter_append]
    rcases Nat.lt_succ_iff_lt_or_eq.1 hc with hc | rfl
    · rw [ih hc (fun k hk => h k (by omega)) (List.filter_congr fun k hk => h k (by simp at hk; omega))]
      have : n ≠ c := by omega
      simp [this]
    · rw [List.filter_eq_nil_iff.2 (by simp; omega)]
      simp

theorem csPattern_getD {n c k : Nat} (hk : k < n) : (csPattern n c).getD k false = decide (k = c) := by
  simp [csPattern, hk, beq_eq_decide]

/-- The select lines driven to one chip select it. -/
theorem chipsWhere_csPattern {n c : Nat} (hc : c < n) :
    chipsWhere n (fun k => (csPattern n c).getD k false) = [c] :=
  chipsWhere_one hc fun _ hk => csPattern_getD hk

theorem selectedChips_lt {s : State} {c : Nat} (h : (selectedChips s).1 = [c]) : c < s.cfg.chips := by
  unfold selectedChips at h
  split at h <;> exact chipsWhere_lt h

theorem setChip_chip_same (s : State) {c : Nat} (k : LcdChip) (h : c < s.lcd.length) : (s.setChip c k).chip c = k := by
  simp [State.chip, State.setChip, h]

theorem setChip_chip_other (s : State) {c j : Nat} (k : LcdChip) (h : j ≠ c) : (s.setChip c k).chip j = s.chip j := by
  simp [State.chip, State.setChip, Ne.symm h]

/-- What a chip does to a state depends on the chips and on display RAM alone. -/
theorem lcdRespond_target {s t : State} (c : Nat) (cmd : LcdCmd) (h1 : t.lcd = s.lcd) (h2 : t.dram = s.dram) :
    (lcdRespond c cmd t).lcd = (lcdRespond c cmd s).lcd ∧ (lcdRespond c cmd t).dram = (lcdRespond c cmd s).dram := by
  have hch : t.chip c = s.chip c := by simp only [State.chip, h1]
  cases cmd <;> simp [lcdRespond, State.setChip, h1, h2, hch]

/-- A response is the state with other chips and other display RAM. -/
theorem lcdRespond_eq (c : Nat) (cmd : LcdCmd) (s : State) :
    lcdRespond c cmd s = { s with lcd := (lcdRespond c cmd s).lcd, dram := (lcdRespond c cmd s).dram } := by
  cases cmd <;> rfl

/-- Only a data word reaches display RAM. -/
theorem lcdDecode_notData {rw : Bool} {b b' : Byte} : lcdDecode false rw b ≠ .ok (.data b') := by
  unfold lcdDecode
  cases rw
  · simp only
    split_ifs <;> simp
  · simp

theorem lcdCycle_not {chips : List Nat} (rs rw : Bool) (d : Byte) (s : State) (h : ∀ c, chips ≠ [c]) :
    lcdCycle chips rs rw d s = .error .notOneChip := by
  unfold lcdCycle
  split
  · exact absurd rfl (h _)
  · rfl

/-! ## A write cycle by a word -/

theorem ownBus_of {s : State} (h : s.disp ≠ .atYield) (k : Out) : ownBus s k = k := if_neg h

theorem strobeLines_one {s : State} {c : Nat} {cmd : LcdCmd}
    (hs : chipsWhere s.cfg.chips (fun k => s.cs.getD k false) = [c]) (hd : lcdDecode s.rs s.rw s.d = .ok cmd) :
    strobeLines s = .ok ((lcdRespond c cmd s).enableLow.event (.lcd c s.rs s.d)) := by
  unfold strobeLines
  simp only [hs, lcdCycle_one _ _ _ _ _ hd]
  rw [lcdRespond_eq]
  rfl

/-- The state after the offload lines have carried a word to chip `c`, before the chip acts (30_encoding.md R120). -/
def offloadCarried (c : Nat) (rs : Bool) (d : Byte) (s : State) : State :=
  driveData d (drainCtl (ctlWord s.cfg.params.ctlMap c rs false) (selectedChips s).2)

theorem offloadWord_one {s : State} {c : Nat} {rs : Bool} {d : Byte} {cmd : LcdCmd} (h : (selectedChips s).1 = [c])
    (hd : lcdDecode rs false d = .ok cmd) : offloadWord rs d s = .ok (lcdRespond c cmd (offloadCarried c rs d s)) := by
  simp only [offloadWord, h, List.headD_cons, lcdCycle_one _ _ _ _ _ hd, offloadCarried]

theorem offloadWord_not {s : State} (rs : Bool) (d : Byte) (h : ∀ c, (selectedChips s).1 ≠ [c]) :
    offloadWord rs d s = .error .notOneChip := lcdCycle_not _ _ _ _ h

/-- With one chip selected and a word it knows, the chip acts on the word, whose lines then hold it; DIRECT and COOP leave theirs
in write direction. -/
theorem writeCycle_one {s : State} {c : Nat} {rs : Bool} {b : Byte} {cmd : LcdCmd} (ht : s.cfg.transport ≠ .spiRelay)
    (h : (selectedChips s).1 = [c]) (hd : lcdDecode rs false b = .ok cmd) :
    writeCycle rs b s =
      .next (if s.cfg.transport.bitBang then (lcdRespond c cmd (setWriteDir rs b s)).enableLow.event (.lcd c rs b)
        else lcdRespond c cmd (offloadCarried c rs b s)) := by
  have hbang : s.cfg.transport = .direct ∨ s.cfg.transport = .coop →
      ofExcept (strobeLines (setWriteDir rs b s)) =
        .next ((lcdRespond c cmd (setWriteDir rs b s)).enableLow.event (.lcd c rs b)) := fun ht => by
    rw [strobeLines_one (c := c) (cmd := cmd)]
    · rfl
    · unfold selectedChips at h
      rcases ht with e | e <;> rw [e] at h <;> exact h
    · exact hd
  unfold writeCycle
  cases e : s.cfg.transport
  · exact hbang (.inl e)
  · exact hbang (.inr e)
  · simp only [offloadWord_one h hd]
    rfl
  · exact absurd e ht

theorem relayWord_not {s : State} (rs : Bool) (d : Byte) (h : ∀ c, (selectedChips s).1 ≠ [c]) :
    relayWord rs d s = .refused .notOneChip := by
  unfold relayWord
  split
  · rename_i c hc
    exact absurd hc (h c)
  · rfl

theorem writeCycle_not {s : State} (rs : Bool) (b : Byte) (h : ∀ c, (selectedChips s).1 ≠ [c]) :
    writeCycle rs b s = .refused .notOneChip := by
  unfold writeCycle
  cases ht : s.cfg.transport <;> simp only
  · simp only [selectedChips, ht] at h
    simp only [strobeLines, setWriteDir_cfg, setWriteDir_cs, lcdCycle_not _ _ _ _ h]
    rfl
  · simp only [selectedChips, ht] at h
    simp only [strobeLines, setWriteDir_cfg, setWriteDir_cs, lcdCycle_not _ _ _ _ h]
    rfl
  · rw [offloadWord_not _ _ h]
    rfl
  · exact relayWord_not _ _ h

theorem statusCycle_not {s : State} (v : Byte) (ht : s.cfg.transport.bitBang = true) (h : ∀ c, (selectedChips s).1 ≠ [c]) :
    statusCycle v s = .refused .notOneChip := by
  unfold statusCycle
  cases e : s.cfg.transport <;> simp only [e, Transport.bitBang, Bool.false_eq_true] at ht ⊢
  · rw [lcdCycle_not _ _ _ _ h]
  · rw [lcdCycle_not _ _ _ _ h]

/-- OFFLOAD and SPI_RELAY have no status read. -/
theorem statusCycle_refused {s : State} (v : Byte) (ht : s.cfg.transport.bitBang = false) :
    statusCycle v s = .refused .noStatusRead := by
  unfold statusCycle
  cases e : s.cfg.transport <;> simp only [e, Transport.bitBang, Bool.true_eq_false] at ht ⊢

/-- A status cycle changes no chip; the caller gets the byte, and the lines then hold the word. -/
theorem statusCycle_one {s : State} {c : Nat} (v : Byte) (ht : s.cfg.transport.bitBang = true) (h : (selectedChips s).1 = [c]) :
    statusCycle v s = .next ({ setReadDir s with ret := .byte v }.event (.status c v)) := by
  have hd : lcdDecode false true v = .ok (.status v) := rfl
  unfold statusCycle
  cases e : s.cfg.transport <;> simp only [e, Transport.bitBang, Bool.false_eq_true] at ht ⊢
  · simp only [h, lcdCycle_one _ _ _ _ _ hd]
    rfl
  · simp only [h, lcdCycle_one _ _ _ _ _ hd]
    rfl

/-- A write cycle that completes was one of one chip; not carried by the relay, with a word the chip knows. -/
theorem writeCycle_cases {rs : Bool} {b : Byte} {s t : State} (ht : s.cfg.transport ≠ .spiRelay)
    (h : writeCycle rs b s = .next t) :
    ∃ c cmd, (selectedChips s).1 = [c] ∧ lcdDecode rs false b = .ok cmd ∧
      t = if s.cfg.transport.bitBang then (lcdRespond c cmd (setWriteDir rs b s)).enableLow.event (.lcd c rs b)
        else lcdRespond c cmd (offloadCarried c rs b s) := by
  by_cases hs : ∃ c, (selectedChips s).1 = [c]
  · obtain ⟨c, hs⟩ := hs
    cases hd : lcdDecode rs false b with
    | ok cmd =>
      rw [writeCycle_one ht hs hd] at h
      cases h
      exact ⟨c, cmd, hs, rfl, rfl⟩
    | error e =>
      exfalso
      unfold writeCycle at h
      cases ht' : s.cfg.transport <;> simp only [ht'] at h
      · simp only [selectedChips, ht'] at hs
        simp only [strobeLines, setWriteDir_cfg, setWriteDir_cs, hs, lcdCycle] at h
        simp [setWriteDir, hd, ofExcept] at h
      · simp only [selectedChips, ht'] at hs
        simp only [strobeLines, setWriteDir_cfg, setWriteDir_cs, hs, lcdCycle] at h
        simp [setWriteDir, hd, ofExcept] at h
      · simp only [offloadWord, hs, lcdCycle, hd, ofExcept] at h
        cases h
      · exact absurd ht' ht
  · rw [writeCycle_not _ _ (by simpa using hs)] at h
    cases h

/-! ## The ready-polling sequencer -/

/-- The status byte LCD_ENV answers with, what it has left, and the draws then made. -/
def Env.nextStatus (e : Env) (n : Nat) : Byte := e.status.headD (Config.freeStatus n)
def Env.afterStatus (e : Env) : Env := { e with status := e.status.tail }
def Env.drawsAfter (e : Env) (n : Nat) : Nat := if e.status = [] then n + 1 else n

theorem drawStatus_eq (s : State) :
    drawStatus s = (s.env.nextStatus s.draws, s.redraw s.env.afterStatus (s.env.drawsAfter s.draws)) := by
  unfold drawStatus Env.nextStatus Env.afterStatus Env.drawsAfter
  split
  · rename_i h
    simp [h, State.redraw]
  · rename_i h
    simp only [h]
    have : { s.env with status := [] } = s.env := by rw [← h]
    simp [State.redraw, State.drew, this]

/-- A state after the sequencer has polled once, the status byte not yet tested. -/
def polled (c : Nat) (s : State) : State :=
  { s with
    cs := csPattern s.cfg.chips c, st := .pollBusy, ddir := .input, busDir := .read, rs := false, rw := true, e := false,
    suspended := false, env := s.env.afterStatus, draws := s.env.drawsAfter s.draws,
    trace := s.trace ++ [.status c (drawStatus s).1] }

/-- A state after `LcdWrite` has been made (43_bitbang_sequencer.md R232). -/
def lcdWritten (c : Nat) (rs : Bool) (b : Byte) (cmd : LcdCmd) (s : State) : State :=
  { s with
    cs := csPattern s.cfg.chips c, st := .idle, ddir := .output, busDir := .write, rs := rs, rw := false, e := false, d := b,
    suspended := false, env := s.env.afterStatus, draws := s.env.drawsAfter s.draws,
    lcd := (lcdRespond c cmd s).lcd, dram := (lcdRespond c cmd s).dram,
    trace := s.trace ++ [.status c (drawStatus s).1, .lcd c rs b] }

/-- Selecting, turning the bus round and a poll that is ready. -/
theorem steps_poll {s : State} {c : Nat} (hu : s.slice = none) (hsel : s.selChip = some c)
    (hr : ready (drawStatus s).1 = true) : Steps [.fsmSelect, .fsmReadDir, .fsmPoll] s (polled c s) := by
  refine .cons hu (s' := driveCs c (s.inFsm .selectChip)) (by simp only [micro, hsel])
    (.cons (by exact hu) (s' := setReadDir ((driveCs c (s.inFsm .selectChip)).inFsm .setReadDir)) rfl
      (.one (by exact hu) ?_))
  simp only [drawStatus_eq] at hr
  obtain rfl : s.selChip.getD 0 = c := by rw [hsel]; rfl
  simp only [micro, pollStep, drawStatus_eq]
  rw [if_pos (by exact hr)]
  simp [polled, drawStatus_eq, driveCs, setReadDir, State.inFsm, State.suspend, State.redraw, State.enableLow, State.event]

/-- A poll that is not ready is to be made again, under COOP after a suspension (43_bitbang_sequencer.md R236). -/
theorem poll_again {s : State} {c : Nat} (hu : s.slice = none) (hsel : s.selChip = some c)
    (hr : ready (drawStatus s).1 = false) (ms : List Micro) :
    run (.fsmSelect :: .fsmReadDir :: .fsmPoll :: ms) s =
      .next (((polled c s).suspend (s.cfg.transport == .coop)).leave (.fsmPoll :: ms)) := by
  rw [run_next hu (s' := driveCs c (s.inFsm .selectChip)) (by simp only [micro, hsel]),
    run_next (by exact hu) (s' := setReadDir ((driveCs c (s.inFsm .selectChip)).inFsm .setReadDir)) rfl,
    run_hold (by exact hu) (s' := (polled c s).suspend (s.cfg.transport == .coop))]
  simp only [drawStatus_eq] at hr
  obtain rfl : s.selChip.getD 0 = c := by rw [hsel]; rfl
  simp only [micro, pollStep, drawStatus_eq]
  rw [if_neg (by simpa using hr)]
  simp [polled, drawStatus_eq, driveCs, setReadDir, State.inFsm, State.suspend, State.redraw, State.enableLow, State.event]

/-- The write after a poll that was ready. -/
theorem steps_fsmWrite {s : State} {c : Nat} {rs : Bool} {src : Src} {cmd : LcdCmd} (hu : s.slice = none)
    (hc : c < s.cfg.chips) (hcs : s.cs = csPattern s.cfg.chips c) (hd : lcdDecode rs false (src.value s) = .ok cmd) :
    Steps [.fsmWriteDir rs src, .fsmStrobe, .fsmIdle] s
      { s with
        st := .idle, ddir := .output, busDir := .write, rs := rs, rw := false, e := false, d := src.value s,
        lcd := (lcdRespond c cmd s).lcd, dram := (lcdRespond c cmd s).dram,
        trace := s.trace ++ [.lcd c rs (src.value s)] } := by
  have hone : micro .fsmStrobe (setWriteDir rs (src.value s) (s.inFsm .setWriteDir)) =
      .next ((lcdRespond c cmd ((setWriteDir rs (src.value s) (s.inFsm .setWriteDir)).inFsm .strobe)).enableLow.event
        (.lcd c rs (src.value s))) := by
    simp only [micro]
    rw [strobeLines_one (c := c) (cmd := cmd) (by simpa [hcs] using chipsWhere_csPattern hc) hd]
    rfl
  have e := lcdRespond_eq c cmd ((setWriteDir rs (src.value s) (s.inFsm .setWriteDir)).inFsm .strobe)
  have ht := lcdRespond_target (s := s) (t := (setWriteDir rs (src.value s) (s.inFsm .setWriteDir)).inFsm .strobe) c cmd rfl rfl
  rw [ht.1, ht.2] at e
  rw [e] at hone
  exact .cons hu rfl (.cons (by exact hu) hone (.one (by exact hu) rfl))

/-- `LcdWrite` with a status that is ready: one status cycle, then the write. -/
theorem steps_fsm {s : State} {c : Nat} {rs : Bool} {src : Src} {cmd : LcdCmd} (hu : s.slice = none)
    (hsel : s.selChip = some c) (hc : c < s.cfg.chips) (hr : ready (drawStatus s).1 = true)
    (hd : lcdDecode rs false (src.value s) = .ok cmd) :
    Steps (fsmSteps rs src) s (lcdWritten c rs (src.value s) cmd s) := by
  have hv : src.value (polled c s) = src.value s := by cases src <;> rfl
  have h2 := steps_fsmWrite (s := polled c s) (c := c) (rs := rs) (src := src) (cmd := cmd) hu hc rfl (hv ▸ hd)
  have ht := lcdRespond_target (s := s) (t := polled c s) c cmd rfl rfl
  rw [hv, ht.1, ht.2] at h2
  have h3 := (steps_poll hu hsel hr).append h2
  simp only [polled, List.append_assoc, List.cons_append, List.nil_append] at h3
  exact h3

end Sys2Proof.Machine
end

