-- ==== Sys2Proof/Laws/Sweep.lean ====
section
/-! SUPPORT. Sequences of LCD writes: what the chips and display RAM are after them, and groups, blocks and the sweep as such
sequences on any transport that carries one byte at a time. -/

namespace Sys2Proof.Machine

/-! ## What writes do to the target -/

/-- The byte listed of display RAM at (chip, page, column), if one is. -/
def State.ramListed (s : State) (c page col : Nat) : Option Byte := Mem.read dramDefault s.dram (c * 512 + page * 64 + col)

/-- A listed byte is what display RAM reads as. -/
theorem dramRead_of_listed {s : State} {c page col : Nat} {b : Byte} (h : s.ramListed c page col = some b) :
    s.dramRead c page col = b := by
  unfold State.ramListed at h
  simp [State.dramRead, State.dramAt, h]

/-- One write's effect. -/
def actOne (w : Write) (s : State) : State :=
  match lcdDecode w.2.1 false w.2.2 with
  | .ok cmd => lcdRespond w.1 cmd s
  | .error _ => s

theorem actAll_cons (w : Write) (ws : List Write) (s : State) : actAll (w :: ws) s = actAll ws (actOne w s) := rfl

theorem actAll_append (ws ws' : List Write) (s : State) : actAll (ws ++ ws') s = actAll ws' (actAll ws s) := by
  simp [actAll, List.foldl_append]

theorem actOne_target {s t : State} (w : Write) (h1 : t.lcd = s.lcd) (h2 : t.dram = s.dram) :
    (actOne w t).lcd = (actOne w s).lcd ∧ (actOne w t).dram = (actOne w s).dram := by
  unfold actOne
  split
  · exact lcdRespond_target _ _ h1 h2
  · exact ⟨h1, h2⟩

/-- The effect depends on the chips and on display RAM alone. -/
theorem actAll_target (ws : List Write) {s t : State} (h1 : t.lcd = s.lcd) (h2 : t.dram = s.dram) :
    (actAll ws t).lcd = (actAll ws s).lcd ∧ (actAll ws t).dram = (actAll ws s).dram := by
  induction ws generalizing s t with
  | nil => exact ⟨h1, h2⟩
  | cons w ws ih =>
    rw [actAll_cons, actAll_cons]
    exact ih (actOne_target w h1 h2).1 (actOne_target w h1 h2).2

/-- `t`'s target is what the writes make of `s`'s. -/
def Acted (ws : List Write) (s t : State) : Prop := t.lcd = (actAll ws s).lcd ∧ t.dram = (actAll ws s).dram

theorem Acted.nil {s t : State} (h1 : t.lcd = s.lcd) (h2 : t.dram = s.dram) : Acted [] s t := ⟨h1, h2⟩

theorem Acted.append {ws ws' : List Write} {s t u : State} (h : Acted ws s t) (h' : Acted ws' t u) :
    Acted (ws ++ ws') s u := by
  have := actAll_target ws' h.1 h.2
  exact ⟨by rw [actAll_append, ← this.1, h'.1], by rw [actAll_append, ← this.2, h'.2]⟩

theorem Acted.one {w : Write} {cmd : LcdCmd} {s t : State} (hd : lcdDecode w.2.1 false w.2.2 = .ok cmd)
    (h1 : t.lcd = (lcdRespond w.1 cmd s).lcd) (h2 : t.dram = (lcdRespond w.1 cmd s).dram) : Acted [w] s t := by
  have e : actAll [w] s = lcdRespond w.1 cmd s := by
    show actOne w s = _
    simp only [actOne, hd]
  exact ⟨e ▸ h1, e ▸ h2⟩

theorem lcdRespond_length (c : Nat) (cmd : LcdCmd) (s : State) : (lcdRespond c cmd s).lcd.length = s.lcd.length := by
  cases cmd <;> simp [lcdRespond, State.setChip]

theorem actAll_length (ws : List Write) (s : State) : (actAll ws s).lcd.length = s.lcd.length := by
  induction ws generalizing s with
  | nil => rfl
  | cons w ws ih =>
    rw [actAll_cons, ih]
    unfold actOne
    split
    · exact lcdRespond_length _ _ _
    · rfl

/-! ## The words of the sweep -/

theorem lcdDecode_page (page : Nat) :
    lcdDecode false false (0xB8#8 ||| BitVec.ofNat 8 (page % 8)) = .ok (.page (BitVec.ofNat 3 page)) := by
  have h : ∀ k < 8, lcdDecode false false (0xB8#8 ||| BitVec.ofNat 8 k) = .ok (.page (BitVec.ofNat 3 k)) := by decide
  rw [h _ (Nat.mod_lt _ (by omega))]
  congr 2
  apply BitVec.eq_of_toNat_eq
  simp

theorem lcdDecode_column : lcdDecode false false 0x40#8 = .ok .column := rfl

/-- The state of the target after the data bytes `bs` have been written to chip `c` at page `x`, from column `y` on: what display RAM
reads. -/
theorem actAll_data (c : Nat) (bs : List Byte) (s : State) (hc : c < s.lcd.length) (hw : Mem.wf dramDefault s.dram)
    (hn : (s.chip c).y.toNat + bs.length ≤ 64) :
    let t := actAll (bs.map fun b => (c, true, b)) s
    Mem.wf dramDefault t.dram ∧ (t.chip c).x = (s.chip c).x ∧ (∀ j, j ≠ c → t.chip j = s.chip j)
      ∧ (t.chip c).y = (s.chip c).y + BitVec.ofNat 6 bs.length
      ∧ (∀ a, Mem.read dramDefault t.dram a =
        if dramAddr c (s.chip c).x (s.chip c).y ≤ a ∧ a < dramAddr c (s.chip c).x (s.chip c).y + bs.length then
          bs[a - dramAddr c (s.chip c).x (s.chip c).y]?
        else Mem.read dramDefault s.dram a) := by
  induction bs generalizing s with
  | nil =>
    refine ⟨hw, rfl, fun _ _ => rfl, by simp [actAll], fun a => ?_⟩
    rw [if_neg (by simp)]
    rfl
  | cons b bs ih =>
    intro t
    have e : t = actAll (bs.map fun b => (c, true, b)) (lcdRespond c (.data b) s) := rfl
    have hch : (lcdRespond c (.data b) s).chip c = { s.chip c with y := (s.chip c).y + 1#6 } := by
      simp [lcdRespond, State.chip, State.setChip, hc]
    have hoth : ∀ j, j ≠ c → (lcdRespond c (.data b) s).chip j = s.chip j := fun j hj => by
      simp [lcdRespond, State.chip, State.setChip, Ne.symm hj]
    have hdr : (lcdRespond c (.data b) s).dram =
        Mem.write dramDefault s.dram (dramAddr c (s.chip c).x (s.chip c).y) b := rfl
    simp only [List.length_cons] at hn
    by_cases hb : bs = []
    · subst hb
      refine ⟨hdr ▸ Mem.write_wf hw _ _, by rw [e]; show ((lcdRespond c (.data b) s).chip c).x = _; rw [hch], hoth, ?_,
        fun a => ?_⟩
      · show ((lcdRespond c (.data b) s).chip c).y = _
        rw [hch]
        rfl
      · show Mem.read dramDefault (lcdRespond c (.data b) s).dram a = _
        rw [hdr, Mem.read_write hw]
        simp only [List.length_cons, List.length_nil]
        split_ifs <;> first | omega | rfl | skip
        · subst_vars
          simp
    · have hpos : 0 < bs.length := List.length_pos_iff.2 hb
      have hy : ((s.chip c).y + 1#6).toNat = (s.chip c).y.toNat + 1 := by
        rw [BitVec.toNat_add]
        simp
        omega
      have := ih (lcdRespond c (.data b) s) (by rw [lcdRespond_length]; exact hc) (hdr ▸ Mem.write_wf hw _ _)
        (by rw [hch]; simp only [hy]; omega)
      obtain ⟨h1, h2, h3, h4, h5⟩ := this
      rw [← e] at h1 h2 h3 h4 h5
      rw [hch] at h2 h4 h5
      refine ⟨h1, h2, fun j hj => (h3 j hj).trans (hoth j hj), ?_, fun a => ?_⟩
      · rw [h4]
        simp only [List.length_cons]
        apply BitVec.eq_of_toNat_eq
        simp
        omega
      · rw [h5, hdr, Mem.read_write hw]
        have ha : dramAddr c (s.chip c).x ((s.chip c).y + 1#6) = dramAddr c (s.chip c).x (s.chip c).y + 1 := by
          simp only [dramAddr, hy]
          omega
        simp only [ha, List.length_cons]
        by_cases ha' : a = dramAddr c (s.chip c).x (s.chip c).y
        · rw [if_neg (by omega), if_pos ha', if_pos (by omega), ha']
          simp
        · rw [if_neg ha']
          by_cases hr : dramAddr c (s.chip c).x (s.chip c).y + 1 ≤ a ∧ a < dramAddr c (s.chip c).x (s.chip c).y + 1 + bs.length
          · rw [if_pos hr, if_pos (by omega), show a - dramAddr c (s.chip c).x (s.chip c).y =
              (a - (dramAddr c (s.chip c).x (s.chip c).y + 1)) + 1 by omega, List.getElem?_cons_succ]
          · rw [if_neg hr, if_neg (by omega)]

/-- A block written: its 64 bytes stand at the chip's page, all else of display RAM is as before (42_write_protocol.md R210). -/
theorem actAll_block (c : Cfg) (fb : List Byte) (pg ch : Nat) (s : State) (hc : ch < s.lcd.length)
    (hw : Mem.wf dramDefault s.dram) :
    let t := actAll (blockWrites c fb pg ch) s
    Mem.wf dramDefault t.dram ∧ t.lcd.length = s.lcd.length
      ∧ (∀ col, col < 64 → t.ramListed ch (pg % 8) col = some (fb.getD (col + 64 * ch + pg * c.width) 0#8))
      ∧ ∀ a, (a < ch * 512 + pg % 8 * 64 ∨ ch * 512 + pg % 8 * 64 + 64 ≤ a) →
        Mem.read dramDefault t.dram a = Mem.read dramDefault s.dram a := by
  intro t
  let bs := (List.range 64).map fun col => fb.getD (col + 64 * ch + pg * c.width) 0#8
  let u := lcdRespond ch .column (lcdRespond ch (.page (BitVec.ofNat 3 pg)) s)
  have ht : t = actAll (bs.map fun b => (ch, true, b)) u := by
    have h1 : actOne (ch, false, 0xB8#8 ||| BitVec.ofNat 8 (pg % 8)) s = lcdRespond ch (.page (BitVec.ofNat 3 pg)) s := by
      simp only [actOne, lcdDecode_page]
    have h2 : ∀ v : State, actOne (ch, false, 0x40#8) v = lcdRespond ch .column v := fun v => by
      simp only [actOne, lcdDecode_column]
    simp only [t, blockWrites, List.cons_append, List.nil_append, actAll_cons, h1, h2, bs, List.map_map, u]
    rfl
  have huc : u.chip ch = { s.chip ch with x := BitVec.ofNat 3 pg, y := 0#6 } := by
    simp [u, lcdRespond, State.chip, State.setChip, hc]
  have hud : u.dram = s.dram := rfl
  have hl : bs.length = 64 := by simp [bs]
  obtain ⟨h1, -, -, -, h5⟩ := actAll_data ch bs u (by simpa [u, lcdRespond_length] using hc) (hud ▸ hw)
    (by rw [huc, hl]; simp)
  rw [← ht] at h1 h5
  have ha : dramAddr ch (u.chip ch).x (u.chip ch).y = ch * 512 + pg % 8 * 64 := by
    rw [huc]
    simp [dramAddr]
  refine ⟨h1, actAll_length _ _, fun col hcol => ?_, fun a hr => ?_⟩
  · unfold State.ramListed
    rw [h5, ha, hl, if_pos (by omega), Nat.add_sub_cancel_left]
    simp [bs, hcol]
  · rw [h5, ha, hl, if_neg (by omega), hud]

/-- The blocks of one page written. -/
theorem actAll_row (c : Cfg) (fb : List Byte) (pg n : Nat) (s : State) (hn : n ≤ s.lcd.length)
    (hw : Mem.wf dramDefault s.dram) :
    let t := actAll ((List.range n).flatMap (blockWrites c fb pg)) s
    Mem.wf dramDefault t.dram ∧ t.lcd.length = s.lcd.length
      ∧ (∀ ch col, ch < n → col < 64 → t.ramListed ch (pg % 8) col = some (fb.getD (col + 64 * ch + pg * c.width) 0#8))
      ∧ (∀ ch page col, col < 64 → page < 8 → page ≠ pg % 8 → t.ramListed ch page col = s.ramListed ch page col)
      ∧ ∀ a, n * 512 ≤ a → Mem.read dramDefault t.dram a = Mem.read dramDefault s.dram a := by
  induction n with
  | zero => exact ⟨hw, rfl, by omega, fun _ _ _ _ _ _ => rfl, fun _ _ => rfl⟩
  | succ n ih =>
    intro t
    obtain ⟨h1, h2, h3, h4, h6⟩ := ih (by omega)
    have ht : t = actAll (blockWrites c fb pg n) (actAll ((List.range n).flatMap (blockWrites c fb pg)) s) := by
      simp only [t, List.range_succ, List.flatMap_append, List.flatMap_cons, List.flatMap_nil, List.append_nil,
        actAll_append]
    obtain ⟨g1, g2, g3, g4⟩ := actAll_block c fb pg n (actAll ((List.range n).flatMap (blockWrites c fb pg)) s) (by omega) h1
    rw [← ht] at g1 g2 g3 g4
    have hm := Nat.mod_lt pg (show 0 < 8 by omega)
    refine ⟨g1, g2.trans h2, fun ch col hch hcol => ?_, fun ch page col hcol hp hne => ?_, fun a ha => ?_⟩
    · rcases Nat.lt_succ_iff_lt_or_eq.1 hch with hch | rfl
      · rw [← h3 ch col hch hcol]
        exact g4 _ (by omega)
      · exact g3 col hcol
    · rw [← h4 ch page col hcol hp hne]
      refine g4 _ ?_
      rcases lt_trichotomy ch n with h | h | h <;> rcases lt_or_gt_of_ne hne with h' | h' <;> omega
    · have ha' : n * 512 + 512 ≤ a := (Nat.add_one_mul n 512).symm.le.trans ha
      exact (g4 a (.inr (by omega))).trans (h6 a ((Nat.le_add_right _ _).trans ha'))

/-- Pages written one after another: each of the last eight stands in display RAM (40_addressing.md R164). -/
theorem actAll_sweep (c : Cfg) (fb : List Byte) (n : Nat) (s : State) (hn : c.chips ≤ s.lcd.length)
    (hw : Mem.wf dramDefault s.dram) :
    let t := actAll ((List.range n).flatMap fun pg => (List.range c.chips).flatMap (blockWrites c fb pg)) s
    Mem.wf dramDefault t.dram ∧ t.lcd.length = s.lcd.length
      ∧ (∀ pg ch col, pg < n → n ≤ pg + 8 → ch < c.chips → col < 64 →
        t.ramListed ch (pg % 8) col = some (fb.getD (col + 64 * ch + pg * c.width) 0#8))
      ∧ ∀ a, c.chips * 512 ≤ a → Mem.read dramDefault t.dram a = Mem.read dramDefault s.dram a := by
  induction n with
  | zero => exact ⟨hw, rfl, by omega, fun _ _ => rfl⟩
  | succ n ih =>
    intro t
    obtain ⟨h1, h2, h3, h4⟩ := ih
    let u := actAll ((List.range n).flatMap fun pg => (List.range c.chips).flatMap (blockWrites c fb pg)) s
    have ht : t = actAll ((List.range c.chips).flatMap (blockWrites c fb n)) u := by
      simp only [t, u, List.range_succ, List.flatMap_append, List.flatMap_cons, List.flatMap_nil, List.append_nil,
        actAll_append]
    obtain ⟨g1, g2, g3, g4, g5⟩ := actAll_row c fb n c.chips u (h2 ▸ hn) h1
    rw [← ht] at g1 g2 g3 g4 g5
    refine ⟨g1, g2.trans h2, fun pg ch col hpg hr hch hcol => ?_, fun a ha => (g5 a ha).trans (h4 a ha)⟩
    rcases Nat.lt_succ_iff_lt_or_eq.1 hpg with hpg | rfl
    · rw [g4 ch (pg % 8) col hcol (Nat.mod_lt _ (by omega)) (by omega)]
      exact h3 pg ch col hpg (by omega) hch hcol
    · exact g3 ch col hch hcol

/-! ## Writes carried by a transport -/

/-- What a group or a sweep leaves of HOST's state. -/
def State.kept (s : State) :=
  (s.cfg, (s.op, s.disp, s.work, s.err), s.ret, (s.fb, s.fbMods), s.slice, (s.inited, s.gpio), (s.prog, s.callbacks, s.sched))

/-- A relation between states before and after some writes, for a transport that has room for them. -/
structure Carrier (P : List Write → State → State → Prop) (room : Nat → State → Prop) : Prop where
  refl : ∀ s, P [] s s
  append : ∀ {ws ws' s t u}, room (ws.length + ws'.length) s → P ws s t → P ws' t u → P (ws ++ ws') s u
  byte : ∀ {n s c rs cmd} (src : Src), room (n + 1) s → s.selChip = some c → c < s.cfg.chips →
    lcdDecode rs false (src.value s) = .ok cmd →
    ∃ t, Steps (byteSteps s.cfg rs src) s t ∧ P [(c, rs, src.value s)] s t ∧ room n t ∧ t.selChip = s.selChip
      ∧ t.blk = s.blk ∧ t.kept = s.kept
  select : ∀ {n s c}, room n s → c < s.cfg.chips →
    ∃ t, selectChipStep c s = .next t ∧ P [] s t ∧ room n t ∧ t.selChip = some c ∧ t.blk = s.blk ∧ t.kept = s.kept
  position : ∀ {n s} (pg ch col : Nat) (phase : Phase), room n s →
    P [] s (s.atPosition pg ch col phase) ∧ room n (s.atPosition pg ch col phase)
  block : ∀ {n s} (l : List Byte), room n s → P [] s (s.withBlk l) ∧ room n (s.withBlk l)
  unbounded : ∀ {n s}, room n s → s.slice = none
  noControlWord : ∀ {n s}, room n s → s.cfg.transport ≠ .offload
  less : ∀ {n m s}, room n s → m ≤ n → room m s

variable {P : List Write → State → State → Prop} {room : Nat → State → Prop}

/-- The bytes of a group, on a chip that is selected. -/
theorem Carrier.bytes (h : Carrier P room) {n c : Nat} {rs : Bool} (bs : List Byte) {s : State}
    (hr : room (n + bs.length) s) (hsel : s.selChip = some c) (hc : c < s.cfg.chips)
    (hd : ∀ b ∈ bs, ∃ cmd, lcdDecode rs false b = .ok cmd) :
    ∃ t, Steps (bs.flatMap fun b => byteSteps s.cfg rs (.imm b)) s t ∧ P (bs.map fun b => (c, rs, b)) s t ∧ room n t
      ∧ t.selChip = some c ∧ t.blk = s.blk ∧ t.kept = s.kept := by
  induction bs generalizing s with
  | nil => exact ⟨s, .nil s, h.refl s, hr, hsel, rfl, rfl⟩
  | cons b bs ih =>
    obtain ⟨cmd, hb⟩ := hd b (by simp)
    obtain ⟨t, h1, h2, h3, h4, h5, h6⟩ := h.byte (n := n + bs.length) (.imm b) (by simpa [Nat.add_assoc] using hr) hsel hc hb
    have hcfg : t.cfg = s.cfg := congrArg (·.1) h6
    obtain ⟨u, g1, g2, g3, g4, g5, g6⟩ := ih h3 (h4.trans hsel) (hcfg ▸ hc) fun b' hb' => hd b' (by simp [hb'])
    rw [hcfg] at g1
    exact ⟨u, h1.append g1, h.append (ws := [(c, rs, b)]) (h.less hr (by simp; omega)) h2 g2, g3, g4, g5.trans h5, g6.trans h6⟩

/-- The data bytes of a block. -/
theorem Carrier.data (h : Carrier P room) {n pg ch : Nat} (cols : List Nat) {s : State} (hr : room (n + cols.length) s)
    (hsel : s.selChip = some ch) (hc : ch < s.cfg.chips) :
    ∃ t, Steps (cols.flatMap fun col => .position pg ch col .data :: byteSteps s.cfg true (.blk col)) s t
      ∧ P (cols.map fun col => (ch, true, s.blk.getD col 0#8)) s t ∧ room n t ∧ t.selChip = some ch ∧ t.blk = s.blk
      ∧ t.kept = s.kept := by
  induction cols generalizing s with
  | nil => exact ⟨s, .nil s, h.refl s, hr, hsel, rfl, rfl⟩
  | cons col cols ih =>
    obtain ⟨p1, p2⟩ := h.position pg ch col .data hr
    obtain ⟨t, h1, h2, h3, h4, h5, h6⟩ := h.byte (n := n + cols.length) (s := s.atPosition pg ch col .data) (c := ch) (rs := true)
      (cmd := .data (s.blk.getD col 0#8)) (.blk col) (by simpa [Nat.add_assoc] using p2) hsel hc rfl
    have hk : t.kept = s.kept := h6
    have hcfg : t.cfg = s.cfg := congrArg (·.1) hk
    obtain ⟨u, g1, g2, g3, g4, g5, g6⟩ := ih h3 (h4.trans hsel) (hcfg ▸ hc)
    rw [hcfg] at g1
    have hb : t.blk = s.blk := h5
    rw [hb] at g2
    have h2' : P [(ch, true, s.blk.getD col 0#8)] s t :=
      h.append (ws := []) (h.less hr (by simp; omega)) p1 h2
    refine ⟨u, ?_, h.append (ws := [(ch, true, s.blk.getD col 0#8)]) (h.less hr (by simp; omega)) h2' g2, g3, g4,
      g5.trans hb, g6.trans hk⟩
    simp only [List.flatMap_cons, List.cons_append]
    exact .cons (h.unbounded hr) rfl (h1.append g1)

/-- The head of a group: the chip selected if it was not. -/
theorem Carrier.head (h : Carrier P room) {n c : Nat} {rs : Bool} {s : State} (hr : room n s) (hc : c < s.cfg.chips) :
    ∃ t, Steps (groupHead s.cfg c rs) s t ∧ P [] s t ∧ room n t ∧ t.selChip = some c ∧ t.blk = s.blk ∧ t.kept = s.kept := by
  have hgh : groupHead s.cfg c rs = [.groupSelect c] := by
    have := h.noControlWord hr
    unfold groupHead
    split <;> first | rfl | contradiction
  rw [hgh]
  by_cases hs : s.selChip = some c
  · exact ⟨s, .one (h.unbounded hr) (by simp only [micro, hs, if_true]), h.refl s, hr, hs, rfl, rfl⟩
  · obtain ⟨t, h1, h2, h3, h4, h5, h6⟩ := h.select hr hc
    exact ⟨t, .one (h.unbounded hr) (by simp only [micro, if_neg hs, h1]), h2, h3, h4, h5, h6⟩

/-- A group (42_write_protocol.md R217, R218). -/
theorem Carrier.group (h : Carrier P room) {n c : Nat} {rs : Bool} (bs : List Byte) {s : State}
    (hr : room (n + bs.length) s) (hc : c < s.cfg.chips) (hd : ∀ b ∈ bs, ∃ cmd, lcdDecode rs false b = .ok cmd) :
    ∃ t, Steps (groupSteps s.cfg c rs bs) s t ∧ P (bs.map fun b => (c, rs, b)) s t ∧ room n t ∧ t.selChip = some c
      ∧ t.blk = s.blk ∧ t.kept = s.kept := by
  obtain ⟨t, h1, h2, h3, h4, h5, h6⟩ := h.head (rs := rs) hr hc
  have hcfg : t.cfg = s.cfg := congrArg (·.1) h6
  obtain ⟨u, g1, g2, g3, g4, g5, g6⟩ := h.bytes bs h3 h4 (hcfg ▸ hc) hd
  rw [hcfg] at g1
  exact ⟨u, h1.append g1, h.append (ws := []) (h.less hr (by simp)) h2 g2, g3, g4, g5.trans h5, g6.trans h6⟩

/-- A block (R210, R212). -/
theorem Carrier.blockWritten (h : Carrier P room) {n pg ch : Nat} {s : State} (hr : room (n + 66) s) (hc : ch < s.cfg.chips)
    (hm : s.fbMods = []) :
    ∃ t, Steps (blockSteps s.cfg pg ch) s t ∧ P (blockWrites s.cfg s.fb pg ch) s t ∧ room n t ∧ t.kept = s.kept := by
  have hu := h.unbounded hr
  obtain ⟨p1, p2⟩ := h.position pg ch 0 .cmdPage hr
  obtain ⟨s2, a1, a2, a3, a4, -, a6⟩ := h.select p2 (c := ch) hc
  have k2 : s2.kept = s.kept := a6
  have c2 : s2.cfg = s.cfg := congrArg (·.1) k2
  obtain ⟨s3, b1, b2, b3, b4, -, b6⟩ := h.head (c := ch) (rs := false) a3 (c2 ▸ hc)
  have k3 : s3.kept = s.kept := b6.trans k2
  have c3 : s3.cfg = s.cfg := congrArg (·.1) k3
  obtain ⟨s4, d1, d2, d3, d4, -, d6⟩ := h.byte (n := n + 65) (rs := false) (.imm (setPageByte pg)) b3 b4 (c3 ▸ hc)
    (lcdDecode_page pg)
  have k4 : s4.kept = s.kept := d6.trans k3
  have c4 : s4.cfg = s.cfg := congrArg (·.1) k4
  obtain ⟨q1, q2⟩ := h.position pg ch 0 .cmdCol d3
  obtain ⟨s5, e1, e2, e3, e4, -, e6⟩ := h.byte (n := n + 64) (s := s4.atPosition pg ch 0 .cmdCol) (rs := false) (cmd := .column)
    (.imm 0x40#8) q2 (d4.trans b4) (c4 ▸ hc) lcdDecode_column
  have k5 : s5.kept = s.kept := e6.trans k4
  have c5 : s5.cfg = s.cfg := congrArg (·.1) k5
  have m5 : s5.fbMods = [] := (congrArg (·.2.2.2.1.2) k5).trans hm
  have f5 : s5.fb = s.fb := congrArg (·.2.2.2.1.1) k5
  let l := ((List.range 64).map (s.cfg.offset pg ch)).map fun o => s.fb.getD o 0#8
  obtain ⟨y1, y2⟩ := h.position pg ch 0 .data e3
  obtain ⟨r1, r2⟩ := h.block l y2
  obtain ⟨s6, i1, i2, i3, i4, i5, i6⟩ := h.head (s := (s5.atPosition pg ch 0 .data).withBlk l) (c := ch) (rs := true) r2 (c5 ▸ hc)
  have k6 : s6.kept = s.kept := i6.trans k5
  have c6 : s6.cfg = s.cfg := congrArg (·.1) k6
  obtain ⟨s7, j1, j2, j3, j4, -, j6⟩ := h.data (n := n) (pg := pg) (List.range 64) (by simpa using i3) i4 (c6 ▸ hc)
  have k7 : s7.kept = s.kept := j6.trans k6
  obtain ⟨w1, w2⟩ := h.position pg ch 64 .data j3
  have hu2 : s2.slice = none := h.unbounded a3
  have hload : micro (.loadBlock pg ch) (s5.atPosition pg ch 0 .data) =
      .next ((s5.atPosition pg ch 0 .data).withBlk l) := by
    simp only [micro, fbReads_unmodified (s := s5.atPosition pg ch 0 .data) m5, atPosition_cfg, c5, l]
    rw [show (s5.atPosition pg ch 0 .data).fb = s.fb from f5]
  rw [c2] at b1
  rw [c3] at d1
  have e1' : Steps (byteSteps s.cfg false (.imm 0x40#8)) (s4.atPosition pg ch 0 .cmdCol) s5 := by
    rw [atPosition_cfg, c4] at e1
    exact e1
  have i1' : Steps (groupHead s.cfg ch true) ((s5.atPosition pg ch 0 .data).withBlk l) s6 := by
    rw [withBlk_cfg, atPosition_cfg, c5] at i1
    exact i1
  rw [c6] at j1
  have hbl : s6.blk = l := i5
  refine ⟨s7.atPosition pg ch 64 .data, ?_, ?_, w2, k7⟩
  · refine Steps.append (Steps.append (Steps.append (Steps.append (Steps.append (Steps.append (Steps.append (Steps.append
      ?_ b1) d1) ?_) e1') ?_) i1') j1) ?_
    · exact .cons hu rfl (.one hu a1)
    · exact .one (h.unbounded d3) rfl
    · exact .cons (h.unbounded e3) rfl (.one (h.unbounded y2) hload)
    · exact .one (h.unbounded j3) rfl
  · have hl : l.length = 64 := by simp [l]
    have hcols : (List.range 64).map (fun col => ((ch, true, s6.blk.getD col 0#8) : Write)) =
        (List.range 64).map fun col => (ch, true, s.fb.getD (col + 64 * ch + pg * s.cfg.width) 0#8) := by
      apply List.map_congr_left
      intro col hcol
      simp only [hbl, l, List.getD_eq_getElem?_getD, List.getElem?_map, List.getElem?_range (List.mem_range.1 hcol)]
      rfl
    rw [hcols] at j2
    have x1 := h.append (ws := []) (ws' := []) (h.less hr (by simp)) p1 a2
    have x2 := h.append (ws := []) (ws' := []) (h.less hr (by simp)) x1 b2
    have x3 := h.append (ws := []) (h.less hr (by simp)) x2 d2
    have x4 := h.append (ws' := []) (h.less hr (by simp)) x3 q1
    have x5 := h.append (h.less hr (by simp)) x4 e2
    have x5' := h.append (ws' := []) (h.less hr (by simp)) x5 y1
    have x6 := h.append (ws' := []) (h.less hr (by simp)) x5' r1
    have x7 := h.append (ws' := []) (h.less hr (by simp)) x6 i2
    have x8 := h.append (h.less hr (by simp)) x7 j2
    have x9 := h.append (ws' := []) (h.less hr (by simp)) x8 w1
    simpa [blockWrites, setPageByte, Src.value] using x9

theorem blockWrites_length (c : Cfg) (fb : List Byte) (pg ch : Nat) : (blockWrites c fb pg ch).length = 66 := by
  simp [blockWrites]

theorem length_flatMap_const {α β : Type} (f : α → List β) (k : Nat) (l : List α) (h : ∀ a, (f a).length = k) :
    (l.flatMap f).length = k * l.length := by
  induction l with
  | nil => rfl
  | cons a l ih => rw [List.flatMap_cons, List.length_append, ih, h, List.length_cons]; ring

/-- One page. -/
theorem Carrier.row (h : Carrier P room) {n pg : Nat} (chs : List Nat) {s : State} (hr : room (n + 66 * chs.length) s)
    (hc : ∀ ch ∈ chs, ch < s.cfg.chips) (hm : s.fbMods = []) :
    ∃ t, Steps (chs.flatMap (blockSteps s.cfg pg)) s t ∧ P (chs.flatMap (blockWrites s.cfg s.fb pg)) s t ∧ room n t
      ∧ t.kept = s.kept := by
  induction chs generalizing s with
  | nil => exact ⟨s, .nil s, h.refl s, hr, rfl⟩
  | cons ch chs ih =>
    obtain ⟨t, h1, h2, h3, h4⟩ := h.blockWritten (n := n + 66 * chs.length) (pg := pg) (s := s) (h.less hr (by simp; omega)) (hc ch (by simp)) hm
    have hcfg : t.cfg = s.cfg := congrArg (·.1) h4
    have hfb : t.fb = s.fb := congrArg (·.2.2.2.1.1) h4
    obtain ⟨u, g1, g2, g3, g4⟩ := ih h3 (fun ch' hch' => hcfg ▸ hc ch' (by simp [hch'])) ((congrArg (·.2.2.2.1.2) h4).trans hm)
    rw [hcfg] at g1
    rw [hcfg, hfb] at g2
    refine ⟨u, h1.append g1,
      h.append (ws := blockWrites s.cfg s.fb pg ch) (ws' := chs.flatMap (blockWrites s.cfg s.fb pg)) (h.less hr ?_) h2 g2, g3,
      g4.trans h4⟩
    rw [blockWrites_length, length_flatMap_const _ 66 chs fun ch => blockWrites_length s.cfg s.fb pg ch, List.length_cons]
    omega

/-- The number of LCD writes of a sweep (42_write_protocol.md R213). -/
theorem sweepWrites_length (c : Cfg) (fb : List Byte) : (sweepWrites c fb).length = 66 * c.pages * c.chips := by
  unfold sweepWrites
  rw [length_flatMap_const _ (66 * c.chips), List.length_range]
  · ring
  · intro pg
    rw [length_flatMap_const _ 66 _ fun ch => blockWrites_length c fb pg ch, List.length_range]

theorem sweepSteps_eq (c : Cfg) :
    sweepSteps c = (List.range c.pages).flatMap fun pg => (List.range c.chips).flatMap (blockSteps c pg) := by
  simp only [sweepSteps, blocks, List.flatMap_assoc, List.flatMap_map]

/-- The sweep (R212). -/
theorem Carrier.sweep (h : Carrier P room) {n : Nat} {s : State} (hr : room (n + 66 * s.cfg.pages * s.cfg.chips) s)
    (hm : s.fbMods = []) :
    ∃ t, Steps (sweepSteps s.cfg) s t ∧ P (sweepWrites s.cfg s.fb) s t ∧ room n t ∧ t.kept = s.kept := by
  rw [sweepSteps_eq]
  unfold sweepWrites
  have key : ∀ (pgs : List Nat) (s : State), room (n + 66 * s.cfg.chips * pgs.length) s → s.fbMods = [] →
      ∃ t, Steps (pgs.flatMap fun pg => (List.range s.cfg.chips).flatMap (blockSteps s.cfg pg)) s t
        ∧ P (pgs.flatMap fun pg => (List.range s.cfg.chips).flatMap (blockWrites s.cfg s.fb pg)) s t ∧ room n t
        ∧ t.kept = s.kept := by
    intro pgs
    induction pgs with
    | nil => exact fun s hr _ => ⟨s, .nil s, h.refl s, hr, rfl⟩
    | cons pg pgs ih =>
      intro s hr hm
      obtain ⟨t, h1, h2, h3, h4⟩ := h.row (n := n + 66 * s.cfg.chips * pgs.length) (pg := pg) (List.range s.cfg.chips) (s := s)
        (h.less hr (by rw [List.length_range, List.length_cons, Nat.mul_succ]; omega)) (by simp) hm
      have hcfg : t.cfg = s.cfg := congrArg (·.1) h4
      have hfb : t.fb = s.fb := congrArg (·.2.2.2.1.1) h4
      obtain ⟨u, g1, g2, g3, g4⟩ := ih t (hcfg ▸ h3) ((congrArg (·.2.2.2.1.2) h4).trans hm)
      rw [hcfg] at g1
      rw [hcfg, hfb] at g2
      refine ⟨u, h1.append g1,
        h.append (ws := (List.range s.cfg.chips).flatMap (blockWrites s.cfg s.fb pg))
          (ws' := pgs.flatMap fun pg => (List.range s.cfg.chips).flatMap (blockWrites s.cfg s.fb pg)) (h.less hr ?_) h2 g2,
        g3, g4.trans h4⟩
      have hrow : ∀ pg, ((List.range s.cfg.chips).flatMap (blockWrites s.cfg s.fb pg)).length = 66 * s.cfg.chips := fun pg => by
        rw [length_flatMap_const _ 66 _ fun ch => blockWrites_length s.cfg s.fb pg ch, List.length_range]
      rw [hrow, length_flatMap_const _ (66 * s.cfg.chips) pgs hrow, List.length_cons, Nat.mul_succ]
      omega
  exact key (List.range s.cfg.pages) s (by rw [List.length_range]; convert hr using 2; ring) hm

end Sys2Proof.Machine
end

