-- ==== Sys2Proof/Laws/BitBang.lean ====
section
/-! SUPPORT. DIRECT and COOP with every status ready as a carrier of LCD writes. -/

namespace Sys2Proof.Machine

theorem bitBangEvents_append (ws ws' : List Write) (l : List Byte) (h : ws.length ≤ l.length) :
    bitBangEvents (ws ++ ws') l = bitBangEvents ws l ++ bitBangEvents ws' (l.drop ws.length) := by
  induction ws generalizing l with
  | nil => rfl
  | cons w ws ih =>
    cases l with
    | nil => simp at h
    | cons v l =>
      have := ih l (by simpa using h)
      simp only [bitBangEvents, List.cons_append, List.zip_cons_cons, List.flatMap_cons, List.append_assoc, List.length_cons,
        List.drop_succ_cons] at this ⊢
      rw [this]

/-- What writes with every status ready leave: their events, the status bytes after those used, the target, the FSM idle. -/
structure BangWrote (ws : List Write) (s t : State) : Prop where
  trace : t.trace = s.trace ++ bitBangEvents ws s.env.status
  status : t.env.status = s.env.status.drop ws.length
  acted : Acted ws s t
  fsm : t.st = if ws = [] then s.st else .idle

/-- DIRECT or COOP, with `n` ready status bytes to come. -/
structure BangRoom (n : Nat) (s : State) : Prop where
  bang : s.cfg.transport.bitBang = true
  unbounded : s.slice = none
  polls : s.pollsReady n

theorem State.pollsReady.next {s : State} {n : Nat} (h : s.pollsReady (n + 1)) :
    ready (drawStatus s).1 = true ∧ s.env.status ≠ [] ∧ n ≤ s.env.status.tail.length
      ∧ ∀ v ∈ s.env.status.tail.take n, ready v = true := by
  obtain ⟨h1, h2⟩ := h
  rw [drawStatus_eq]
  cases hs : s.env.status with
  | nil =>
    rw [hs] at h1
    simp at h1
  | cons v l =>
    rw [hs] at h1 h2
    simp only [Env.nextStatus, hs, List.headD_cons, List.tail_cons]
    exact ⟨h2 v (by simp), by simp, by simpa using h1, fun w hw => h2 w (by simp [hw])⟩

theorem bangCarrier : Carrier BangWrote BangRoom where
  refl s := ⟨by simp [bitBangEvents], by simp, .nil rfl rfl, by simp⟩
  append := fun {ws ws' s t u} hr h h' => by
    have hl : ws.length ≤ s.env.status.length := (Nat.le_add_right _ _).trans hr.polls.1
    refine ⟨?_, ?_, h.acted.append h'.acted, ?_⟩
    · rw [h'.trace, h.trace, h.status, bitBangEvents_append _ _ _ hl, List.append_assoc]
    · rw [h'.status, h.status, List.drop_drop, List.length_append]
    · rw [h'.fsm, h.fsm]
      cases ws <;> cases ws' <;> simp
  byte := fun {n s c rs cmd} src hr hsel hc hd => by
    obtain ⟨h1, h2, h3, h4⟩ := hr.polls.next
    have hb : byteSteps s.cfg rs src = fsmSteps rs src := by
      have := hr.bang
      unfold byteSteps
      cases ht : s.cfg.transport <;> rw [ht] at this <;> first | rfl | cases this
    refine ⟨lcdWritten c rs (src.value s) cmd s, hb ▸ steps_fsm hr.unbounded hsel hc h1 hd, ?_, ?_, rfl, rfl, rfl⟩
    · refine ⟨?_, ?_, .one (w := (c, rs, src.value s)) hd rfl rfl, by simp [lcdWritten]⟩
      · simp only [lcdWritten, drawStatus_eq, Env.nextStatus]
        obtain ⟨v, l, e⟩ := List.exists_cons_of_ne_nil h2
        simp [e, bitBangEvents]
      · simp [lcdWritten, Env.afterStatus]
    · exact ⟨hr.bang, hr.unbounded, h3, h4⟩
  select := fun {n s c} hr hc => by
    refine ⟨driveCs c (s.select (some c)), ?_, ⟨?_, ?_, .nil rfl rfl, ?_⟩, ⟨hr.bang, hr.unbounded, hr.polls⟩, rfl, rfl, rfl⟩
    · have := hr.bang
      unfold selectChipStep
      rw [if_pos hc]
      cases ht : s.cfg.transport <;> rw [ht] at this <;> first | rfl | cases this
    · simp [bitBangEvents]
    · simp
    · simp
  position := fun {n s} pg ch col phase hr =>
    ⟨⟨by simp [bitBangEvents], by simp, .nil rfl rfl, by simp⟩, ⟨hr.bang, hr.unbounded, hr.polls⟩⟩
  block := fun {n s} l hr =>
    ⟨⟨by simp [bitBangEvents], by simp, .nil rfl rfl, by simp⟩, ⟨hr.bang, hr.unbounded, hr.polls⟩⟩
  unbounded := fun hr => hr.unbounded
  noControlWord := fun {n s} hr ht => by
    have := hr.bang
    rw [ht] at this
    cases this
  less := fun {n m s} hr h =>
    ⟨hr.bang, hr.unbounded, h.trans hr.polls.1, fun v hv => hr.polls.2 v ((List.take_subset_take_left _ h) hv)⟩

end Sys2Proof.Machine
end

