-- ==== Sys2Proof/Laws/Calls.lean ====
section
/-! SUPPORT. How a call begins and ends. -/

namespace Sys2Proof.Machine

theorem ownTransport_of {s : State} (h : s.disp ≠ .atYield) (k : Out) : ownTransport s k = k := if_neg h

theorem afterInit_of {s : State} (h : s.inited = true) (k : Out) : afterInit s k = k := if_pos h

theorem beginOp_eq (o : Op) (s : State) : beginOp o s = { s with op := (beginOp o s).op } := by
  unfold beginOp
  split <;> rfl

theorem opAfter_beginOp (o : Op) (s : State) : (beginOp o s).opAfter = s.opAfter := by
  unfold State.opAfter beginOp
  cases h : s.disp <;> simp [h]

/-- A call begins with a change of `op` alone, which does not matter to `op` after it. -/
theorem beginOp_cases (o : Op) (s : State) :
    ∃ op', beginOp o s = { s with op := op' } ∧ ({ s with op := op' } : State).opAfter = s.opAfter :=
  ⟨_, beginOp_eq o s, (congrArg State.opAfter (beginOp_eq o s)).symm.trans (opAfter_beginOp o s)⟩

/-- A call ends with its result and `op`. -/
theorem endOp_eq (v : RetVal) (s : State) : endOp v s = { s with ret := v, op := s.opAfter } := by
  unfold endOp State.opAfter
  split <;> rename_i h <;> simp [h]

theorem run_ret {s : State} (h : s.slice = none) (r : RetSpec) : run [.ret r] s = .next (endOp (r.value s) s) := by
  rw [run_next h (s' := endOp (r.value s) s) rfl]
  rfl

theorem opAfter_kept {s t : State} (h : t.kept = s.kept) : t.opAfter = s.opAfter := by
  simp only [State.kept, Prod.mk.injEq] at h
  simp [State.opAfter, h]

theorem slice_kept {s t : State} (h : t.kept = s.kept) : t.slice = s.slice := by
  simp only [State.kept, Prod.mk.injEq] at h
  exact h.2.2.2.2.1

theorem bitBang_byteSteps {s : State} (h : s.cfg.transport.bitBang = true) (rs : Bool) (src : Src) :
    byteSteps s.cfg rs src = fsmSteps rs src := by
  unfold byteSteps
  cases ht : s.cfg.transport <;> rw [ht] at h <;> first | rfl | cases h

/-! What a call's checks let through. -/

theorem ownTransport_next {s t : State} {k : Out} (h : ownTransport s k = .next t) : k = .next t := by
  unfold ownTransport at h
  split at h <;> simp_all

theorem afterInit_next {s t : State} {k : Out} (h : afterInit s k = .next t) : k = .next t := by
  unfold afterInit at h
  split at h <;> simp_all

/-- `LcdWrite` on a transport without queues is its byte's steps. -/
theorem execLcdWrite_of {s : State} (h : s.cfg.transport ≠ .offload) (rs : Bool) (b : Byte) :
    execLcdWrite rs b s = ownTransport s (run (byteSteps s.cfg rs (.imm b) ++ [.ret .unit]) (beginOp .lcdWrite s)) := by
  unfold execLcdWrite
  split <;> first | rfl | exact absurd ‹_› h

/-- `LcdWrite` on OFFLOAD, the control word of the selected chip before its byte unless it stands. -/
theorem execLcdWrite_offload {s : State} {c : Nat} (h : s.cfg.transport = .offload) (hs : s.selChip = some c) (rs : Bool) (b : Byte) :
    execLcdWrite rs b s = ownTransport s
      (run (ctlSteps (ctlWord s.cfg.params.ctlMap c rs false) s ++ [.enqData (.imm b), .ret .unit]) (beginOp .lcdWrite s)) := by
  simp only [execLcdWrite, h, hs]

/-- `LcdWrite` runs the steps of its byte, on OFFLOAD behind a control word or with none. -/
theorem execLcdWrite_next {rs : Bool} {b : Byte} {s t : State} (h : execLcdWrite rs b s = .next t) :
    ∃ l, run (l ++ [.ret .unit]) (beginOp .lcdWrite s) = .next t
      ∧ ∀ m ∈ l, m ∈ byteSteps s.cfg rs (.imm b) ∨ s.cfg.transport = .offload ∧ ∃ w, m = .enqCtl w := by
  have h := ownTransport_next h
  split at h
  · exact ⟨_, h, fun _ => .inl⟩
  · exact ⟨_, h, fun _ => .inl⟩
  · exact ⟨_, h, fun _ => .inl⟩
  · rename_i htr
    split at h
    · rename_i c _
      refine ⟨ctlSteps (ctlWord s.cfg.params.ctlMap c rs false) s ++ [.enqData (.imm b)], by simpa using h, fun m hm => ?_⟩
      rcases List.mem_append.1 hm with hm | hm
      · unfold ctlSteps at hm
        split at hm
        · cases hm
        · exact .inr ⟨htr, _, List.mem_singleton.1 hm⟩
      · exact .inl (by simpa [byteSteps, htr] using hm)
    · cases h

theorem ownBus_next {s t : State} {k : Out} (h : ownBus s k = .next t) : k = .next t := by
  unfold ownBus at h
  split at h <;> simp_all

theorem ifSequential_next {a : BitVec 3} {s t : State} {k : Out} (h : ifSequential a s k = .next t) : k = .next t := by
  unfold ifSequential at h
  split at h
  · cases h
  · split at h <;> simp_all

theorem ofExcept_next {r : Except Refusal State} {t : State} (h : Machine.ofExcept r = .next t) : r = .ok t := by
  unfold Machine.ofExcept at h
  split at h <;> simp_all

theorem withPin_next {n : Int} {s t : State} {k : Nat → Out} (h : withPin n s k = .next t) :
    k n.toNat = .next t ∨ ∃ e, t = raise e s := by
  unfold withPin at h
  split at h
  · exact .inl h
  · cases h
    exact .inr ⟨_, rfl⟩

theorem withPins_next {ns : List Int} {s t : State} {k : Out} (h : withPins ns s k = .next t) :
    k = .next t ∨ ∃ e, t = raise e s := by
  unfold withPins at h
  split at h
  · exact .inl h
  · cases h
    exact .inr ⟨_, rfl⟩

theorem withShadow_next {k : Kind} {s t : State} {f : ShKind → Out} (h : withShadow k s f = .next t) :
    (∃ sk, k.shadow = some sk ∧ f sk = .next t) ∨ ∃ e, t = raise e s := by
  unfold withShadow at h
  split at h
  · exact .inl ⟨_, ‹_›, h⟩
  · cases h
    exact .inr ⟨_, rfl⟩

/-- The steps of one byte on DIRECT and COOP, and the head of a group there. -/
theorem byteSteps_bitBang {c : Cfg} (h : c.transport.bitBang = true) (rs : Bool) (src : Src) :
    byteSteps c rs src = fsmSteps rs src := by
  unfold byteSteps
  cases ht : c.transport <;> rw [ht] at h <;> first | rfl | cases h

theorem groupHead_bitBang {c : Cfg} (h : c.transport.bitBang = true) (chip : Nat) (rs : Bool) :
    groupHead c chip rs = [.groupSelect chip] := by
  unfold groupHead
  cases ht : c.transport <;> rw [ht] at h <;> first | rfl | cases h

/-! The expander chip an instance is built on. -/

theorem powerOnAt_iff (s : State) (addr : Nat) : s.powerOnAt addr = true ↔ s.chipFresh addr := by
  have hx : (∀ x, s.addrOf x = addr → (s.exp x).dev = [])
      ↔ (s.addrOf .gpio = addr → s.gpio.dev = []) ∧ (s.addrOf .relay = addr → s.relay.dev = []) :=
    ⟨fun h => ⟨h .gpio, h .relay⟩, fun h x => by cases x; exacts [h.1, h.2]⟩
  simp only [State.powerOnAt, State.chipFresh, hx, Bool.and_eq_true, Bool.or_eq_true, List.isEmpty_iff, bne_iff_ne, and_assoc]
  tauto

theorem leaveChip_leaves {s u : State} {x : ExpId} {addr : Nat} (h : u.idleDevs = s.leaveChip x addr) : LeavesChip x addr s u := by
  unfold State.leaveChip at h
  refine ⟨fun ha => by rw [h, if_pos ha], fun ha hl => ?_, fun a ha => ?_⟩
  · rw [h, if_neg ha]
    simp [List.getD, hl]
  · rw [h]
    split
    · rfl
    · simp [List.getD, Ne.symm ha]

/-- An instance is built on a chip at its power-on values. -/
theorem buildInstance_of {p : ExpParams} {s : State} (h0 : 0 ≤ p.addr) (h8 : p.addr < 8) (hf : s.chipFresh p.addr.toNat) (k : Out) :
    buildInstance p s k = k := by
  rw [buildInstance, if_neg (by omega), if_pos ((powerOnAt_iff _ _).2 hf)]

end Sys2Proof.Machine
end

