-- ==== Sys2Proof/Laws/Words.lean ====
section
/-! SUPPORT. The bits of the words the block builds: two bytes as one 16-bit value, a shadow with one bit set, and the virtual
port's word under an admissible map. -/

namespace Sys2Proof.Machine

/-! ## Two bytes, one bit -/

theorem cat16_bit (h l : Byte) (i : Nat) :
    (cat16 h l).getLsbD i = if i < 8 then l.getLsbD i else h.getLsbD (i - 8) := by
  unfold cat16
  rw [BitVec.getLsbD_append]

theorem lowByte_bit (v : Half) (i : Nat) : (lowByte v).getLsbD i = (decide (i < 8) && v.getLsbD i) := by
  simp [lowByte, BitVec.getLsbD_extractLsb']

theorem highByte_bit (v : Half) (i : Nat) : (highByte v).getLsbD i = (decide (i < 8) && v.getLsbD (8 + i)) := by
  simp [highByte, BitVec.getLsbD_extractLsb']

@[simp] theorem cat16_high_low (v : Half) : cat16 (highByte v) (lowByte v) = v := by
  apply BitVec.eq_of_getLsbD_eq
  intro i hi
  rw [cat16_bit, lowByte_bit, highByte_bit]
  split
  · simp [*]
  · rw [show 8 + (i - 8) = i by omega]
    simp
    omega

@[simp] theorem lowByte_cat16 (h l : Byte) : lowByte (cat16 h l) = l := by
  apply BitVec.eq_of_getLsbD_eq
  intro i hi
  rw [lowByte_bit, cat16_bit, if_pos hi, decide_eq_true hi, Bool.true_and]

@[simp] theorem highByte_cat16 (h l : Byte) : highByte (cat16 h l) = h := by
  apply BitVec.eq_of_getLsbD_eq
  intro i hi
  rw [highByte_bit, cat16_bit, if_neg (by omega), decide_eq_true hi, Bool.true_and, Nat.add_sub_cancel_left]

/-- Setting or clearing a bit leaves the other bits. -/
theorem setBit_other (x : Byte) {i j : Nat} (v : Bool) (h : j ≠ i) : (setBit x i v).getLsbD j = x.getLsbD j := by
  by_cases hj : j < 8
  · unfold setBit
    split <;> simp [hj] <;> omega
  · rw [BitVec.getLsbD_of_ge _ _ (by omega), BitVec.getLsbD_of_ge _ _ (by omega)]

theorem setBit_same (x : Byte) {i : Nat} (v : Bool) (h : i < 8) : (setBit x i v).getLsbD i = v := by
  unfold setBit
  split <;> simp_all

/-! ## The virtual port -/

theorem vbit_bit (i : Nat) (v : Bool) (j : Nat) : (vbit i v).getLsbD j = (decide (j < 16) && v && decide (j = i)) := by
  unfold vbit
  cases v <;> by_cases hj : j < 16 <;> simp [hj]
  by_cases h : j = i
  · subst h
    simp
  · simp [h]
    omega

theorem foldl_or_bit {α : Type} (f : α → Half) (l : List α) (w : Half) (j : Nat) :
    (l.foldl (fun acc a => acc ||| f a) w).getLsbD j = (w.getLsbD j || l.any (fun a => (f a).getLsbD j)) := by
  induction l generalizing w with
  | nil => simp
  | cons a l ih => rw [List.foldl_cons, ih, BitVec.getLsbD_or, List.any_cons, Bool.or_assoc]

theorem foldl_or_bit8 {α : Type} (f : α → Byte) (l : List α) (w : Byte) (j : Nat) :
    (l.foldl (fun acc a => acc ||| f a) w).getLsbD j = (w.getLsbD j || l.any (fun a => (f a).getLsbD j)) := by
  induction l generalizing w with
  | nil => simp
  | cons a l ih => rw [List.foldl_cons, ih, BitVec.getLsbD_or, List.any_cons, Bool.or_assoc]

theorem vbits_bit (is : List Nat) (j : Nat) : (vbits is).getLsbD j = (decide (j < 16) && decide (j ∈ is)) := by
  unfold vbits
  rw [foldl_or_bit (fun i => vbit i true)]
  by_cases hj : j < 16
  · simp only [vbit_bit, hj, decide_true, Bool.true_and, BitVec.getLsbD_zero, Bool.false_or]
    rw [Bool.eq_iff_iff]
    simp
  · simp [vbit_bit, hj]

/-- What an admissible map says (30_encoding.md R137): all signals stand at different bits. -/
structure Distinct (m : VportMap) : Prop where
  lines : m.d.length = 8
  dataNodup : m.d.Nodup
  csNodup : m.cs.Nodup
  dataLt : ∀ i ∈ m.d, i < 16
  csLt : ∀ i ∈ m.cs, i < 16
  eLt : m.e < 16
  rwLt : m.rw < 16
  rsLt : m.rs < 16
  eData : m.e ∉ m.d
  rwData : m.rw ∉ m.d
  rsData : m.rs ∉ m.d
  eCs : m.e ∉ m.cs
  rwCs : m.rw ∉ m.cs
  rsCs : m.rs ∉ m.cs
  dataCs : ∀ i ∈ m.d, i ∉ m.cs
  eRw : m.e ≠ m.rw
  eRs : m.e ≠ m.rs
  rwRs : m.rw ≠ m.rs

theorem distinct_of_ok {m : VportMap} (h : m.ok = true) : Distinct m := by
  simp only [Sys2Proof.VportMap.ok, Bool.and_eq_true, beq_iff_eq, List.all_eq_true, decide_eq_true_eq] at h
  obtain ⟨⟨hl, hlt⟩, hn⟩ := h
  rw [List.nodup_append, List.nodup_append] at hn
  obtain ⟨⟨hd, h3, hd3⟩, hcs, hx⟩ := hn
  simp only [List.nodup_cons, List.mem_cons, List.not_mem_nil, or_false, not_or] at h3
  exact
    { lines := hl, dataNodup := hd, csNodup := hcs
      dataLt := fun i hi => hlt i (by simp [hi])
      csLt := fun i hi => hlt i (by simp [hi])
      eLt := hlt _ (by simp), rwLt := hlt _ (by simp), rsLt := hlt _ (by simp)
      eData := fun hi => hd3 _ hi m.e (by simp) rfl
      rwData := fun hi => hd3 _ hi m.rw (by simp) rfl
      rsData := fun hi => hd3 _ hi m.rs (by simp) rfl
      eCs := fun hi => hx m.e (by simp) _ hi rfl
      rwCs := fun hi => hx m.rw (by simp) _ hi rfl
      rsCs := fun hi => hx m.rs (by simp) _ hi rfl
      dataCs := fun i hi hi' => hx i (by simp [hi]) _ hi' rfl
      eRw := h3.1.1, eRs := h3.1.2, rwRs := h3.2.1 }

/-- A position that is no chip select's is not the one of any chip. -/
theorem ne_csAt {cs : List Nat} {i : Nat} (hi : i < 16) (h : i ∉ cs) (c : Nat) : i ≠ cs.getD c 16 := by
  rintro rfl
  rw [List.getD_eq_getElem?_getD] at h hi
  by_cases hc : c < cs.length
  · rw [List.getElem?_eq_getElem hc, Option.getD_some] at h
    exact h (List.getElem_mem hc)
  · rw [List.getElem?_eq_none (by omega), Option.getD_none] at hi
    omega

theorem getD_of_lt {l : List Nat} {i d : Nat} (h : i < l.length) : l.getD i d = l[i] := by
  rw [List.getD_eq_getElem?_getD, List.getElem?_eq_getElem h, Option.getD_some]

/-- A bit of the data part: that of the byte whose line stands there. -/
theorem vdata_bit (is : List Nat) (d : Byte) (j : Nat) :
    (vdata is d).getLsbD j = (decide (j < 16) && (List.range 8).any fun k => d.getLsbD k && decide (j = is.getD k 16)) := by
  unfold vdata
  rw [foldl_or_bit (fun k => vbit (is.getD k 16) (d.getLsbD k))]
  by_cases hj : j < 16
  · simp only [vbit_bit, hj, decide_true, Bool.true_and, BitVec.getLsbD_zero, Bool.false_or]
  · simp [vbit_bit, hj]

/-- A bit that no data line has is clear in the data part. -/
theorem vdata_bit_other {is : List Nat} (d : Byte) {j : Nat} (hl : is.length = 8) (h : j ∉ is) :
    (vdata is d).getLsbD j = false := by
  rw [vdata_bit]
  simp only [Bool.and_eq_false_iff, decide_eq_false_iff_not, List.any_eq_false, List.mem_range]
  right
  intro k hk
  rw [getD_of_lt (hl ▸ hk)]
  simp only [Bool.and_eq_true, decide_eq_true_eq, not_and]
  rintro - rfl
  exact h (List.getElem_mem _)

/-- The bit at data line `k` is bit `k` of the byte. -/
theorem vdata_bit_line {is : List Nat} (d : Byte) {k : Nat} (hl : is.length = 8) (hn : is.Nodup) (hk : k < 8)
    (h16 : is.getD k 16 < 16) : (vdata is d).getLsbD (is.getD k 16) = d.getLsbD k := by
  rw [vdata_bit, decide_eq_true h16, Bool.true_and, Bool.eq_iff_iff]
  simp only [List.any_eq_true, List.mem_range, Bool.and_eq_true, decide_eq_true_eq]
  constructor
  · rintro ⟨i, hi, hd, e⟩
    rw [getD_of_lt (hl ▸ hk), getD_of_lt (hl ▸ hi)] at e
    have : k = i := hn.getElem_inj_iff.1 e
    exact this ▸ hd
  · exact fun hd => ⟨k, hk, hd, rfl⟩

variable {m : VportMap}

/-! The signals of `vp` at their bits. -/

theorem vp_e (h : Distinct m) (e rw rs : Bool) (c : Nat) (d : Byte) : (vp m e rw rs c d).getLsbD m.e = e := by
  simp only [vp, BitVec.getLsbD_or, vbit_bit, vdata_bit_other d h.lines h.eData, h.eLt, ne_csAt h.eLt h.eCs c, h.eRw, h.eRs, decide_true, decide_false, Bool.true_and,
    Bool.and_true, Bool.and_false, Bool.or_false, Bool.false_or]

theorem vp_rw (h : Distinct m) (e rw rs : Bool) (c : Nat) (d : Byte) : (vp m e rw rs c d).getLsbD m.rw = rw := by
  simp only [vp, BitVec.getLsbD_or, vbit_bit, vdata_bit_other d h.lines h.rwData, h.rwLt, ne_csAt h.rwLt h.rwCs c, h.eRw.symm, h.rwRs, decide_true, decide_false, Bool.true_and,
    Bool.and_true, Bool.and_false, Bool.or_false, Bool.false_or]

theorem vp_rs (h : Distinct m) (e rw rs : Bool) (c : Nat) (d : Byte) : (vp m e rw rs c d).getLsbD m.rs = rs := by
  simp only [vp, BitVec.getLsbD_or, vbit_bit, vdata_bit_other d h.lines h.rsData, h.rsLt, ne_csAt h.rsLt h.rsCs c, h.eRs.symm, h.rwRs.symm, decide_true, decide_false, Bool.true_and,
    Bool.and_true, Bool.and_false, Bool.or_false, Bool.false_or]

/-- Exactly the chip named is selected. -/
theorem vp_cs (h : Distinct m) (e rw rs : Bool) {c k : Nat} (d : Byte) (hc : c < m.cs.length) (hk : k < m.cs.length) :
    (vp m e rw rs c d).getLsbD (m.cs.getD k 16) = decide (k = c) := by
  rw [getD_of_lt hk]
  have hmem : m.cs[k] ∈ m.cs := List.getElem_mem hk
  have h1 : m.cs[k] ∉ m.d := fun hm => h.dataCs _ hm hmem
  have h2 : m.cs[k] ≠ m.e := fun hm => h.eCs (hm ▸ hmem)
  have h3 : m.cs[k] ≠ m.rw := fun hm => h.rwCs (hm ▸ hmem)
  have h4 : m.cs[k] ≠ m.rs := fun hm => h.rsCs (hm ▸ hmem)
  unfold vp
  rw [getD_of_lt hc]
  simp only [BitVec.getLsbD_or, vbit_bit, vdata_bit_other d h.lines h1, h.csLt _ hmem, h2, h3, h4, decide_false, decide_true,
    Bool.and_false, Bool.or_false, Bool.true_and, Bool.false_or]
  rw [Bool.eq_iff_iff]
  simp only [decide_eq_true_eq]
  exact h.csNodup.getElem_inj_iff

theorem vp_data (h : Distinct m) (e rw rs : Bool) (c : Nat) (d : Byte) {k : Nat} (hk : k < 8) :
    (vp m e rw rs c d).getLsbD (m.d.getD k 16) = d.getLsbD k := by
  have hmem : m.d.getD k 16 ∈ m.d := by
    rw [getD_of_lt (h.lines ▸ hk)]
    exact List.getElem_mem _
  have h16 := h.dataLt _ hmem
  have h2 : m.d.getD k 16 ≠ m.e := fun hm => h.eData (hm ▸ hmem)
  have h3 : m.d.getD k 16 ≠ m.rw := fun hm => h.rwData (hm ▸ hmem)
  have h4 : m.d.getD k 16 ≠ m.rs := fun hm => h.rsData (hm ▸ hmem)
  unfold vp
  simp only [BitVec.getLsbD_or, vbit_bit, vdata_bit_line d h.lines h.dataNodup hk h16, h16, h2, h3, h4,
    ne_csAt h16 (h.dataCs _ hmem) c, decide_false, decide_true, Bool.and_false, Bool.or_false]

/-- A bit of the byte on the data pins. -/
theorem vpData_bit (m : VportMap) (v : Half) {j : Nat} (hj : j < 8) :
    (vpData m v).getLsbD j = v.getLsbD (m.d.getD j 16) := by
  unfold vpData
  rw [foldl_or_bit8 (fun k => if v.getLsbD (m.d.getD k 16) then 1#8 <<< k else 0#8), Bool.eq_iff_iff]
  simp only [BitVec.getLsbD_zero, Bool.false_or, List.any_eq_true, List.mem_range]
  constructor
  · rintro ⟨k, hk, hb⟩
    split at hb
    · have : j = k := by
        simp [hj] at hb
        omega
      exact this ▸ ‹_›
    · simp at hb
  · intro hb
    refine ⟨j, hj, ?_⟩
    rw [if_pos hb]
    simp [hj]

/-- The byte on the data pins is the byte sent. -/
theorem vpData_vp (h : Distinct m) (e rw rs : Bool) (c : Nat) (d : Byte) : vpData m (vp m e rw rs c d) = d := by
  apply BitVec.eq_of_getLsbD_eq
  intro j hj
  rw [vpData_bit m _ hj, vp_data h e rw rs c d hj]

/-- `v1` of `relay_byte`: E set, all else as in `v0` (45_spi_relay.md R282). -/
theorem vp_setE (rw rs : Bool) (c : Nat) (d : Byte) :
    vp m true rw rs c d = vp m false rw rs c d ||| 1#16 <<< m.e := by
  have : vbit m.e true = 1#16 <<< m.e := rfl
  have h0 : vbit m.e false = 0#16 := rfl
  unfold vp
  rw [this, h0, BitVec.or_zero]
  ac_rfl

end Sys2Proof.Machine
end

