-- ==== Sys2Proof/Laws/Invariant.lean ====
section
/-! SUPPORT. The invariant: what it reads of a state, and that primitive steps keep it. -/

namespace Sys2Proof.Machine

/-- The part of the state the invariant reads, where no error is pending. -/
def State.invPart (s : State) :=
  (s.cfg, (s.dram, s.idleDevs), (s.gpio.dev, s.gpio.pending, s.gpio.sh.iocon), (s.relay.dev, s.relay.pending, s.relay.sh.iocon),
    s.selChip, s.cs, s.lcd.length, (s.ctlQ, s.dataQ, s.enqCount), s.work, s.suspended, s.disp)

/-- A state that reads the same to the invariant, with no error pending, has it too. -/
theorem State.Inv.congr {s t : State} (h : s.Inv) (he : t.err = none) (hp : t.invPart = s.invPart) : t.Inv := by
  simp only [State.invPart, Prod.mk.injEq] at hp
  obtain ⟨hcfg, ⟨hdram, hidle⟩, ⟨hgd, hgp, hgi⟩, ⟨hrd, hrp, hri⟩, hsel, hcs, hlcd, ⟨hcq, hdq, hn⟩, hw, hsus, hdisp⟩ := hp
  constructor
  · exact hdram ▸ h.dramWf
  · intro x
    cases x
    · exact (congrArg _ hgd).mpr (h.devWf .gpio)
    · exact (congrArg _ hrd).mpr (h.devWf .relay)
  · exact hidle ▸ h.idleWf
  · exact hcfg ▸ h.geometry
  · exact hcfg ▸ h.params
  · exact hsel ▸ hcfg ▸ h.selected
  · have := h.selectLines
    unfold State.selectLinesOk at *
    rw [hcs, hcfg]
    exact this
  · exact hcfg ▸ hlcd.trans h.lcdChips
  · exact hcq ▸ hcfg ▸ h.ctlRoom
  · exact hdq ▸ hcfg ▸ h.dataRoom
  · intro x
    rw [hcfg]
    cases x
    · exact (congrArg List.length hgp).le.trans (h.edgeRoom .gpio)
    · exact (congrArg List.length hrp).le.trans (h.edgeRoom .relay)
  · exact hcq ▸ hn ▸ h.ctlNumbered
  · exact hdq ▸ hn ▸ h.dataNumbered
  · intro x
    cases x
    · exact (congrArg (BitVec.getLsbD · 7) hgi).trans (h.bank .gpio)
    · exact (congrArg (BitVec.getLsbD · 7) hri).trans (h.bank .relay)
  · exact hw ▸ h.bankWork
  · exact hsus ▸ hdisp ▸ hcfg ▸ h.coopOnly
  · intro hs
    rw [he] at hs
    cases hs

theorem Drawn.inv {s t : State} (h : Drawn s t) (hs : s.Inv) (he : s.err = none) : t.Inv ∧ t.err = none := by
  obtain ⟨env, n, rfl⟩ := h
  exact ⟨hs.congr he rfl, he⟩

/-- Taking an error leads from a state with the invariant to one with it. -/
theorem raise_inv {s : State} (h : s.Inv) (e : Fault) : (raise e s).Inv where
  dramWf := h.dramWf
  devWf := fun x => by simpa using h.devWf x
  idleWf := h.idleWf
  geometry := h.geometry
  params := h.params
  selected := h.selected
  selectLines := h.selectLines
  lcdChips := h.lcdChips
  ctlRoom := h.ctlRoom
  dataRoom := h.dataRoom
  edgeRoom := fun x => by simpa using h.edgeRoom x
  ctlNumbered := h.ctlNumbered
  dataNumbered := h.dataNumbered
  bank := fun x => by simpa using h.bank x
  bankWork := by simp [raise]
  coopOnly := by simp [raise]
  errorEnds := fun _ => ⟨rfl, rfl, rfl, rfl, rfl⟩

/-- Steps of the class left to be made. -/
theorem leave_inv {s : State} (h : s.Inv) (he : s.err = none) {w : List Micro} (hw : ∀ m ∈ w, m.bankClear = true) :
    (s.leave w).Inv :=
  { h with
    devWf := fun x => by simpa using h.devWf x
    edgeRoom := fun x => by simpa using h.edgeRoom x
    bank := fun x => by simpa using h.bank x
    bankWork := fun m hm => (List.mem_append.1 hm).elim (hw m) (h.bankWork m)
    errorEnds := fun hs => by
      rw [leave_err, he] at hs
      cases hs }

/-- An LCD chip's response. -/
theorem lcdRespond_inv {s : State} (h : s.Inv) (he : s.err = none) (c : Nat) (cmd : LcdCmd) :
    (lcdRespond c cmd s).Inv ∧ (lcdRespond c cmd s).err = none := by
  obtain ⟨k, m, e, hm⟩ := lcdRespond_cases c cmd s
  rw [e]
  have hwf : Mem.wf dramDefault m := by
    rcases hm with rfl | ⟨b, -, rfl⟩
    · exact h.dramWf
    · exact Mem.write_wf h.dramWf _ _
  refine ⟨{ h with dramWf := hwf, devWf := ?_, lcdChips := ?_, edgeRoom := ?_, bank := ?_, errorEnds := ?_ }, he⟩
  · exact fun x => by cases x <;> first | exact h.devWf .gpio | exact h.devWf .relay
  · simpa using h.lcdChips
  · exact fun x => by cases x <;> first | exact h.edgeRoom .gpio | exact h.edgeRoom .relay
  · exact fun x => by cases x <;> first | exact h.bank .gpio | exact h.bank .relay
  · intro hs
    rw [show s.err = none from he] at hs
    cases hs

/-- An instance replaced by one whose chip, queue and IOCON shadow are as the invariant wants them. -/
theorem setExp_inv {s : State} (h : s.Inv) (he : s.err = none) {x : ExpId} {e : Expander} (hd : Mem.wf devDefault e.dev)
    (hp : e.pending.length ≤ (s.cfg.exp x).irqQueueDepth) (hb : e.sh.iocon.getLsbD 7 = false) :
    (s.setExp x e).Inv ∧ (s.setExp x e).err = none := by
  refine ⟨?_, by simpa using he⟩
  have hall : ∀ y, (s.setExp x e).exp y = e ∨ (s.setExp x e).exp y = s.exp y := fun y => by
    by_cases hy : y = x
    · exact .inl (hy ▸ setExp_exp_same s x e)
    · exact .inr (setExp_exp_other s e hy)
  constructor
  · simpa using h.dramWf
  · exact fun y => (hall y).elim (fun e' => by rwa [e']) fun e' => by rw [e']; exact h.devWf y
  · simpa using h.idleWf
  · simpa using h.geometry
  · simpa using h.params
  · simpa using h.selected
  · simpa [State.selectLinesOk] using h.selectLines
  · simpa using h.lcdChips
  · simpa using h.ctlRoom
  · simpa using h.dataRoom
  · exact fun y => by
      rw [setExp_cfg]
      by_cases hy : y = x
      · subst hy
        rwa [setExp_exp_same]
      · rw [setExp_exp_other s e hy]
        exact h.edgeRoom y
  · simpa using h.ctlNumbered
  · simpa using h.dataNumbered
  · exact fun y => (hall y).elim (fun e' => by rwa [e']) fun e' => by rw [e']; exact h.bank y
  · simpa using h.bankWork
  · simpa using h.coopOnly
  · intro hs
    rw [setExp_err, he] at hs
    cases hs

/-- An instance whose chip, queue and IOCON shadow stay. -/
theorem setExp_same_inv {s : State} (h : s.Inv) (he : s.err = none) {x : ExpId} {e : Expander} (hd : e.dev = (s.exp x).dev)
    (hp : e.pending = (s.exp x).pending) (hb : e.sh.iocon = (s.exp x).sh.iocon) :
    (s.setExp x e).Inv ∧ (s.setExp x e).err = none :=
  setExp_inv h he (hd ▸ h.devWf x) (hp ▸ h.edgeRoom x) (hb ▸ h.bank x)

theorem devLand_inv {x : ExpId} {reg : Byte} {vs : List (Byte × Bool)} {s t : State} (h : s.Inv) (he : s.err = none)
    (ht : devLand x reg vs s = .ok t) : t.Inv ∧ t.err = none := by
  have h1 := setExp_inv (x := x) (e := { s.exp x with dev := devStore (s.exp x).dev reg.toNat vs }) h he
    (devStore_wf (h.devWf x) _ _) (h.edgeRoom x) (h.bank x)
  rcases devLand_ok ht with rfl | ⟨c, cmd, -, -, rfl⟩
  · exact h1
  · exact lcdRespond_inv h1.1 h1.2 c cmd

/-- Where a step of HOST's may lead: the invariant with no error pending, or, in an error, the invariant. -/
abbrev InvNoErr (s : State) : Prop := s.Inv ∧ s.err = none

theorem InvNoErr.event {s : State} (h : InvNoErr s) (ev : Event) : InvNoErr (s.event ev) :=
  ⟨h.1.congr h.2 rfl, h.2⟩

theorem frameWrite_inv {x : ExpId} {cmd reg : Byte} {data : List Byte} {s : State} (h : InvNoErr s) :
    (frameWrite x cmd reg data s).keeps InvNoErr State.Inv (fun m => m.bankClear = true) := by
  have h0 : InvNoErr { s with openFrame := none } := ⟨h.1.congr h.2 rfl, h.2⟩
  rcases frameWrite_cases x cmd reg data s with ⟨s1, t, hd, hl, e⟩ | ⟨s1, t, vs, hd, hl, -, e⟩ | ⟨r, e⟩ <;> rw [e]
  · have h1 := hd.inv h0.1 h0.2
    exact (show InvNoErr t from devLand_inv h1.1 h1.2 hl).event _
  · have h1 := hd.inv h0.1 h0.2
    exact raise_inv ((show InvNoErr t from devLand_inv h1.1 h1.2 hl).event _).1 _
  · trivial

theorem frameRead_inv {x : ExpId} {cmd reg : Byte} {given : Option (List Byte)} {n : Nat} {s : State} (h : InvNoErr s) :
    (frameRead x cmd reg given n s).keeps InvNoErr State.Inv (fun m => m.bankClear = true) := by
  have h0 : InvNoErr { s with openFrame := none } := ⟨h.1.congr h.2 rfl, h.2⟩
  rcases frameRead_cases x cmd reg given n s with ⟨s1, l, hd, e⟩ | ⟨s1, hd, e⟩ | ⟨r, e⟩ <;> rw [e]
  · have h1 := hd.inv h0.1 h0.2
    exact InvNoErr.event (setExp_same_inv (x := x) (e := { s1.exp x with rx := (s1.exp x).rx ++ l }) h1.1 h1.2 rfl rfl rfl) _
  · exact raise_inv ((show InvNoErr s1 from hd.inv h0.1 h0.2).event _).1 _
  · trivial

theorem driveCs_inv {s : State} (h : InvNoErr s) {c : Nat} (hc : c < s.cfg.chips) : InvNoErr (driveCs c s) :=
  ⟨{ h.1 with
      selectLines := .inr ⟨c, hc, rfl⟩
      devWf := fun x => by cases x <;> first | exact h.1.devWf .gpio | exact h.1.devWf .relay
      edgeRoom := fun x => by cases x <;> first | exact h.1.edgeRoom .gpio | exact h.1.edgeRoom .relay
      bank := fun x => by cases x <;> first | exact h.1.bank .gpio | exact h.1.bank .relay },
    h.2⟩

theorem selectChipStep_inv {s : State} (h : InvNoErr s) (c : Nat) :
    (selectChipStep c s).keeps InvNoErr State.Inv (fun m => m.bankClear = true) := by
  have hsel : ∀ t : State, t = { s with selChip := some c, vport := t.vport } → c < s.cfg.chips → InvNoErr t := by
    intro t e hc
    rw [e]
    exact ⟨{ h.1 with
      selected := fun c' hc' => by
        cases hc'
        exact hc
      devWf := fun x => by cases x <;> first | exact h.1.devWf .gpio | exact h.1.devWf .relay
      edgeRoom := fun x => by cases x <;> first | exact h.1.edgeRoom .gpio | exact h.1.edgeRoom .relay
      bank := fun x => by cases x <;> first | exact h.1.bank .gpio | exact h.1.bank .relay }, h.2⟩
  unfold selectChipStep
  split
  · rename_i hc
    split
    · exact driveCs_inv (hsel _ rfl hc) hc
    · exact driveCs_inv (hsel _ rfl hc) hc
    · exact hsel _ rfl hc
    · exact hsel _ rfl hc
  · exact raise_inv h.1 _

theorem pollStep_inv {s : State} (h : InvNoErr s) :
    (pollStep s).keeps InvNoErr State.Inv (fun m => m.bankClear = true) := by
  have hsus : ∀ b : Bool, (b = true → s.cfg.transport = .coop) → ∀ t : State, t = { s with suspended := b, st := t.st } →
      InvNoErr t := by
    intro b hb t e
    rw [e]
    exact ⟨{ h.1 with
      devWf := fun x => by cases x <;> first | exact h.1.devWf .gpio | exact h.1.devWf .relay
      edgeRoom := fun x => by cases x <;> first | exact h.1.edgeRoom .gpio | exact h.1.edgeRoom .relay
      bank := fun x => by cases x <;> first | exact h.1.bank .gpio | exact h.1.bank .relay
      coopOnly := fun hs => hs.elim hb fun hs => h.1.coopOnly (.inr hs)
      errorEnds := fun hs => by
        rw [show s.err = none from h.2] at hs
        cases hs }, h.2⟩
  unfold pollStep
  obtain ⟨env, n, hd⟩ := drawStatus_drawn ((s.inFsm .pollBusy).suspend false)
  simp only [hd]
  split
  · have h1 := hsus false (by simp) ((s.inFsm .pollBusy).suspend false) rfl
    exact ⟨h1.1.congr h1.2 rfl, h1.2⟩
  · have h1 := hsus (s.cfg.transport == .coop) (by simp) ((s.inFsm .pollBusy).suspend (s.cfg.transport == .coop)) rfl
    exact ⟨h1.1.congr h1.2 rfl, h1.2⟩

/-- A word with the next number goes to the end of its queue. -/
theorem numbered_append {α : Type} {q : List (Nat × α)} {n : Nat} (h : numbered q n) (w : α) :
    numbered (q ++ [(n, w)]) (n + 1) := by
  refine ⟨List.pairwise_append.2 ⟨h.1, by simp, fun a ha b hb => ?_⟩, fun a ha => ?_⟩
  · rw [List.mem_singleton.1 hb]
    exact h.2 a ha
  · rcases List.mem_append.1 ha with ha | ha
    · exact Nat.lt_succ_of_lt (h.2 a ha)
    · rw [List.mem_singleton.1 ha]
      exact Nat.lt_succ_self n

theorem numbered_succ {α : Type} {q : List (Nat × α)} {n : Nat} (h : numbered q n) : numbered q (n + 1) :=
  ⟨h.1, fun a ha => Nat.lt_succ_of_lt (h.2 a ha)⟩

theorem numbered_tail {α : Type} {a : Nat × α} {q : List (Nat × α)} {n : Nat} (h : numbered (a :: q) n) : numbered q n :=
  ⟨h.1.of_cons, fun b hb => h.2 b (by simp [hb])⟩

theorem enqueueCtl_inv {s : State} (h : InvNoErr s) (w : Nibble) :
    (enqueueCtl w s).keeps InvNoErr State.Inv (fun m => m.bankClear = true) := by
  unfold enqueueCtl
  split
  · rename_i hr
    refine InvNoErr.event (s := { s with ctlQ := s.ctlQ ++ [(s.enqCount, w)], enqCount := s.enqCount + 1 }) ⟨{ h.1 with
      ctlRoom := by simpa using hr
      ctlNumbered := numbered_append h.1.ctlNumbered w
      dataNumbered := numbered_succ h.1.dataNumbered
      devWf := fun x => by cases x <;> first | exact h.1.devWf .gpio | exact h.1.devWf .relay
      edgeRoom := fun x => by cases x <;> first | exact h.1.edgeRoom .gpio | exact h.1.edgeRoom .relay
      bank := fun x => by cases x <;> first | exact h.1.bank .gpio | exact h.1.bank .relay }, h.2⟩ _
  · exact h

theorem enqueueData_inv {s : State} (h : InvNoErr s) (b : Byte) :
    (enqueueData b s).keeps InvNoErr State.Inv (fun m => m.bankClear = true) := by
  unfold enqueueData
  split
  · rename_i hr
    refine InvNoErr.event (s := { s with dataQ := s.dataQ ++ [(s.enqCount, b)], enqCount := s.enqCount + 1 }) ⟨{ h.1 with
      dataRoom := by simpa using hr
      dataNumbered := numbered_append h.1.dataNumbered b
      ctlNumbered := numbered_succ h.1.ctlNumbered
      devWf := fun x => by cases x <;> first | exact h.1.devWf .gpio | exact h.1.devWf .relay
      edgeRoom := fun x => by cases x <;> first | exact h.1.edgeRoom .gpio | exact h.1.edgeRoom .relay
      bank := fun x => by cases x <;> first | exact h.1.bank .gpio | exact h.1.bank .relay }, h.2⟩ _
  · exact h

theorem setShadow_inv {s : State} (h : InvNoErr s) (x : ExpId) (k : ShKind) (p : Port) (v : Byte)
    (hb : k = .iocon → v.getLsbD 7 = false) : InvNoErr (s.setShadow x k p v) := by
  refine setExp_inv h.1 h.2 (h.1.devWf x) (h.1.edgeRoom x) ?_
  cases k <;> first | exact hb rfl | exact h.1.bank x

theorem olatBegin_inv {s : State} (h : InvNoErr s) (x : ExpId) (v : Half) : InvNoErr (olatBegin x v s) := by
  have h1 := setExp_same_inv (x := x)
    (e := { s.exp x with sh := { (s.exp x).sh with olat := { a := lowByte v, b := highByte v } } }) h.1 h.2 rfl rfl rfl
  unfold olatBegin
  cases x <;> exact ⟨h1.1.congr h1.2 rfl, h1.2⟩

theorem strobeLines_inv {s : State} (h : InvNoErr s) :
    (MRes.ofExcept (strobeLines s)).keeps InvNoErr State.Inv (fun m => m.bankClear = true) := by
  unfold strobeLines
  simp only
  split
  · rename_i s' hs
    obtain ⟨c, cmd, -, -, rfl⟩ := lcdCycle_ok hs
    have h1 := lcdRespond_inv h.1 h.2 c cmd
    exact ⟨h1.1.congr h1.2 rfl, h1.2⟩
  · trivial

theorem reportPins_inv {s : State} (h : InvNoErr s) (x : ExpId) (pins : List (Nat × Bool)) :
    (reportPins x pins s).keeps InvNoErr State.Inv (fun m => m.bankClear = true) := by
  rcases reportPins_cases x pins s with hr | ⟨pin, value, later, hr⟩
  · rw [hr]
    exact h
  · rw [hr]
    refine ⟨h, fun m hm => ?_⟩
    rcases List.mem_append.1 hm with hm | hm
    · obtain ⟨sub, -, rfl⟩ := List.mem_map.1 hm
      rfl
    · obtain rfl := List.mem_singleton.1 hm
      rfl

/-- The invariant is kept by every primitive step that may be left to be made. -/
theorem micro_inv (m : Micro) (s : State) (hm : m.bankClear = true) (h : InvNoErr s) :
    (micro m s).keeps InvNoErr State.Inv (fun m => m.bankClear = true) := by
  have same : ∀ t : State, t.err = none → t.invPart = s.invPart → InvNoErr t := fun t he hp => ⟨h.1.congr he hp, he⟩
  cases m with
  | selectChip c => exact selectChipStep_inv h c
  | groupSelect c =>
    simp only [micro]
    split
    · exact h
    · exact selectChipStep_inv h c
  | fsmSelect =>
    simp only [micro]
    split
    · exact driveCs_inv (same { s with st := .selectChip } h.2 rfl) (h.1.selected _ ‹_›)
    · trivial
  | fsmReadDir => exact same _ h.2 rfl
  | fsmPoll => exact pollStep_inv h
  | fsmWriteDir rs src => exact same _ h.2 rfl
  | fsmStrobe =>
    exact strobeLines_inv (same { s with st := .strobe } h.2 rfl)
  | fsmIdle => exact same _ h.2 rfl
  | enqCtl w => exact enqueueCtl_inv h w
  | enqData src => exact enqueueData_inv h _
  | vportBegin v =>
    simp only [micro]
    split
    · exact olatBegin_inv (h.event _) _ _
    · trivial
  | olatBegin x v => exact olatBegin_inv h x v
  | olatFrameA x =>
    simp only [micro]
    split <;> exact frameWrite_inv h
  | olatFrameB x =>
    simp only [micro]
    split
    · exact h
    · exact frameWrite_inv h
  | txnBegin => exact same _ h.2 rfl
  | txnEnd => exact same _ h.2 rfl
  | shadowBit x k p i v =>
    refine setShadow_inv h x k p _ ?_
    rintro rfl
    by_cases hi : (7 : Nat) = i
    · subst hi
      have : v = false := by simpa [Micro.bankClear] using hm
      subst this
      exact setBit_same _ _ (by omega)
    · exact (setBit_other _ _ hi).trans (h.1.bank x)
  | shadowSet x k p v =>
    refine setShadow_inv h x k p v ?_
    rintro rfl
    simpa [Micro.bankClear] using hm
  | regFrame x k p => exact frameWrite_inv h
  | gpioFrameA x =>
    have h1 : InvNoErr (s.setExp x { s.exp x with rx := [] }) := setExp_same_inv h.1 h.2 rfl rfl rfl
    simp only [micro]
    split <;> exact frameRead_inv h1
  | gpioFrameB x =>
    simp only [micro]
    split
    · exact h
    · exact frameRead_inv h
  | gpioEnd x =>
    have h1 : InvNoErr (s.setExp x { s.exp x with
        snap := cat16 ((s.exp x).rx.getD 1 0#8) ((s.exp x).rx.getD 0 0#8) }) := setExp_same_inv h.1 h.2 rfl rfl rfl
    exact ⟨h1.1.congr h1.2 rfl, h1.2⟩
  | wordWrite x cmd reg data => exact frameWrite_inv h
  | wordRead x cmd reg data =>
    have h1 : InvNoErr (s.setExp x { s.exp x with rx := [] }) := setExp_same_inv h.1 h.2 rfl rfl rfl
    simp only [micro]
    exact frameRead_inv h1
  | position pg ch col phase => exact same _ h.2 rfl
  | loadBlock pg ch =>
    obtain ⟨env, n, hd⟩ := fbReads_drawn ((List.range 64).map (s.cfg.offset pg ch)) s
    simp only [micro, hd]
    exact same _ h.2 rfl
  | bitBangSetup =>
    exact ⟨{ h.1 with
      selected := fun c hc => by cases hc
      selectLines := .inl rfl
      devWf := fun x => by cases x <;> first | exact h.1.devWf .gpio | exact h.1.devWf .relay
      edgeRoom := fun x => by cases x <;> first | exact h.1.edgeRoom .gpio | exact h.1.edgeRoom .relay
      bank := fun x => by cases x <;> first | exact h.1.bank .gpio | exact h.1.bank .relay }, h.2⟩
  | selectNone =>
    exact ⟨{ h.1 with
      selected := fun c hc => by cases hc
      devWf := fun x => by cases x <;> first | exact h.1.devWf .gpio | exact h.1.devWf .relay
      edgeRoom := fun x => by cases x <;> first | exact h.1.edgeRoom .gpio | exact h.1.edgeRoom .relay
      bank := fun x => by cases x <;> first | exact h.1.bank .gpio | exact h.1.bank .relay }, h.2⟩
  | setInited => exact same _ h.2 rfl
  | ret r =>
    simp only [micro, endOp]
    split <;> exact same _ h.2 rfl
  | dispatchScan x prev =>
    exact reportPins_inv h x _
  | dispatchPins x pins => exact reportPins_inv h x _
  | dispatchEnd resume =>
    exact ⟨{ h.1 with
      coopOnly := fun hs => hs.elim (fun hs => h.1.coopOnly (.inr (by simpa [returnDispatch] using hs)))
        (fun hs => by cases hs)
      devWf := fun x => by cases x <;> first | exact h.1.devWf .gpio | exact h.1.devWf .relay
      edgeRoom := fun x => by cases x <;> first | exact h.1.edgeRoom .gpio | exact h.1.edgeRoom .relay
      bank := fun x => by cases x <;> first | exact h.1.bank .gpio | exact h.1.bank .relay
      errorEnds := fun hs => by
        rw [show (returnDispatch resume s).err = none from h.2] at hs
        cases hs }, h.2⟩
  | callback pin value cb =>
    refine ⟨h.event _, fun m hm => ?_⟩
    obtain ⟨act, -, rfl⟩ := List.mem_map.1 hm
    cases act <;> rfl
  | nested it => exact h
  | callbackRaise code => exact raise_inv h.1 _
  | fbStore off b => exact same _ h.2 rfl

/-- The invariant is kept by every run of such steps. -/
theorem run_inv {ms : List Micro} {s t : State} (hms : ∀ m ∈ ms, m.bankClear = true) (hs : InvNoErr s)
    (h : run ms s = .next t) : t.Inv :=
  run_keeps (P := InvNoErr) (R := State.Inv) (Q := fun m => m.bankClear = true)
    (fun _ h => ⟨h.1.congr h.2 rfl, h.2⟩) (fun _ _ h hw => leave_inv h.1 h.2 hw) (fun _ h => h.1)
    (fun m s hm h => micro_inv m s hm h) hms hs h

end Sys2Proof.Machine
end

