-- ==== Sys2Proof/Laws/Serial.lean ====
section
/-! SUPPORT. Shadows, frames that complete, and the sequences of steps the expander operations are made of. -/

namespace Sys2Proof.Machine

/-! ## Shadows -/

@[simp] theorem Pair.get_set_same (r : Pair) (p : Port) (v : Byte) : (r.set p v).get p = v := by cases p <;> rfl

theorem Pair.get_set_other (r : Pair) {p q : Port} (v : Byte) (h : q ≠ p) : (r.set p v).get q = r.get q := by
  cases p <;> cases q <;> first | rfl | exact absurd rfl h

@[simp] theorem RegFile.get_set_same (f : RegFile) (k : ShKind) (p : Port) (v : Byte) : (f.set k p v).get k p = v := by
  cases k <;> first | rfl | exact Pair.get_set_same _ p v

/-- Registers are different where their addresses are (30_encoding.md R134). -/
theorem regAddr_eq_iff (k k' : ShKind) (p p' : Port) :
    regAddr k p = regAddr k' p' ↔ k = k' ∧ (p = p' ∨ k = .iocon) := by
  cases k <;> cases k' <;> cases p <;> cases p' <;> decide

theorem RegFile.get_set_other (f : RegFile) {k k' : ShKind} {p p' : Port} (v : Byte) (h : regAddr k' p' ≠ regAddr k p) :
    (f.set k p v).get k' p' = f.get k' p' := by
  rw [Ne, regAddr_eq_iff] at h
  cases k <;> cases k' <;> first
    | rfl
    | exact absurd ⟨rfl, .inr rfl⟩ h
    | exact Pair.get_set_other _ v (by simpa using h)

/-- The addresses of the shadowed registers are named ones. -/
theorem regAddr_named (k : ShKind) (p : Port) : namedRegister (regAddr k p).toNat = true := by
  cases k <;> cases p <;> decide

@[simp] theorem setShadow_exp_same (s : State) (x : ExpId) (k : ShKind) (p : Port) (v : Byte) :
    (s.setShadow x k p v).exp x = { s.exp x with sh := (s.exp x).sh.set k p v } := by
  simp [State.setShadow]

theorem setShadow_exp_other (s : State) {x y : ExpId} (k : ShKind) (p : Port) (v : Byte) (h : y ≠ x) :
    (s.setShadow x k p v).exp y = s.exp y := setExp_exp_other s _ h

/-- An instance replaced twice is replaced once. -/
@[simp] theorem setExp_setExp (s : State) (x : ExpId) (e f : Expander) : (s.setExp x e).setExp x f = s.setExp x f := by
  cases x <;> rfl

/-- An instance replaced by itself. -/
theorem setExp_self (s : State) (x : ExpId) : s.setExp x (s.exp x) = s := by cases x <;> rfl

/-- A shadow updated to what it is. -/
theorem setShadow_self (s : State) (x : ExpId) (k : ShKind) (p : Port) : s.setShadow x k p ((s.exp x).sh.get k p) = s := by
  have : (s.exp x).sh.set k p ((s.exp x).sh.get k p) = (s.exp x).sh := by cases k <;> cases p <;> rfl
  rw [State.setShadow, this]
  exact setExp_self s x

/-! ## Frames that complete -/

/-- A write frame's bytes in the chip of an instance, the bus free after it. -/
def landed (x : ExpId) (reg : Byte) (data : List Byte) (s : State) : State :=
  s.closeFrame.setExp x { s.exp x with dev := devStore (s.exp x).dev reg.toNat (data.map fun b => (b, true)) }

/-- The LCD behind a relay sees no falling edge of E when these bytes land. -/
def State.quietLanding (s : State) (x : ExpId) (reg : Byte) (data : List Byte) : Prop :=
  x = .relay → s.cfg.transport = .spiRelay → s.relayPins.getLsbD s.cfg.params.vportMap.e = true →
    (landed x reg data s).relayPins.getLsbD s.cfg.params.vportMap.e = true

/-- A write frame on a free bus that makes no E fall stores its bytes, and its event is recorded. -/
theorem frameWrite_landed {x : ExpId} {cmd reg : Byte} {data : List Byte} {s : State} (hf : s.env.frameFails = [])
    (ho : frameMayBegin cmd s = true) (hq : s.quietLanding x reg data) :
    frameWrite x cmd reg data s = .next ((landed x reg data s).event (.frameW cmd reg data)) := by
  refine frameWrite_next hf ho ?_
  cases x with
  | gpio => rfl
  | relay =>
    show relayLatch _ _ = _
    unfold relayLatch
    simp only
    rw [if_neg]
    · rfl
    · rintro ⟨ht, h1, h2⟩
      have := hq rfl ht h1
      simp [landed] at this h2
      exact absurd (this.symm.trans h2) (by simp)

theorem quietLanding_gpio (s : State) (reg : Byte) (data : List Byte) : s.quietLanding .gpio reg data :=
  fun h => by cases h

/-- Where E is low no landing makes it fall. -/
theorem quietLanding_of_eLow {s : State} {x : ExpId} (h : s.eLow x) (reg : Byte) (data : List Byte) :
    s.quietLanding x reg data := fun hx ht he => by
  rw [h hx ht] at he
  cases he

@[simp] theorem landed_cfg (x : ExpId) (reg : Byte) (data : List Byte) (s : State) : (landed x reg data s).cfg = s.cfg := by
  simp [landed]

@[simp] theorem landed_lcd (x : ExpId) (reg : Byte) (data : List Byte) (s : State) : (landed x reg data s).lcd = s.lcd := by
  simp [landed]

@[simp] theorem landed_dram (x : ExpId) (reg : Byte) (data : List Byte) (s : State) : (landed x reg data s).dram = s.dram := by
  simp [landed]

@[simp] theorem landed_trace (x : ExpId) (reg : Byte) (data : List Byte) (s : State) :
    (landed x reg data s).trace = s.trace := by
  simp [landed]

@[simp] theorem landed_slice (x : ExpId) (reg : Byte) (data : List Byte) (s : State) :
    (landed x reg data s).slice = s.slice := by
  simp [landed]

theorem landed_exp_same (x : ExpId) (reg : Byte) (data : List Byte) (s : State) :
    (landed x reg data s).exp x =
      { s.exp x with dev := devStore (s.exp x).dev reg.toNat (data.map fun b => (b, true)) } := by
  cases x <;> rfl

theorem landed_exp_other {x y : ExpId} (reg : Byte) (data : List Byte) (s : State) (h : y ≠ x) :
    (landed x reg data s).exp y = s.exp y := by
  cases x <;> cases y <;> first | rfl | exact absurd rfl h

/-- No shadowed register stands at a GPIO address. -/
theorem regAddr_plain (k : ShKind) (p : Port) : (regAddr k p).toNat + 1 ≤ 0x12 ∨ 0x14 ≤ (regAddr k p).toNat := by
  cases k <;> cases p <;> decide

/-- A frame that addresses neither OLAT nor GPIO moves no pin. -/
theorem landed_relayPins {reg : Byte} {data : List Byte} {s : State} (hw : Mem.wf devDefault s.relay.dev)
    (h : 0x15 < reg.toNat ∨ reg.toNat + data.length ≤ 0x12) : (landed .relay reg data s).relayPins = s.relayPins := by
  have e : (landed .relay reg data s).relay =
      { s.relay with dev := devStore s.relay.dev reg.toNat (data.map fun b => (b, true)) } := rfl
  unfold State.relayPins Expander.devRead
  rw [e, read_devStore_outside hw _ (by simp; omega) (by simp; omega),
    read_devStore_outside hw _ (by simp; omega) (by simp; omega)]

theorem quietLanding_of_notOlat {s : State} {x : ExpId} {reg : Byte} {data : List Byte}
    (hw : Mem.wf devDefault (s.exp x).dev) (h : 0x15 < reg.toNat ∨ reg.toNat + data.length ≤ 0x12) :
    s.quietLanding x reg data := fun hx _ he => by
  subst hx
  rw [landed_relayPins hw h]
  exact he

theorem landed_wf {x : ExpId} {reg : Byte} {data : List Byte} {s : State} (hw : Mem.wf devDefault (s.exp x).dev) :
    Mem.wf devDefault ((landed x reg data s).exp x).dev := by
  rw [landed_exp_same]
  exact devStore_wf hw _ _

/-! ## Conditions under which a call is not interrupted, step by step -/

theorem State.calm.bus {s : State} (h : s.calm) (cmd : Byte) : frameMayBegin cmd s = true := by
  simp [frameMayBegin, h.2.2]

theorem State.calm.txn {s : State} (h : s.calm) (b : Bool) : (s.txn b).calm := h

/-- A call goes on calmly where the move, the supply of failures and the bus are as they were. -/
theorem State.calm.congr {s t : State} (h : s.calm) (h1 : t.slice = s.slice) (h2 : t.env.frameFails = s.env.frameFails)
    (h3 : t.openFrame = s.openFrame ∨ t.openFrame = none) : t.calm :=
  ⟨h1.trans h.1, h2.trans h.2.1, h3.elim (fun e => e.trans h.2.2) id⟩

theorem drawPin_calm {s : State} (h : s.calm) : (drawPin s).2.calm := by
  unfold drawPin
  split
  · exact h.congr rfl rfl (.inl rfl)
  · exact h.congr rfl rfl (.inl rfl)

/-! ## Sequences -/

/-- `write_reg` (46_expander_ops.md R302). -/
def wroteReg (x : ExpId) (k : ShKind) (p : Port) (s : State) : State :=
  ((landed x (regAddr k p) [(s.exp x).sh.get k p] s).event
      (.frameW (s.cmdW x) (regAddr k p) [(s.exp x).sh.get k p])).txn false

@[simp] theorem txn_txn (s : State) (a b : Bool) : (s.txn a).txn b = s.txn b := rfl

theorem txn_event (s : State) (b : Bool) (ev : Event) : (s.txn b).event ev = (s.event ev).txn b := rfl

theorem txn_cmdW (s : State) (b : Bool) (x : ExpId) : (s.txn b).cmdW x = s.cmdW x := by cases x <;> rfl

/-- Setting `in_txn` commutes with a landing. -/
theorem landed_txn (x : ExpId) (reg : Byte) (data : List Byte) (s : State) (b : Bool) :
    landed x reg data (s.txn b) = (landed x reg data s).txn b := by cases x <;> rfl

theorem quietLanding_txn {s : State} {x : ExpId} {reg : Byte} {data : List Byte} (b : Bool)
    (h : s.quietLanding x reg data) : (s.txn b).quietLanding x reg data := by
  cases x with
  | gpio => exact quietLanding_gpio _ _ _
  | relay => exact h

theorem steps_writeReg {x : ExpId} {k : ShKind} {p : Port} {s : State} (hc : s.calm)
    (hq : s.quietLanding x (regAddr k p) [(s.exp x).sh.get k p]) :
    Steps (writeRegSteps x k p) s (wroteReg x k p s) := by
  have h1 : micro (.regFrame x k p) (s.txn true) =
      .next (((landed x (regAddr k p) [(s.exp x).sh.get k p] s).event
        (.frameW (s.cmdW x) (regAddr k p) [(s.exp x).sh.get k p])).txn true) := by
    simp only [micro, txn_exp, txn_cmdW]
    rw [frameWrite_landed (hc.txn true).2.1 ((hc.txn true).bus _) (quietLanding_txn true hq), landed_txn, txn_event]
  have h2 : (((landed x (regAddr k p) [(s.exp x).sh.get k p] s).event
        (.frameW (s.cmdW x) (regAddr k p) [(s.exp x).sh.get k p])).txn true).slice = none := by
    simpa [landed] using hc.1
  have h3 : micro .txnEnd (((landed x (regAddr k p) [(s.exp x).sh.get k p] s).event
        (.frameW (s.cmdW x) (regAddr k p) [(s.exp x).sh.get k p])).txn true) = .next (wroteReg x k p s) := by
    simp only [micro, txn_txn, wroteReg]
  have h0 : micro .txnBegin s = .next (s.txn true) := by simp only [micro]
  have hs : (s.txn true).slice = none := hc.1
  exact .cons hc.1 h0 (.cons hs h1 (.one h2 h3))

theorem wroteReg_exp_same (x : ExpId) (k : ShKind) (p : Port) (s : State) :
    (wroteReg x k p s).exp x =
      { s.exp x with dev := devStore (s.exp x).dev (regAddr k p).toNat [((s.exp x).sh.get k p, true)] } := by
  cases x <;> rfl

theorem wroteReg_calm {x : ExpId} {k : ShKind} {p : Port} {s : State} (hc : s.calm) : (wroteReg x k p s).calm :=
  ⟨by simpa [wroteReg] using hc.1, by simpa [wroteReg, landed] using hc.2.1, by simp [wroteReg, landed]⟩

theorem wroteReg_trace (x : ExpId) (k : ShKind) (p : Port) (s : State) :
    (wroteReg x k p s).trace = s.trace ++ [.frameW (s.cmdW x) (regAddr k p) [(s.exp x).sh.get k p]] := by
  cases x <;> rfl

/-! ## A shadow written and its register with it -/

/-- `sh.k[p] <- v ; write_reg(k, p)` (46_expander_ops.md R315). -/
def regWritten (x : ExpId) (k : ShKind) (p : Port) (v : Byte) (s : State) : State :=
  wroteReg x k p (s.setShadow x k p v)

theorem regWritten_exp_same (x : ExpId) (k : ShKind) (p : Port) (v : Byte) (s : State) :
    (regWritten x k p v s).exp x =
      { s.exp x with
        sh := (s.exp x).sh.set k p v
        dev := devStore (s.exp x).dev (regAddr k p).toNat [(v, true)] } := by
  rw [regWritten, wroteReg_exp_same, setShadow_exp_same]
  simp

theorem regWritten_trace (x : ExpId) (k : ShKind) (p : Port) (v : Byte) (s : State) :
    (regWritten x k p v s).trace = s.trace ++ [.frameW (s.cmdW x) (regAddr k p) [v]] := by
  rw [regWritten, wroteReg_trace, setShadow_exp_same, RegFile.get_set_same]
  cases x <;> rfl

theorem setShadow_calm {s : State} (h : s.calm) (x : ExpId) (k : ShKind) (p : Port) (v : Byte) :
    (s.setShadow x k p v).calm := by cases x <;> exact h

theorem regWritten_calm {s : State} (h : s.calm) (x : ExpId) (k : ShKind) (p : Port) (v : Byte) :
    (regWritten x k p v s).calm := wroteReg_calm (setShadow_calm h x k p v)

theorem regWritten_cmdW (x y : ExpId) (k : ShKind) (p : Port) (v : Byte) (s : State) :
    (regWritten x k p v s).cmdW y = s.cmdW y := by
  cases y <;> simp [regWritten, wroteReg, landed, State.setShadow, State.cmdW, State.addrOf]

theorem regWritten_wf {x : ExpId} {k : ShKind} {p : Port} {v : Byte} {s : State} (h : Mem.wf devDefault (s.exp x).dev) :
    Mem.wf devDefault ((regWritten x k p v s).exp x).dev := by
  rw [regWritten_exp_same]
  exact devStore_wf h _ _

/-- The register written holds the value, every other of the chip what it held. -/
theorem regWritten_devRead {x : ExpId} {k : ShKind} {p : Port} {v : Byte} {s : State} (h : Mem.wf devDefault (s.exp x).dev)
    (a : Nat) : ((regWritten x k p v s).exp x).devRead a =
      if a = (regAddr k p).toNat then some v else (s.exp x).devRead a := by
  rw [regWritten_exp_same]
  split_ifs with ha
  · rw [ha]
    exact read_devStore_one h _ v
  · exact read_devStore_outside h _ (regAddr_plain k p) (by simp; omega)

/-- The fields `sh.k[p] <- v ; write_reg(k, p)` leaves. -/
theorem regWritten_rest (x : ExpId) (k : ShKind) (p : Port) (v : Byte) (s : State) :
    let t := regWritten x k p v s
    t.cfg = s.cfg ∧ t.op = s.op ∧ t.work = s.work ∧ t.disp = s.disp ∧ t.inTxn = false ∧ t.env = s.env ∧ t.draws = s.draws
      ∧ t.lcd = s.lcd ∧ t.dram = s.dram ∧ t.vport = s.vport ∧ t.selChip = s.selChip ∧ t.err = s.err := by
  simp [regWritten, wroteReg, landed, State.setShadow]

theorem quietLanding_setShadow {s : State} {x : ExpId} {reg : Byte} {data : List Byte} (k : ShKind) (p : Port) (v : Byte)
    (h : s.quietLanding x reg data) : (s.setShadow x k p v).quietLanding x reg data := by
  cases x with
  | gpio => exact quietLanding_gpio _ _ _
  | relay => exact h

theorem steps_regWritten {x : ExpId} {k : ShKind} {p : Port} {v : Byte} {s : State} (hc : s.calm)
    (hq : s.quietLanding x (regAddr k p) [v]) {m : Micro} (hm : micro m s = .next (s.setShadow x k p v)) :
    Steps (m :: writeRegSteps x k p) s (regWritten x k p v s) := by
  refine .cons hc.1 hm (steps_writeReg (setShadow_calm hc x k p v) ?_)
  rw [setShadow_exp_same, RegFile.get_set_same]
  exact quietLanding_setShadow k p v hq

/-! ## The relay's pins -/

theorem relayPins_bit (s : State) (i : Nat) :
    s.relayPins.getLsbD i =
      if i < 8 then ((s.relay.devRead 0x14).getD 0#8).getLsbD i else ((s.relay.devRead 0x15).getD 0#8).getLsbD (i - 8) := by
  unfold State.relayPins
  rw [cat16_bit]

/-- What the pins are after one OLAT register has been written. -/
theorem landed_pins_a {s : State} (hw : Mem.wf devDefault s.relay.dev) (v : Byte) :
    (landed .relay 0x14#8 [v] s).relayPins = cat16 ((s.relay.devRead 0x15).getD 0#8) v := by
  have e : (landed .relay 0x14#8 [v] s).relay = { s.relay with dev := devStore s.relay.dev 0x14 [(v, true)] } := rfl
  unfold State.relayPins Expander.devRead
  rw [e, read_devStore_one hw, read_devStore_outside hw _ (by simp) (by simp)]
  rfl

theorem landed_pins_b {s : State} (hw : Mem.wf devDefault s.relay.dev) (v : Byte) :
    (landed .relay 0x15#8 [v] s).relayPins = cat16 v ((s.relay.devRead 0x14).getD 0#8) := by
  have e : (landed .relay 0x15#8 [v] s).relay = { s.relay with dev := devStore s.relay.dev 0x15 [(v, true)] } := rfl
  unfold State.relayPins Expander.devRead
  rw [e, read_devStore_one hw, read_devStore_outside hw _ (by simp) (by simp)]
  rfl

theorem landed_pins_ab {s : State} (hw : Mem.wf devDefault s.relay.dev) (a b : Byte) :
    (landed .relay 0x14#8 [a, b] s).relayPins = cat16 b a := by
  have e : (landed .relay 0x14#8 [a, b] s).relay =
      { s.relay with dev := devStore s.relay.dev 0x14 [(a, true), (b, true)] } := rfl
  unfold State.relayPins Expander.devRead
  rw [e, show (0x15 : Nat) = 0x14 + 1 from rfl, read_devStore_at hw 0x14 1 rfl,
    show Mem.read devDefault (devStore s.relay.dev 0x14 [(a, true), (b, true)]) 0x14 = some a from
      read_devStore_at hw 0x14 0 rfl]
  rfl

end Sys2Proof.Machine
end

