-- ==== Sys2Proof/Laws/Relay.lean ====
section
/-! SUPPORT. Writes of the OLAT pair, and the LCD cycle a falling edge of the relay's E makes of one. -/

namespace Sys2Proof.Machine

theorem regAddr_olat_a : regAddr .olat .a = 0x14#8 := rfl
theorem regAddr_olat_b : regAddr .olat .b = 0x15#8 := rfl

/-! ## The pins -/

theorem relayPins_congr {s t : State} (h : t.relay.dev = s.relay.dev) : t.relayPins = s.relayPins := by
  simp only [State.relayPins, Expander.devRead, h]

theorem event_relayPins (s : State) (ev : Event) : (s.event ev).relayPins = s.relayPins := rfl

/-- Two landings of one byte each are one of two. -/
theorem landed_pair (x : ExpId) (a b : Byte) (s : State) :
    landed x 0x15#8 [b] (landed x 0x14#8 [a] s) = landed x 0x14#8 [a, b] s := by cases x <;> rfl

theorem landed_event (x : ExpId) (reg : Byte) (data : List Byte) (s : State) (ev : Event) :
    landed x reg data (s.event ev) = (landed x reg data s).event ev := by cases x <;> rfl

/-- A write frame whose landing makes E fall is an LCD cycle on the chip the pins select (10_state.md R47). -/
theorem frameWrite_latch {cmd reg : Byte} {data : List Byte} {s : State} {c : Nat} {lc : LcdCmd}
    (hf : s.env.frameFails = []) (ho : frameMayBegin cmd s = true) (ht : s.cfg.transport = .spiRelay)
    (hold : s.relayPins.getLsbD s.cfg.params.vportMap.e = true)
    (hnew : (landed .relay reg data s).relayPins.getLsbD s.cfg.params.vportMap.e = false)
    (hsel : chipsWhere s.cfg.chips
      (fun k => (landed .relay reg data s).relayPins.getLsbD (s.cfg.params.vportMap.cs.getD k 16)) = [c])
    (hd : lcdDecode ((landed .relay reg data s).relayPins.getLsbD s.cfg.params.vportMap.rs)
      ((landed .relay reg data s).relayPins.getLsbD s.cfg.params.vportMap.rw)
      (vpData s.cfg.params.vportMap (landed .relay reg data s).relayPins) = .ok lc) :
    frameWrite .relay cmd reg data s =
      .next ((lcdRespond c lc (landed .relay reg data s)).event (.frameW cmd reg data)) := by
  refine frameWrite_next hf ho ?_
  show relayLatch s.relayPins (landed .relay reg data s) = _
  unfold relayLatch
  simp only [landed_cfg]
  rw [if_pos ⟨ht, hold, hnew⟩, hsel, lcdCycle_one _ _ _ _ _ hd]

/-! ## `write_gpio` -/

/-- After the two OLAT shadows and registers of an instance have been written (46_expander_ops.md R312). -/
def olatWritten (x : ExpId) (v : Half) (s : State) : State :=
  { s.setExp x { s.exp x with
      sh := { (s.exp x).sh with olat := { a := lowByte v, b := highByte v } }
      dev := devStore (s.exp x).dev 0x14 [(lowByte v, true), (highByte v, true)] } with
    vport := match x with
      | .gpio => s.vport
      | .relay => v
    trace := s.trace ++ olatEvents (s.cmdW x) (s.seq x) v, inTxn := false, openFrame := none }

theorem olatWritten_eq (x : ExpId) (v : Half) (s : State) :
    olatWritten x v s = { (landed x 0x14#8 [lowByte v, highByte v] (olatBegin x v s)) with
      trace := s.trace ++ olatEvents (s.cmdW x) (s.seq x) v, inTxn := false } := by
  cases x <;> simp [olatWritten, landed, olatBegin, State.setExp, State.exp, State.closeFrame, State.txn, State.withVport]

theorem olatBegin_sh (x : ExpId) (v : Half) (s : State) :
    ((olatBegin x v s).exp x).sh = { (s.exp x).sh with olat := { a := lowByte v, b := highByte v } } := by
  cases x <;> rfl

theorem olatBegin_olat (x : ExpId) (v : Half) (s : State) :
    ((olatBegin x v s).exp x).sh.olat = { a := lowByte v, b := highByte v } := by cases x <;> rfl

theorem olatBegin_dev (x : ExpId) (v : Half) (s : State) : ((olatBegin x v s).exp x).dev = (s.exp x).dev := by
  cases x <;> rfl

theorem olatBegin_relayDev (x : ExpId) (v : Half) (s : State) : (olatBegin x v s).relay.dev = s.relay.dev := by
  cases x <;> rfl

theorem olatBegin_seq (x : ExpId) (v : Half) (s : State) : (olatBegin x v s).seq x = s.seq x := by
  cases x <;> simp [olatBegin, State.seq, State.exp, State.setExp, State.txn, State.withVport]

theorem olatBegin_cmdW (x : ExpId) (v : Half) (s : State) : (olatBegin x v s).cmdW x = s.cmdW x := by cases x <;> rfl

theorem olatBegin_calm {s : State} (h : s.calm) (x : ExpId) (v : Half) : (olatBegin x v s).calm := by
  unfold State.calm at *
  cases x <;> simpa [olatBegin] using h

theorem olatBegin_trace (x : ExpId) (v : Half) (s : State) : (olatBegin x v s).trace = s.trace := by
  cases x <;> simp [olatBegin]

theorem olatBegin_cfg (x : ExpId) (v : Half) (s : State) : (olatBegin x v s).cfg = s.cfg := by
  cases x <;> simp [olatBegin]

/-- The bit of E after the first of two frames is the old or the new one. -/
theorem cat16_mixed_bit (old v : Half) (e : Nat) :
    (cat16 (highByte old) (lowByte v)).getLsbD e = if e < 8 then v.getLsbD e else old.getLsbD e := by
  rw [cat16_bit]
  by_cases h : e < 8
  · rw [if_pos h, if_pos h, lowByte_bit]
    simp [h]
  · rw [if_neg h, if_neg h, highByte_bit]
    by_cases h16 : e < 16
    · rw [show 8 + (e - 8) = e by omega]
      simp
      omega
    · rw [BitVec.getLsbD_of_ge old e (by omega)]
      simp
      omega

theorem relayPins_high (s : State) : (s.relay.devRead 0x15).getD 0#8 = highByte s.relayPins := by
  simp [State.relayPins]

/-- What stands in the chip's OLAT registers after both bytes landed. -/
theorem landed_pins {s : State} (hw : Mem.wf devDefault s.relay.dev) (v : Half) :
    (landed .relay 0x14#8 [lowByte v, highByte v] s).relayPins = v := by
  rw [landed_pins_ab hw, cat16_high_low]

/-- The frames of a `write_gpio` under which E does not fall, after the step that began it. -/
theorem steps_olat {x : ExpId} {v : Half} {s s0 : State} {m : Micro} (hc : s.calm) (hno : x = .relay → s.noFall v)
    (hw : Mem.wf devDefault (s.exp x).dev) (h0 : s0.slice = none) (hm : micro m s0 = .next (olatBegin x v s)) :
    Steps [m, .olatFrameA x, .olatFrameB x, .txnEnd] s0 (olatWritten x v s) := by
  obtain ⟨u, hu⟩ : ∃ u, u = olatBegin x v s := ⟨_, rfl⟩
  have hcu : u.calm := hu ▸ olatBegin_calm hc x v
  have hol : (u.exp x).sh.olat = { a := lowByte v, b := highByte v } := hu ▸ olatBegin_olat x v s
  have hwu : Mem.wf devDefault (u.exp x).dev := by rw [hu, olatBegin_dev]; exact hw
  have hpins : u.relayPins = s.relayPins := relayPins_congr (hu ▸ olatBegin_relayDev x v s)
  have hcfg : u.cfg = s.cfg := hu ▸ olatBegin_cfg x v s
  have hno' : x = .relay → u.noFall v := fun hx ht he => by
    rw [hcfg] at ht he ⊢
    exact hno hx ht (hpins ▸ he)
  rw [← hu] at hm
  refine .cons h0 hm ?_
  have hout : olatWritten x v s = { (landed x 0x14#8 [lowByte v, highByte v] u) with
      trace := u.trace ++ olatEvents (u.cmdW x) (u.seq x) v, inTxn := false } := by
    rw [olatWritten_eq, hu, olatBegin_trace, olatBegin_cmdW, olatBegin_seq]
  rw [hout]
  clear hm hout hu
  by_cases hs : u.seq x = true
  · have hq : u.quietLanding x 0x14#8 [lowByte v, highByte v] := fun hx ht he => by
      subst hx
      rw [landed_pins hwu]
      exact hno' rfl ht he
    have h1 : micro (.olatFrameA x) u =
        .next ((landed x 0x14#8 [lowByte v, highByte v] u).event (.frameW (u.cmdW x) 0x14#8 [lowByte v, highByte v])) := by
      simp only [micro, hs, if_true, hol, regAddr_olat_a]
      exact frameWrite_landed hcu.2.1 (hcu.bus _) hq
    have h2 : micro (.olatFrameB x)
        ((landed x 0x14#8 [lowByte v, highByte v] u).event (.frameW (u.cmdW x) 0x14#8 [lowByte v, highByte v])) =
        .next ((landed x 0x14#8 [lowByte v, highByte v] u).event
          (.frameW (u.cmdW x) 0x14#8 [lowByte v, highByte v])) := by
      have : ((landed x 0x14#8 [lowByte v, highByte v] u).event
          (.frameW (u.cmdW x) 0x14#8 [lowByte v, highByte v])).seq x = u.seq x := by cases x <;> rfl
      simp only [micro, this, hs, if_true]
    have hsl : ((landed x 0x14#8 [lowByte v, highByte v] u).event
        (.frameW (u.cmdW x) 0x14#8 [lowByte v, highByte v])).slice = none := by
      rw [event_slice, landed_slice]
      exact hcu.1
    refine .cons hcu.1 h1 (.cons hsl h2 (.one hsl ?_))
    simp only [micro, olatEvents, hs, if_true]
    cases x <;> rfl
  · have hq : u.quietLanding x 0x14#8 [lowByte v] := fun hx ht he => by
      subst hx
      rw [landed_pins_a hwu, relayPins_high, cat16_mixed_bit]
      split
      · exact hno' rfl ht he
      · exact he
    have hs' : u.seq x = false := by simpa using hs
    have h1 : micro (.olatFrameA x) u =
        .next ((landed x 0x14#8 [lowByte v] u).event (.frameW (u.cmdW x) 0x14#8 [lowByte v])) := by
      simp only [micro, hs', hol, regAddr_olat_a]
      exact frameWrite_landed hcu.2.1 (hcu.bus _) hq
    obtain ⟨w, hwd⟩ : ∃ w, w = (landed x 0x14#8 [lowByte v] u).event (.frameW (u.cmdW x) 0x14#8 [lowByte v]) := ⟨_, rfl⟩
    have hcw : w.calm := by
      rw [hwd]
      cases x <;> exact ⟨hcu.1, hcu.2.1, rfl⟩
    have hq2 : w.quietLanding x 0x15#8 [highByte v] := fun hx ht he => by
      subst hx
      have e1 : landed .relay 0x15#8 [highByte v] w =
          (landed .relay 0x14#8 [lowByte v, highByte v] u).event (.frameW (u.cmdW .relay) 0x14#8 [lowByte v]) := by
        rw [hwd, landed_event, landed_pair]
      have e2 : w.cfg = u.cfg := by rw [hwd, event_cfg, landed_cfg]
      have e3 : w.relayPins = cat16 (highByte u.relayPins) (lowByte v) := by
        rw [hwd, ← relayPins_high, ← landed_pins_a hwu]
        rfl
      have e4 : (landed .relay 0x15#8 [highByte v] w).relayPins = v := by
        rw [e1, event_relayPins, landed_pins hwu]
      rw [e4, e2]
      rw [e2] at ht
      rw [e3, e2, cat16_mixed_bit] at he
      split at he
      · exact he
      · exact hno' rfl ht he
    have h2 : micro (.olatFrameB x) w =
        .next ((landed x 0x15#8 [highByte v] w).event (.frameW (u.cmdW x) 0x15#8 [highByte v])) := by
      have e1 : w.seq x = u.seq x := by rw [hwd]; cases x <;> rfl
      have e2 : w.cmdW x = u.cmdW x := by rw [hwd]; cases x <;> rfl
      have e3 : (w.exp x).sh.olat = (u.exp x).sh.olat := by rw [hwd]; cases x <;> rfl
      simp only [micro, e1, hs', e2, e3, hol, regAddr_olat_b]
      exact frameWrite_landed hcw.2.1 (hcw.bus _) hq2
    rw [← hwd] at h1
    have e1 : landed x 0x15#8 [highByte v] w =
        (landed x 0x14#8 [lowByte v, highByte v] u).event (.frameW (u.cmdW x) 0x14#8 [lowByte v]) := by
      rw [hwd, landed_event, landed_pair]
    rw [e1] at h2
    have hsl : (((landed x 0x14#8 [lowByte v, highByte v] u).event (.frameW (u.cmdW x) 0x14#8 [lowByte v])).event
        (.frameW (u.cmdW x) 0x15#8 [highByte v])).slice = none := by
      rw [event_slice, event_slice, landed_slice]
      exact hcu.1
    refine .cons hcu.1 h1 (.cons hcw.1 h2 (.one hsl ?_))
    simp only [micro, olatEvents, hs', State.event]
    cases x <;> simp [landed, State.txn, State.setExp, State.closeFrame] <;> exact ⟨rfl, rfl⟩

/-- The frames of a `write_gpio` of the relay under which E falls, once, with the pins at their new levels: the LCD acts. -/
theorem steps_olat_fall {v : Half} {s s0 : State} {m : Micro} {c : Nat} {lc : LcdCmd} (hc : s.calm)
    (ht : s.cfg.transport = .spiRelay) (hsq : s.seq .relay = true ∨ 8 ≤ s.cfg.params.vportMap.e)
    (hold : s.relayPins.getLsbD s.cfg.params.vportMap.e = true) (hnew : v.getLsbD s.cfg.params.vportMap.e = false)
    (hsel : chipsWhere s.cfg.chips (fun k => v.getLsbD (s.cfg.params.vportMap.cs.getD k 16)) = [c])
    (hd : lcdDecode (v.getLsbD s.cfg.params.vportMap.rs) (v.getLsbD s.cfg.params.vportMap.rw)
      (vpData s.cfg.params.vportMap v) = .ok lc)
    (hw : Mem.wf devDefault s.relay.dev) (h0 : s0.slice = none) (hm : micro m s0 = .next (olatBegin .relay v s)) :
    Steps [m, .olatFrameA .relay, .olatFrameB .relay, .txnEnd] s0
      { olatWritten .relay v s with lcd := (lcdRespond c lc s).lcd, dram := (lcdRespond c lc s).dram } := by
  obtain ⟨u, hu⟩ : ∃ u, u = olatBegin .relay v s := ⟨_, rfl⟩
  have hcu : u.calm := hu ▸ olatBegin_calm hc .relay v
  have hol : (u.exp .relay).sh.olat = { a := lowByte v, b := highByte v } := hu ▸ olatBegin_olat .relay v s
  have hwu : Mem.wf devDefault u.relay.dev := by rw [hu, olatBegin_relayDev]; exact hw
  have hpins : u.relayPins = s.relayPins := relayPins_congr (hu ▸ olatBegin_relayDev .relay v s)
  have hcfg : u.cfg = s.cfg := hu ▸ olatBegin_cfg .relay v s
  have hout : olatWritten .relay v s = { (landed .relay 0x14#8 [lowByte v, highByte v] u) with
      trace := u.trace ++ olatEvents (u.cmdW .relay) (u.seq .relay) v, inTxn := false } := by
    rw [olatWritten_eq, hu, olatBegin_trace, olatBegin_cmdW, olatBegin_seq]
  have hlcd : u.lcd = s.lcd ∧ u.dram = s.dram := by
    rw [hu]
    exact ⟨by simp [olatBegin], by simp [olatBegin]⟩
  have hsq' : u.seq .relay = true ∨ 8 ≤ u.cfg.params.vportMap.e := by rw [hcfg, hu, olatBegin_seq]; exact hsq
  rw [← hcfg] at ht hnew hsel hd hold
  rw [← hpins] at hold
  rw [← hu] at hm
  have hr := lcdRespond_target (s := s) (t := u) c lc hlcd.1 hlcd.2
  rw [hout, ← hr.1, ← hr.2]
  clear hout hr hu hsq hc hw hlcd
  refine .cons h0 hm ?_
  by_cases hs : u.seq .relay = true
  · obtain ⟨w, hwd⟩ : ∃ w, w = (lcdRespond c lc (landed .relay 0x14#8 [lowByte v, highByte v] u)).event
        (.frameW (u.cmdW .relay) 0x14#8 [lowByte v, highByte v]) := ⟨_, rfl⟩
    have h1 : micro (.olatFrameA .relay) u = .next w := by
      simp only [micro, hs, if_true, hol, regAddr_olat_a]
      rw [hwd]
      refine frameWrite_latch hcu.2.1 (hcu.bus _) ht hold ?_ ?_ ?_ <;> rw [landed_pins hwu]
      · exact hnew
      · exact hsel
      · exact hd
    have e := lcdRespond_eq c lc (landed .relay 0x14#8 [lowByte v, highByte v] u)
    have hr := lcdRespond_target (s := u) (t := landed .relay 0x14#8 [lowByte v, highByte v] u) c lc rfl rfl
    rw [hr.1, hr.2] at e
    rw [e] at hwd
    have h2 : micro (.olatFrameB .relay) w = .next w := by
      have : w.seq .relay = u.seq .relay := by rw [hwd]; rfl
      simp only [micro, this, hs, if_true]
    have hsl : w.slice = none := by rw [hwd]; exact hcu.1
    refine .cons hcu.1 h1 (.cons hsl h2 (.one hsl ?_))
    simp only [micro, olatEvents, hs, if_true, hwd]
    rfl
  · have he8 := hsq'.resolve_left hs
    have hq : u.quietLanding .relay 0x14#8 [lowByte v] := fun _ _ he => by
      rw [landed_pins_a hwu, relayPins_high, cat16_mixed_bit, if_neg (by omega)]
      exact he
    have hs' : u.seq .relay = false := by simpa using hs
    have h1 : micro (.olatFrameA .relay) u =
        .next ((landed .relay 0x14#8 [lowByte v] u).event (.frameW (u.cmdW .relay) 0x14#8 [lowByte v])) := by
      simp only [micro, hs', hol, regAddr_olat_a]
      exact frameWrite_landed hcu.2.1 (hcu.bus _) hq
    obtain ⟨w, hwd⟩ : ∃ w, w = (landed .relay 0x14#8 [lowByte v] u).event (.frameW (u.cmdW .relay) 0x14#8 [lowByte v]) :=
      ⟨_, rfl⟩
    have hcw : w.calm := by
      rw [hwd]
      exact ⟨hcu.1, hcu.2.1, rfl⟩
    have e1 : landed .relay 0x15#8 [highByte v] w =
        (landed .relay 0x14#8 [lowByte v, highByte v] u).event (.frameW (u.cmdW .relay) 0x14#8 [lowByte v]) := by
      rw [hwd, landed_event, landed_pair]
    have e2 : w.cfg = u.cfg := by rw [hwd, event_cfg, landed_cfg]
    have e3 : w.relayPins = cat16 (highByte u.relayPins) (lowByte v) := by
      rw [hwd, ← relayPins_high, ← landed_pins_a hwu]
      rfl
    have e4 : (landed .relay 0x15#8 [highByte v] w).relayPins = v := by
      rw [e1, event_relayPins, landed_pins hwu]
    obtain ⟨z, hz⟩ : ∃ z, z = (lcdRespond c lc (landed .relay 0x15#8 [highByte v] w)).event
        (.frameW (u.cmdW .relay) 0x15#8 [highByte v]) := ⟨_, rfl⟩
    have h2 : micro (.olatFrameB .relay) w = .next z := by
      have f1 : w.seq .relay = u.seq .relay := by rw [hwd]; rfl
      have f2 : w.cmdW .relay = u.cmdW .relay := by rw [hwd]; rfl
      have f3 : (w.exp .relay).sh.olat = (u.exp .relay).sh.olat := by rw [hwd]; rfl
      simp only [micro, f1, hs', f2, f3, hol, hz, regAddr_olat_b]
      refine frameWrite_latch hcw.2.1 (hcw.bus _) (e2 ▸ ht) ?_ ?_ ?_ ?_
      · rw [e2, e3, cat16_mixed_bit, if_neg (by omega)]
        exact hold
      all_goals rw [e4, e2]
      · exact hnew
      · exact hsel
      · exact hd
    rw [← hwd] at h1
    have e := lcdRespond_eq c lc (landed .relay 0x15#8 [highByte v] w)
    have hr := lcdRespond_target (s := u) (t := landed .relay 0x15#8 [highByte v] w) c lc
      (by rw [landed_lcd, hwd, event_lcd, landed_lcd]) (by rw [landed_dram, hwd, event_dram, landed_dram])
    rw [hr.1, hr.2, e1] at e
    rw [e1, e] at hz
    have hsl : z.slice = none := by simpa [hz] using hcu.1
    refine .cons hcu.1 h1 (.cons hcw.1 h2 (.one hsl ?_))
    simp only [micro, olatEvents, hs', hz]
    simp [landed, State.txn, State.setExp, State.closeFrame, State.event]
    exact ⟨rfl, rfl⟩

/-! ## `VPortWrite` and `relay_byte` -/

/-- After a `VPortWrite` under which E does not fall (45_spi_relay.md R283). -/
def vported (v : Half) (s : State) : State :=
  { s with
    relay := { s.relay with
      sh := { s.relay.sh with olat := { a := lowByte v, b := highByte v } }
      dev := devStore s.relay.dev 0x14 [(lowByte v, true), (highByte v, true)] }
    vport := v, trace := s.trace ++ vportEvents (s.cmdW .relay) (s.seq .relay) v, inTxn := false, openFrame := none }

theorem vported_eq (v : Half) (s : State) : olatWritten .relay v (s.event (.vport v)) = vported v s := by
  simp [olatWritten, vported, State.setExp, State.exp, State.event, vportEvents, State.cmdW, State.addrOf, State.seq]

theorem vported_trace (v : Half) (s : State) :
    (vported v s).trace = s.trace ++ vportEvents (s.cmdW .relay) (s.seq .relay) v := rfl

theorem vported_kept (v : Half) (s : State) : (vported v s).kept = s.kept := rfl

theorem vported_olat (v : Half) (s : State) : (vported v s).relay.sh = { s.relay.sh with olat := { a := lowByte v, b := highByte v } } :=
  rfl

theorem vported_dev (v : Half) (s : State) :
    (vported v s).relay.dev = devStore s.relay.dev 0x14 [(lowByte v, true), (highByte v, true)] := rfl

theorem vported_calm {s : State} (h : s.calm) (v : Half) : (vported v s).calm := ⟨h.1, h.2.1, rfl⟩

theorem vported_wf {s : State} (h : Mem.wf devDefault s.relay.dev) (v : Half) : Mem.wf devDefault (vported v s).relay.dev := by
  rw [vported_dev]
  exact devStore_wf h _ _

theorem vported_pins {s : State} (h : Mem.wf devDefault s.relay.dev) (v : Half) : (vported v s).relayPins = v := by
  have e : (vported v s).relayPins = (landed .relay 0x14#8 [lowByte v, highByte v] s).relayPins := relayPins_congr rfl
  rw [e, landed_pins h]

theorem vported_seq (v : Half) (s : State) : (vported v s).seq .relay = s.seq .relay := rfl

theorem vported_cmdW (v : Half) (s : State) : (vported v s).cmdW .relay = s.cmdW .relay := rfl

theorem vported_rest (v : Half) (s : State) :
    (vported v s).selChip = s.selChip ∧ (vported v s).blk = s.blk ∧ (vported v s).lcd = s.lcd
      ∧ (vported v s).dram = s.dram ∧ (vported v s).vport = v ∧ (vported v s).inTxn = false :=
  ⟨rfl, rfl, rfl, rfl, rfl, rfl⟩

theorem steps_vport {vs : VSrc} {v : Half} {s : State} (hv : vs.value s = some v) (hc : s.calm) (hno : s.noFall v)
    (hw : Mem.wf devDefault s.relay.dev) : Steps (vportSteps vs) s (vported v s) :=
  vported_eq v s ▸ steps_olat (x := .relay) (s := s.event (.vport v)) hc (fun _ => hno) hw hc.1 (by simp only [micro, hv])

theorem steps_vport_fall {vs : VSrc} {v : Half} {s : State} {c : Nat} {lc : LcdCmd} (hv : vs.value s = some v) (hc : s.calm)
    (ht : s.cfg.transport = .spiRelay) (hsq : s.seq .relay = true ∨ 8 ≤ s.cfg.params.vportMap.e)
    (hold : s.relayPins.getLsbD s.cfg.params.vportMap.e = true) (hnew : v.getLsbD s.cfg.params.vportMap.e = false)
    (hsel : chipsWhere s.cfg.chips (fun k => v.getLsbD (s.cfg.params.vportMap.cs.getD k 16)) = [c])
    (hd : lcdDecode (v.getLsbD s.cfg.params.vportMap.rs) (v.getLsbD s.cfg.params.vportMap.rw)
      (vpData s.cfg.params.vportMap v) = .ok lc)
    (hw : Mem.wf devDefault s.relay.dev) :
    Steps (vportSteps vs) s { vported v s with lcd := (lcdRespond c lc s).lcd, dram := (lcdRespond c lc s).dram } := by
  have h := steps_olat_fall (s := s.event (.vport v)) (m := .vportBegin vs) (s0 := s) hc ht hsq hold hnew hsel hd hw hc.1
    (by simp only [micro, hv])
  have hr := lcdRespond_target (s := s) (t := s.event (.vport v)) c lc rfl rfl
  rw [hr.1, hr.2, vported_eq] at h
  exact h

/-- The state after E has been pulsed with a write word on the virtual port (R282), in what is needed of it. -/
structure Relayed (c : Nat) (rs : Bool) (b : Byte) (cmd : LcdCmd) (s t : State) : Prop where
  trace : t.trace = s.trace ++
    relayEvents s.cfg.params (s.cmdW .relay) (s.seq .relay) (vp s.cfg.params.vportMap false false rs c b)
  vport : t.vport = vp s.cfg.params.vportMap false false rs c b
  shadows : t.relay.sh = { s.relay.sh with olat :=
    { a := lowByte (vp s.cfg.params.vportMap false false rs c b), b := highByte (vp s.cfg.params.vportMap false false rs c b) } }
  pins : t.relayPins = vp s.cfg.params.vportMap false false rs c b
  wf : Mem.wf devDefault t.relay.dev
  lcd : t.lcd = (lcdRespond c cmd s).lcd
  dram : t.dram = (lcdRespond c cmd s).dram
  calm : t.calm
  inTxn : t.inTxn = false
  selChip : t.selChip = s.selChip
  blk : t.blk = s.blk
  kept : t.kept = s.kept

/-- A pulse of E over a word whose values do not change meanwhile: the chip selected acts on the word. -/
theorem steps_strobe {c : Nat} {rs : Bool} {b : Byte} {vs : Bool → VSrc} {cmd : LcdCmd} {s : State} (hc : s.calm)
    (ht : s.cfg.transport = .spiRelay) (hsq : s.seq .relay = true ∨ 8 ≤ s.cfg.params.vportMap.e)
    (hlow : s.relayPins.getLsbD s.cfg.params.vportMap.e = false) (hm : Distinct s.cfg.params.vportMap)
    (hcs : s.cfg.chips ≤ s.cfg.params.vportMap.cs.length) (hw : Mem.wf devDefault s.relay.dev)
    (hval : ∀ (u : State) (e : Bool), u.selChip = s.selChip → u.blk = s.blk → u.cfg = s.cfg →
      (vs e).value u = some (vp s.cfg.params.vportMap e false rs c b))
    (hcc : c < s.cfg.chips) (hd : lcdDecode rs false b = .ok cmd) :
    ∃ t, Steps (strobeSteps s.cfg.params.vportStrobe vs) s t ∧ Relayed c rs b cmd s t := by
  obtain ⟨m, hmm⟩ : ∃ m, m = s.cfg.params.vportMap := ⟨_, rfl⟩
  rw [← hmm] at hsq hlow hm hcs hval
  obtain ⟨v0, h0⟩ : ∃ v0, v0 = vp m false false rs c b := ⟨_, rfl⟩
  obtain ⟨v1, h1⟩ : ∃ v1, v1 = vp m true false rs c b := ⟨_, rfl⟩
  have hv1 : v1 = v0 ||| 1#16 <<< m.e := by rw [h1, h0, vp_setE]
  have e0 : v0.getLsbD m.e = false := h0 ▸ vp_e hm _ _ _ _ _
  have e1 : v1.getLsbD m.e = true := h1 ▸ vp_e hm _ _ _ _ _
  -- the last two writes, from a state that differs from `s` as a virtual-port write leaves it
  have tail : ∀ u : State, u.calm → Mem.wf devDefault u.relay.dev → u.relayPins.getLsbD m.e = false → u.kept = s.kept →
      u.selChip = s.selChip → u.blk = s.blk → u.seq .relay = s.seq .relay → u.lcd = s.lcd → u.dram = s.dram →
      u.cmdW .relay = s.cmdW .relay → { u.relay.sh with olat := s.relay.sh.olat } = s.relay.sh →
      ∃ t, Steps (vportSteps (vs true) ++ vportSteps (vs false)) u t
        ∧ t.trace = u.trace ++ (vportEvents (s.cmdW .relay) (s.seq .relay) v1 ++ vportEvents (s.cmdW .relay) (s.seq .relay) v0)
        ∧ t.vport = v0 ∧ t.relay.sh = { s.relay.sh with olat := { a := lowByte v0, b := highByte v0 } } ∧ t.relayPins = v0
        ∧ Mem.wf devDefault t.relay.dev ∧ t.lcd = (lcdRespond c cmd s).lcd ∧ t.dram = (lcdRespond c cmd s).dram ∧ t.calm
        ∧ t.inTxn = false ∧ t.selChip = s.selChip ∧ t.blk = s.blk ∧ t.kept = s.kept := by
    intro u hcu hwu hlu hku hsu hbu hqu hlcd hdram hcmd hsh
    have hcfg : u.cfg = s.cfg := congrArg (·.1) hku
    have s1 := steps_vport (s := u) (v := v1) (vs := vs true) (h1 ▸ hval u true hsu hbu hcfg) hcu
      (fun _ he => by rw [hcfg, ← hmm, hlu] at he; cases he) hwu
    have hcfg' : (vported v1 u).cfg = s.cfg := (congrArg (·.1) (vported_kept v1 u)).trans hcfg
    have hr := lcdRespond_target (s := s) (t := vported v1 u) c cmd hlcd hdram
    have s2 := steps_vport_fall (s := vported v1 u) (v := v0) (vs := vs false) (c := c) (lc := cmd)
      (h0 ▸ hval (vported v1 u) false hsu hbu hcfg') (vported_calm hcu v1) (hcfg' ▸ ht)
      (by rw [vported_seq, hqu, hcfg', ← hmm]; exact hsq)
      (by rw [vported_pins hwu, hcfg', ← hmm]; exact e1)
      (by rw [hcfg', ← hmm]; exact e0)
      (by
        rw [hcfg', ← hmm]
        exact chipsWhere_one hcc fun k hk => by
          rw [h0, vp_cs hm _ _ _ _ (by omega) (by omega)])
      (by
        rw [hcfg', ← hmm, h0, vp_rs hm, vp_rw hm, vpData_vp hm]
        exact hd)
      (vported_wf hwu v1)
    rw [hr.1, hr.2] at s2
    refine ⟨_, s1.append s2, ?_, rfl, ?_, ?_, ?_, rfl, rfl, vported_calm (vported_calm hcu v1) v0, rfl, hsu, hbu, hku⟩
    · show (vported v0 (vported v1 u)).trace = _
      rw [vported_trace, vported_trace, vported_cmdW, vported_seq, hqu, hcmd, List.append_assoc]
    · show (vported v0 (vported v1 u)).relay.sh = _
      rw [vported_olat, vported_olat, ← hsh]
    · show (vported v0 (vported v1 u)).relayPins = _
      exact vported_pins (vported_wf hwu v1) v0
    · show Mem.wf devDefault (vported v0 (vported v1 u)).relay.dev
      exact vported_wf (vported_wf hwu v1) v0
  cases hst : s.cfg.params.vportStrobe
  · have s0 := steps_vport (s := s) (v := v0) (vs := vs false) (h0 ▸ hval s false rfl rfl rfl) hc
      (fun _ he => by rw [← hmm, hlow] at he; cases he) hw
    obtain ⟨t, g1, g2, g3, g4, g5, g6, g7, g8, g9, g10, g11, g12, g13⟩ := tail (vported v0 s) (vported_calm hc v0) (vported_wf hw v0)
      (by rw [vported_pins hw]; exact e0) rfl rfl rfl rfl rfl rfl rfl rfl
    refine ⟨t, ?_, ⟨?_, ?_, ?_, ?_, g6, g7, g8, g9, g10, g11, g12, g13⟩⟩
    · have := s0.append g1
      rw [← List.append_assoc] at this
      exact this
    · rw [g2, vported_trace]
      simp only [relayEvents, hst, ← hmm, ← h0, hv1, List.append_assoc]
    · rw [g3, h0, hmm]
    · rw [g4, h0, hmm]
    · rw [g5, h0, hmm]
  · obtain ⟨t, g1, g2, g3, g4, g5, g6, g7, g8, g9, g10, g11, g12, g13⟩ := tail s hc hw hlow rfl rfl rfl rfl rfl rfl rfl rfl
    refine ⟨t, g1, ⟨?_, ?_, ?_, ?_, g6, g7, g8, g9, g10, g11, g12, g13⟩⟩
    · rw [g2]
      simp only [relayEvents, hst, ← hmm, ← h0, hv1]
    · rw [g3, h0, hmm]
    · rw [g4, h0, hmm]
    · rw [g5, h0, hmm]

theorem steps_relay {c : Nat} {rs : Bool} {src : Src} {cmd : LcdCmd} {s : State} (hc : s.calm)
    (ht : s.cfg.transport = .spiRelay) (hsq : s.seq .relay = true ∨ 8 ≤ s.cfg.params.vportMap.e)
    (hlow : s.relayPins.getLsbD s.cfg.params.vportMap.e = false) (hm : Distinct s.cfg.params.vportMap)
    (hcs : s.cfg.chips ≤ s.cfg.params.vportMap.cs.length) (hw : Mem.wf devDefault s.relay.dev)
    (hsel : s.selChip = some c) (hcc : c < s.cfg.chips) (hd : lcdDecode rs false (src.value s) = .ok cmd) :
    ∃ t, Steps (relaySteps s.cfg.params.vportStrobe rs src) s t ∧ Relayed c rs (src.value s) cmd s t :=
  steps_strobe hc ht hsq hlow hm hcs hw (fun u e h1 h2 h3 => by
    have : src.value u = src.value s := by cases src <;> simp [Src.value, h2]
    simp only [VSrc.value, h1, hsel, h3, this, Option.map_some]) hcc hd

/-! ## The relay as a carrier of LCD writes -/

/-- What the writes leave. -/
structure RelayWrote (ws : List Write) (s t : State) : Prop where
  acted : Acted ws s t
  trace : t.trace = s.trace ++ s.relayWriteEvents ws
  cfg : t.cfg = s.cfg
  seq : t.seq .relay = s.seq .relay

theorem RelayWrote.append {ws ws' : List Write} {s t u : State} (h : RelayWrote ws s t) (h' : RelayWrote ws' t u) :
    RelayWrote (ws ++ ws') s u where
  acted := h.acted.append h'.acted
  trace := by
    have : t.relayWriteEvents ws' = s.relayWriteEvents ws' := by
      simp only [State.relayWriteEvents, h.cfg, h.seq, State.cmdW, State.addrOf]
    rw [h'.trace, h.trace, this, List.append_assoc]
    simp only [State.relayWriteEvents, List.flatMap_append]
  cfg := h'.cfg.trans h.cfg
  seq := h'.seq.trans h.seq

theorem RelayWrote.nil {s t : State} (h1 : t.lcd = s.lcd) (h2 : t.dram = s.dram) (h3 : t.trace = s.trace) (h4 : t.cfg = s.cfg)
    (h5 : t.relay = s.relay) : RelayWrote [] s t where
  acted := .nil h1 h2
  trace := by simp [State.relayWriteEvents, h3]
  cfg := h4
  seq := by simp only [State.seq, State.exp, h4, h5]

/-- The relay transport in the state its operations keep it in. -/
structure RelayRoom (s : State) : Prop where
  relay : s.cfg.transport = .spiRelay
  calm : s.calm
  frames : s.seq .relay = true ∨ 8 ≤ s.cfg.params.vportMap.e
  low : s.relayPins.getLsbD s.cfg.params.vportMap.e = false
  map : Distinct s.cfg.params.vportMap
  chips : s.cfg.chips ≤ s.cfg.params.vportMap.cs.length
  wf : Mem.wf devDefault s.relay.dev

/-- The relay transport as the statements assume it. -/
theorem RelayRoom.of_ready {s : State} (hr : s.relayReady)
    (hg : geometryOk s.cfg.width s.cfg.height s.cfg.transport s.cfg.params = true) (hp : s.cfg.params.ok = true)
    (hw : Mem.wf devDefault s.relay.dev) : RelayRoom s where
  relay := hr.1
  calm := hr.2.1
  frames := hr.2.2.1.imp_right fun h => by rw [h]; decide
  low := hr.2.2.2 rfl hr.1
  map := distinct_of_ok (by simp only [Params.ok, Bool.and_eq_true] at hp; exact hp.2)
  chips := by simp only [geometryOk, hr.1, Bool.and_eq_true, decide_eq_true_eq] at hg; exact hg.2
  wf := hw

theorem RelayRoom.congr {s t : State} (h : RelayRoom s) (h1 : t.cfg = s.cfg) (h2 : t.calm) (h3 : t.relay = s.relay) :
    RelayRoom t where
  relay := h1 ▸ h.relay
  calm := h2
  frames := by
    have : t.seq .relay = s.seq .relay := by simp only [State.seq, State.exp, h1, h3]
    rw [this, h1]
    exact h.frames
  low := by
    rw [relayPins_congr (s := s) (by rw [h3]), h1]
    exact h.low
  map := h1 ▸ h.map
  chips := h1 ▸ h.chips
  wf := h3 ▸ h.wf

/-- An LCD write word on the virtual port: the chip its CS bits select acts. -/
theorem relayWord_run {s : State} {c : Nat} {rs : Bool} {d : Byte} {cmd : LcdCmd} (hr : RelayRoom s)
    (h : (selectedChips s).1 = [c]) (hd : lcdDecode rs false d = .ok cmd) :
    ∃ t, relayWord rs d s = .next t ∧ Relayed c rs d cmd s t := by
  obtain ⟨t, h1, h2⟩ := steps_strobe (vs := fun e => .lit (vp s.cfg.params.vportMap e false rs c d)) hr.calm hr.relay hr.frames
    hr.low hr.map hr.chips hr.wf (fun _ _ _ _ _ => rfl) (selectedChips_lt h) hd
  have := h1.run_append []
  rw [List.append_nil] at this
  exact ⟨t, by simp only [relayWord, h, this]; rfl, h2⟩

theorem relayCarrier : Carrier RelayWrote (fun _ s => RelayRoom s) where
  refl s := .nil rfl rfl rfl rfl rfl
  append := fun _ h h' => h.append h'
  byte := fun {n s c rs cmd} src hr hsel hc hd => by
    obtain ⟨t, h1, h2⟩ := steps_relay hr.calm hr.relay hr.frames hr.low hr.map hr.chips hr.wf hsel hc hd
    have hcfg : t.cfg = s.cfg := congrArg (·.1) h2.kept
    have hseq : t.seq .relay = s.seq .relay := by simp only [State.seq, State.exp, hcfg, h2.shadows]
    refine ⟨t, ?_, ⟨.one (w := (c, rs, src.value s)) hd h2.lcd h2.dram, ?_, hcfg, hseq⟩, ?_, h2.selChip, h2.blk, h2.kept⟩
    · unfold byteSteps
      rw [hr.relay]
      exact h1
    · rw [h2.trace]
      simp [State.relayWriteEvents]
    · refine ⟨hcfg ▸ hr.relay, h2.calm, ?_, ?_, hcfg ▸ hr.map, hcfg ▸ hr.chips, h2.wf⟩
      · rw [hseq, hcfg]
        exact hr.frames
      · rw [h2.pins, hcfg]
        exact vp_e hr.map _ _ _ _ _
  select := fun {n s c} hr hc => by
    refine ⟨(s.select (some c)).withVport (vpSelect s.cfg.params.vportMap s.cfg.chips s.vport c), ?_, .nil rfl rfl rfl rfl rfl, hr.congr rfl hr.calm rfl,
      rfl, rfl, rfl⟩
    unfold selectChipStep
    rw [if_pos hc, hr.relay]
  position := fun pg ch col phase hr => ⟨.nil rfl rfl rfl rfl rfl, hr.congr rfl hr.calm rfl⟩
  block := fun l hr => ⟨.nil rfl rfl rfl rfl rfl, hr.congr rfl hr.calm rfl⟩
  unbounded := fun hr => hr.calm.1
  noControlWord := fun hr ht => by
    have := hr.relay.symm.trans ht
    cases this
  less := fun hr _ => hr

end Sys2Proof.Machine
end

