-- ==== Sys2Proof/Laws/CarriedWords.lean ====
section
/-! SUPPORT. What an LCD write word does on each transport: the chip selected acts, and the lines R120 has the word carried on hold it. -/

namespace Sys2Proof.Machine

theorem State.wordReady_of_other {s : State} (h : s.cfg.transport ≠ .spiRelay) : s.wordReady := fun e => absurd e h

theorem RelayRoom.of_word {s : State} (ht : s.cfg.transport = .spiRelay) (h : s.wordReady) : RelayRoom s :=
  let ⟨a, b, c, d⟩ := h ht
  .of_ready a b c d

theorem Drawn.cfg {s t : State} (h : Drawn s t) : t.cfg = s.cfg := by
  obtain ⟨_, _, rfl⟩ := h
  rfl

theorem Relayed.carries {s t : State} {c : Nat} {rs : Bool} {d : Byte} {cmd : LcdCmd} (h : Relayed c rs d cmd s t)
    (ht : s.cfg.transport = .spiRelay) : t.carries c rs d := by
  have hcfg : t.cfg = s.cfg := congrArg (·.1) h.kept
  simp only [State.carries, hcfg, ht]
  refine ⟨h.vport, h.pins.trans h.vport.symm, ?_⟩
  rw [h.shadows, h.vport]
  exact cat16_high_low _

theorem offloadCarried_carries {s : State} {c : Nat} {rs : Bool} {d : Byte} (ht : s.cfg.transport = .offload) :
    (offloadCarried c rs d s).carries c rs d := by
  simp [State.carries, ht, offloadCarried, (selectedChips_drawn s).cfg]

theorem offloadCarried_trace {s : State} {c : Nat} {rs : Bool} {d : Byte} (ht : s.cfg.transport = .offload) :
    (offloadCarried c rs d s).trace = s.trace ++ s.lcdWordEvents c rs d := by
  simp [State.lcdWordEvents, ht, offloadCarried, (selectedChips_drawn s).trace]

/-- A response leaves the trace and the lines. -/
theorem lcdRespond_trace (c : Nat) (cmd : LcdCmd) (s : State) : (lcdRespond c cmd s).trace = s.trace := by
  rw [lcdRespond_eq]

theorem lcdRespond_carries {c k : Nat} {cmd : LcdCmd} {rs : Bool} {d : Byte} {s : State} (h : s.carries c rs d) :
    (lcdRespond k cmd s).carries c rs d := by
  rw [lcdRespond_eq]
  exact h

/-- A write cycle to the one chip selected. -/
theorem writeCycle_next {s : State} {c : Nat} {rs : Bool} {b : Byte} {cmd : LcdCmd} (hr : s.wordReady)
    (h : (selectedChips s).1 = [c]) (hd : lcdDecode rs false b = .ok cmd) :
    ∃ t, writeCycle rs b s = .next t ∧ t.lcd = (lcdRespond c cmd s).lcd ∧ t.dram = (lcdRespond c cmd s).dram
      ∧ t.trace = s.trace ++ s.lcdWordEvents c rs b ∧ t.carries c rs b := by
  by_cases ht : s.cfg.transport = .spiRelay
  · obtain ⟨t, h2, h1⟩ := relayWord_run (.of_word ht hr) h hd
    refine ⟨t, by simp only [writeCycle, ht]; exact h2, h1.lcd, h1.dram, ?_, h1.carries ht⟩
    rw [h1.trace]
    simp only [State.lcdWordEvents, ht]
  · refine ⟨_, writeCycle_one ht h hd, ?_⟩
    have bang : s.cfg.transport.bitBang = true → ∀ t, t = (lcdRespond c cmd (setWriteDir rs b s)).enableLow.event (.lcd c rs b) →
        t.lcd = (lcdRespond c cmd s).lcd ∧ t.dram = (lcdRespond c cmd s).dram
          ∧ t.trace = s.trace ++ s.lcdWordEvents c rs b ∧ t.carries c rs b := by
      rintro hb t rfl
      have hbs := lcdRespond_target (s := s) (t := setWriteDir rs b s) c cmd rfl rfl
      refine ⟨hbs.1, hbs.2, ?_, ?_⟩ <;> rw [lcdRespond_eq] <;> cases htr : s.cfg.transport <;>
        simp [htr, Transport.bitBang, State.lcdWordEvents, State.carries, setWriteDir, State.enableLow] at hb ⊢
    cases htr : s.cfg.transport
    · exact bang (by rw [htr]; rfl) _ rfl
    · exact bang (by rw [htr]; rfl) _ rfl
    · have hdr := selectedChips_drawn s
      have hof := lcdRespond_target (s := s) (t := offloadCarried c rs b s) c cmd hdr.lcd hdr.dram
      exact ⟨hof.1, hof.2, (lcdRespond_trace _ _ _).trans (offloadCarried_trace htr), lcdRespond_carries (offloadCarried_carries htr)⟩
    · exact absurd htr ht

end Sys2Proof.Machine
end

