-- ==== Sys2Proof/Laws/DisplayRam.lean ====
section
/-! SUPPORT. Display RAM byte by byte: the draws its unwritten bytes stand for are changed by no instruction but `construct`, so a
frame of the written bytes is a frame of all. -/

namespace Sys2Proof.Machine

/-- The draws of the chips' display RAM. -/
def State.ramDraws (s : State) : List Nat := s.lcd.map (·.ram)

theorem chip_ram (s : State) (c : Nat) : (s.chip c).ram = s.ramDraws.getD c c := by
  unfold State.chip State.ramDraws
  by_cases h : c < s.lcd.length
  · simp [h]
  · simp [Nat.not_lt.1 h, LcdChip.free]

/-- The same draws and the same written byte. -/
theorem dramAt_congr {s t : State} (h : t.ramDraws = s.ramDraws) {a : Nat}
    (hr : Mem.read dramDefault t.dram a = Mem.read dramDefault s.dram a) : t.dramAt a = s.dramAt a := by
  unfold State.dramAt
  rw [hr, chip_ram, chip_ram, h]

theorem sameDisplayRam_of {s t : State} (h : t.ramDraws = s.ramDraws) (hd : t.dram = s.dram) : SameDisplayRam s t :=
  fun a => dramAt_congr h (by rw [hd])

@[simp] theorem setExp_ramDraws (s : State) (x : ExpId) (e : Expander) : (s.setExp x e).ramDraws = s.ramDraws := by
  simp [State.ramDraws]

theorem setChip_ramDraws (s : State) (c : Nat) (k : LcdChip) (h : k.ram = (s.chip c).ram) :
    (s.setChip c k).ramDraws = s.ramDraws := by
  show (s.lcd.set c k).map (·.ram) = s.lcd.map (·.ram)
  rw [List.map_set, h, chip_ram]
  unfold State.ramDraws
  by_cases hc : c < s.lcd.length
  · rw [List.getD_eq_getElem _ _ (by simpa using hc)]
    exact List.set_getElem_self _
  · exact List.set_eq_of_length_le (by simpa using hc)

/-- No response of a chip changes a draw. -/
theorem lcdRespond_ramDraws (c : Nat) (cmd : LcdCmd) (s : State) : (lcdRespond c cmd s).ramDraws = s.ramDraws := by
  cases cmd <;> first | rfl | exact setChip_ramDraws s c _ rfl

theorem lcdCycle_ramDraws {chips : List Nat} {rs rw : Bool} {d : Byte} {s t : State} (h : lcdCycle chips rs rw d s = .ok t) :
    t.ramDraws = s.ramDraws := by
  obtain ⟨c, cmd, -, -, rfl⟩ := lcdCycle_ok h
  exact lcdRespond_ramDraws c cmd s

theorem Drawn.ramDraws {s t : State} (h : Drawn s t) : t.ramDraws = s.ramDraws := by
  obtain ⟨_, _, rfl⟩ := h
  rfl

/-- What one primitive step answers keeps the draws `l`. -/
abbrev KeepsDraws (l : List Nat) (r : MRes) : Prop :=
  r.keeps (fun s => s.ramDraws = l) (fun s => s.ramDraws = l) (fun _ => True)

theorem devLand_ramDraws {x r v} {s t : State} (h : devLand x r v s = .ok t) : t.ramDraws = s.ramDraws := by
  rcases devLand_ok h with rfl | ⟨c, cmd, -, -, rfl⟩
  · simp
  · rw [lcdRespond_ramDraws]
    simp

theorem frameWrite_ramDraws (x cmd reg data) (s : State) : KeepsDraws s.ramDraws (frameWrite x cmd reg data s) := by
  rcases frameWrite_cases x cmd reg data s with ⟨s1, t, hd, hl, e⟩ | ⟨s1, t, vs, hd, hl, -, e⟩ | ⟨r, e⟩ <;> rw [e]
  · exact (devLand_ramDraws hl).trans hd.ramDraws
  · exact (devLand_ramDraws hl).trans hd.ramDraws
  · trivial

theorem frameRead_ramDraws (x cmd reg g n) (s : State) : KeepsDraws s.ramDraws (frameRead x cmd reg g n s) := by
  rcases frameRead_cases x cmd reg g n s with ⟨s1, t, hd, e⟩ | ⟨s1, hd, e⟩ | ⟨r, e⟩ <;> rw [e]
  · exact (setExp_ramDraws _ _ _).trans hd.ramDraws
  · exact hd.ramDraws
  · trivial

theorem selectChipStep_ramDraws (c) (s : State) : KeepsDraws s.ramDraws (selectChipStep c s) := by
  unfold selectChipStep
  split
  · split <;> rfl
  · rfl

theorem reportPins_ramDraws (x l) (s : State) : KeepsDraws s.ramDraws (reportPins x l s) := by
  rcases reportPins_cases x l s with e | ⟨_, _, _, e⟩ <;> rw [e]
  · rfl
  · exact ⟨rfl, fun _ _ => trivial⟩

theorem micro_ramDraws (m : Micro) (s : State) : KeepsDraws s.ramDraws (micro m s) := by
  cases m with
  | selectChip c => exact selectChipStep_ramDraws c s
  | groupSelect c =>
    simp only [micro]
    split
    · rfl
    · exact selectChipStep_ramDraws c s
  | fsmSelect =>
    simp only [micro]
    split
    · rfl
    · trivial
  | fsmPoll =>
    have h := (drawStatus_drawn ((s.inFsm .pollBusy).suspend false)).ramDraws
    simp only [micro, pollStep]
    split <;> exact h
  | fsmStrobe =>
    simp only [micro, strobeLines]
    split
    · rename_i h
      exact (show _ = _ from lcdCycle_ramDraws h : State.ramDraws _ = (s.inFsm .strobe).ramDraws)
    · trivial
  | enqCtl w =>
    simp only [micro, enqueueCtl]
    split <;> rfl
  | enqData src =>
    simp only [micro, enqueueData]
    split <;> rfl
  | vportBegin v =>
    simp only [micro]
    split
    · rfl
    · trivial
  | olatBegin x v => cases x <;> rfl
  | olatFrameA x =>
    simp only [micro]
    split <;> exact frameWrite_ramDraws ..
  | olatFrameB x =>
    simp only [micro]
    split
    · rfl
    · exact frameWrite_ramDraws ..
  | regFrame x k p => exact frameWrite_ramDraws ..
  | gpioFrameA x =>
    simp only [micro]
    rw [← setExp_ramDraws s x { s.exp x with rx := [] }]
    split <;> exact frameRead_ramDraws ..
  | gpioFrameB x =>
    simp only [micro]
    split
    · rfl
    · exact frameRead_ramDraws ..
  | wordWrite x cmd reg data => exact frameWrite_ramDraws ..
  | wordRead x cmd reg data =>
    simp only [micro]
    rw [← setExp_ramDraws s x { s.exp x with rx := [] }]
    exact frameRead_ramDraws ..
  | loadBlock pg ch =>
    have h := (fbReads_drawn ((List.range 64).map (s.cfg.offset pg ch)) s).ramDraws
    simp only [micro]
    generalize fbReads _ s = r at h ⊢
    exact h
  | ret r =>
    simp only [micro, endOp]
    split <;> rfl
  | dispatchScan x prev => exact reportPins_ramDraws ..
  | dispatchPins x pins => exact reportPins_ramDraws ..
  | callback pin value cb => exact ⟨rfl, fun _ _ => trivial⟩
  | shadowBit x | shadowSet x | gpioEnd x => exact setExp_ramDraws ..
  | fsmReadDir | fsmWriteDir | fsmIdle | txnBegin | txnEnd | position | bitBangSetup | selectNone | setInited | dispatchEnd
  | nested | callbackRaise | fbStore => rfl

theorem run_ramDraws {ms : List Micro} {s t : State} (h : run ms s = .next t) : t.ramDraws = s.ramDraws :=
  run_keeps (P := fun u => u.ramDraws = s.ramDraws) (R := fun u => u.ramDraws = s.ramDraws) (Q := fun _ => True)
    (fun _ h => h) (fun _ _ h _ => h) (fun _ h => h) (fun m u _ hu => hu ▸ micro_ramDraws m u) (fun _ _ => trivial) rfl h

theorem beginOp_ramDraws (o : Op) (s : State) : (beginOp o s).ramDraws = s.ramDraws := by
  rw [beginOp_eq]
  rfl

theorem run_beginOp_ramDraws {ms : List Micro} {o : Op} {s t : State} (h : run ms (beginOp o s) = .next t) :
    t.ramDraws = s.ramDraws := (run_ramDraws h).trans (beginOp_ramDraws o s)

theorem withPin_ramDraws {n k} {s t : State} (ht : withPin n s k = .next t)
    (hk : ∀ m, k m = .next t → t.ramDraws = s.ramDraws) : t.ramDraws = s.ramDraws := by
  rcases withPin_next ht with ht | ⟨e, rfl⟩
  · exact hk _ ht
  · rfl

theorem withPins_ramDraws {n k} {s t : State} (ht : withPins n s k = .next t)
    (hk : k = .next t → t.ramDraws = s.ramDraws) : t.ramDraws = s.ramDraws := by
  rcases withPins_next ht with ht | ⟨e, rfl⟩
  · exact hk ht
  · rfl

theorem withShadow_ramDraws {k f} {s t : State} (ht : withShadow k s f = .next t)
    (hf : ∀ sk, f sk = .next t → t.ramDraws = s.ramDraws) : t.ramDraws = s.ramDraws := by
  rcases withShadow_next ht with ⟨sk, -, ht⟩ | ⟨e, rfl⟩
  · exact hf _ ht
  · rfl

theorem strobeLines_ramDraws {s t : State} (h : strobeLines s = .ok t) : t.ramDraws = s.ramDraws := by
  unfold strobeLines at h
  simp only at h
  split at h
  · rename_i hc
    cases h
    exact (lcdCycle_ramDraws hc :)
  · cases h

theorem offloadWord_ramDraws {rs d} {s t : State} (h : offloadWord rs d s = .ok t) : t.ramDraws = s.ramDraws := by
  have h := lcdCycle_ramDraws (show lcdCycle _ _ _ _ _ = _ from h)
  exact h.trans (selectedChips_drawn s).ramDraws

theorem relayWord_ramDraws {rs d} {s t : State} (h : relayWord rs d s = .next t) : t.ramDraws = s.ramDraws := by
  unfold relayWord at h
  split at h
  · exact run_ramDraws h
  · cases h

theorem writeCycle_ramDraws {rs b} {s t : State} (h : writeCycle rs b s = .next t) : t.ramDraws = s.ramDraws := by
  unfold writeCycle at h
  split at h
  · exact (strobeLines_ramDraws (ofExcept_next h) :)
  · exact (strobeLines_ramDraws (ofExcept_next h) :)
  · exact offloadWord_ramDraws (ofExcept_next h)
  · exact relayWord_ramDraws h

theorem statusCycle_ramDraws {v} {s t : State} (h : statusCycle v s = .next t) : t.ramDraws = s.ramDraws := by
  unfold statusCycle at h
  split at h
  · simp only at h
    split at h
    · rename_i hc
      cases h
      exact (lcdCycle_ramDraws hc :)
    · cases h
  · simp only at h
    split at h
    · rename_i hc
      cases h
      exact (lcdCycle_ramDraws hc :)
    · cases h
  · cases h
  · cases h

/-- No instruction but `construct` changes a draw of display RAM. -/
theorem exec_ramDraws {i : Instr} {s t : State} (hi : ∀ w h tr b, i ≠ .construct w h tr b) (ht : exec i s = .next t) :
    t.ramDraws = s.ramDraws := by
  cases i with
  | displayOn | displayOff | setStartLine | setPage | setColumn | writeData => exact writeCycle_ramDraws (ownBus_next ht)
  | readStatus b => exact statusCycle_ramDraws (ownBus_next ht)
  | frameWrite1 | frameRead1 =>
    simp only [exec, execFrameWrite1, execFrameRead1, writeFrameWord, readFrameWord] at ht
    split at ht
    · cases ht
    · exact run_ramDraws ht
  | frameWrite2 | frameRead2 =>
    have ht := ifSequential_next ht
    simp only [writeFrameWord, readFrameWord] at ht
    split at ht
    · cases ht
    · exact run_ramDraws ht
  | serCmdWrite | serCmdRead =>
    simp only [exec, execSerCmdWrite, execSerCmdRead, commandByte] at ht
    split at ht <;> cases ht
    rfl
  | ctlChip0Cmd | ctlChip1Cmd | ctlChip0Data | ctlChip1Data =>
    cases ht
    rfl
  | dataWord b =>
    have ht := ofExcept_next ht
    unfold drainData at ht
    simp only at ht
    split at ht
    · exact (lcdCycle_ramDraws ht).trans (ctlSeen_drawn _).ramDraws
    all_goals
      cases ht
      rfl
  | vportWrite v => exact run_ramDraws (show run (vportSteps (.lit v)) s = _ from ht)
  | construct w h tr b => exact absurd rfl (hi w h tr b)
  | bufferOffset =>
    simp only [exec, execBufferOffset] at ht
    split at ht <;> cases ht <;> rfl
  | selectChip | cmdGroup | dataGroup => exact run_beginOp_ramDraws (afterInit_next (ownTransport_next ht))
  | init => exact run_beginOp_ramDraws (ownTransport_next ht)
  | printBuffer b =>
    have ht := afterInit_next (ownTransport_next ht)
    split at ht
    · exact (run_ramDraws ht).trans (beginOp_ramDraws .printBuffer s)
    · cases ht
      rfl
  | lcdWrite rs b =>
    obtain ⟨_, ht, -⟩ := execLcdWrite_next ht
    exact run_beginOp_ramDraws ht
  | relayByte rs b =>
    have ht := ownTransport_next ht
    split at ht
    · exact run_beginOp_ramDraws ht
    · cases ht
  | enqueue w =>
    have ht := ownTransport_next ht
    split at ht
    · split at ht <;> exact run_beginOp_ramDraws ht
    · cases ht
  | setup x n d fs =>
    change execSetup x n d fs s = _ at ht
    refine withPin_ramDraws ht fun m hm => ?_
    split at hm
    · exact run_beginOp_ramDraws hm
    · cases hm
      rfl
  | output x n l =>
    change execOutput x n l s = _ at ht
    exact withPin_ramDraws ht fun m hm => run_beginOp_ramDraws hm
  | input x n r =>
    change execInput x n r s = _ at ht
    exact withPin_ramDraws ht fun m hm => run_beginOp_ramDraws hm
  | outputPins x m => exact withPins_ramDraws ht run_beginOp_ramDraws
  | inputPins x ns r => exact withPins_ramDraws ht run_beginOp_ramDraws
  | writeGpio x v =>
    simp only [exec, execWriteGpio] at ht
    split at ht
    · exact run_beginOp_ramDraws ht
    · cases ht
      rfl
  | readGpio x => exact run_beginOp_ramDraws ht
  | regWrite x k p v =>
    refine withShadow_ramDraws ht fun sk hm => ?_
    split at hm
    · split at hm
      · cases hm
        rfl
      · exact run_beginOp_ramDraws hm
    · cases hm
      rfl
  | regRead x k p =>
    refine withShadow_ramDraws ht fun sk hm => ?_
    cases hm
    rfl
  | subscribe x n cb =>
    change execSubscribe x n cb s = _ at ht
    refine withPin_ramDraws ht fun m hm => ?_
    cases hm
    exact setExp_ramDraws ..
  | dispatch x =>
    simp only [exec, execDispatch] at ht
    split at ht
    · refine (run_ramDraws ht).trans ?_
      unfold enterDispatch
      exact setExp_ramDraws ..
    · cases ht
  | expEdge x =>
    cases ht
    unfold signalEdge
    split
    · exact setExp_ramDraws ..
    · rfl

end Sys2Proof.Machine
end

