-- ==== Sys2Proof/Laws/ExpanderCalls.lean ====
section
/-! SUPPORT. The steps of `setup`, `output` and `output_pins`. -/

namespace Sys2Proof.Machine

theorem validPin_nat {n : Nat} (h : n < 16) : validPin (n : Int) = true := by simp [validPin]; omega
theorem bitOf_lt (n : Nat) : bitOf n < 8 := Nat.mod_lt _ (by omega)

theorem quietLanding_notOlat {x : ExpId} {k : ShKind} {p : Port} {v : Byte} {u : State} (hk : k ≠ .olat) (hw : Mem.wf devDefault
    (u.exp x).dev) : u.quietLanding x (regAddr k p) [v] := by
  refine quietLanding_of_notOlat hw (.inr ?_)
  cases k <;> cases p <;> simp [regAddr] at hk ⊢

/-- What a shadow write and its frame leave where nothing interrupts them. -/
structure SerialCalm (x : ExpId) (s t : State) : Prop where
  calm : t.calm
  rest : t.cfg = s.cfg ∧ t.op = s.op ∧ t.work = s.work ∧ t.disp = s.disp ∧ t.inTxn = false
  wf : Mem.wf devDefault (t.exp x).dev

theorem steps_regWritten_kept {x : ExpId} {k : ShKind} {p : Port} (v : Byte) {s : State} (hc : s.calm) (hw : Mem.wf devDefault
    (s.exp x).dev) (hq : s.quietLanding x (regAddr k p) [v]) {m : Micro} (hm : micro m s = .next (s.setShadow x k p v)) :
   Steps (m :: writeRegSteps x k p) s (regWritten x k p v s) ∧ SerialCalm x s (regWritten x k p v s) := by
  obtain ⟨c1, c2, c3, c4, c5, -⟩ := regWritten_rest x k p v s
  exact ⟨steps_regWritten hc hq hm, regWritten_calm hc _ _ _ _, ⟨c1, c2, c3, c4, c5⟩, regWritten_wf hw⟩

/-- The latch updates of `output_pins`. -/
theorem steps_latch {x : ExpId} (m : List (Nat × Int)) {s : State} (hu : s.slice = none) (hm : ∀ nl ∈ m,
    nl.1 < 16) (hnd : (m.map (·.1)).Nodup) :
   ∃ f : Pair, Steps (latchSteps x (m.map fun nl => ((nl.1 : Int),
       nl.2))) s (s.setExp x { s.exp x with sh := { (s.exp x).sh with olat := f } })
     ∧ (∀ nl ∈ m, (f.get (portOf nl.1)).getLsbD (nl.1 % 8) = decide (nl.2 ≠ 0))
     ∧ (∀ n, n < 16 → n ∉ m.map (·.1) →
         (f.get (portOf n)).getLsbD (n % 8) = ((s.exp x).sh.olat.get (portOf n)).getLsbD (n % 8)) := by
  induction m generalizing s with
  | nil =>
    refine ⟨(s.exp x).sh.olat, ?_, by simp, fun _ _ _ => rfl⟩
    have : s.setExp x { s.exp x with sh := { (s.exp x).sh with olat := (s.exp x).sh.olat } } = s := setExp_self s x
    rw [this]; exact .nil s
  | cons nl m ih =>
    obtain ⟨n, l⟩ := nl
    simp only [List.map_cons, List.nodup_cons] at hnd
    let v := setBit ((s.exp x).sh.get .olat (portOf n)) (bitOf n) (l != 0)
    have hm1 : micro (.shadowBit x .olat (portOf n) (bitOf n) (l != 0)) s = .next (s.setShadow x .olat (portOf n) v) := rfl
    have hus : (s.setShadow x .olat (portOf n) v).slice = none := by cases x <;> exact hu
    obtain ⟨f, h1, h2, h3⟩ := ih hus (fun nl h => hm nl (by simp [h])) hnd.2
    have hx : (s.setShadow x .olat (portOf n) v).exp x = { s.exp x with sh := (s.exp x).sh.set .olat (portOf n) v } :=
        setShadow_exp_same _ _ _ _ _
    have hset : ((s.exp x).sh.set .olat (portOf n) v).olat = (s.exp x).sh.olat.set (portOf n) v := rfl
    have hother : ∀ k, k < 16 → k ≠ n →
        (((s.exp x).sh.olat.set (portOf n) v).get (portOf k)).getLsbD (k % 8) = ((s.exp x).sh.olat.get (portOf k)).getLsbD
        (k % 8) := by
      intro k hk hne
      by_cases hp : portOf k = portOf n
      · rw [hp, Pair.get_set_same]
        refine setBit_other _ _ ?_
        have hn := hm (n, l) (by simp)
        unfold bitOf
        simp only [portOf] at hp hn
        split_ifs at hp <;> omega
      · rw [Pair.get_set_other _ _ hp]
    refine ⟨f, ?_, ?_, ?_⟩
    · refine .cons hu hm1 ?_
      have : (s.setShadow x .olat (portOf n) v).setExp x { (s.setShadow x .olat (portOf n) v).exp x with sh := { ((s.setShadow x .olat (portOf n) v).exp x).sh with olat := f } } = s.setExp x { s.exp x with sh := { (s.exp x).sh with olat := f } } := by
        rw [hx]; unfold State.setShadow; rw [setExp_setExp]; rfl
      rw [this] at h1; exact h1
    · intro nl h
      rcases List.mem_cons.1 h with rfl | h
      · simp only
        rw [h3 n (hm (n, l) (by simp)) hnd.1, hx]
        simp only [hset]
        rw [Pair.get_set_same]
        refine (setBit_same _ _ (Nat.mod_lt _ (by omega))).trans ?_
        by_cases h0 : l = 0 <;> simp [h0]
      · exact h2 nl h
    · intro k hk hnot
      simp only [List.map_cons, List.mem_cons, not_or] at hnot
      rw [h3 k hk hnot.2, hx]
      simp only [hset]
      exact hother k hk hnot.1

theorem wroteReg_rest (x : ExpId) (k : ShKind) (p : Port) (s : State) :
    let t := wroteReg x k p s
    t.cfg = s.cfg ∧ t.op = s.op ∧ t.work = s.work ∧ t.disp = s.disp ∧ t.inTxn = false := by
  simp [wroteReg, landed]

end Sys2Proof.Machine
end

