-- ==== Sys2Proof/Laws/FacadeFrames.lean ====
section
/-! SUPPORT. What the transport calls leave unchanged, from one lemma per primitive step: the rest of the state, and display
RAM. -/

namespace Sys2Proof.Machine

variable {L : Prop} {s t u : State}

/-- What the transport steps leave, up to an error; `L` says whether they may load a block of the framebuffer. -/
structure FacadeKept (L : Prop) (s t : State) : Prop where
  cfg : t.cfg = s.cfg
  gpio : t.gpio = s.gpio
  ca : SameCaller s t
  ints : SameInterrupts s.relay t.relay ∧ t.relay.snap = s.relay.snap
  lines : t.ctlLines = s.ctlLines ∧ t.ctlDriven = s.ctlDriven ∧ t.dataLines = s.dataLines ∧ t.strobe = s.strobe
  fb : L ∨ SameFramebuffer s t
  bb : s.cfg.transport.bitBang = true → t.relay = s.relay ∧ SameOffload s t ∧ t.vport = s.vport ∧ t.err = s.err ∧ SameBus s t
  of : s.cfg.transport = .offload → t.relay = s.relay ∧ SameLines s t ∧ SameTarget s t ∧ t.vport = s.vport ∧ t.st = s.st ∧
      SameBus s t
  rl : s.cfg.transport = .spiRelay → SameLines s t ∧ SameOffload s t ∧ t.st = s.st

/-- What they leave when HOST's move ends, an error included. -/
structure FacadeEnded (L : Prop) (s t : State) : Prop where
  cfg : t.cfg = s.cfg
  gpio : t.gpio = s.gpio
  ca : SameCaller s t
  ints : SameInterrupts s.relay t.relay ∧ t.relay.snap = s.relay.snap
  lines : t.ctlLines = s.ctlLines ∧ t.ctlDriven = s.ctlDriven ∧ t.dataLines = s.dataLines ∧ t.strobe = s.strobe
  fb : L ∨ SameFramebuffer s t
  bb : s.cfg.transport.bitBang = true → t.relay = s.relay ∧ SameOffload s t ∧ t.vport = s.vport ∧ (t.err = s.err ∨ t.err.isSome)
      ∧ (t.err = none → SameBus s t)
  of : s.cfg.transport = .offload → t.relay = s.relay ∧ SameLines s t ∧ SameTarget s t ∧ t.vport = s.vport ∧ t.st = s.st ∧
      (t.err = none → SameBus s t)
  rl : s.cfg.transport = .spiRelay → SameLines s t ∧ SameOffload s t ∧ t.st = s.st

theorem FacadeKept.done (h : FacadeKept L s t) : FacadeEnded L s t :=
  ⟨h.cfg, h.gpio, h.ca, h.ints, h.lines, h.fb, fun hb => ⟨(h.bb hb).1, (h.bb hb).2.1, (h.bb hb).2.2.1, .inl (h.bb hb).2.2.2.1,
      fun _ => (h.bb hb).2.2.2.2⟩,
   fun hb => ⟨(h.of hb).1, (h.of hb).2.1, (h.of hb).2.2.1, (h.of hb).2.2.2.1, (h.of hb).2.2.2.2.1,
       fun _ => (h.of hb).2.2.2.2.2⟩, h.rl⟩
theorem FacadeKept.raise (h : FacadeKept L s t) (e) : FacadeEnded L s (raise e t) := by
  refine ⟨h.cfg, h.gpio, h.ca, h.ints, h.lines, h.fb, fun hb => ⟨(h.bb hb).1, (h.bb hb).2.1, (h.bb hb).2.2.1, .inr rfl,
      fun hh => by cases hh⟩,
   fun hb => ⟨(h.of hb).1, (h.of hb).2.1, (h.of hb).2.2.1, (h.of hb).2.2.2.1, (h.of hb).2.2.2.2.1, fun hh => by cases hh⟩, h.rl⟩

/-- A change of what the frame does not speak of. -/
theorem FacadeKept.rest (h : FacadeKept L s t) (hu : u = { t with op := u.op, ret := u.ret, trace := u.trace, work := u.work, suspended := u.suspended, disp := u.disp, slice := u.slice, env := u.env, draws := u.draws, pg := u.pg, ch := u.ch, col := u.col, phase := u.phase, selChip := u.selChip, inited := u.inited }) : FacadeKept L s u := by
  rw [hu]
  exact ⟨h.cfg, h.gpio, h.ca, h.ints, h.lines, h.fb, h.bb, h.of, h.rl⟩
/-- A block loaded. -/
theorem FacadeKept.blk (h : FacadeKept L s t) (hL : L) (l) : FacadeKept L s (t.withBlk l) :=
  ⟨h.cfg, h.gpio, h.ca, h.ints, h.lines, .inl hL, h.bb, h.of, h.rl⟩
/-- A change of the lines and of the target, on DIRECT and COOP. -/
theorem FacadeKept.bang (h : FacadeKept L s t) (hb : s.cfg.transport.bitBang = true) (hu : u = { t with op := u.op, ret := u.ret, trace := u.trace, work := u.work, suspended := u.suspended, disp := u.disp, slice := u.slice, env := u.env, draws := u.draws, selChip := u.selChip, st := u.st, e := u.e, rw := u.rw, rs := u.rs, d := u.d, ddir := u.ddir, cs := u.cs, busDir := u.busDir, lcd := u.lcd, dram := u.dram }) : FacadeKept L s u := by
  rw [hu]
  refine ⟨h.cfg, h.gpio, h.ca, h.ints, h.lines, h.fb, h.bb, fun hh => ?_, fun hh => ?_⟩
  · rw [hh] at hb; cases hb
  · rw [hh] at hb; cases hb
/-- A change of the queues, on OFFLOAD. -/
theorem FacadeKept.queue (h : FacadeKept L s t) (hb : s.cfg.transport = .offload)
    (hu : u = { t with trace := u.trace, ctlQ := u.ctlQ, dataQ := u.dataQ, enqCount := u.enqCount }) : FacadeKept L s u := by
  rw [hu]
  refine ⟨h.cfg, h.gpio, h.ca, h.ints, h.lines, h.fb, fun hh => ?_, h.of, fun hh => ?_⟩
  · rw [hb] at hh; cases hh
  · rw [hb] at hh; cases hh
/-- A change of the relay's instance, on SPI_RELAY. -/
theorem FacadeKept.relay (h : FacadeKept L s t) (hb : s.cfg.transport = .spiRelay) (hu : u = { t with trace := u.trace, relay := u.relay, lcd := u.lcd, dram := u.dram, env := u.env, draws := u.draws, inTxn := u.inTxn, openFrame := u.openFrame, vport := u.vport, selChip := u.selChip })
   (hi : u.relay.subs = t.relay.subs ∧ u.relay.pending = t.relay.pending ∧ u.relay.snap = t.relay.snap) : FacadeKept L s u := by
  have h1 : SameInterrupts s.relay u.relay ∧ u.relay.snap = s.relay.snap := ⟨⟨hi.1.trans h.ints.1.1, hi.2.1.trans h.ints.1.2⟩,
      hi.2.2.trans h.ints.2⟩
  rw [hu]
  refine ⟨h.cfg, h.gpio, h.ca, h1, h.lines, h.fb, fun hh => ?_, fun hh => ?_, h.rl⟩
  · rw [hb] at hh; cases hh
  · rw [hb] at hh; cases hh

theorem devLand_relay_eq {r vs} (h : devLand .relay r vs s = .ok t) : ∃ d l m,
    t = { s with relay := { s.relay with dev := d }, lcd := l, dram := m } := by
  rcases devLand_ok h with rfl | ⟨c, cmd, -, -, rfl⟩
  · exact ⟨_, _, _, rfl⟩
  · obtain ⟨k, m, e, -⟩ :=
        lcdRespond_cases c cmd (s.setExp .relay { s.exp .relay with dev := devStore (s.exp .relay).dev r.toNat vs })
    rw [e]; exact ⟨_, _, _, rfl⟩

abbrev KeepsFacade (L : Prop) (s : State) (r : MRes) : Prop := r.keeps (FacadeKept L s) (FacadeEnded L s) (fun _ => True)

theorem frameWrite_facade {cmd reg data} (h : FacadeKept L s t) (hb : s.cfg.transport = .spiRelay) : KeepsFacade L s
    (frameWrite .relay cmd reg data t) := by
  have key : ∀ {s1 t1 vs}, Drawn t.closeFrame s1 → devLand .relay reg vs s1 = .ok t1 → FacadeKept L s t1 := by
    intro s1 t1 vs hd hl
    obtain ⟨env, n, rfl⟩ := hd
    obtain ⟨d, l, m, rfl⟩ := devLand_relay_eq hl
    exact h.relay hb rfl ⟨rfl, rfl, rfl⟩
  rcases frameWrite_cases .relay cmd reg data t with ⟨s1, t1, hd, hl, e⟩ | ⟨s1, t1, vs, hd, hl, -, e⟩ | ⟨r, e⟩ <;> rw [e]
  · exact (key hd hl).rest rfl
  · exact ((key hd hl).rest rfl : FacadeKept L s (t1.event (.frameFailed cmd reg))).raise _
  · trivial

/-- The primitive steps of the transport calls, by transport. -/
inductive TransportStep (L : Prop) : Transport → Micro → Prop
  | selectChip (tr c) : TransportStep L tr (.selectChip c)
  | groupSelect (tr c) : TransportStep L tr (.groupSelect c)
  | fsm (tr m) (hb : Transport.bitBang tr = true) (hm : m = .fsmSelect ∨ m = .fsmReadDir ∨ m = .fsmPoll ∨ (∃ a b, m = .fsmWriteDir a b) ∨ m = .fsmStrobe ∨ m = .fsmIdle ∨ m = .bitBangSetup) : TransportStep L tr m
  | enqCtl (w) : TransportStep L .offload (.enqCtl w)
  | enqData (w) : TransportStep L .offload (.enqData w)
  | vportBegin (w) : TransportStep L .spiRelay (.vportBegin w)
  | olatBegin (w) : TransportStep L .spiRelay (.olatBegin .relay w)
  | olatFrameA : TransportStep L .spiRelay (.olatFrameA .relay)
  | olatFrameB : TransportStep L .spiRelay (.olatFrameB .relay)
  | txnBegin : TransportStep L .spiRelay .txnBegin
  | txnEnd : TransportStep L .spiRelay .txnEnd
  | shadowSet (k p v) : TransportStep L .spiRelay (.shadowSet .relay k p v)
  | regFrame (k p) : TransportStep L .spiRelay (.regFrame .relay k p)
  | position (tr a b c d) : TransportStep L tr (.position a b c d)
  | loadBlock (tr a b) (h : L) : TransportStep L tr (.loadBlock a b)
  | selectNone (tr) : TransportStep L tr .selectNone
  | setInited (tr) : TransportStep L tr .setInited
  | ret (tr r) : TransportStep L tr (.ret r)

theorem selectChipStep_facade (h : FacadeKept L s t) (c) : KeepsFacade L s (selectChipStep c t) := by
  unfold selectChipStep
  split
  · split
    · rename_i ht; exact h.bang (by rw [← h.cfg, ht]; rfl) rfl
    · rename_i ht; exact h.bang (by rw [← h.cfg, ht]; rfl) rfl
    · exact h.rest rfl
    · rename_i ht; exact h.relay (by rw [← h.cfg, ht]) rfl ⟨rfl, rfl, rfl⟩
  · exact h.raise _

theorem FacadeKept.olatBegin (h : FacadeKept L s t) (hb : s.cfg.transport = .spiRelay) (v : Half) :
    FacadeKept L s (Machine.olatBegin .relay v t) := h.relay hb rfl ⟨rfl, rfl, rfl⟩

/-- What one transport step leaves. -/
theorem micro_facade {m} (hm : TransportStep L s.cfg.transport m) (h : FacadeKept L s t) : KeepsFacade L s (micro m t) := by
  generalize htr : s.cfg.transport = tr at hm
  cases hm with
  | selectChip _ c => exact selectChipStep_facade h _
  | groupSelect _ c => simp only [micro]; split; exact h; exact selectChipStep_facade h _
  | fsm _ _ hb hm =>
    have hb : s.cfg.transport.bitBang = true := by rw [htr]; exact hb
    rcases hm with rfl | rfl | rfl | ⟨a, b, rfl⟩ | rfl | rfl | rfl
    · simp only [micro]; split
      · exact h.bang hb rfl
      · trivial
    · exact h.bang hb rfl
    · obtain ⟨env, n, hd⟩ := drawStatus_drawn ((t.inFsm .pollBusy).suspend false)
      simp only [micro, pollStep, hd]
      split
      · exact h.bang hb rfl
      · exact h.bang hb rfl
    · exact h.bang hb rfl
    · simp only [micro, strobeLines]
      split
      · rename_i s' hh
        obtain ⟨c, cmd, -, -, rfl⟩ := lcdCycle_ok hh
        obtain ⟨k, m, e, -⟩ := lcdRespond_cases c cmd (t.inFsm .strobe)
        rw [e]
        exact h.bang hb rfl
      · trivial
    · exact h.bang hb rfl
    · exact h.bang hb rfl
  | enqCtl w => simp only [micro, enqueueCtl]; split; exact h.queue htr rfl; exact h
  | enqData w => simp only [micro, enqueueData]; split; exact h.queue htr rfl; exact h
  | vportBegin w =>
    simp only [micro]; split
    · exact FacadeKept.olatBegin (h.rest rfl : FacadeKept L s (t.event _)) htr _
    · trivial
  | olatBegin w => exact h.olatBegin htr w
  | olatFrameA => simp only [micro]; split <;> exact frameWrite_facade h htr
  | olatFrameB => simp only [micro]; split; exact h; exact frameWrite_facade h htr
  | txnBegin => exact h.relay htr rfl ⟨rfl, rfl, rfl⟩
  | txnEnd => exact h.relay htr rfl ⟨rfl, rfl, rfl⟩
  | shadowSet k p v => exact h.relay htr rfl ⟨rfl, rfl, rfl⟩
  | regFrame k p => exact frameWrite_facade h htr
  | position _ a b c d => exact h.rest rfl
  | loadBlock _ a b hL =>
    obtain ⟨env, n, hd⟩ := fbReads_drawn ((List.range 64).map (t.cfg.offset a b)) t
    simp only [micro, hd]
    exact FacadeKept.blk (h.rest rfl) hL _
  | selectNone _ => exact h.rest rfl
  | setInited _ => exact h.rest rfl
  | ret _ r => simp only [micro, endOp]; split <;> exact h.rest rfl

theorem FacadeKept.refl : FacadeKept L s s := ⟨rfl, rfl, ⟨rfl, rfl, rfl, rfl⟩, ⟨⟨rfl, rfl⟩, rfl⟩, ⟨rfl, rfl, rfl, rfl⟩, .inr ⟨rfl,
    rfl, rfl⟩, fun _ => ⟨rfl, ⟨rfl, rfl, rfl, rfl, rfl, rfl, rfl⟩, rfl, rfl, ⟨rfl, rfl⟩⟩, fun _ => ⟨rfl, ⟨rfl, rfl, rfl, rfl,
    rfl, rfl, rfl⟩, ⟨rfl, rfl⟩, rfl, rfl, ⟨rfl, rfl⟩⟩, fun _ => ⟨⟨rfl, rfl, rfl, rfl, rfl, rfl, rfl⟩, ⟨rfl, rfl, rfl, rfl, rfl,
    rfl, rfl⟩, rfl⟩⟩

theorem run_facade {ms} (hms : ∀ m ∈ ms,
    TransportStep L s.cfg.transport m) (h0 : FacadeKept L s u) (h : run ms u = .next t) : FacadeEnded L s t :=
  run_keeps_class (P := FacadeKept L s) (R := FacadeEnded L s) (Q :=
      TransportStep L s.cfg.transport) (fun _ h => h.rest rfl) (fun _ _ h => FacadeKept.done (h.rest rfl)) (fun _ h => h.done)
      (fun _ _ hm hu => micro_facade hm hu) hms h0 h

theorem beginOp_facade (o) : FacadeKept L s (beginOp o s) := by rw [beginOp_eq]; exact FacadeKept.refl.rest rfl

section cls
variable {c : Cfg}
theorem transportStep_byte (rs src) : ∀ m ∈ byteSteps c rs src, TransportStep L c.transport m := by
  intro m hm
  unfold byteSteps at hm
  split at hm <;> rename_i ht <;> rw [ht]
  · simp [fsmSteps] at hm; refine .fsm _ _ rfl ?_; rcases hm with h | h | h | h | h | h <;> simp [h]
  · simp [fsmSteps] at hm; refine .fsm _ _ rfl ?_; rcases hm with h | h | h | h | h | h <;> simp [h]
  · simp at hm; subst hm; exact .enqData _
  · have hv : ∀ v, ∀ m ∈ vportSteps v, TransportStep L .spiRelay m := by
      intro v m hm; simp [vportSteps] at hm; rcases hm with rfl | rfl | rfl | rfl
      · exact .vportBegin _
      · exact .olatFrameA
      · exact .olatFrameB
      · exact .txnEnd
    unfold relaySteps strobeSteps at hm
    split at hm <;> simp only [List.mem_append] at hm
    · rcases hm with (hm | hm) | hm <;> exact hv _ m hm
    · rcases hm with hm | hm <;> exact hv _ m hm
theorem transportStep_lcdWrite {rs src} {l : List Micro}
    (hl : ∀ m ∈ l, m ∈ byteSteps c rs src ∨ c.transport = .offload ∧ ∃ w, m = .enqCtl w) :
    ∀ m ∈ l, TransportStep L c.transport m := by
  intro m hm
  rcases hl m hm with h | ⟨h, w, rfl⟩
  · exact transportStep_byte _ _ m h
  · rw [h]; exact .enqCtl _
theorem transportStep_head (a b) : ∀ m ∈ groupHead c a b, TransportStep L c.transport m := by
  intro m hm; unfold groupHead at hm; split at hm <;> rename_i ht <;> rw [ht] <;> simp at hm
  · subst hm; exact .groupSelect _ _
  · subst hm; exact .groupSelect _ _
  · subst hm; exact .groupSelect _ _
  · rcases hm with rfl | rfl
    · exact .groupSelect _ _
    · exact .enqCtl _
theorem transportStep_group (a b bs) : ∀ m ∈ groupSteps c a b bs, TransportStep L c.transport m := by
  intro m hm; simp only [groupSteps, List.mem_append, List.mem_flatMap] at hm
  rcases hm with hm | ⟨_, _, hm⟩
  · exact transportStep_head _ _ m hm
  · exact transportStep_byte _ _ m hm
theorem transportStep_block (hL : L) (a b) : ∀ m ∈ blockSteps c a b, TransportStep L c.transport m := by
  intro m hm
  simp only [blockSteps, dataSteps, List.mem_append, List.mem_flatMap, List.mem_cons, List.not_mem_nil, or_false] at hm
  rcases hm with (((((((((rfl | rfl) | hm) | hm) | rfl) | hm) | rfl | rfl) | hm) | ⟨_, _, rfl | hm⟩) | rfl)
  all_goals first | exact .position _ _ _ _ _ | exact .selectChip _ _ | exact .loadBlock _ _ _ hL | exact transportStep_head _ _ m hm | exact transportStep_byte _ _ m hm
theorem transportStep_sweep (hL : L) : ∀ m ∈ sweepSteps c, TransportStep L c.transport m := by
  intro m hm; simp only [sweepSteps, List.mem_flatMap] at hm
  obtain ⟨_, _, hm⟩ := hm; exact transportStep_block hL _ _ m hm
theorem transportStep_setup (t) : ∀ m ∈ setupSteps t, TransportStep L t m := by
  intro m hm
  cases t <;> simp [setupSteps, regWriteSteps, writeRegSteps, writeGpioSteps] at hm
  · subst hm; exact .fsm _ _ rfl (by simp)
  · subst hm; exact .fsm _ _ rfl (by simp)
  · subst hm; exact .selectNone _
  · rcases hm with hm | hm | hm | hm | hm | hm | hm | hm | hm | hm | hm | hm | hm | hm | hm | hm | hm <;> subst hm
    all_goals first | exact .shadowSet _ _ _ | exact .regFrame _ _ | exact .txnBegin | exact .txnEnd | exact .olatBegin _ | exact .olatFrameA | exact .olatFrameB | exact .selectNone _
theorem transportStep_init : ∀ m ∈ initSteps c, TransportStep L c.transport m := by
  intro m hm
  simp only [initSteps, List.mem_append, List.mem_flatMap, List.mem_cons, List.not_mem_nil, or_false] at hm
  rcases hm with (hm | ⟨_, _, rfl | hm⟩) | rfl | rfl
  · exact transportStep_setup _ m hm
  · exact .selectChip _ _
  · exact transportStep_group _ _ _ m hm
  · exact .setInited _
  · exact .ret _ _
theorem transportStep_app {l : List Micro} {t} (h : ∀ m ∈ l, TransportStep L t m) (r) : ∀ m ∈ l ++ [.ret r],
    TransportStep L t m := by
  intro m hm; rw [List.mem_append] at hm; rcases hm with hm | hm
  · exact h m hm
  · simp at hm; subst hm; exact .ret _ _
end cls

/-- What a transport call, or `buffer_offset`, leaves. -/
theorem exec_facade {i : Instr} (hi : (i.isTransportCall = true ∨ ∃ p c k, i = .bufferOffset p c k)) (hL : (∀ buffer,
    i ≠ .printBuffer buffer) ∨ L) (ht : exec i s = .next t) : FacadeEnded L s t := by
  rcases hi with hi | ⟨p, c, k, rfl⟩
  · cases i with
    | selectChip c =>
      refine run_facade ?_ (beginOp_facade _) (afterInit_next (ownTransport_next ht))
      intro m hm; simp at hm; rcases hm with rfl | rfl
      · exact .selectChip _ _
      · exact .ret _ _
    | init => exact run_facade transportStep_init (beginOp_facade _) (ownTransport_next ht)
    | printBuffer b =>
      have hL : L := hL.elim (fun h => absurd rfl (h b)) id
      have := afterInit_next (ownTransport_next ht)
      split at this
      · refine run_facade (transportStep_app (transportStep_sweep hL) _) ?_ this
        have h := @beginOp_facade L s .printBuffer
        exact ⟨h.cfg, h.gpio, h.ca, h.ints, h.lines, .inl hL, h.bb, h.of, h.rl⟩
      · cases this; exact FacadeKept.refl.raise _
    | cmdGroup c bs => exact run_facade (transportStep_app (transportStep_group _ _ _) _) (beginOp_facade _) (afterInit_next (ownTransport_next ht))
    | dataGroup c bs => exact run_facade (transportStep_app (transportStep_group _ _ _) _) (beginOp_facade _) (afterInit_next (ownTransport_next ht))
    | lcdWrite rs b =>
      obtain ⟨l, hl, hm⟩ := execLcdWrite_next ht
      exact run_facade (transportStep_app (transportStep_lcdWrite hm) _) (beginOp_facade _) hl
    | relayByte rs b =>
      have := ownTransport_next ht
      split at this
      · rename_i htr
        refine run_facade (transportStep_app ?_ _) (beginOp_facade _) this
        have := @transportStep_byte L s.cfg rs (.imm b)
        simp only [byteSteps, htr] at this
        rw [htr]; exact this
      · cases this
    | enqueue w =>
      have := ownTransport_next ht
      split at this
      · rename_i htr
        split at this
        · refine run_facade (transportStep_app (l := [_]) ?_ _) (beginOp_facade _) this
          intro m hm; simp at hm; subst hm; rw [htr]; exact .enqCtl _
        · refine run_facade (transportStep_app (l := [_]) ?_ _) (beginOp_facade _) this
          intro m hm; simp at hm; subst hm; rw [htr]; exact .enqData _
      · cases this
    | _ => cases hi
  · simp only [exec, execBufferOffset] at ht
    split at ht
    · cases ht; exact FacadeKept.done (FacadeKept.refl.rest rfl)
    · cases ht; exact FacadeKept.refl.raise _


theorem lcdRespond_dram_cases (c cmd) (s : State) : (lcdRespond c cmd s).dram = s.dram ∨ ∃ b, cmd = .data b ∧
    (lcdRespond c cmd s).dram = Mem.write dramDefault s.dram (dramAddr c (s.chip c).x (s.chip c).y) b := by
  obtain ⟨k, m, e, hm⟩ := lcdRespond_cases c cmd s
  rw [e]
  rcases hm with rfl | ⟨b, h, rfl⟩
  · exact .inl rfl
  · exact .inr ⟨b, h, rfl⟩
theorem lcdRespond_rest (c cmd) (s : State) : (lcdRespond c cmd s).cfg = s.cfg ∧ (lcdRespond c cmd s).cs = s.cs ∧
    (lcdRespond c cmd s).selChip = s.selChip := by
  obtain ⟨k, m, e, hm⟩ := lcdRespond_cases c cmd s
  rw [e]; exact ⟨rfl, rfl, rfl⟩

theorem dramAddr_lt (c x y) : c * 512 ≤ dramAddr c x y ∧ dramAddr c x y < (c + 1) * 512 := by
  unfold dramAddr; omega
theorem dramAddr_in_page (c x y) : dramAddr c x 0#6 ≤ dramAddr c x y ∧ dramAddr c x y < dramAddr c x 0#6 + 64 := by
  unfold dramAddr; simp; omega

/-- The configuration, the form of display RAM, and what lies beyond the panel's chips stay. -/
structure KeptBeyond (s t : State) : Prop where
  cfg : t.cfg = s.cfg
  wf : Mem.wf dramDefault t.dram
  same : ∀ a, 512 * s.cfg.chips ≤ a → Mem.read dramDefault t.dram a = Mem.read dramDefault s.dram a

theorem KeptBeyond.keep (h : KeptBeyond s t) (hc : u.cfg = t.cfg) (hd : u.dram = t.dram) : KeptBeyond s u := ⟨hc.trans h.cfg,
    hd ▸ h.wf, hd ▸ h.same⟩
theorem KeptBeyond.respond (h : KeptBeyond s t) {c} (cmd) (hc : c < s.cfg.chips) : KeptBeyond s (lcdRespond c cmd t) := by
  obtain ⟨h1, h2, h3⟩ := lcdRespond_rest c cmd t
  rcases lcdRespond_dram_cases c cmd t with e | ⟨b, -, e⟩
  · exact h.keep h1 e
  · refine ⟨h1.trans h.cfg, e ▸ Mem.write_wf h.wf _ _, fun a ha => ?_⟩
    have := (dramAddr_lt c (t.chip c).x (t.chip c).y).2
    have : (c + 1) * 512 ≤ s.cfg.chips * 512 := Nat.mul_le_mul_right _ hc
    rw [e, Mem.read_write_other h.wf _ (by omega)]
    exact h.same a ha

theorem chipsWhere_mem {n sel c} (h : chipsWhere n sel = [c]) : c < n ∧ sel c = true := by
  have : c ∈ chipsWhere n sel := by rw [h]; simp
  simpa [chipsWhere] using this
theorem KeptBeyond.land {r vs} (h : KeptBeyond s t) (hl : devLand .relay r vs t = .ok u) : KeptBeyond s u := by
  have h1 : KeptBeyond s (t.setExp .relay { t.exp .relay with dev := devStore (t.exp .relay).dev r.toNat vs }) :=
      h.keep (by simp) (by simp)
  unfold devLand at hl
  simp only at hl
  unfold relayLatch at hl
  simp only at hl
  split at hl
  · obtain ⟨c, cmd, hc, -, rfl⟩ := lcdCycle_ok hl
    refine h1.respond _ ?_
    have := (chipsWhere_mem hc).1
    rw [h1.cfg] at this; exact this
  · cases hl; exact h1

abbrev KeepsBeyond (s : State) (r : MRes) : Prop := r.keeps (KeptBeyond s) (KeptBeyond s) (fun _ => True)
theorem frameWrite_beyond {cmd reg data} (h : KeptBeyond s t) : KeepsBeyond s (frameWrite .relay cmd reg data t) := by
  have key : ∀ {s1 t1 vs}, Drawn t.closeFrame s1 → devLand .relay reg vs s1 = .ok t1 → KeptBeyond s t1 := by
    intro s1 t1 vs hd hl
    obtain ⟨env, n, rfl⟩ := hd
    exact KeptBeyond.land (t := State.redraw t.closeFrame env n) (h.keep rfl rfl) hl
  rcases frameWrite_cases .relay cmd reg data t with ⟨s1, t1, hd, hl, e⟩ | ⟨s1, t1, vs, hd, hl, -, e⟩ | ⟨r, e⟩ <;> rw [e]
  · exact (key hd hl).keep rfl rfl
  · exact (key hd hl).keep rfl rfl
  · trivial

theorem selectChipStep_keeps (c) : (selectChipStep c t).keeps (fun u => u.cfg = t.cfg ∧ u.dram = t.dram ∧ u.lcd = t.lcd ∧
    u.selChip = some c) (fun u => u.cfg = t.cfg ∧ u.dram = t.dram) (fun _ => True) := by
  unfold selectChipStep
  split
  · split <;> exact ⟨rfl, rfl, rfl, rfl⟩
  · exact ⟨rfl, rfl⟩

theorem strobeLines_ok {t u : State} (h : strobeLines t = .ok u) : ∃ c cmd, c < t.cfg.chips ∧ t.cs.getD c false = true ∧
    lcdDecode t.rs t.rw t.d = .ok cmd ∧ u.dram = (lcdRespond c cmd t).dram ∧ u.lcd = (lcdRespond c cmd t).lcd ∧ u.cfg = t.cfg ∧
    u.cs = t.cs ∧ u.selChip = t.selChip ∧ u.rs = t.rs := by
  unfold strobeLines at h
  simp only at h
  split at h
  · rename_i s' hh
    cases h
    obtain ⟨c, cmd, hc, hd, rfl⟩ := lcdCycle_ok hh
    obtain ⟨k, m, e, -⟩ := lcdRespond_cases c cmd t
    refine ⟨c, cmd, (chipsWhere_mem hc).1, (chipsWhere_mem hc).2, hd, rfl, rfl, ?_⟩
    rw [e]; exact ⟨rfl, rfl, rfl, rfl⟩
  · cases h

theorem pollStep_keeps : (pollStep t).keeps (fun u => u.cfg = t.cfg ∧ u.dram = t.dram ∧ u.lcd = t.lcd ∧ u.selChip = t.selChip ∧
    u.cs = t.cs ∧ u.rs = t.rs) (fun _ => False) (fun _ => True) := by
  obtain ⟨env, n, hd⟩ := drawStatus_drawn ((t.inFsm .pollBusy).suspend false)
  simp only [pollStep, hd]
  split
  · exact ⟨rfl, rfl, rfl, rfl, rfl, rfl⟩
  · exact ⟨rfl, rfl, rfl, rfl, rfl, rfl⟩

theorem loadBlock_keeps (a b) : (micro (.loadBlock a b) t).keeps (fun u => u.cfg = t.cfg ∧
    u.dram = t.dram) (fun _ => False) (fun _ => True) := by
  obtain ⟨env, n, hd⟩ := fbReads_drawn ((List.range 64).map (t.cfg.offset a b)) t
  have : micro (.loadBlock a b) t = .next ((fbReads ((List.range 64).map (t.cfg.offset a b)) t).2.withBlk (fbReads
      ((List.range 64).map (t.cfg.offset a b)) t).1) := rfl
  rw [this, hd]
  generalize (fbReads ((List.range 64).map (t.cfg.offset a b)) t).1 = l
  exact ⟨rfl, rfl⟩

theorem olatBegin_keeps (v) : (olatBegin .relay v t).cfg = t.cfg ∧ (olatBegin .relay v t).dram = t.dram := ⟨rfl, rfl⟩
theorem micro_beyond {m} {tr} (hm : TransportStep True tr m) (h : KeptBeyond s t) : KeepsBeyond s (micro m t) := by
  have sel : ∀ c, KeepsBeyond s (selectChipStep c t) :=
      fun c => MRes.keeps_mono (selectChipStep_keeps c) (fun u hu => h.keep hu.1 hu.2.1) (fun u hu => h.keep hu.1 hu.2)
      (fun _ h => h)
  cases hm with
  | selectChip _ c => exact sel c
  | groupSelect _ c => simp only [micro]; split; exact h; exact sel c
  | fsm _ _ hb hm =>
    rcases hm with rfl | rfl | rfl | ⟨a, b, rfl⟩ | rfl | rfl | rfl
    · simp only [micro]; split
      · exact h.keep rfl rfl
      · trivial
    · exact h.keep rfl rfl
    · exact MRes.keeps_mono (@pollStep_keeps t) (fun u hu => h.keep hu.1 hu.2.1) (fun _ h => h.elim) (fun _ h => h)
    · exact h.keep rfl rfl
    · simp only [micro]
      cases hs : strobeLines (t.inFsm .strobe) with
      | error e => trivial
      | ok u =>
        obtain ⟨c, cmd, hc, -, -, hd, -, hcf, -⟩ := strobeLines_ok hs
        have hc' : c < s.cfg.chips := by have : c < t.cfg.chips := hc; rwa [h.cfg] at this
        have h1 : KeptBeyond s (t.inFsm .strobe) := h.keep rfl rfl
        have := h1.respond cmd hc'
        exact this.keep (hcf.trans (lcdRespond_rest c cmd (t.inFsm .strobe)).1.symm) hd
    · exact h.keep rfl rfl
    · exact h.keep rfl rfl
  | enqCtl w => simp only [micro, enqueueCtl]; split; exact h.keep rfl rfl; exact h
  | enqData w => simp only [micro, enqueueData]; split; exact h.keep rfl rfl; exact h
  | vportBegin w =>
    simp only [micro]; split
    · have e := olatBegin_keeps (t := t.event (.vport ‹_›)) ‹_›
      exact h.keep e.1 e.2
    · trivial
  | olatBegin w => exact h.keep (olatBegin_keeps w).1 (olatBegin_keeps w).2
  | olatFrameA => simp only [micro]; split <;> exact frameWrite_beyond h
  | olatFrameB => simp only [micro]; split; exact h; exact frameWrite_beyond h
  | txnBegin => exact h.keep rfl rfl
  | txnEnd => exact h.keep rfl rfl
  | shadowSet k p v => exact h.keep rfl rfl
  | regFrame k p => exact frameWrite_beyond h
  | position _ a b c d => exact h.keep rfl rfl
  | loadBlock _ a b hL =>
    exact MRes.keeps_mono (loadBlock_keeps (t := t) a b) (fun u hu => h.keep hu.1 hu.2) (fun _ h => h.elim) (fun _ h => h)
  | selectNone _ => exact h.keep rfl rfl
  | setInited _ => exact h.keep rfl rfl
  | ret _ r => simp only [micro, endOp]; split <;> exact h.keep rfl rfl

theorem run_beyond {ms tr} (hms : ∀ m ∈ ms,
    TransportStep True tr m) (h0 : KeptBeyond s u) (h : run ms u = .next t) : KeptBeyond s t :=
  run_keeps_class (P := KeptBeyond s) (R := KeptBeyond s) (Q :=
      TransportStep True tr) (fun _ h => h.keep rfl rfl) (fun _ _ h => h.keep rfl rfl) (fun _ h => h)
      (fun _ _ hm hu => micro_beyond hm hu) hms h0 h

/-- No transport call reaches beyond the panel's chips. -/
theorem exec_beyond {i : Instr} (hi : i.isTransportCall = true) (hw : Mem.wf dramDefault s.dram)
    (ht : exec i s = .next t) : KeptBeyond s t := by
  have rf : KeptBeyond s s := ⟨rfl, hw, fun _ _ => rfl⟩
  have bo : ∀ o, KeptBeyond s (beginOp o s) := fun o => by rw [beginOp_eq]; exact rf.keep rfl rfl
  have rz : ∀ e, KeptBeyond s (raise e s) := fun e => rf.keep rfl rfl
  cases i with
  | selectChip c =>
    refine run_beyond (tr := .direct) ?_ (bo _) (afterInit_next (ownTransport_next ht))
    intro m hm; simp at hm; rcases hm with rfl | rfl
    · exact .selectChip _ _
    · exact .ret _ _
  | init => exact run_beyond transportStep_init (bo _) (ownTransport_next ht)
  | printBuffer b =>
    have := afterInit_next (ownTransport_next ht)
    split at this
    · have h0 : KeptBeyond s { beginOp .printBuffer s with fb := b, fbMods := [] } := (bo .printBuffer).keep rfl rfl
      exact run_beyond (transportStep_app (transportStep_sweep trivial) _) h0 this
    · cases this; exact rz _
  | cmdGroup c bs => exact run_beyond (transportStep_app (transportStep_group _ _ _) _) (bo _) (afterInit_next (ownTransport_next ht))
  | dataGroup c bs => exact run_beyond (transportStep_app (transportStep_group _ _ _) _) (bo _) (afterInit_next (ownTransport_next ht))
  | lcdWrite rs b =>
    obtain ⟨l, hl, hm⟩ := execLcdWrite_next ht
    exact run_beyond (transportStep_app (transportStep_lcdWrite hm) _) (bo _) hl
  | relayByte rs b =>
    have := ownTransport_next ht
    split at this
    · rename_i htr
      refine run_beyond (tr := .spiRelay) (transportStep_app ?_ _) (bo _) this
      have := @transportStep_byte True s.cfg rs (.imm b)
      simpa only [byteSteps, htr] using this
    · cases this
  | enqueue w =>
    have := ownTransport_next ht
    split at this
    · split at this
      · refine run_beyond (tr := .offload) (transportStep_app (l := [_]) ?_ _) (bo _) this
        intro m hm; simp at hm; subst hm; exact .enqCtl _
      · refine run_beyond (tr := .offload) (transportStep_app (l := [_]) ?_ _) (bo _) this
        intro m hm; simp at hm; subst hm; exact .enqData _
    · cases this
  | _ => cases hi

/-! ## Display RAM, sequence by sequence -/
/-- Display RAM stays. -/
abbrev SameDram (s t : State) : Prop := t.dram = s.dram

/-- The steps of the sequencer with command bytes alone. -/
inductive CommandStep : Micro → Prop
  | selectChip (c) : CommandStep (.selectChip c)
  | groupSelect (c) : CommandStep (.groupSelect c)
  | fsmSelect : CommandStep .fsmSelect
  | fsmReadDir : CommandStep .fsmReadDir
  | fsmPoll : CommandStep .fsmPoll
  | fsmWriteDir (b) : CommandStep (.fsmWriteDir false b)
  | fsmStrobe : CommandStep .fsmStrobe
  | fsmIdle : CommandStep .fsmIdle
  | setInited : CommandStep .setInited
  | ret (r) : CommandStep (.ret r)

/-- RS is low, so that a strobe is a command, and display RAM stays. -/
abbrev CommandKept (s t : State) : Prop := t.rs = false ∧ t.dram = s.dram
theorem selectChipStep_command (h : CommandKept s t) (c) : (selectChipStep c t).keeps (CommandKept s) (SameDram s)
    (fun _ => True) := by
  unfold selectChipStep
  split
  · split <;> exact h
  · exact h.2
theorem lcdDecode_command {rw d cmd b} (h : lcdDecode false rw d = .ok cmd) : cmd ≠ .data b := by
  rintro rfl
  cases rw <;> simp [lcdDecode] at h
  repeat' split at h
  all_goals first | (injection h with h; cases h) | cases h
theorem micro_command {m} (hm : CommandStep m) (h : CommandKept s t) : (micro m t).keeps (CommandKept s) (SameDram s)
    (fun _ => True) := by
  cases hm with
  | selectChip c => exact selectChipStep_command h c
  | groupSelect c => simp only [micro]; split; exact h; exact selectChipStep_command h c
  | fsmSelect => simp only [micro]; split; exact h; trivial
  | fsmReadDir => exact ⟨rfl, h.2⟩
  | fsmPoll =>
    exact MRes.keeps_mono (@pollStep_keeps t) (fun u hu => ⟨hu.2.2.2.2.2.trans h.1,
        hu.2.1.trans h.2⟩) (fun _ h => h.elim) (fun _ h => h)
  | fsmWriteDir b => exact ⟨rfl, h.2⟩
  | fsmStrobe =>
    simp only [micro]
    cases hs : strobeLines (t.inFsm .strobe) with
    | error e => trivial
    | ok u =>
      obtain ⟨c, cmd, -, -, hdec, hd, -, -, -, -, hrs⟩ := strobeLines_ok hs
      refine ⟨hrs.trans h.1, ?_⟩
      rcases lcdRespond_dram_cases c cmd (t.inFsm .strobe) with e | ⟨b, hb, e⟩
      · exact (hd.trans e).trans h.2
      · exact absurd hb (lcdDecode_command (by rw [show (t.inFsm .strobe).rs = false from h.1] at hdec; exact hdec))
  | fsmIdle => exact h
  | setInited => exact h
  | ret r => simp only [micro, endOp]; split <;> exact h
theorem run_commands {ms} (hms : ∀ m ∈ ms, CommandStep m) (h0 : CommandKept s u) (h : run ms u = .next t) : SameDram s t :=
  run_keeps_class (P := CommandKept s) (R := SameDram s) (Q :=
      CommandStep) (fun _ h => h) (fun _ _ h => h.2) (fun _ h => h.2) (fun _ _ hm hu => micro_command hm hu) hms h0 h
theorem commandStep_fsm {src} : ∀ m ∈ fsmSteps false src, CommandStep m := by
  intro m hm; simp [fsmSteps] at hm; rcases hm with rfl | rfl | rfl | rfl | rfl | rfl <;> constructor
theorem commandStep_app {l : List Micro} {r} (h : ∀ m ∈ l, CommandStep m) : ∀ m ∈ l ++ [.ret r], CommandStep m := by
  intro m hm; rw [List.mem_append] at hm; rcases hm with hm | hm
  · exact h m hm
  · simp at hm; subst hm; constructor

/-- The sequencer with a command byte, and what follows it. -/
theorem run_fsm_command {src ms} (hu : SameDram s u) (hms : ∀ m ∈ ms,
    CommandStep m) (h : run (fsmSteps false src ++ ms) u = .next t) : SameDram s t := by
  have h : run (.fsmSelect :: .fsmReadDir :: ([.fsmPoll, .fsmWriteDir false src, .fsmStrobe, .fsmIdle] ++ ms)) u = .next t := h
  rcases run_first (P' := SameDram s) (R :=
      SameDram s) (by simp only [micro]; split; exact hu; trivial) hu (fun _ _ h => h) h with h | ⟨v, hv, h⟩
  · exact h
  rcases run_first (m := .fsmReadDir) (P' := CommandKept s) (R := SameDram s) ⟨rfl, hv⟩ hv (fun _ _ h => h.2) h with h | ⟨w, hw,
      h⟩
  · exact h
  refine run_commands ?_ hw h
  intro m hm
  rw [List.mem_append] at hm
  rcases hm with hm | hm
  · simp at hm; rcases hm with rfl | rfl | rfl | rfl <;> constructor
  · exact hms m hm

theorem run_group_commands {c chip bs} (hb : c.transport.bitBang = true) (hu : SameDram s u) (h : run
    (groupSteps c chip false bs ++ [.ret .unit]) u = .next t) : SameDram s t := by
  rw [groupSteps, groupHead_bitBang hb] at h
  simp only [byteSteps_bitBang hb] at h
  have sel : ∀ v, SameDram s v → (micro (.groupSelect chip) v.tick).keeps (SameDram s) (SameDram s) (fun _ => True) := by
    intro v hv
    simp only [micro]; split
    · exact hv
    · exact MRes.keeps_mono (selectChipStep_keeps chip) (fun w hw => hw.2.1.trans hv) (fun w hw => hw.2.trans hv) (fun _ h => h)
  rcases run_first (P' := SameDram s) (R := SameDram s) (sel u hu) hu (fun _ _ h => h) h with h | ⟨v, hv, h⟩
  · exact h
  cases bs with
  | nil =>
    rcases run_first (P' := SameDram s) (R :=
        SameDram s) (by simp only [micro, endOp]; split <;> exact hv) hv (fun _ _ h => h) h with h | ⟨w, hw, h⟩
    · exact h
    · cases h; exact hw
  | cons b bs =>
    refine run_fsm_command (src := .imm b) (ms :=
        bs.flatMap (fun b => fsmSteps false (.imm b)) ++ [.ret .unit]) hv ?_ (by simpa using h)
    refine commandStep_app ?_
    intro m hm; rw [List.mem_flatMap] at hm; obtain ⟨_, _, hm⟩ := hm; exact commandStep_fsm m hm

/-! ## Data bytes -/
/-- All of display RAM but one page of chip `c` stays. -/
structure PageKept (s : State) (c : Nat) (t : State) : Prop where
  cfg : t.cfg = s.cfg
  sel : t.selChip = some c
  x : (t.chip c).x = (s.chip c).x
  wf : Mem.wf dramDefault t.dram
  same : ∀ a, (a < dramAddr c (s.chip c).x 0#6 ∨ dramAddr c (s.chip c).x 0#6 + 64 ≤ a) →
      Mem.read dramDefault t.dram a = Mem.read dramDefault s.dram a
theorem PageKept.keep {c} (h : PageKept s c t) (h1 : u.cfg = t.cfg) (h2 : u.selChip = t.selChip) (h3 : u.lcd = t.lcd)
    (h4 : u.dram = t.dram) : PageKept s c u :=
  ⟨h1.trans h.cfg, h2.trans h.sel, by rw [← h.x]; simp [State.chip, h3], h4 ▸ h.wf, h4 ▸ h.same⟩

theorem csPattern_only {n c c' : Nat} (h : (csPattern n c).getD c' false = true) : c' = c := by
  simp only [csPattern, List.getD_eq_getElem?_getD, List.getElem?_map] at h
  by_cases hh : c' < n
  · rw [List.getElem?_range hh] at h; simpa using h
  · rw [List.getElem?_eq_none (by simpa using hh)] at h; simp at h

theorem lcdRespond_data_page (c b) (t : State) : ((lcdRespond c (.data b) t).chip c).x = (t.chip c).x := by
  simp only [lcdRespond, State.chip, State.setChip]
  by_cases h : c < t.lcd.length
  · simp [List.getD_eq_getElem?_getD, h]
  · simp [List.getD_eq_getElem?_getD, h]

/-- A strobe of a data byte with chip `c` alone selected. -/
theorem strobeLines_data {t v : State} {c b} (hrs : t.rs = true) (hrw : t.rw = false) (hd : t.d = b)
    (hcs : t.cs = csPattern t.cfg.chips c) (h : strobeLines t = .ok v) :
   v.dram = (lcdRespond c (.data b) t).dram ∧ v.lcd = (lcdRespond c (.data b) t).lcd ∧ v.cfg = t.cfg ∧ v.cs = t.cs ∧
       v.selChip = t.selChip := by
  obtain ⟨c', cmd, hc, hcs', hdec, h1, h2, h3, h4, h5, -⟩ := strobeLines_ok h
  rw [hcs] at hcs'
  obtain rfl := csPattern_only hcs'
  rw [hrs, hrw, hd] at hdec
  simp [lcdDecode] at hdec
  subst hdec
  exact ⟨h1, h2, h3, h4, h5⟩

theorem run_fsm_data {c src ms} {R : State → Prop} {P' : State → Prop} (hsel : u.selChip = some c)
   (R1 : ∀ v, v.cfg = u.cfg → v.lcd = u.lcd → v.dram = u.dram → v.selChip = u.selChip → R v)
   (P1 : ∀ v b, v.cfg = u.cfg → v.lcd = (lcdRespond c (.data b) u).lcd → v.dram = (lcdRespond c (.data b) u).dram →
       v.selChip = u.selChip → P' v)
   (PR : ∀ v w, P' v → R (v.leave w))
   (PI : ∀ v, P' v → P' (v.tick.inFsm .idle))
   (h : run (fsmSteps true src ++ ms) u = .next t) : R t ∨ ∃ v, P' v ∧ run ms v = .next t := by
  have h : run (.fsmSelect :: .fsmReadDir :: .fsmPoll :: .fsmWriteDir true src :: .fsmStrobe :: .fsmIdle :: ms) u = .next t := h
  let B : State → Prop := fun v => v.cfg = u.cfg ∧ v.lcd = u.lcd ∧ v.dram = u.dram ∧ v.selChip = u.selChip ∧
      v.cs = csPattern u.cfg.chips c
  have BR : ∀ v w, B v → R (v.leave w) := fun v w hv => R1 _ hv.1 hv.2.1 hv.2.2.1 hv.2.2.2.1
  rcases run_first (P' := B) (R := R) (by simp only [micro]; rw [show u.tick.selChip = some c from hsel]; exact ⟨rfl, rfl, rfl,
      rfl, rfl⟩) (R1 _ rfl rfl rfl rfl) BR h with h | ⟨v, hv, h⟩
  · exact .inl h
  rcases run_first (m := .fsmReadDir) (P' := B) (R :=
      R) (hv : B (setReadDir (v.tick.inFsm .setReadDir))) (BR v _ hv) BR h with h | ⟨v, hv, h⟩
  · exact .inl h
  have hp : (micro .fsmPoll v.tick).keeps B R (fun _ => True) := by
    exact MRes.keeps_mono (@pollStep_keeps v.tick) (fun w hw => ⟨hw.1.trans hv.1, hw.2.2.1.trans hv.2.1, hw.2.1.trans hv.2.2.1,
        hw.2.2.2.1.trans hv.2.2.2.1, hw.2.2.2.2.1.trans hv.2.2.2.2⟩) (fun _ h => h.elim) (fun _ h => h)
  rcases run_first hp (BR v _ hv) BR h with h | ⟨v, hv, h⟩
  · exact .inl h
  let B2 : State → Prop := fun w => B w ∧ w.rs = true ∧ w.rw = false
  rcases run_first (m := .fsmWriteDir true src) (P' := B2) (R := R) (⟨hv, rfl,
      rfl⟩ : B2 (setWriteDir true (src.value v.tick) (v.tick.inFsm .setWriteDir))) (BR v _ hv)
      (fun w l hw => BR w l hw.1) h with h | ⟨v, hv, h⟩
  · exact .inl h
  have hst : (micro .fsmStrobe v.tick).keeps P' R (fun _ => True) := by
    simp only [micro]
    cases hs : strobeLines (v.tick.inFsm .strobe) with
    | error e => trivial
    | ok w =>
      have hcf : (v.tick.inFsm .strobe).cfg = u.cfg := hv.1.1
      obtain ⟨h1, h2, h3, h4, h5⟩ := strobeLines_data (t := v.tick.inFsm .strobe) (c := c) (b :=
          v.d) hv.2.1 hv.2.2 rfl (by rw [hcf]; exact hv.1.2.2.2.2) hs
      have hvl : (v.tick.inFsm .strobe).lcd = u.lcd := hv.1.2.1
      have hvd : (v.tick.inFsm .strobe).dram = u.dram := hv.1.2.2.1
      refine P1 w v.d (h3.trans hv.1.1) (h2.trans ?_) (h1.trans ?_) (h5.trans hv.1.2.2.2.1)
      · simp only [lcdRespond, State.setChip, State.chip, hvl]
      · simp only [lcdRespond, State.setChip, State.chip, hvl, hvd]
  rcases run_first hst (BR v _ hv.1) PR h with h | ⟨v, hv, h⟩
  · exact .inl h
  exact run_first (m := .fsmIdle) (P' := P') (R := R) (PI v hv) (PR v _ hv) PR h

theorem run_data_bytes {c} : ∀ (bs : List Byte) {u}, PageKept s c u →
    run (bs.flatMap (fun b => fsmSteps true (.imm b)) ++ [.ret .unit]) u = .next t → PageKept s c t
  | [], u, hu, h => by
    rcases run_first (P' := PageKept s c) (R :=
        PageKept s c) (by simp only [micro, endOp]; split <;> exact hu.keep rfl rfl rfl rfl) (hu.keep rfl rfl rfl rfl)
        (fun _ _ h => h.keep rfl rfl rfl rfl) h with h | ⟨w, hw, h⟩
    · exact h
    · cases h; exact hw
  | b :: bs, u, hu, h => by
    rw [List.flatMap_cons, List.append_assoc] at h
    have R1 : ∀ v : State, v.cfg = u.cfg → v.lcd = u.lcd → v.dram = u.dram → v.selChip = u.selChip → PageKept s c v :=
        fun v h1 h2 h3 h4 => hu.keep h1 h4 h2 h3
    have P1 : ∀ (v : State) b, v.cfg = u.cfg → v.lcd = (lcdRespond c (.data b) u).lcd →
        v.dram = (lcdRespond c (.data b) u).dram → v.selChip = u.selChip → PageKept s c v := by
      intro v b h1 h2 h3 h4
      have hd : (lcdRespond c (.data b) u).dram = Mem.write dramDefault u.dram (dramAddr c (u.chip c).x (u.chip c).y) b := rfl
      refine ⟨h1.trans hu.cfg, h4.trans hu.sel, ?_, ?_, ?_⟩
      · rw [← hu.x, ← lcdRespond_data_page c b u]; simp only [State.chip, h2]
      · rw [h3, hd]; exact Mem.write_wf hu.wf _ _
      · intro a ha
        have := dramAddr_in_page c (u.chip c).x (u.chip c).y
        rw [hu.x] at this
        rw [h3, hd, hu.x, Mem.read_write_other hu.wf _ (by omega)]
        exact hu.same a ha
    rcases run_fsm_data (R := PageKept s c) (P' :=
        PageKept s c) hu.sel R1 P1 (fun v w h => h.keep rfl rfl rfl rfl) (fun v h => h.keep rfl rfl rfl rfl) h with h | ⟨v, hv,
        h⟩
    · exact h
    · exact run_data_bytes bs hv h

end Sys2Proof.Machine
end

