-- ==== Sys2Proof/Laws/FrameWords.lean ====
section
/-! SUPPORT. What the serial frame words do where no frame fails. -/

namespace Sys2Proof.Machine

/-- A write frame word runs where no frame fails and E is low. -/
theorem writeFrameWord_next {s : State} {addr x r} {data : List Byte} (hc : s.calm) (ha : s.expAt addr = some x)
    (he : s.eLow x) :
   writeFrameWord addr r data s = .next ((((landed x r data (s.txn true)).event (.frameW
       (serCmd addr false) r data))).txn false) := by
  have hc1 : (s.txn true).calm := hc
  have hm : frameWrite x (serCmd addr false) r data (s.txn true) = .next ((landed x r data (s.txn true)).event (.frameW
      (serCmd addr false) r data)) :=
    frameWrite_landed hc1.2.1 (hc1.bus _) (quietLanding_txn _ (quietLanding_of_eLow he _ _))
  simp only [writeFrameWord, ha]
  have hs2 : ((landed x r data (s.txn true)).event (.frameW (serCmd addr false) r data)).slice = none := by
    simpa using hc.1
  rw [run_next hc.1 (s' := s.txn true) rfl, run_next (m := .wordWrite x (serCmd addr false) r data) (by exact hc.1) hm, run_next hs2 rfl, run_nil]

/-- A read frame word runs where no frame fails. -/
theorem readFrameWord_next {s : State} {addr x r} {data : List Byte} (hc : s.calm) (ha : s.expAt addr = some x) :
   ∃ t, readFrameWord addr r data s = .next t ∧ t.trace = s.trace ++ [.frameR (serCmd addr true) r data] ∧ t.ret = .bytes data ∧
       (t.exp x).dev = (s.exp x).dev ∧ (t.exp x).sh = (s.exp x).sh ∧ t.inTxn = false ∧ t.openFrame = none ∧ t.work = s.work :=
       by
  obtain ⟨u, hu⟩ : ∃ u : State,
      u = ((s.txn true).setExp x { s.exp x with rx := data }).closeFrame.event (.frameR (serCmd addr true) r data) := ⟨_, rfl⟩
  have hm : micro (.wordRead x (serCmd addr true) r data) (s.txn true) = .next u := by
    have : (s.txn true).exp x = s.exp x := by cases x <;> rfl
    simp only [micro, frameRead, this]
    rw [if_pos (by cases x <;> exact hc.bus _), drawFail_none (by cases x <;> exact hc.2.1), hu]
    cases x <;> rfl
  have hus : u.slice = none := by simpa [hu] using hc.1
  have hrun : readFrameWord addr r data s = .next (endOp ((RetSpec.rx x).value (u.txn false)) (u.txn false)) := by
    simp only [readFrameWord, ha]
    rw [run_next hc.1 (s' := s.txn true) rfl, run_next (by exact hc.1) hm, run_next hus (s' := u.txn false) rfl, run_ret (s := u.txn false) hus]
  refine ⟨_, hrun, ?_⟩
  have hux : u.exp x = { s.exp x with rx := data } := by rw [hu, event_exp, closeFrame_exp, setExp_exp_same]
  have hu1 : u.trace = s.trace ++ [.frameR (serCmd addr true) r data] := by rw [hu]; simp
  have hu2 : u.openFrame = none := by rw [hu]; simp
  have hu3 : u.work = s.work := by rw [hu]; simp
  clear hu hrun hm
  rw [endOp_eq]
  have hx : ∀ o r, ({ u.txn false with op := o, ret := r } : State).exp x = u.exp x := by intros; cases x <;> rfl
  have hx2 : (u.txn false).exp x = u.exp x := by cases x <;> rfl
  refine ⟨hu1, ?_, ?_, ?_, rfl, hu2, hu3⟩
  · show (RetSpec.rx x).value (u.txn false) = _
    simp only [RetSpec.value, hx2, hux]
  · rw [hx, hux]
  · rw [hx, hux]


/-- What it then leaves. -/
theorem writeFrameWord_result {s t : State} {x w r} {data : List Byte} (ht : t = (((landed x r data (s.txn true)).event
    (.frameW w r data))).txn false) :
  t.exp x = { s.exp x with dev := devStore (s.exp x).dev r.toNat (data.map fun b => (b, true)) } ∧
      t.trace = s.trace ++ [.frameW w r data] ∧ t.ret = s.ret ∧ t.inTxn = false ∧ t.openFrame = none ∧ t.work = s.work := by
  rw [landed_txn] at ht
  have h1 := landed_exp_same x r data s
  have h2 := landed_trace x r data s
  have h3 : (landed x r data s).ret = s.ret := by simp [landed]
  have h4 : (landed x r data s).openFrame = none := by simp [landed]
  have h5 : (landed x r data s).work = s.work := by simp [landed]
  generalize landed x r data s = z at ht h1 h2 h3 h4 h5
  rw [ht]
  refine ⟨?_, ?_, h3, rfl, h4, h5⟩
  · rw [txn_exp, event_exp, txn_exp, h1]
  · show z.trace ++ _ = _; rw [h2]

end Sys2Proof.Machine
end

