-- ==== Sys2Proof/Laws/Init.lean ====
section
/-! SUPPORT. The steps of `init`: the relay's setup, and the two commands to every chip. -/

namespace Sys2Proof.Machine

/-- `t` is `s` after a register of the relay's chip, not OLAT, was written with 0. -/
structure RelayRegCleared (k : ShKind) (p : Port) (s t : State) : Prop where
  rest : t.cfg = s.cfg ∧ t.op = s.op ∧ t.work = s.work ∧ t.disp = s.disp ∧ t.ret = s.ret ∧ t.lcd = s.lcd ∧ t.dram = s.dram ∧
      t.selChip = s.selChip ∧ t.vport = s.vport
  calm : t.calm
  sh : t.relay.sh = s.relay.sh.set k p 0#8
  wf : Mem.wf devDefault t.relay.dev
  pins : t.relayPins = s.relayPins
  trace : t.trace = s.trace ++ [.frameW (cmdW s.cfg.relay.addr.toNat) (regAddr k p) [0#8]]

theorem steps_clearReg (k : ShKind) (p : Port) {s : State} (hk : k ≠ .olat) (hc : s.calm) (hw : Mem.wf devDefault s.relay.dev) :
    ∃ t, Steps (regWriteSteps .relay k p 0#8) s t ∧ RelayRegCleared k p s t := by
  have haddr : (regAddr k p).toNat + 1 ≤ 0x12 := by cases k <;> cases p <;> first | decide | exact absurd rfl hk
  refine ⟨regWritten .relay k p 0#8 s, steps_regWritten hc (quietLanding_of_notOlat (x := .relay) hw (.inr haddr)) rfl, ?_⟩
  have hx := regWritten_exp_same .relay k p 0#8 s
  have hx' : (regWritten .relay k p 0#8 s).relay = { s.relay with sh := s.relay.sh.set k p 0#8, dev := devStore s.relay.dev (regAddr k p).toNat [(0#8, true)] } := hx
  refine ⟨by simp [regWritten, wroteReg, landed, State.setShadow], regWritten_calm hc _ _ _ _, by rw [hx'], ?_, ?_,
      regWritten_trace _ _ _ _ _⟩
  · rw [hx']; exact devStore_wf hw _ _
  · unfold State.relayPins Expander.devRead
    rw [hx']
    simp only
    rw [read_devStore_outside hw _ (.inl haddr) (.inr (by simpa using haddr.trans (by omega))),
      read_devStore_outside hw _ (.inl haddr) (.inr (by simpa using haddr.trans (by omega)))]

/-- `transport_setup()` of SPI_RELAY. -/
theorem steps_relaySetup {s : State} (hc : s.calm) (hlow : s.eLow .relay) (hq : s.cfg.relay.seqTest = .seqopClear)
    (hw : Mem.wf devDefault s.relay.dev) :
    ∃ t, Steps (setupSteps .spiRelay) s t ∧ t.calm ∧ Mem.wf devDefault t.relay.dev ∧ t.relayPins = 0#16 ∧ t.seq .relay = true
      ∧ t.trace = s.trace ++ [Event.frameW (cmdW s.cfg.relay.addr.toNat) 0x0A#8 [0x00#8], .frameW (cmdW s.cfg.relay.addr.toNat) 0x00#8 [0x00#8], .frameW (cmdW s.cfg.relay.addr.toNat) 0x01#8 [0x00#8],
      .frameW (cmdW s.cfg.relay.addr.toNat) 0x14#8 [0x00#8, 0x00#8]] ∧ t.vport = 0 ∧ t.selChip = none
      ∧ t.relay.sh.get .dir .a = 0x00#8 ∧ t.relay.sh.get .dir .b = 0x00#8 ∧ t.relay.sh.iocon = 0x00#8
      ∧ t.relay.sh.get .olat .a = 0x00#8 ∧ t.relay.sh.get .olat .b = 0x00#8 ∧ SameTarget s t ∧ t.inTxn = false
      ∧ t.cfg = s.cfg ∧ t.op = s.op ∧ t.work = s.work ∧ t.disp = s.disp := by
  obtain ⟨t1, a1, a2⟩ := steps_clearReg .iocon .a (by decide) hc hw
  obtain ⟨t2, b1, b2⟩ := steps_clearReg .dir .a (by decide) a2.calm a2.wf
  obtain ⟨t3, c1, c2⟩ := steps_clearReg .dir .b (by decide) b2.calm b2.wf
  have r1 := a2.rest; have r2 := b2.rest; have r3 := c2.rest
  have hcfg : t3.cfg = s.cfg := r3.1.trans (r2.1.trans r1.1)
  have hpins : t3.relayPins = s.relayPins := c2.pins.trans (b2.pins.trans a2.pins)
  have hst := steps_olat (x := .relay) (v := 0#16) (s := t3) (s0 := t3) (m := .olatBegin .relay 0#16) c2.calm
    (fun _ ht he => by
      rw [hcfg] at ht he; rw [hpins] at he
      have := hlow rfl ht
      rw [this] at he; cases he) c2.wf c2.calm.1 rfl
  have hsh : t3.relay.sh = ((s.relay.sh.set .iocon .a 0#8).set .dir .a 0#8).set .dir .b 0#8 := by rw [c2.sh, b2.sh, a2.sh]
  have hseq : t3.seq .relay = true := by
    show seqOn t3.cfg.relay.seqTest t3.relay.sh.iocon = true
    rw [hcfg, hq, hsh]; show seqOn .seqopClear 0#8 = true; decide
  obtain ⟨u, hu⟩ : ∃ u, u = olatWritten .relay 0#16 t3 := ⟨_, rfl⟩
  rw [← hu] at hst
  have hsel : micro .selectNone u = .next (u.select none) := rfl
  have hus : u.slice = none := by rw [hu]; exact c2.calm.1
  have hrel : u.relay = { t3.relay with sh := { t3.relay.sh with olat := { a := 0#8, b := 0#8 } }, dev := devStore t3.relay.dev 0x14 [(0#8, true), (0#8, true)] } := by rw [hu]; rfl
  have hpu : u.relayPins = 0#16 := by
    rw [← landed_pins c2.wf 0#16]
    refine relayPins_congr ?_
    rw [hrel]; rfl
  refine ⟨u.select none, (((a1.append b1).append c1).append hst).append (.one hus hsel), ?_⟩
  refine ⟨by rw [hu]; exact ⟨c2.calm.1, c2.calm.2.1, rfl⟩, ?_, hpu, ?_, ?_, by rw [hu]; rfl, rfl, ?_⟩
  · show Mem.wf devDefault u.relay.dev
    rw [hrel]; exact devStore_wf c2.wf _ _
  · show seqOn u.cfg.relay.seqTest u.relay.sh.iocon = true
    rw [hrel]
    have : u.cfg = t3.cfg := by rw [hu]; rfl
    rw [this]; exact hseq
  · show u.trace = _
    have : u.trace = t3.trace ++ olatEvents (t3.cmdW .relay) (t3.seq .relay) 0#16 := by rw [hu]; rfl
    rw [this, hseq, c2.trace, b2.trace, a2.trace]
    have e1 : t3.cmdW .relay = cmdW s.cfg.relay.addr.toNat := by simp [State.cmdW, State.addrOf, Cfg.exp, hcfg]
    rw [e1, r2.1, r1.1]
    simp [olatEvents, regAddr]
  · show u.relay.sh.get .dir .a = _ ∧ u.relay.sh.get .dir .b = _ ∧ u.relay.sh.iocon = _ ∧ u.relay.sh.get .olat .a = _ ∧
        u.relay.sh.get .olat .b = _ ∧ SameTarget s u ∧ u.inTxn = _ ∧ u.cfg = _ ∧ u.op = _ ∧ u.work = _ ∧ u.disp = _
    rw [hrel]
    simp only [hsh]
    have hu' : u.lcd = t3.lcd ∧ u.dram = t3.dram ∧ u.inTxn = false ∧ u.cfg = t3.cfg ∧ u.op = t3.op ∧ u.work = t3.work ∧
        u.disp = t3.disp := by rw [hu]; exact ⟨rfl, rfl, rfl, rfl, rfl, rfl, rfl⟩
    refine ⟨rfl, rfl, rfl, rfl, rfl, ?_, ?_⟩
    · simp only [SameTarget, hu', r3, r2, r1, and_self]
    · simp only [hu', r3, r2, r1, and_self]

/-- What the writes of `init` leave in the chips. -/
theorem actAll_init (n : Nat) (s : State) (hn : n ≤ s.lcd.length) :
   let t := actAll ((List.range n).flatMap fun ch => [((ch, false, 0x3F#8) : Write), (ch, false, 0xC0#8)]) s
   t.lcd.length = s.lcd.length ∧ t.dram = s.dram ∧ (∀ c, c < n → t.chip c = { s.chip c with on := true, z := 0#6 }) ∧ ∀ c,
       n ≤ c → t.chip c = s.chip c := by
  induction n with
  | zero => exact ⟨rfl, rfl, by omega, fun _ _ => rfl⟩
  | succ n ih =>
    intro t
    obtain ⟨h1, h2, h3, h4⟩ := ih (by omega)
    let u := actAll ((List.range n).flatMap fun ch => [((ch, false, 0x3F#8) : Write), (ch, false, 0xC0#8)]) s
    have ht : t = lcdRespond n .startLine (lcdRespond n .on u) := by
      simp only [t, u, List.range_succ, List.flatMap_append, actAll_append, List.flatMap_cons, List.flatMap_nil]
      rfl
    have hl : n < u.lcd.length := by rw [h1]; omega
    rw [ht]
    have e : lcdRespond n .startLine (lcdRespond n .on u) = u.setChip n { u.chip n with on := true, z := 0#6 } := by
      simp [lcdRespond, State.setChip, State.chip, hl]
    rw [e]
    refine ⟨by simp [State.setChip]; exact h1, h2, ?_, ?_⟩
    · intro c hc
      rcases Nat.lt_succ_iff_lt_or_eq.1 hc with hc | rfl
      · rw [setChip_chip_other _ _ (by omega)]; exact h3 c hc
      · rw [setChip_chip_same _ _ hl]
        have := h4 c le_rfl
        simp only [u, this]
    · intro c hc
      rw [setChip_chip_other _ _ (by omega)]; exact h4 c (by omega)

/-- The commands of `init`, on a transport that carries writes. -/
theorem Carrier.init {P : List Write → State → State → Prop} {room : Nat → State → Prop} (h : Carrier P room) (c : Cfg)
    (chs : List Nat) {v : State} (hr : room (2 * chs.length) v) (hc : v.cfg = c) (hch : ∀ ch ∈ chs, ch < c.chips) :
      ∃ t, Steps (chs.flatMap fun ch => .selectChip ch :: groupSteps c ch false [0x3F#8, 0xC0#8]) v t ∧
        P (chs.flatMap fun ch => [((ch, false, 0x3F#8) : Write), (ch, false, 0xC0#8)]) v t ∧ t.kept = v.kept := by
    induction chs generalizing v with
    | nil => exact ⟨v, .nil v, h.refl v, rfl⟩
    | cons ch chs ih =>
      have hchc : ch < v.cfg.chips := hc ▸ hch ch (by simp)
      obtain ⟨t1, a1, a2, a3, -, -, a6⟩ := h.select hr hchc
      have c1 : t1.cfg = c := (congrArg (·.1) a6).trans hc
      obtain ⟨t2, b1, b2, b3, -, -, b6⟩ := h.group (n := 2 * chs.length) (c := ch) (rs := false) [0x3F#8, 0xC0#8] (s :=
          t1) (by simpa [Nat.mul_add] using a3) (c1 ▸ hch ch (by simp))
        (by intro b hb; simp at hb; rcases hb with rfl | rfl
            · exact ⟨.on, rfl⟩
            · exact ⟨.startLine, rfl⟩)
      have c2 : t2.cfg = c := (congrArg (·.1) b6).trans c1
      obtain ⟨t3, d1, d2, d3⟩ := ih b3 c2 (fun c' h' => hch c' (by simp [h']))
      rw [c1] at b1
      refine ⟨t3, ?_, ?_, d3.trans (b6.trans a6)⟩
      · simp only [List.flatMap_cons, List.cons_append]
        exact .cons (h.unbounded hr) a1 (b1.append d1)
      · have x := h.append (ws := []) (ws' :=
            [((ch, false, 0x3F#8) : Write), (ch, false, 0xC0#8)]) (h.less hr (by simp [Nat.mul_add])) a2 b2
        refine h.append (ws := [((ch, false, 0x3F#8) : Write), (ch, false, 0xC0#8)]) (ws' :=
            chs.flatMap fun ch => [((ch, false, 0x3F#8) : Write), (ch, false, 0xC0#8)]) (h.less hr ?_) x d2
        rw [length_flatMap_const _ 2 _ (fun _ => rfl)]; simp; omega

end Sys2Proof.Machine
end

