-- ==== Sys2Proof/Laws/InvariantExec.lean ====
section
/-! SUPPORT. Every instruction, and every move that is not HOST's, keeps the invariant. -/

namespace Sys2Proof.Machine

theorem beginOp_inv {s : State} (h : InvNoErr s) (o) : InvNoErr (beginOp o s) := by
  rw [beginOp_eq]; exact ⟨h.1.congr h.2 rfl, h.2⟩

/-! No call leaves a step that would set IOCON.BANK. -/

theorem bankClear_writeReg (x k p) : ∀ m ∈ writeRegSteps x k p, m.bankClear = true := by
  intro m hm; simp [writeRegSteps] at hm; rcases hm with rfl | rfl | rfl <;> rfl
theorem bankClear_gpioW (x v) : ∀ m ∈ writeGpioSteps x v, m.bankClear = true := by
  intro m hm; simp [writeGpioSteps] at hm; rcases hm with rfl | rfl | rfl | rfl <;> rfl
theorem bankClear_gpioR (x) : ∀ m ∈ readGpioSteps x, m.bankClear = true := by
  intro m hm; simp [readGpioSteps] at hm; rcases hm with rfl | rfl | rfl | rfl <;> rfl
theorem bankClear_refresh (x r) : ∀ m ∈ refreshSteps x r, m.bankClear = true := by
  intro m hm; cases r
  · cases hm
  · exact bankClear_gpioR x m hm
theorem bankClear_vport (v) : ∀ m ∈ vportSteps v, m.bankClear = true := by
  intro m hm; simp [vportSteps] at hm; rcases hm with rfl | rfl | rfl | rfl <;> rfl
theorem bankClear_strobe (a v) : ∀ m ∈ strobeSteps a v, m.bankClear = true := by
  intro m hm; cases a <;> simp only [strobeSteps, List.mem_append] at hm
  · rcases hm with (hm | hm) | hm <;> exact bankClear_vport _ m hm
  · rcases hm with hm | hm <;> exact bankClear_vport _ m hm
theorem bankClear_fsm (a b) : ∀ m ∈ fsmSteps a b, m.bankClear = true := by
  intro m hm; simp [fsmSteps] at hm; rcases hm with rfl | rfl | rfl | rfl | rfl | rfl <;> rfl
theorem bankClear_byte (c a b) : ∀ m ∈ byteSteps c a b, m.bankClear = true := by
  intro m hm; unfold byteSteps at hm; split at hm
  · exact bankClear_fsm _ _ m hm
  · exact bankClear_fsm _ _ m hm
  · simp at hm; subst hm; rfl
  · exact bankClear_strobe _ _ m hm
theorem bankClear_head (c a b) : ∀ m ∈ groupHead c a b, m.bankClear = true := by
  intro m hm; unfold groupHead at hm; split at hm <;> simp at hm
  · subst hm; rfl
  · subst hm; rfl
  · subst hm; rfl
  · rcases hm with rfl | rfl <;> rfl
theorem bankClear_group (c a b bs) : ∀ m ∈ groupSteps c a b bs, m.bankClear = true := by
  intro m hm; simp only [groupSteps, List.mem_append, List.mem_flatMap] at hm
  rcases hm with hm | ⟨_, _, hm⟩
  · exact bankClear_head _ _ _ m hm
  · exact bankClear_byte _ _ _ m hm
theorem bankClear_block (c a b) : ∀ m ∈ blockSteps c a b, m.bankClear = true := by
  intro m hm
  simp only [blockSteps, dataSteps, List.mem_append, List.mem_flatMap, List.mem_cons, List.not_mem_nil, or_false] at hm
  rcases hm with (((((((((rfl | rfl) | hm) | hm) | rfl) | hm) | rfl | rfl) | hm) | ⟨_, _, rfl | hm⟩) | rfl)
  all_goals first | rfl | exact bankClear_head _ _ _ m hm | exact bankClear_byte _ _ _ m hm
theorem bankClear_sweep (c) : ∀ m ∈ sweepSteps c, m.bankClear = true := by
  intro m hm; simp only [sweepSteps, List.mem_flatMap] at hm
  obtain ⟨_, _, hm⟩ := hm; exact bankClear_block _ _ _ m hm
theorem bankClear_setup (t) : ∀ m ∈ setupSteps t, m.bankClear = true := by
  intro m hm
  cases t <;> simp [setupSteps, regWriteSteps, writeRegSteps, writeGpioSteps] at hm
  · subst hm; rfl
  · subst hm; rfl
  · subst hm; rfl
  · rcases hm with hm | hm | hm | hm | hm | hm | hm | hm | hm | hm | hm | hm | hm | hm | hm | hm | hm <;> subst hm <;> rfl
theorem bankClear_init (c) : ∀ m ∈ initSteps c, m.bankClear = true := by
  intro m hm
  simp only [initSteps, List.mem_append, List.mem_flatMap, List.mem_cons, List.not_mem_nil, or_false] at hm
  rcases hm with (hm | ⟨_, _, rfl | hm⟩) | rfl | rfl
  · exact bankClear_setup _ m hm
  · rfl
  · exact bankClear_group _ _ _ _ m hm
  · rfl
  · rfl
theorem bankClear_app {l : List Micro} (h : ∀ m ∈ l, m.bankClear = true) (r) : ∀ m ∈ l ++ [.ret r], m.bankClear = true := by
  intro m hm; rw [List.mem_append] at hm; rcases hm with hm | hm
  · exact h m hm
  · simp at hm; subst hm; rfl

theorem lcdCycle_inv {chips a b c} {s t : State} (h : InvNoErr s) (ht : lcdCycle chips a b c s = .ok t) : InvNoErr t := by
  obtain ⟨c, cmd, -, -, rfl⟩ := lcdCycle_ok ht
  exact lcdRespond_inv h.1 h.2 c cmd

theorem driveData_inv {s : State} (h : InvNoErr s) (d : Byte) : InvNoErr (driveData d s) := ⟨h.1.congr h.2 rfl, h.2⟩

theorem offloadWord_inv {rs d} {s t : State} (h : InvNoErr s) (ht : offloadWord rs d s = .ok t) : InvNoErr t := by
  have h1 := (selectedChips_drawn s).inv h.1 h.2
  exact lcdCycle_inv (driveData_inv (s := drainCtl _ _) ⟨h1.1.congr h1.2 rfl, h1.2⟩ d) ht

theorem relayWord_inv {rs d} {s t : State} (h : InvNoErr s) (ht : relayWord rs d s = .next t) : t.Inv := by
  unfold relayWord at ht
  split at ht
  · exact run_inv (bankClear_strobe _ _) h ht
  · cases ht

theorem writeCycle_inv {a b} {s t : State} (h : InvNoErr s) (ht : writeCycle a b s = .next t) : t.Inv := by
  have hb : ofExcept (strobeLines (setWriteDir a b s)) = .next t → t.Inv := by
    intro ht
    have := strobeLines_inv (s := setWriteDir a b s) ⟨h.1.congr h.2 rfl, h.2⟩
    rw [ofExcept_next ht] at this
    exact this.1
  unfold writeCycle at ht
  split at ht
  · exact hb ht
  · exact hb ht
  · exact (offloadWord_inv h (ofExcept_next ht)).1
  · exact relayWord_inv h ht

theorem statusCycle_inv {v} {s t : State} (h : InvNoErr s) (ht : statusCycle v s = .next t) : t.Inv := by
  have hr : InvNoErr (setReadDir s) := ⟨h.1.congr h.2 rfl, h.2⟩
  unfold statusCycle at ht
  split at ht
  · simp only at ht
    split at ht
    · rename_i s' hs
      cases ht
      have h2 : InvNoErr s' := lcdCycle_inv hr hs
      exact h2.1.congr h2.2 rfl
    · cases ht
  · simp only at ht
    split at ht
    · rename_i s' hs
      cases ht
      have h2 : InvNoErr s' := lcdCycle_inv hr hs
      exact h2.1.congr h2.2 rfl
    · cases ht
  · cases ht
  · cases ht

theorem drainData_inv {b} {s t : State} (h : InvNoErr s) (ht : drainData b s = .ok t) : InvNoErr t := by
  unfold drainData at ht
  have h1 := driveData_inv h b
  simp only at ht
  split at ht
  · exact lcdCycle_inv ((ctlSeen_drawn _).inv h1.1 h1.2) ht
  · cases ht; exact h1
  · cases ht; exact h1
  · cases ht; exact h1

theorem writeFrameWord_inv {a r d} {s t : State} (h : InvNoErr s) (ht : writeFrameWord a r d s = .next t) : t.Inv := by
  unfold writeFrameWord at ht; split at ht
  · cases ht
  · refine run_inv ?_ h ht
    intro m hm; simp at hm; rcases hm with rfl | rfl | rfl <;> rfl
theorem readFrameWord_inv {a r d} {s t : State} (h : InvNoErr s) (ht : readFrameWord a r d s = .next t) : t.Inv := by
  unfold readFrameWord at ht; split at ht
  · cases ht
  · refine run_inv ?_ h ht
    intro m hm; simp at hm; rcases hm with rfl | rfl | rfl | rfl <;> rfl
/-- What a check of an argument leaves: the call goes on, or an error is taken. -/
theorem withPin_inv {n : Int} {k : Nat → Out} {s t : State} (h : InvNoErr s) (ht : withPin n s k = .next t)
    (hk : ∀ m, k m = .next t → t.Inv) : t.Inv := by
  rcases withPin_next ht with ht | ⟨e, rfl⟩
  · exact hk _ ht
  · exact raise_inv h.1 e

theorem withPins_inv {ns : List Int} {k : Out} {s t : State} (h : InvNoErr s) (ht : withPins ns s k = .next t)
    (hk : k = .next t → t.Inv) : t.Inv := by
  rcases withPins_next ht with ht | ⟨e, rfl⟩
  · exact hk ht
  · exact raise_inv h.1 e

theorem withShadow_inv {k : Kind} {f : ShKind → Out} {s t : State} (h : InvNoErr s) (ht : withShadow k s f = .next t)
    (hk : ∀ sk, f sk = .next t → t.Inv) : t.Inv := by
  rcases withShadow_next ht with ⟨sk, -, ht⟩ | ⟨e, rfl⟩
  · exact hk _ ht
  · exact raise_inv h.1 e

/-- The chips no instance uses, once another instance has been built. -/
theorem leaveChip_wf {s : State} (h : s.Inv) (x : ExpId) (addr : Nat) :
    (s.leaveChip x addr).length = 8 ∧ ∀ m ∈ s.leaveChip x addr, Mem.wf devDefault m := by
  unfold State.leaveChip
  split
  · exact h.idleWf
  · refine ⟨by simpa using h.idleWf.1, fun m hm => ?_⟩
    rcases List.mem_or_eq_of_mem_set hm with hm | rfl
    · exact h.idleWf.2 m hm
    · exact h.devWf x

theorem builtInstance_inv {s : State} (h : InvNoErr s) (x : ExpId) {p : ExpParams} (hp : p.ok = true) :
    (builtInstance x p s).Inv := by
  have hok := h.1.params
  have hd := h.1.devWf
  have hr := h.1.edgeRoom
  have hb := h.1.bank
  have he : (builtInstance x p s).err = none := by cases x <;> exact h.2
  cases x <;> exact
    { h.1 with
      params := by
        simp only [Cfg.ok, Bool.and_eq_true] at hok
        simp only [builtInstance, Cfg.setExp, State.setExp, Cfg.ok, hok, hp, Bool.and_self]
      devWf := fun y => by
        cases y <;> first
          | exact ⟨List.Pairwise.nil, by simp [builtInstance, State.setExp, State.exp, Expander.reset]⟩
          | exact hd .gpio
          | exact hd .relay
      idleWf := leaveChip_wf h.1 _ _
      edgeRoom := fun y => by cases y <;> first | exact Nat.zero_le _ | exact hr .gpio | exact hr .relay
      bank := fun y => by cases y <;> first | exact hb .gpio | exact hb .relay | exact (by decide : (0#8).getLsbD 7 = false)
      errorEnds := fun hs => by
        rw [he] at hs
        cases hs }

theorem builtFacade_inv {s : State} {c : Cfg} (h : InvNoErr s) (hc : c.ok = true)
    (hg : geometryOk c.width c.height c.transport c.params = true) (hx : c.gpio = s.cfg.gpio)
    (hy : c.transport ≠ .spiRelay → c.relay = s.cfg.relay) : (builtFacade c s).Inv := by
  have hd := h.1.devWf
  have hr := h.1.edgeRoom
  have hb := h.1.bank
  have hrel : (builtFacade c s).relay = Expander.reset
      ∨ c.transport ≠ .spiRelay ∧ (builtFacade c s).relay = s.relay := by
    by_cases ht : c.transport = .spiRelay <;> simp [builtFacade, ht]
  constructor
  · exact h.1.dramWf
  · intro x
    cases x with
    | gpio => exact hd .gpio
    | relay =>
      show Mem.wf devDefault (builtFacade c s).relay.dev
      rcases hrel with e | ⟨-, e⟩ <;> rw [e]
      · exact ⟨List.Pairwise.nil, by simp [Expander.reset]⟩
      · exact hd .relay
  · by_cases ht : c.transport = .spiRelay <;> simp only [builtFacade, ht, if_true, if_false]
    · exact leaveChip_wf h.1 _ _
    · exact h.1.idleWf
  · exact hg
  · exact hc
  · intro c h; cases h
  · exact .inl rfl
  · simp [builtFacade]
    rfl
  · exact Nat.zero_le _
  · exact Nat.zero_le _
  · intro x
    cases x with
    | gpio =>
      show s.gpio.pending.length ≤ c.gpio.irqQueueDepth
      rw [hx]
      exact hr .gpio
    | relay =>
      show (builtFacade c s).relay.pending.length ≤ c.relay.irqQueueDepth
      rcases hrel with e | ⟨ht, e⟩ <;> rw [e]
      · exact Nat.zero_le _
      · rw [hy ht]
        exact hr .relay
  · exact ⟨List.Pairwise.nil, by simp [builtFacade, State.initial]⟩
  · exact ⟨List.Pairwise.nil, by simp [builtFacade, State.initial]⟩
  · intro x
    cases x with
    | gpio => exact hb .gpio
    | relay =>
      show (builtFacade c s).relay.sh.iocon.getLsbD 7 = false
      rcases hrel with e | ⟨-, e⟩ <;> rw [e]
      · rfl
      · exact hb .relay
  · intro m h; cases h
  · intro h; rcases h with h | h <;> cases h
  · intro h; cases h

/-- An instance's checks leave an error, or what is built. -/
theorem buildInstance_next {p : ExpParams} {k : Out} {s t : State} (h : buildInstance p s k = .next t) :
    ((p.addr < 0 ∨ 8 ≤ p.addr) ∧ t = raise (.badArgument (.address p.addr)) s)
      ∨ ((0 ≤ p.addr ∧ p.addr < 8) ∧ s.powerOnAt p.addr.toNat = true ∧ k = .next t) := by
  unfold buildInstance at h
  split at h
  · cases h
    exact .inl ⟨‹_›, rfl⟩
  · split at h
    · exact .inr ⟨by omega, ‹_›, h⟩
    · cases h

theorem execConstruct_inv {w h : Nat} {tr : Transport} {b : Build} {s t : State} (hs : InvNoErr s) (hb : b.ok = true)
    (ht : execConstruct w h tr b s = .next t) : t.Inv := by
  have hok := hs.1.params
  simp only [Cfg.ok, Bool.and_eq_true] at hok
  unfold execConstruct at ht
  split at ht
  · cases ht
  · cases b with
    | facade p r =>
      simp only [Build.ok, Bool.and_eq_true] at hb
      simp only at ht
      split at ht
      · cases ht
        exact raise_inv hs.1 _
      · rename_i hg
        have hg : geometryOk w h tr p = true := by simpa using hg
        cases tr with
        | spiRelay =>
          rcases buildInstance_next ht with ⟨-, rfl⟩ | ⟨-, -, ht⟩
          · exact raise_inv hs.1 _
          · cases ht
            exact builtFacade_inv hs (by simp [Cfg.ok, hb, hok]) hg rfl (fun h => absurd rfl h)
        | direct => cases ht; exact builtFacade_inv hs (by simp [Cfg.ok, hb, hok]) hg rfl fun _ => rfl
        | coop => cases ht; exact builtFacade_inv hs (by simp [Cfg.ok, hb, hok]) hg rfl fun _ => rfl
        | offload => cases ht; exact builtFacade_inv hs (by simp [Cfg.ok, hb, hok]) hg rfl fun _ => rfl
    | expander x p =>
      rcases buildInstance_next ht with ⟨-, rfl⟩ | ⟨-, -, ht⟩
      · exact raise_inv hs.1 _
      · cases ht
        exact builtInstance_inv hs x hb

theorem signalEdge_inv {s : State} (h : InvNoErr s) (x) : InvNoErr (signalEdge x s) := by
  unfold signalEdge; split
  · rename_i hl
    exact setExp_inv h.1 h.2 (h.1.devWf x) (by simpa using hl) (h.1.bank x)
  · exact h

theorem enterDispatch_inv {s : State} (h : InvNoErr s) (x) : InvNoErr (enterDispatch x s) := by
  have h1 : InvNoErr (s.setExp x { s.exp x with pending := (s.exp x).pending.tail }) :=
    setExp_inv h.1 h.2 (h.1.devWf x) (by have := h.1.edgeRoom x; simp only [List.length_tail]; omega) (h.1.bank x)
  obtain ⟨u, hu⟩ : ∃ u, u = s.setExp x { s.exp x with pending := (s.exp x).pending.tail } := ⟨_, rfl⟩
  have hsus : u.suspended = s.suspended := by rw [hu]; cases x <;> rfl
  have hcfg : u.cfg = s.cfg := by rw [hu]; cases x <;> rfl
  rw [← hu] at h1
  unfold enterDispatch
  simp only [← hu]
  exact ⟨{ h1.1 with
      coopOnly := fun hs => by
        rcases hs with hs | hs
        · cases hs
        · simp only at hs
          split at hs
          · rename_i h2; exact h1.1.coopOnly (.inl (hsus.trans h2))
          · cases hs
      devWf := fun x => by cases x <;> first | exact h1.1.devWf .gpio | exact h1.1.devWf .relay
      edgeRoom := fun x => by cases x <;> first | exact h1.1.edgeRoom .gpio | exact h1.1.edgeRoom .relay
      bank := fun x => by cases x <;> first | exact h1.1.bank .gpio | exact h1.1.bank .relay
      errorEnds := fun hs => by
        rw [show u.err = none from h1.2] at hs
        cases hs }, h1.2⟩

/-- Every instruction keeps the invariant. -/
theorem exec_inv {i : Instr} {s t : State} (hw : i.wellFormed s.cfg) (h : InvNoErr s) (ht : exec i s = .next t) : t.Inv := by
  have ct : ∀ w, (drainCtl w s).Inv := fun w => h.1.congr h.2 rfl
  cases i with
  | displayOn => exact writeCycle_inv h (ownBus_next ht)
  | displayOff => exact writeCycle_inv h (ownBus_next ht)
  | setStartLine => exact writeCycle_inv h (ownBus_next ht)
  | setPage p => exact writeCycle_inv h (ownBus_next ht)
  | setColumn => exact writeCycle_inv h (ownBus_next ht)
  | writeData b => exact writeCycle_inv h (ownBus_next ht)
  | readStatus b => exact statusCycle_inv h (ownBus_next ht)
  | frameWrite1 => exact writeFrameWord_inv h ht
  | frameWrite2 => exact writeFrameWord_inv h (ifSequential_next ht)
  | frameRead1 => exact readFrameWord_inv h ht
  | frameRead2 => exact readFrameWord_inv h (ifSequential_next ht)
  | serCmdWrite a =>
    simp only [exec, execSerCmdWrite, commandByte] at ht
    split at ht
    · cases ht
    · cases ht; exact h.1.congr h.2 rfl
  | serCmdRead a =>
    simp only [exec, execSerCmdRead, commandByte] at ht
    split at ht
    · cases ht
    · cases ht; exact h.1.congr h.2 rfl
  | ctlChip0Cmd => cases ht; exact ct _
  | ctlChip1Cmd => cases ht; exact ct _
  | ctlChip0Data => cases ht; exact ct _
  | ctlChip1Data => cases ht; exact ct _
  | dataWord b => exact (drainData_inv h (ofExcept_next ht)).1
  | vportWrite v =>
    change run (vportSteps (.lit v)) s = _ at ht
    exact run_inv (bankClear_vport _) h ht
  | construct _ _ _ b =>
    refine execConstruct_inv h ?_ ht
    by_contra hb
    simp [Instr.wellFormed, Instr.illFormed, hb] at hw
  | bufferOffset a b c =>
    simp only [exec, execBufferOffset] at ht
    split at ht
    · cases ht; exact h.1.congr h.2 rfl
    · cases ht; exact raise_inv h.1 _
  | selectChip c =>
    refine run_inv ?_ (beginOp_inv h _) (afterInit_next (ownTransport_next ht))
    intro m hm; simp at hm; rcases hm with rfl | rfl <;> rfl
  | init => exact run_inv (bankClear_init _) (beginOp_inv h _) (ownTransport_next ht)
  | printBuffer b =>
    have := afterInit_next (ownTransport_next ht)
    split at this
    · refine run_inv (bankClear_app (bankClear_sweep _) _) ?_ this
      have := beginOp_inv h .printBuffer
      exact ⟨this.1.congr this.2 rfl, this.2⟩
    · cases this; exact raise_inv h.1 _
  | cmdGroup c bs => exact run_inv (bankClear_app (bankClear_group _ _ _ _) _) (beginOp_inv h _) (afterInit_next (ownTransport_next ht))
  | dataGroup c bs => exact run_inv (bankClear_app (bankClear_group _ _ _ _) _) (beginOp_inv h _) (afterInit_next (ownTransport_next ht))
  | lcdWrite rs b =>
    obtain ⟨l, hl, hm⟩ := execLcdWrite_next ht
    refine run_inv (bankClear_app (fun m hml => ?_) _) (beginOp_inv h _) hl
    rcases hm m hml with hb | ⟨-, w, rfl⟩
    · exact bankClear_byte _ _ _ m hb
    · rfl
  | relayByte rs b =>
    have := ownTransport_next ht
    split at this
    · exact run_inv (bankClear_app (bankClear_strobe _ _) _) (beginOp_inv h _) this
    · cases this
  | enqueue w =>
    have := ownTransport_next ht
    split at this
    · split at this
      · refine run_inv ?_ (beginOp_inv h _) this
        intro m hm; simp at hm; rcases hm with rfl | rfl <;> rfl
      · refine run_inv ?_ (beginOp_inv h _) this
        intro m hm; simp at hm; rcases hm with rfl | rfl <;> rfl
    · cases this
  | setup x n d fs =>
    change execSetup x n d fs s = _ at ht
    unfold execSetup at ht
    refine withPin_inv h ht fun m hm => ?_
    split at hm
    · refine run_inv ?_ (beginOp_inv h _) hm
      intro m hm
      simp [writeRegSteps] at hm
      rcases hm with rfl | rfl | rfl | rfl | rfl | rfl | rfl | rfl | rfl | rfl | rfl | rfl | rfl <;> rfl
    · cases hm; exact raise_inv h.1 _
  | output x n l =>
    change execOutput x n l s = _ at ht
    unfold execOutput at ht
    refine withPin_inv h ht fun m hm => ?_
    refine run_inv ?_ (beginOp_inv h _) hm
    intro m hm
    simp [writeRegSteps] at hm
    rcases hm with rfl | rfl | rfl | rfl | rfl <;> rfl
  | input x n r =>
    change execInput x n r s = _ at ht
    unfold execInput at ht
    refine withPin_inv h ht fun m hm => ?_
    exact run_inv (bankClear_app (bankClear_refresh _ _) _) (beginOp_inv h _) hm
  | outputPins x m =>
    refine withPins_inv h ht fun hm => ?_
    refine run_inv (bankClear_app ?_ _) (beginOp_inv h _) hm
    intro m hm
    simp only [List.mem_append, latchSteps, List.mem_map] at hm
    rcases hm with (⟨_, _, rfl⟩ | hm) | hm
    · rfl
    · split at hm
      · exact bankClear_writeReg _ _ _ m hm
      · cases hm
    · split at hm
      · exact bankClear_writeReg _ _ _ m hm
      · cases hm
  | inputPins x ns r =>
    refine withPins_inv h ht fun hm => ?_
    exact run_inv (bankClear_app (bankClear_refresh _ _) _) (beginOp_inv h _) hm
  | writeGpio x v =>
    simp only [exec, execWriteGpio] at ht
    split at ht
    · exact run_inv (bankClear_app (bankClear_gpioW _ _) _) (beginOp_inv h _) ht
    · cases ht; exact raise_inv h.1 _
  | readGpio x => exact run_inv (bankClear_app (bankClear_gpioR _) _) (beginOp_inv h _) ht
  | regWrite x k p v =>
    refine withShadow_inv h ht fun sk hm => ?_
    split at hm
    · split at hm
      · cases hm; exact raise_inv h.1 _
      · rename_i hn
        refine run_inv (bankClear_app ?_ _) (beginOp_inv h _) hm
        intro m hm; simp only [regWriteSteps, List.mem_cons] at hm
        rcases hm with rfl | hm
        · cases sk <;> first | rfl | (simp [Micro.bankClear] at hn ⊢; exact hn)
        · exact bankClear_writeReg _ _ _ m hm
    · cases hm; exact raise_inv h.1 _
  | regRead x k p =>
    refine withShadow_inv h ht fun sk hm => ?_
    cases hm; exact h.1.congr h.2 rfl
  | subscribe x n cb =>
    change execSubscribe x n cb s = _ at ht
    unfold execSubscribe at ht
    refine withPin_inv h ht fun m hm => ?_
    cases hm
    have h1 : InvNoErr (s.setExp x { s.exp x with subs := (s.exp x).subs ++ [(m, cb)] }) := setExp_same_inv h.1 h.2 rfl rfl rfl
    exact h1.1.congr h1.2 rfl
  | dispatch x =>
    simp only [exec, execDispatch] at ht
    split at ht
    · refine run_inv ?_ (enterDispatch_inv h x) ht
      intro m hm; rw [List.mem_append] at hm; rcases hm with hm | hm
      · exact bankClear_gpioR _ m hm
      · simp at hm; rcases hm with rfl | rfl <;> rfl
    · cases ht
  | expEdge x => cases ht; exact (signalEdge_inv h x).1

theorem dropWork_inv {s : State} (h : InvNoErr s) {m ms} (e : s.work = m :: ms) : InvNoErr { s with work := ms } :=
  ⟨{ h.1 with
      bankWork := fun m' hm => h.1.bankWork m' (by rw [e]; simp at hm ⊢; exact .inr hm)
      devWf := fun x => by cases x <;> first | exact h.1.devWf .gpio | exact h.1.devWf .relay
      edgeRoom := fun x => by cases x <;> first | exact h.1.edgeRoom .gpio | exact h.1.edgeRoom .relay
      bank := fun x => by cases x <;> first | exact h.1.bank .gpio | exact h.1.bank .relay
      errorEnds := fun hs => by rw [show s.err = none from h.2] at hs; cases hs }, h.2⟩
theorem noWork_inv {s : State} (h : InvNoErr s) : InvNoErr { s with work := [], suspended := false } :=
  ⟨{ h.1 with
      bankWork := fun m' hm => by cases hm
      coopOnly := fun hs => by
        rcases hs with hs | hs
        · cases hs
        · exact h.1.coopOnly (.inr hs)
      devWf := fun x => by cases x <;> first | exact h.1.devWf .gpio | exact h.1.devWf .relay
      edgeRoom := fun x => by cases x <;> first | exact h.1.edgeRoom .gpio | exact h.1.edgeRoom .relay
      bank := fun x => by cases x <;> first | exact h.1.bank .gpio | exact h.1.bank .relay
      errorEnds := fun hs => by rw [show s.err = none from h.2] at hs; cases hs }, h.2⟩

theorem offCtlMove_inv {s t : State} (h : s.Inv) (ht : offCtlMove s = some t) : t.Inv := by
  unfold offCtlMove at ht
  split at ht
  · rename_i n w q htr hq
    split at ht
    · cases ht
      have hn := h.ctlNumbered
      have hr := h.ctlRoom
      rw [hq] at hn hr
      exact { h with
        ctlRoom := by simp at hr; show q.length ≤ s.cfg.params.offloadFifoDepth; omega
        ctlNumbered := numbered_tail hn
        devWf := fun x => by cases x <;> first | exact h.devWf .gpio | exact h.devWf .relay
        edgeRoom := fun x => by cases x <;> first | exact h.edgeRoom .gpio | exact h.edgeRoom .relay
        bank := fun x => by cases x <;> first | exact h.bank .gpio | exact h.bank .relay }
    · cases ht
  · cases ht


/-- A state that reads the same to the invariant, an error pending or not. -/
theorem congr_inv {s t : State} (h : s.Inv) (hp : t.invPart = s.invPart) (he : t.err = s.err) (ho : t.op = s.op)
    (hx : t.inTxn = s.inTxn) : t.Inv := by
  cases hs : s.err with
  | none => exact h.congr (he.trans hs) hp
  | some e =>
    obtain ⟨z, hz⟩ : ∃ z, z = { t with err := none } := ⟨_, rfl⟩
    obtain ⟨y, hy⟩ : ∃ y : State, y = { s with err := none } := ⟨_, rfl⟩
    have hyi : y.Inv := by
      rw [hy]
      exact { h with 
        devWf := fun x => by cases x <;> first | exact h.devWf .gpio | exact h.devWf .relay
        edgeRoom := fun x => by cases x <;> first | exact h.edgeRoom .gpio | exact h.edgeRoom .relay
        bank := fun x => by cases x <;> first | exact h.bank .gpio | exact h.bank .relay
        errorEnds := fun hs => by cases hs }
    have hzi : z.Inv := hyi.congr (by rw [hz]) (by rw [hz, hy]; exact hp)
    have hte : t = { z with err := t.err } := by rw [hz]
    rw [hte]
    have hE := h.errorEnds (by rw [hs]; rfl)
    simp only [State.invPart, Prod.mk.injEq] at hp
    exact { hzi with 
        devWf := fun x => by cases x <;> first | exact hzi.devWf .gpio | exact hzi.devWf .relay
        edgeRoom := fun x => by cases x <;> first | exact hzi.edgeRoom .gpio | exact hzi.edgeRoom .relay
        bank := fun x => by cases x <;> first | exact hzi.bank .gpio | exact hzi.bank .relay
        errorEnds := fun _ => by
          rw [hz]
          exact ⟨ho.trans hE.1, hp.2.2.2.2.2.2.2.2.1.trans hE.2.1, hx.trans hE.2.2.1, hp.2.2.2.2.2.2.2.2.2.1.trans hE.2.2.2.1,
              hp.2.2.2.2.2.2.2.2.2.2.trans hE.2.2.2.2⟩ }

theorem lcdRespond_inv_any {s : State} (h : s.Inv) (c cmd) : (lcdRespond c cmd s).Inv := by
  obtain ⟨k, m, e, hm⟩ := lcdRespond_cases c cmd s
  rw [e]
  have hwf : Mem.wf dramDefault m := by
    rcases hm with rfl | ⟨b, -, rfl⟩
    · exact h.dramWf
    · exact Mem.write_wf h.dramWf _ _
  exact { h with 
        dramWf := hwf
        lcdChips := by simpa using h.lcdChips
        devWf := fun x => by cases x <;> first | exact h.devWf .gpio | exact h.devWf .relay
        edgeRoom := fun x => by cases x <;> first | exact h.edgeRoom .gpio | exact h.edgeRoom .relay
        bank := fun x => by cases x <;> first | exact h.bank .gpio | exact h.bank .relay }

theorem drainData_inv_any {b} {s t : State} (h : s.Inv) (ht : drainData b s = .ok t) : t.Inv := by
  unfold drainData at ht
  have h1 : (driveData b s).Inv := congr_inv h rfl rfl rfl rfl
  simp only at ht
  split at ht
  · obtain ⟨c, cmd, -, -, rfl⟩ := lcdCycle_ok ht
    obtain ⟨env, n, hd⟩ := ctlSeen_drawn (driveData b s)
    have h2 := congr_inv (t :=
        State.redraw (driveData b s) env n) h1 rfl rfl rfl rfl
    rw [hd]
    exact lcdRespond_inv_any h2 c cmd
  · cases ht; exact h1
  · cases ht; exact h1
  · cases ht; exact h1

theorem offDataMove_inv {s t : State} {r} (h : s.Inv) (ht : offDataMove s = some r) (hr : r = .ok t) : t.Inv := by
  unfold offDataMove at ht
  split at ht
  · rename_i n w q htr hq
    split at ht
    · cases ht
      have hn := h.dataNumbered
      have hr' := h.dataRoom
      rw [hq] at hn hr'
      have h1 : ({ s with dataQ := q } : State).Inv := { h with
        dataRoom := by simp at hr'; show q.length ≤ s.cfg.params.offloadFifoDepth; omega
        dataNumbered := numbered_tail hn
        devWf := fun x => by cases x <;> first | exact h.devWf .gpio | exact h.devWf .relay
        edgeRoom := fun x => by cases x <;> first | exact h.edgeRoom .gpio | exact h.edgeRoom .relay
        bank := fun x => by cases x <;> first | exact h.bank .gpio | exact h.bank .relay }
      exact drainData_inv_any h1 hr
    · cases ht
  · cases ht

theorem lcdResetMove_inv {s : State} (h : InvNoErr s) (c) : (lcdResetMove c s).Inv := by
  unfold lcdResetMove
  split
  · have hwf : Mem.wf dramDefault (Mem.clear s.dram (c * 512) (c * 512 + 512)) :=
      ⟨h.1.dramWf.1.filter _, fun x hx => h.1.dramWf.2 x (List.mem_of_mem_filter hx)⟩
    exact { h.1 with 
        dramWf := hwf
        lcdChips := by simpa [State.setChip] using h.1.lcdChips
        devWf := fun x => by cases x <;> first | exact h.1.devWf .gpio | exact h.1.devWf .relay
        edgeRoom := fun x => by cases x <;> first | exact h.1.edgeRoom .gpio | exact h.1.edgeRoom .relay
        bank := fun x => by cases x <;> first | exact h.1.bank .gpio | exact h.1.bank .relay }
  · exact h.1

theorem expResetMove_inv {s t : State} (h : InvNoErr s) {x} (ht : expResetMove x s = .ok t) : t.Inv := by
  have h1 : InvNoErr (s.setExp x { s.exp x with dev := [] }) :=
    setExp_inv h.1 h.2 ⟨List.Pairwise.nil, by simp⟩ (h.1.edgeRoom x) (h.1.bank x)
  unfold expResetMove at ht
  cases x with
  | gpio => cases ht; exact h1.1
  | relay =>
    rcases relayLatch_ok ht with rfl | ⟨c, cmd, -, rfl⟩
    · exact h1.1
    · exact (lcdRespond_inv h1.1 h1.2 c cmd).1

theorem idleResetMove_inv {s : State} (h : s.Inv) (addr : Nat) : (idleResetMove addr s).Inv :=
  { h with
    idleWf := ⟨by simpa [idleResetMove] using h.idleWf.1, fun m hm => by
      rcases List.mem_or_eq_of_mem_set hm with hm | rfl
      · exact h.idleWf.2 m hm
      · exact ⟨List.Pairwise.nil, by simp⟩⟩
    devWf := fun x => by cases x <;> first | exact h.devWf .gpio | exact h.devWf .relay
    edgeRoom := fun x => by cases x <;> first | exact h.edgeRoom .gpio | exact h.edgeRoom .relay
    bank := fun x => by cases x <;> first | exact h.bank .gpio | exact h.bank .relay }

theorem faultedMove_inv {m} {e} {s t : State} (h : s.Inv) (ht : faultedMove e m s = .next t) : t.Inv := by
  cases m <;> simp only [faultedMove] at ht <;> (try cases ht)
  · split at ht
    · cases ht; exact offCtlMove_inv h ‹_›
    · cases ht
  · split at ht
    · exact offDataMove_inv h ‹_› (ofExcept_next ht)
    · cases ht

end Sys2Proof.Machine
end

