-- ==== Sys2Proof/Laws/Layouts.lean ====
section
/-! SUPPORT. What the words built from CTL_MAP and VPORT_MAP hold bit by bit, and the serial command byte read back. -/

namespace Sys2Proof

/-- A command byte reads back as its address and direction (30_encoding.md R131). -/
theorem decodeSerCmd_serCmd (a : BitVec 3) (r : Bool) : decodeSerCmd (serCmd a r) = .ok (a, r) := by
  revert a
  cases r <;> decide

/-- The command byte read is the one of what it was read as. -/
theorem serCmd_of_decode {c : Byte} {a : BitVec 3} {r : Bool} (h : decodeSerCmd c = .ok (a, r)) : serCmd a r = c := by
  have all : ∀ c : Byte, c.extractLsb' 4 4 = 0b0100#4 → serCmd (c.extractLsb' 1 3) (c.getLsbD 0) = c := by decide
  unfold decodeSerCmd at h
  split at h
  · cases h
    exact all c ‹_›
  · cases h

/-! ## Control words -/

/-- The bits of an admitted CTL_MAP are four different ones of four. -/
theorem CtlMap.ok_cases {m : CtlMap} (h : m.ok = true) :
    ∃ a b c d : Fin 4, m = { cs0 := a, cs1 := b, rs := c, rw := d } ∧ a ≠ b ∧ a ≠ c ∧ a ≠ d ∧ b ≠ c ∧ b ≠ d ∧ c ≠ d := by
  obtain ⟨a, b, c, d⟩ := m
  simp only [CtlMap.ok, List.all_cons, List.all_nil, Bool.and_true, Bool.and_eq_true, decide_eq_true_eq,
    List.nodup_cons, List.mem_cons, List.not_mem_nil, or_false, not_or, not_false_eq_true, List.nodup_nil, and_true] at h
  obtain ⟨⟨ha, hb, hc, hd⟩, h⟩ := h
  refine ⟨⟨a, ha⟩, ⟨b, hb⟩, ⟨c, hc⟩, ⟨d, hd⟩, rfl, ?_⟩
  simp only [ne_eq, Fin.mk.injEq]
  tauto

/-- The four control words are different (R135). -/
theorem ctlByte_ne {m : CtlMap} (h : m.ok = true) {c c' : Fin 2} {rs rs' : Bool} (hne : (c, rs) ≠ (c', rs')) :
    ctlByte m c rs ≠ ctlByte m c' rs' := by
  obtain ⟨a, b, d, e, rfl, h1, h2, -, h3, -⟩ := CtlMap.ok_cases h
  revert a b d e c c' rs rs'
  decide +kernel

/-- A control word emitted has exactly one CS bit, and RW clear (R140 c). -/
theorem bits_of_ctlEmitted {m : CtlMap} (h : m.ok = true) {w : Nibble} (hw : w ∈ Machine.ctlEmitted m) :
    w.getLsbD m.cs0 ≠ w.getLsbD m.cs1 ∧ w.getLsbD m.rw = false := by
  have all : ∀ (a b c d : Fin 4), a ≠ b → a ≠ c → a ≠ d → b ≠ c → b ≠ d → c ≠ d →
      ∀ w ∈ Machine.ctlEmitted { cs0 := a, cs1 := b, rs := c, rw := d }, w.getLsbD a ≠ w.getLsbD b ∧ w.getLsbD d = false := by
    decide +kernel
  obtain ⟨a, b, c, d, rfl, h1, h2, h3, h4, h5, h6⟩ := CtlMap.ok_cases h
  exact all a b c d h1 h2 h3 h4 h5 h6 w hw

/-! ## Virtual-port words -/

/-- A word of listed bits has those bits and no other. -/
theorem vbits_getLsbD (is : List Nat) {i : Nat} (hi : i < 16) : (Machine.vbits is).getLsbD i = decide (i ∈ is) := by
  have bit : ∀ a, (Machine.vbit a true).getLsbD i = decide (i = a) := fun a => by
    rcases lt_trichotomy i a with h | h | h
    · simp [Machine.vbit, h, hi, h.ne]
    · subst h
      simp [Machine.vbit, hi]
    · have : i - a ≠ 0 := by omega
      simp [Machine.vbit, hi, this, h.ne']
  have fold : ∀ acc : Half,
      (is.foldl (fun acc i => acc ||| Machine.vbit i true) acc).getLsbD i = (acc.getLsbD i || decide (i ∈ is)) := by
    induction is with
    | nil => simp
    | cons a is ih =>
      intro acc
      rw [List.foldl_cons, ih, BitVec.getLsbD_or, bit, Bool.or_assoc]
      simp [Bool.decide_or]
  simpa [Machine.vbits] using fold 0#16

/-- A word has a bit outside `u` set, bit by bit. -/
theorem outside_ne_zero_iff (w u : Half) : w &&& ~~~u ≠ 0#16 ↔ ∃ i, i < 16 ∧ u.getLsbD i = false ∧ w.getLsbD i = true := by
  rw [ne_eq, BitVec.eq_of_getLsbD_eq_iff]
  simp only [BitVec.getLsbD_and, BitVec.getLsbD_not, BitVec.getLsbD_zero]
  push Not
  refine exists_congr fun i => and_congr_right fun hi => ?_
  cases w.getLsbD i <;> cases u.getLsbD i <;> simp [hi]

end Sys2Proof
end

