-- ==== Sys2Proof/Laws/Offload.lean ====
section
/-! SUPPORT. What the steps of OFFLOAD queue, where there is room. -/

namespace Sys2Proof.Machine

theorem ctlWords_append (a b : List Event) : ctlWords (a ++ b) = ctlWords a ++ ctlWords b := List.filterMap_append
theorem dataWords_append (a b : List Event) : dataWords (a ++ b) = dataWords a ++ dataWords b := List.filterMap_append

/-- `t` is `s` after the events `evs` were queued. -/
structure QueuedBy (evs : List Event) (s t : State) : Prop where
  trace : t.trace = s.trace ++ evs
  ctl : t.ctlQ.map (·.2) = s.ctlQ.map (·.2) ++ ctlWords evs
  data : t.dataQ.map (·.2) = s.dataQ.map (·.2) ++ dataWords evs
  target : SameTarget s t
  kept : t.kept = s.kept
theorem QueuedBy.append {e e' s t u} (h : QueuedBy e s t) (h' : QueuedBy e' t u) : QueuedBy (e ++ e') s u where
  trace := by rw [h'.trace, h.trace, List.append_assoc]
  ctl := by rw [h'.ctl, h.ctl, ctlWords_append, List.append_assoc]
  data := by rw [h'.data, h.data, dataWords_append, List.append_assoc]
  target := ⟨h'.target.1.trans h.target.1, h'.target.2.trans h.target.2⟩
  kept := h'.kept.trans h.kept
theorem QueuedBy.nil {s t : State} (h1 : t.trace = s.trace) (h2 : t.ctlQ = s.ctlQ) (h3 : t.dataQ = s.dataQ)
    (h4 : SameTarget s t) (h5 : t.kept = s.kept) : QueuedBy [] s t :=
  ⟨by simp [h1], by simp [h2, ctlWords], by simp [h3, dataWords], h4, h5⟩
/-- Room for `nc` control words and `nd` data words. -/
def OffloadRoom (nc nd : Nat) (s : State) : Prop :=
  s.cfg.transport = .offload ∧ s.slice = none ∧ s.ctlQ.length + nc ≤ s.cfg.params.offloadFifoDepth ∧
      s.dataQ.length + nd ≤ s.cfg.params.offloadFifoDepth
theorem QueuedBy.len {e s t} (h : QueuedBy e s t) : t.ctlQ.length = s.ctlQ.length + (ctlWords e).length ∧
    t.dataQ.length = s.dataQ.length + (dataWords e).length := by
  have h1 := congrArg List.length h.ctl
  have h2 := congrArg List.length h.data
  simp only [List.length_map, List.length_append] at h1 h2
  exact ⟨h1, h2⟩
theorem OffloadRoom.after {nc nd s t e} (hr : OffloadRoom (nc + (ctlWords e).length) (nd + (dataWords e).length) s)
    (h : QueuedBy e s t) : OffloadRoom nc nd t := by
  have hk := h.kept
  simp only [State.kept, Prod.mk.injEq] at hk
  obtain ⟨a, b, c, d⟩ := hr
  obtain ⟨l1, l2⟩ := h.len
  refine ⟨hk.1 ▸ a, hk.2.2.2.2.1.trans b, ?_, ?_⟩ <;> rw [hk.1] <;> omega
theorem QueuedBy.cfg {e s t} (h : QueuedBy e s t) : t.cfg = s.cfg := congrArg (·.1) h.kept

theorem steps_enqCtl {nc nd s} (w : Nibble) (hr : OffloadRoom (nc + 1) nd s) : ∃ t, Steps [.enqCtl w] s t ∧
    QueuedBy [.qCtl w] s t ∧ OffloadRoom nc nd t ∧ t.selChip = s.selChip ∧ t.blk = s.blk := by
  have hm : micro (.enqCtl w) s = .next ((s.queueCtl w).event (.qCtl w)) := by
    simp only [micro, enqueueCtl]; rw [if_pos]; have := hr.2.2.1; omega
  have hq : QueuedBy [.qCtl w] s ((s.queueCtl w).event (.qCtl w)) := ⟨rfl, by simp [State.queueCtl, State.event, ctlWords],
      by simp [State.queueCtl, State.event, dataWords], ⟨rfl, rfl⟩, rfl⟩
  exact ⟨_, .one hr.2.1 hm, hq, OffloadRoom.after (e := [.qCtl w]) hr hq, rfl, rfl⟩
theorem steps_enqData {nc nd s} (src : Src) (hr : OffloadRoom nc (nd + 1) s) : ∃ t, Steps [.enqData src] s t ∧
    QueuedBy [.qData (src.value s)] s t ∧ OffloadRoom nc nd t ∧ t.selChip = s.selChip ∧ t.blk = s.blk := by
  have hm : micro (.enqData src) s = .next ((s.queueData (src.value s)).event (.qData (src.value s))) := by
    simp only [micro, enqueueData]; rw [if_pos]; have := hr.2.2.2; omega
  have hq : QueuedBy [.qData (src.value s)] s ((s.queueData (src.value s)).event (.qData (src.value s))) := ⟨rfl,
      by simp [State.queueData, State.event, ctlWords], by simp [State.queueData, State.event, dataWords], ⟨rfl, rfl⟩, rfl⟩
  exact ⟨_, .one hr.2.1 hm, hq, OffloadRoom.after (e := [.qData _]) hr hq, rfl, rfl⟩
theorem selectChip_offload {nc nd s c} (hr : OffloadRoom nc nd s) (hc : c < s.cfg.chips) : ∃ t, selectChipStep c s = .next t ∧
    QueuedBy [] s t ∧ OffloadRoom nc nd t ∧ t.selChip = some c ∧ t.blk = s.blk := by
  have hq : QueuedBy [] s (s.select (some c)) := .nil rfl rfl rfl ⟨rfl, rfl⟩ rfl
  exact ⟨s.select (some c), by unfold selectChipStep; rw [if_pos hc, hr.1], hq, OffloadRoom.after (e := []) hr hq, rfl, rfl⟩
theorem steps_groupHead_offload {nc nd s c} (rs : Bool) (hr : OffloadRoom (nc + 1) nd s) (hc : c < s.cfg.chips) :
   ∃ t, Steps (groupHead s.cfg c rs) s t ∧ QueuedBy [.qCtl (ctlWord s.cfg.params.ctlMap c rs false)] s t ∧ OffloadRoom nc nd t ∧
       t.selChip = some c ∧ t.blk = s.blk := by
  have hg : groupHead s.cfg c rs = [.groupSelect c, .enqCtl (ctlWord s.cfg.params.ctlMap c rs false)] :=
      by unfold groupHead; rw [hr.1]
  rw [hg]
  have h1 : ∃ t, Steps [.groupSelect c] s t ∧ QueuedBy [] s t ∧ OffloadRoom (nc + 1) nd t ∧ t.selChip = some c ∧
      t.blk = s.blk := by
    by_cases hs : s.selChip = some c
    · exact ⟨s, .one hr.2.1 (by simp only [micro, hs, if_true]), .nil rfl rfl rfl ⟨rfl, rfl⟩ rfl, hr, hs, rfl⟩
    · obtain ⟨t, a, b⟩ := selectChip_offload hr hc
      exact ⟨t, .one hr.2.1 (by simp only [micro, if_neg hs, a]), b⟩
  obtain ⟨t, a1, a2, a3, a4, a5⟩ := h1
  obtain ⟨u, b1, b2, b3, b4, b5⟩ := steps_enqCtl (ctlWord s.cfg.params.ctlMap c rs false) a3
  exact ⟨u, a1.append b1, a2.append b2, b3, b4.trans a4, b5.trans a5⟩
theorem steps_bytes_offload {nc nd c} (rs : Bool) (cfg : Cfg) (bs : List Byte) {s : State} (hcfg : s.cfg = cfg)
    (hr : OffloadRoom nc (nd + bs.length) s) (hs : s.selChip = some c) :
   ∃ t, Steps (bs.flatMap fun b => byteSteps cfg rs (.imm b)) s t ∧ QueuedBy (bs.map .qData) s t ∧ OffloadRoom nc nd t ∧
       t.selChip = some c ∧ t.blk = s.blk := by
  have hb : ∀ b, byteSteps cfg rs (.imm b) = [.enqData (.imm b)] := fun b => by unfold byteSteps; rw [← hcfg, hr.1]
  simp only [hb]
  induction bs generalizing s with
  | nil => exact ⟨s, .nil s, .nil rfl rfl rfl ⟨rfl, rfl⟩ rfl, hr, hs, rfl⟩
  | cons b bs ih =>
    obtain ⟨t, a1, a2, a3, a4, a5⟩ := steps_enqData (nd := nd + bs.length) (.imm b) hr
    obtain ⟨u, b1, b2, b3, b4, b5⟩ := ih ((QueuedBy.cfg a2).trans hcfg) a3 (a4.trans hs)
    exact ⟨u, a1.append b1, a2.append b2, b3, b4, b5.trans a5⟩
theorem ctlWords_group (c chip rs bs) : (ctlWords
    (offloadGroupEvents c chip rs bs)) = [ctlWord c.params.ctlMap chip rs false] := by
  simp [offloadGroupEvents, ctlWords, List.filterMap_map]
theorem dataWords_group (c chip rs bs) : (dataWords (offloadGroupEvents c chip rs bs)) = bs := by
  simp [offloadGroupEvents, dataWords, List.filterMap_map]
/-- A group queues one control word and its bytes. -/
theorem steps_group_offload {nc nd c} (rs : Bool) (cfg : Cfg) (bs : List Byte) {s : State} (hcfg : s.cfg = cfg)
    (hr : OffloadRoom (nc + 1) (nd + bs.length) s) (hc : c < cfg.chips) :
   ∃ t, Steps (groupSteps cfg c rs bs) s t ∧ QueuedBy (offloadGroupEvents cfg c rs bs) s t ∧ OffloadRoom nc nd t ∧
       t.selChip = some c ∧ t.blk = s.blk := by
  obtain ⟨t, a1, a2, a3, a4, a5⟩ := steps_groupHead_offload rs hr (hcfg ▸ hc)
  rw [hcfg] at a1 a2
  obtain ⟨u, b1, b2, b3, b4, b5⟩ := steps_bytes_offload rs cfg bs ((QueuedBy.cfg a2).trans hcfg) a3 a4
  exact ⟨u, a1.append b1, a2.append b2, b3, b4, b5.trans a5⟩

theorem initEvents_words (c : Cfg) (chs : List Nat) : (ctlWords
    (chs.flatMap fun c' => offloadGroupEvents c c' false [0x3F#8, 0xC0#8])).length = chs.length ∧
    (dataWords (chs.flatMap fun c' => offloadGroupEvents c c' false [0x3F#8, 0xC0#8])).length = 2 * chs.length := by
  induction chs with
  | nil => exact ⟨rfl, rfl⟩
  | cons a chs ih =>
    simp only [List.flatMap_cons, ctlWords_append, dataWords_append, ctlWords_group, dataWords_group, List.length_append, List.length_cons, List.length_nil]
    omega

/-- A block of the sweep queues its two groups. -/
theorem steps_block_offload {nc nd pg ch} (cfg : Cfg) (fb : List Byte) {s : State} (hcfg : s.cfg = cfg) (hfb : s.fb = fb)
    (hm : s.fbMods = []) (hr : OffloadRoom (nc + 2) (nd + 66) s) (hc : ch < cfg.chips) :
   ∃ t, Steps (blockSteps cfg pg ch) s t ∧
       QueuedBy (offloadGroupEvents cfg ch false [0xB8#8 ||| BitVec.ofNat 8 (pg % 8), 0x40#8]
      ++ offloadGroupEvents cfg ch true ((List.range 64).map fun col => fb.getD (col + 64 * ch + pg * cfg.width) 0#8)) s t ∧
          OffloadRoom nc nd t := by
  have hb : ∀ rs src, byteSteps cfg rs src = [.enqData src] := fun rs b => by unfold byteSteps; rw [← hcfg, hr.1]
  have qpos : ∀ (v : State) a b c d, QueuedBy [] v (v.atPosition a b c d) := fun v a b c d => .nil rfl rfl rfl ⟨rfl, rfl⟩ rfl
  have rpos : ∀ {x y} (v : State) a b c d, OffloadRoom x y v → OffloadRoom x y (v.atPosition a b c d) :=
      fun v a b c d h => OffloadRoom.after (e := []) h (qpos v a b c d)
  obtain ⟨s2, a1, a2, a3, a4, -⟩ := selectChip_offload (c :=
      ch) (rpos s pg ch 0 .cmdPage hr) (by rw [atPosition_cfg, hcfg]; exact hc)
  have c2 : s2.cfg = cfg := (QueuedBy.cfg a2).trans hcfg
  obtain ⟨s3, b1, b2, b3, b4, -⟩ := steps_groupHead_offload false a3 (c2 ▸ hc)
  have c3 := (QueuedBy.cfg b2).trans c2
  obtain ⟨s4, d1, d2, d3, d4, -⟩ := steps_enqData (nd := nd + 65) (.imm (setPageByte pg)) b3
  have c4 := (QueuedBy.cfg d2).trans c3
  obtain ⟨s5, e1, e2, e3, e4, -⟩ := steps_enqData (nd := nd + 64) (.imm 0x40#8) (rpos s4 pg ch 0 .cmdCol d3)
  have c5 : s5.cfg = cfg := (QueuedBy.cfg e2).trans c4
  have hk5 : s5.kept = s.kept := e2.kept.trans (d2.kept.trans (b2.kept.trans a2.kept))
  have m5 : s5.fbMods = [] := (congrArg (·.2.2.2.1.2) hk5).trans hm
  have f5 : s5.fb = fb := (congrArg (·.2.2.2.1.1) hk5).trans hfb
  let l := ((List.range 64).map (cfg.offset pg ch)).map fun o => fb.getD o 0#8
  have qb : QueuedBy [] s5 ((s5.atPosition pg ch 0 .data).withBlk l) := .nil rfl rfl rfl ⟨rfl, rfl⟩ rfl
  obtain ⟨s6, i1, i2, i3, i4, i5⟩ := steps_groupHead_offload (c := ch) (nc := nc) true (OffloadRoom.after (e :=
      []) e3 qb) (by rw [withBlk_cfg, atPosition_cfg, c5]; exact hc)
  have c6 : s6.cfg = cfg := (QueuedBy.cfg i2).trans c5
  have key : ∀ (cols : List Nat) (v : State), v.cfg = cfg → OffloadRoom nc (nd + cols.length) v → ∃ t,
      Steps (cols.flatMap fun col => .position pg ch col .data :: byteSteps cfg true (.blk col)) v t ∧
      QueuedBy ((cols.map fun col => v.blk.getD col 0#8).map .qData) v t ∧ OffloadRoom nc nd t := by
    intro cols
    induction cols with
    | nil => intro v _ hr; exact ⟨v, .nil v, .nil rfl rfl rfl ⟨rfl, rfl⟩ rfl, hr⟩
    | cons col cols ih =>
      intro v hv hr
      obtain ⟨t, x1, x2, x3, x4, x5⟩ := steps_enqData (nd := nd + cols.length) (.blk col) (rpos v pg ch col .data hr)
      obtain ⟨u, y1, y2, y3⟩ := ih t ((QueuedBy.cfg x2).trans hv) x3
      rw [x5] at y2
      refine ⟨u, ?_, ((qpos v pg ch col .data).append x2).append y2, y3⟩
      simp only [List.flatMap_cons, hb]
      simp only [hb] at y1
      exact .cons hr.2.1 rfl (x1.append y1)
  obtain ⟨s7, j1, j2, j3⟩ := key (List.range 64) s6 c6 (by simpa using i3)
  refine ⟨s7.atPosition pg ch 64 .data, ?_, ?_, rpos _ _ _ _ _ j3⟩
  · rw [c2] at b1
    rw [withBlk_cfg, atPosition_cfg, c5] at i1
    unfold blockSteps dataSteps
    simp only [hb] at j1 ⊢
    refine Steps.append (Steps.append (Steps.append (Steps.append (Steps.append (Steps.append (Steps.append (Steps.append
      ?_ b1) d1) ?_) e1) ?_) i1) j1) ?_
    · exact .cons hr.2.1 rfl (.one hr.2.1 a1)
    · exact .one d3.2.1 rfl
    · refine .cons e3.2.1 rfl (.one (s := s5.atPosition pg ch 0 .data) e3.2.1 ?_)
      simp only [micro, fbReads_unmodified (s := s5.atPosition pg ch 0 .data) m5, atPosition_cfg, c5, l]
      rw [show (s5.atPosition pg ch 0 .data).fb = fb from f5]
    · exact .one j3.2.1 rfl
  · have hbl : s6.blk = l := i5
    have hcols : (List.range 64).map (fun col => s6.blk.getD col 0#8) = (List.range 64).map fun col => fb.getD
        (col + 64 * ch + pg * cfg.width) 0#8 := by
      apply List.map_congr_left
      intro col hcol
      simp only [hbl, l, List.getD_eq_getElem?_getD, List.getElem?_map, List.getElem?_range (List.mem_range.1 hcol)]
      rfl
    rw [hcols] at j2
    rw [c2] at b2
    rw [withBlk_cfg, atPosition_cfg, c5] at i2
    have := ((((((((qpos s pg ch 0 .cmdPage).append a2).append b2).append d2).append
        (qpos s4 pg ch 0 .cmdCol)).append e2).append qb).append i2).append (j2.append (qpos s7 pg ch 64 .data))
    have e : ∀ x y : List Event, x = y → QueuedBy x s (s7.atPosition pg ch 64 .data) →
        QueuedBy y s (s7.atPosition pg ch 64 .data) := fun _ _ h => h ▸ id
    refine e _ _ ?_ this
    simp [offloadGroupEvents, Src.value, setPageByte]

end Sys2Proof.Machine
end

