-- ==== Sys2Proof/Laws/ReadGpio.lean ====
section
/-! SUPPORT. What the steps of `read_gpio` do, where its frames complete. -/

namespace Sys2Proof.Machine

/-- The GPIO byte the environment answers with, and what is left of its supply and of the counter. -/
def pinOf (e : Env) (n : Nat) : Byte := e.pins.headD (Config.freePins n)
def afterPin (e : Env) : Env := { e with pins := e.pins.tail }
def drawsPin (e : Env) (n : Nat) : Nat := if e.pins = [] then n + 1 else n
theorem drawPin_eq (s : State) : drawPin s = (pinOf s.env s.draws, s.redraw (afterPin s.env) (drawsPin s.env s.draws)) := by
  unfold drawPin pinOf afterPin drawsPin
  split
  · rename_i h; simp [h, State.redraw]
  · rename_i h
    simp only [h]
    have : { s.env with pins := [] } = s.env := by rw [← h]
    simp [State.redraw, State.drew, this]

/-- The next two bytes read depend on the environment and the counter alone. -/
theorem nextPins_eq (s : State) :
    s.nextPins = (pinOf s.env s.draws, pinOf (afterPin s.env) (drawsPin s.env s.draws)) := by
  simp only [State.nextPins, drawPin_eq]
  rfl

theorem nextPins_congr {s t : State} (he : t.env = s.env) (hn : t.draws = s.draws) : t.nextPins = s.nextPins := by
  rw [nextPins_eq, nextPins_eq, he, hn]

/-- A read frame that completes. -/
theorem frameRead_next {x cmd reg n} {s : State} (hc : s.calm) :
   frameRead x cmd reg none n s = .next (((drawPins n s.closeFrame).2.setExp x { (drawPins n s.closeFrame).2.exp x with rx := ((drawPins n s.closeFrame).2.exp x).rx ++ (drawPins n s.closeFrame).1 }).event (.frameR cmd reg (drawPins n s.closeFrame).1)) := by
  unfold frameRead
  rw [if_pos (hc.bus _), drawFail_none (by exact hc.2.1)]
  rfl

/-- `t` is `s` after a `read_gpio` that read `a` and `b`. -/
structure ReadDone (x : ExpId) (a b : Byte) (s t : State) : Prop where
  snap : (t.exp x).snap = cat16 b a
  trace : t.trace = s.trace ++ gpioReadEvents (s.cmdR x) (s.seq x) a b
  sh : (t.exp x).sh = (s.exp x).sh
  dev : (t.exp x).dev = (s.exp x).dev
  subs : (t.exp x).subs = (s.exp x).subs
  pend : (t.exp x).pending = (s.exp x).pending
  inTxn : t.inTxn = false
  calm : t.calm
  kept : t.kept.1 = s.kept.1 ∧ t.op = s.op ∧ t.disp = s.disp ∧ t.work = s.work ∧ t.suspended = s.suspended

/-- The steps of `read_gpio` all complete where no frame fails. -/
theorem read_steps {x : ExpId} {s : State} (hc : s.calm) :
   ∃ t, Steps (readGpioSteps x) s t ∧ ReadDone x s.nextPins.1 s.nextPins.2 s t := by
  let e1 := afterPin s.env
  let n1 := drawsPin s.env s.draws
  let e2 := afterPin e1
  let n2 := drawsPin e1 n1
  let a := pinOf s.env s.draws
  let b := pinOf e1 n1
  have hp : s.nextPins = (a, b) := nextPins_eq s
  rw [hp]
  by_cases hs : s.seq x = true
  · let s1 := (s.txn true).setExp x { s.exp x with rx := [] }
    have hc1 : s1.calm := by cases x <;> exact hc
    have hfr := frameRead_next (x := x) (cmd := s.cmdR x) (reg := gpioAddrA) (n := 2) hc1
    let s2 : State := ({ s with env := e2, draws := n2, inTxn := true, openFrame := none, trace := s.trace ++ [.frameR (s.cmdR x) gpioAddrA [a, b]] } : State).setExp x { s.exp x with rx := [a, b] }
    have hm : micro (.gpioFrameA x) (s.txn true) = .next s2 := by
      have h1 : (s.txn true).seq x = true := by cases x <;> exact hs
      have h2 : (s.txn true).cmdR x = s.cmdR x := by cases x <;> rfl
      simp only [micro, h1, if_true, h2, txn_exp]
      refine hfr.trans ?_
      cases x <;> simp [s1, s2, drawPins, drawPin_eq, State.setExp, State.exp, State.redraw, State.closeFrame, State.event, State.txn] <;> (repeat' constructor)
    have hm2 : micro (.gpioFrameB x) s2 = .next s2 := by
      have : s2.seq x = true := by cases x <;> exact hs
      simp only [micro, this, if_true]
    let t : State := ({ s with env := e2, draws := n2, inTxn := false, openFrame := none, trace := s.trace ++ [.frameR (s.cmdR x) gpioAddrA [a, b]] } : State).setExp x { s.exp x with rx := [a, b], snap := cat16 b a }
    have hm3 : micro (.gpioEnd x) s2 = .next t := by cases x <;> rfl
    have hsl : s2.slice = none := by cases x <;> exact hc.1
    refine ⟨t, .cons hc.1 rfl (.cons (s := s.txn true) hc.1 hm (.cons hsl hm2 (.one hsl hm3))), ?_⟩
    constructor
    · cases x <;> rfl
    · simp only [gpioReadEvents, hs, if_true]; cases x <;> rfl
    · cases x <;> rfl
    · cases x <;> rfl
    · cases x <;> rfl
    · cases x <;> rfl
    · cases x <;> rfl
    · cases x <;> exact ⟨hc.1, hc.2.1, rfl⟩
    · cases x <;> exact ⟨rfl, rfl, rfl, rfl, rfl⟩
  · have hs' : s.seq x = false := by simpa using hs
    let s1 := (s.txn true).setExp x { s.exp x with rx := [] }
    have hc1 : s1.calm := by cases x <;> exact hc
    have hfr := frameRead_next (x := x) (cmd := s.cmdR x) (reg := gpioAddrA) (n := 1) hc1
    let s2 : State := ({ s with env := e1, draws := n1, inTxn := true, openFrame := none, trace := s.trace ++ [.frameR (s.cmdR x) gpioAddrA [a]] } : State).setExp x { s.exp x with rx := [a] }
    have hm : micro (.gpioFrameA x) (s.txn true) = .next s2 := by
      have h1 : (s.txn true).seq x = false := by cases x <;> exact hs'
      have h2 : (s.txn true).cmdR x = s.cmdR x := by cases x <;> rfl
      simp only [micro, h1, h2, txn_exp]
      refine hfr.trans ?_
      cases x <;> simp [s1, s2, drawPins, drawPin_eq, State.setExp, State.exp, State.redraw, State.closeFrame, State.event, State.txn] <;> (repeat' constructor)
    have hc2 : s2.calm := by cases x <;> exact ⟨hc.1, hc.2.1, rfl⟩
    have hfr2 := frameRead_next (x := x) (cmd := s.cmdR x) (reg := gpioAddrB) (n := 1) hc2
    let s3 : State := ({ s with env := e2, draws := n2, inTxn := true, openFrame := none, trace := s.trace ++ [.frameR (s.cmdR x) gpioAddrA [a], .frameR (s.cmdR x) gpioAddrB [b]] } : State).setExp x { s.exp x with rx := [a, b] }
    have hm2 : micro (.gpioFrameB x) s2 = .next s3 := by
      have h1 : s2.seq x = false := by cases x <;> exact hs'
      have h2 : s2.cmdR x = s.cmdR x := by cases x <;> rfl
      simp only [micro, h1, h2]
      refine hfr2.trans ?_
      cases x <;> simp [s2, s3, drawPins, drawPin_eq, State.setExp, State.exp, State.redraw, State.closeFrame, State.event] <;>
          (repeat' constructor)
    let t : State := ({ s with env := e2, draws := n2, inTxn := false, openFrame := none, trace := s.trace ++ [.frameR (s.cmdR x) gpioAddrA [a], .frameR (s.cmdR x) gpioAddrB [b]] } : State).setExp x { s.exp x with rx := [a, b], snap := cat16 b a }
    have hm3 : micro (.gpioEnd x) s3 = .next t := by cases x <;> rfl
    have hsl : s2.slice = none := by cases x <;> exact hc.1
    have hsl3 : s3.slice = none := by cases x <;> exact hc.1
    refine ⟨t, .cons hc.1 rfl (.cons (s := s.txn true) hc.1 hm (.cons hsl hm2 (.one hsl3 hm3))), ?_⟩
    constructor
    · cases x <;> rfl
    · simp only [gpioReadEvents, hs']; cases x <;> rfl
    · cases x <;> rfl
    · cases x <;> rfl
    · cases x <;> rfl
    · cases x <;> rfl
    · cases x <;> rfl
    · cases x <;> exact ⟨hc.1, hc.2.1, rfl⟩
    · cases x <;> exact ⟨rfl, rfl, rfl, rfl, rfl⟩

theorem ReadDone.opAfter {x : ExpId} {a b : Byte} {s t : State} (h : ReadDone x a b s t) : t.opAfter = s.opAfter := by
  simp [State.opAfter, h.kept]

/-- The same of a state whose `op` alone was changed first. -/
theorem read_steps_op {x : ExpId} {s : State} (hc : s.calm) (o : Option Op) :
    ∃ t, Steps (readGpioSteps x) { s with op := o } t ∧ ReadDone x s.nextPins.1 s.nextPins.2 { s with op := o } t := by
  have h := read_steps (x := x) (s := { s with op := o }) hc
  rwa [show State.nextPins { s with op := o } = s.nextPins from nextPins_congr rfl rfl] at h

end Sys2Proof.Machine
end

