-- ==== Sys2Proof/Laws/SerialFrames.lean ====
section
/-! SUPPORT. What the instructions of the serial bus leave unchanged, from one lemma per primitive step. -/

namespace Sys2Proof.Machine

/-- What the serial steps of instance `x` leave: all but the shadows at the addresses `A`, the chip registers `C`, the virtual port
where `V` holds, the pending edges where `D` holds, and the snapshot where `W` holds. -/
structure SerialKept (x : ExpId) (A : List Byte) (C : List Nat) (V D W : Prop) (s t : State) : Prop where
  cfg : t.cfg = s.cfg
  sq : SameSequencer s t
  li : SameLines s t
  off : SameOffload s t
  fb : SameFramebuffer s t
  ca : SameCaller s t
  sel : t.selChip = s.selChip ∧ t.inited = s.inited
  oth : ∀ y, y ≠ x → t.exp y = s.exp y
  subs : (t.exp x).subs = (s.exp x).subs
  pend : D ∨ (t.exp x).pending = (s.exp x).pending
  sh : ∀ k p, regAddr k p ∉ A → (t.exp x).sh.get k p = (s.exp x).sh.get k p
  dev : ∀ a, a ∉ C → (t.exp x).devRead a = (s.exp x).devRead a
  wf : Mem.wf devDefault (t.exp x).dev
  vp : V ∨ t.vport = s.vport
  snap : W ∨ (t.exp x).snap = (s.exp x).snap
  tgt : x = .gpio ∨ s.cfg.transport ≠ .spiRelay ∨ (0x14 ∉ C ∧ 0x15 ∉ C) → SameTarget s t

variable {x : ExpId} {A : List Byte} {C : List Nat} {V D W : Prop} {s t u : State}

theorem SerialKept.trans (h : SerialKept x A C V D W s t) (h' : SerialKept x A C V D W t u) : SerialKept x A C V D W s u where
  cfg := h'.cfg.trans h.cfg
  sq := by have := h.sq; have := h'.sq; simp_all [SameSequencer]
  li := by have := h.li; have := h'.li; simp_all [SameLines]
  off := by have := h.off; have := h'.off; simp_all [SameOffload]
  fb := by have := h.fb; have := h'.fb; simp_all [SameFramebuffer]
  ca := by have := h.ca; have := h'.ca; simp_all [SameCaller]
  sel := by have := h.sel; have := h'.sel; simp_all
  oth := fun y hy => (h'.oth y hy).trans (h.oth y hy)
  subs := h'.subs.trans h.subs
  pend := h.pend.elim .inl fun e => h'.pend.elim .inl fun e' => .inr (e'.trans e)
  sh := fun k p hk => (h'.sh k p hk).trans (h.sh k p hk)
  dev := fun a ha => (h'.dev a ha).trans (h.dev a ha)
  wf := h'.wf
  vp := h.vp.elim .inl fun e => h'.vp.elim .inl fun e' => .inr (e'.trans e)
  snap := h.snap.elim .inl fun e => h'.snap.elim .inl fun e' => .inr (e'.trans e)
  tgt := fun hq => by
    have h1 := h.tgt hq
    have h2 := h'.tgt (by rw [h.cfg]; exact hq)
    exact ⟨h2.1.trans h1.1, h2.2.trans h1.2⟩

/-- A change of what the frame does not speak of. -/
theorem SerialKept.of_rest (hw : Mem.wf devDefault (s.exp x).dev)
   (h : t = { s with op := t.op, inTxn := t.inTxn, openFrame := t.openFrame, ret := t.ret, err := t.err, trace := t.trace, work := t.work, suspended := t.suspended, disp := t.disp, slice := t.slice, env := t.env, draws := t.draws }) : SerialKept x A C V D W s t := by
  have hx : ∀ y, t.exp y = s.exp y := fun y => by rw [h]; cases y <;> rfl
  constructor
  · rw [h]
  · rw [h]; exact ⟨rfl, rfl, rfl, rfl, rfl⟩
  · rw [h]; exact ⟨rfl, rfl, rfl, rfl, rfl, rfl, rfl⟩
  · rw [h]; exact ⟨rfl, rfl, rfl, rfl, rfl, rfl, rfl⟩
  · rw [h]; exact ⟨rfl, rfl, rfl⟩
  · rw [h]; exact ⟨rfl, rfl, rfl, rfl⟩
  · rw [h]; exact ⟨rfl, rfl⟩
  · intro y _; exact hx y
  · rw [hx]
  · exact .inr (by rw [hx])
  · intro k p _; rw [hx]
  · intro a _; rw [hx]
  · rw [hx]; exact hw
  · exact .inr (by rw [h])
  · exact .inr (by rw [hx])
  · intro _; rw [h]; exact ⟨rfl, rfl⟩

/-- The instance replaced by one that differs where it may. -/
theorem SerialKept.setExp {e : Expander} (h1 : e.subs = (s.exp x).subs) (h2 : D ∨ e.pending = (s.exp x).pending)
   (h3 : ∀ k p, regAddr k p ∉ A → e.sh.get k p = (s.exp x).sh.get k p)
   (h4 : ∀ a, a ∉ C → e.devRead a = (s.exp x).devRead a) (h5 : Mem.wf devDefault e.dev)
   (h6 : W ∨ e.snap = (s.exp x).snap) : SerialKept x A C V D W s
       (s.setExp x e) := by
  have hx : (s.setExp x e).exp x = e := setExp_exp_same s x e
  constructor
  · simp
  · simp [SameSequencer]
  · simp [SameLines]
  · simp [SameOffload]
  · simp [SameFramebuffer]
  · simp [SameCaller]
  · simp
  · intro y hy; exact setExp_exp_other s e hy
  · rw [hx]; exact h1
  · rw [hx]; exact h2
  · rw [hx]; exact h3
  · rw [hx]; exact h4
  · rw [hx]; exact h5
  · exact .inr (by simp)
  · rw [hx]; exact h6
  · intro _; simp [SameTarget]

/-- What `n` bytes written from `a` on reach is among `C`. -/
def inRange (C : List Nat) (a n : Nat) : Prop := ∀ i < n, ∀ k ∈ storeAddrs (a + i), k ∈ C

theorem SerialKept.devLand {r : Byte} {vs} (hw : Mem.wf devDefault (s.exp x).dev) (hC : inRange C r.toNat vs.length)
    (h : devLand x r vs s = .ok t) : SerialKept x A C V D W s t := by
  have hs : SerialKept x A C V D W s (s.setExp x { s.exp x with dev := devStore (s.exp x).dev r.toNat vs }) :=
    SerialKept.setExp rfl (.inr rfl) (fun _ _ _ => rfl) (fun a ha => read_devStore_untouched hw _ fun i hi hm => ha (hC i hi a hm))
        (devStore_wf hw _ _) (.inr rfl)
  rcases devLand_ok h with rfl | ⟨c, cmd, hx, htr, rfl⟩
  · exact hs
  · obtain ⟨w, hwe⟩ : ∃ w, w = s.setExp x { s.exp x with dev := devStore (s.exp x).dev r.toNat vs } := ⟨_, rfl⟩
    rw [← hwe] at hs h ⊢
    obtain ⟨k, m, e, -⟩ := lcdRespond_cases c cmd w
    have hex : ∀ y, (lcdRespond c cmd w).exp y = w.exp y := fun y => by rw [e]; cases y <;> rfl
    constructor
    · rw [e]; exact hs.cfg
    · rw [e]; exact hs.sq
    · rw [e]; exact hs.li
    · rw [e]; exact hs.off
    · rw [e]; exact hs.fb
    · rw [e]; exact hs.ca
    · rw [e]; exact hs.sel
    · intro y hy; rw [hex]; exact hs.oth y hy
    · rw [hex]; exact hs.subs
    · rw [hex]; exact hs.pend
    · rw [hex]; exact hs.sh
    · rw [hex]; exact hs.dev
    · rw [hex]; exact hs.wf
    · rw [e]; exact hs.vp
    · rw [hex]; exact hs.snap
    · intro hq
      rcases hq with hq | hq | hq
      · rw [hx] at hq; cases hq
      · exact absurd htr hq
      · subst hx
        have hp : w.relayPins = s.relayPins := by
          have e1 := hs.dev 0x15 hq.2
          have e2 := hs.dev 0x14 hq.1
          simp only [State.relayPins]
          rw [show w.relay.devRead 0x15 = s.relay.devRead 0x15 from e1, show w.relay.devRead 0x14 = s.relay.devRead 0x14 from e2]
        have hl : devLand .relay r vs s = .ok w := by
          show relayLatch s.relayPins _ = _
          simp only [← hwe]
          unfold relayLatch
          rw [if_neg]
          rw [hp]
          rintro ⟨-, a, b⟩
          rw [hs.cfg] at b
          have hce : w.cfg = s.cfg := hs.cfg
          rw [hce, b] at a; cases a
        have e2 : w = lcdRespond c cmd w := by
          have := hl.symm.trans h
          injection this
        rw [← e2]
        exact hs.tgt (.inr (.inr hq))

theorem SerialKept.drawn (hw : Mem.wf devDefault (s.exp x).dev) (h : Drawn s.closeFrame t) : SerialKept x A C V D W s t := by
  obtain ⟨env, n, rfl⟩ := h
  exact .of_rest hw rfl

theorem SerialKept.event (h : SerialKept x A C V D W s t) (ev) : SerialKept x A C V D W s (t.event ev) :=
    h.trans (.of_rest h.wf rfl)
theorem SerialKept.raise (h : SerialKept x A C V D W s t) (e) : SerialKept x A C V D W s (raise e t) := h.trans (.of_rest h.wf rfl)

abbrev KeepsSerial (x : ExpId) (A : List Byte) (C : List Nat) (V D W : Prop) (s : State) (r : MRes) : Prop :=
    r.keeps (SerialKept x A C V D W s) (SerialKept x A C V D W s) (fun _ => True)

theorem frameWrite_serial {cmd reg data} (hw : Mem.wf devDefault (s.exp x).dev)
    (hC : inRange C reg.toNat data.length) : KeepsSerial x A C V D W s (frameWrite x cmd reg data s) := by
  rcases frameWrite_cases x cmd reg data s with ⟨s1, t, hd, hl, e⟩ | ⟨s1, t, vs, hd, hl, hlen, e⟩ | ⟨r, e⟩ <;> rw [e]
  · have h1 := SerialKept.drawn (A := A) (C := C) (V := V) (D := D) (W := W) hw hd
    exact (h1.trans (SerialKept.devLand h1.wf (by simpa using hC) hl)).event _
  · have h1 := SerialKept.drawn (A := A) (C := C) (V := V) (D := D) (W := W) hw hd
    exact ((h1.trans (SerialKept.devLand h1.wf (fun i hi => hC i (by omega)) hl)).event _).raise _
  · trivial

theorem setExp_rx_serial (hw : Mem.wf devDefault (s.exp x).dev) (l) : SerialKept x A C V D W s
    (s.setExp x { s.exp x with rx := l }) :=
  SerialKept.setExp rfl (.inr rfl) (fun _ _ _ => rfl) (fun _ _ => rfl) hw (.inr rfl)

theorem frameRead_serial {cmd reg g n} (hw : Mem.wf devDefault (s.exp x).dev) : KeepsSerial x A C V D W s
    (frameRead x cmd reg g n s) := by
  rcases frameRead_cases x cmd reg g n s with ⟨s1, l, hd, e⟩ | ⟨s1, hd, e⟩ | ⟨r, e⟩ <;> rw [e]
  · have h1 := SerialKept.drawn (A := A) (C := C) (V := V) (D := D) (W := W) hw hd
    exact (h1.trans (setExp_rx_serial h1.wf _)).event _
  · have h1 := SerialKept.drawn (A := A) (C := C) (V := V) (D := D) (W := W) hw hd
    exact (h1.event _).raise _
  · trivial

/-- The serial steps of instance `x`, with the shadows and chip registers they may write. -/
inductive SerialStep (x : ExpId) (A : List Byte) (C : List Nat) (V W : Prop) : Micro → Prop
  | vportBegin (v) (hx : x = .relay) (hA : regAddr .olat .a ∈ A ∧ regAddr .olat .b ∈ A) (hV : V) : SerialStep x A C V W (.vportBegin (.lit v))
  | olatBegin (v) (hA : regAddr .olat .a ∈ A ∧ regAddr .olat .b ∈ A) (hV : x = .relay → V) : SerialStep x A C V W (.olatBegin x v)
  | olatFrameA (hC : 0x14 ∈ C ∧ 0x15 ∈ C) : SerialStep x A C V W (.olatFrameA x)
  | olatFrameB (hC : 0x14 ∈ C ∧ 0x15 ∈ C) : SerialStep x A C V W (.olatFrameB x)
  | txnBegin : SerialStep x A C V W .txnBegin
  | txnEnd : SerialStep x A C V W .txnEnd
  | shadowBit (k p i v) (h : regAddr k p ∈ A) : SerialStep x A C V W (.shadowBit x k p i v)
  | shadowSet (k p v) (h : regAddr k p ∈ A) : SerialStep x A C V W (.shadowSet x k p v)
  | regFrame (k p) (h : (regAddr k p).toNat ∈ C) : SerialStep x A C V W (.regFrame x k p)
  | gpioFrameA : SerialStep x A C V W (.gpioFrameA x)
  | gpioFrameB : SerialStep x A C V W (.gpioFrameB x)
  | gpioEnd (hW : W) : SerialStep x A C V W (.gpioEnd x)
  | wordWrite (c r d) (h : inRange C (BitVec.toNat r) (List.length d)) : SerialStep x A C V W (.wordWrite x c r d)
  | wordRead (c r d) : SerialStep x A C V W (.wordRead x c r d)
  | ret (r) : SerialStep x A C V W (.ret r)
  | scan (p) : SerialStep x A C V W (.dispatchScan x p)
  | pins (l) : SerialStep x A C V W (.dispatchPins x l)
  | dend (r) : SerialStep x A C V W (.dispatchEnd r)

theorem setShadow_serial {k p v} (hw : Mem.wf devDefault (s.exp x).dev) (h : regAddr k p ∈ A) : SerialKept x A C V D W s
    (s.setShadow x k p v) :=
  SerialKept.setExp rfl (.inr rfl) (fun _ _ hk => RegFile.get_set_other _ _ (fun e => hk (e ▸ h))) (fun _ _ => rfl) hw (.inr rfl)

theorem olatBegin_serial (v) (hw : Mem.wf devDefault (s.exp x).dev) (hA : regAddr .olat .a ∈ A ∧
    regAddr .olat .b ∈ A) (hV : x = .relay → V) : SerialKept x A C V D W s (olatBegin x v s) := by
  have h1 : SerialKept x A C V D W s
      (s.setExp x { s.exp x with sh := { (s.exp x).sh with olat := { a := lowByte v, b := highByte v } } }) :=
    SerialKept.setExp rfl (.inr rfl) (fun k p hk => by
      cases k <;> first | rfl | (exfalso; cases p; exact hk hA.1; exact hk hA.2)) (fun _ _ => rfl) hw (.inr rfl)
  cases x with
  | gpio => exact h1.trans (.of_rest h1.wf rfl)
  | relay =>
    refine h1.trans ?_
    obtain ⟨w, hwe⟩ : ∃ w, w = s.setExp .relay { s.exp .relay with sh := { (s.exp .relay).sh with olat := { a := lowByte v, b := highByte v } } } := ⟨_, rfl⟩
    have ho : olatBegin .relay v s = (w.txn true).withVport v := by rw [hwe]; rfl
    rw [ho]
    rw [← hwe] at h1 ⊢
    have hx : ∀ y, ((w.txn true).withVport v).exp y = w.exp y := fun y => by cases y <;> rfl
    constructor
    · rfl
    · exact ⟨rfl, rfl, rfl, rfl, rfl⟩
    · exact ⟨rfl, rfl, rfl, rfl, rfl, rfl, rfl⟩
    · exact ⟨rfl, rfl, rfl, rfl, rfl, rfl, rfl⟩
    · exact ⟨rfl, rfl, rfl⟩
    · exact ⟨rfl, rfl, rfl, rfl⟩
    · exact ⟨rfl, rfl⟩
    · intro y _; exact hx y
    · rw [hx]
    · exact .inr (by rw [hx])
    · intro k p _; rw [hx]
    · intro a _; rw [hx]
    · rw [hx]; exact h1.wf
    · exact .inl (hV rfl)
    · exact .inr (by rw [hx])
    · intro _; exact ⟨rfl, rfl⟩

theorem reportPins_serial (hw : Mem.wf devDefault (s.exp x).dev) (l) : KeepsSerial x A C V D W s (reportPins x l s) := by
  rcases reportPins_cases x l s with e | ⟨_, _, _, e⟩ <;> rw [e]
  · exact SerialKept.of_rest hw rfl
  · exact ⟨SerialKept.of_rest hw rfl, fun _ _ => trivial⟩

/-- What one serial step leaves. -/
theorem micro_serial {m} (hm : SerialStep x A C V W m) (hw : Mem.wf devDefault (s.exp x).dev) : KeepsSerial x A C V D W s
    (micro m s) := by
  have r2 : 0x14 ∈ C ∧ 0x15 ∈ C → inRange C 0x14 2 := fun h i hi k hk => by
    rcases (show k = 0x14 ∨ k = 0x15 by rcases mem_storeAddrs.1 hk with h | h <;> omega) with rfl | rfl
    · exact h.1
    · exact h.2
  have r1 : ∀ a, a ≠ 0x12 → a ≠ 0x13 → a ∈ C → inRange C a 1 := fun a h2 h3 h i hi k hk => by
    obtain rfl : k = a := by rcases mem_storeAddrs.1 hk with h | h <;> omega
    exact h
  cases hm with
  | vportBegin v hx hA hV =>
    subst hx
    exact (SerialKept.of_rest hw rfl : SerialKept .relay A C V D W s (s.event (.vport v))).trans (olatBegin_serial v
        (by simpa using hw) hA fun _ => hV)
  | olatBegin v hA hV => exact olatBegin_serial v hw hA hV
  | olatFrameA hC =>
    simp only [micro]; split
    · exact frameWrite_serial hw (r2 hC)
    · exact frameWrite_serial hw (r1 _ (by decide) (by decide) hC.1)
  | olatFrameB hC =>
    simp only [micro]; split
    · exact SerialKept.of_rest hw rfl
    · exact frameWrite_serial hw (r1 _ (by decide) (by decide) hC.2)
  | txnBegin => exact SerialKept.of_rest hw rfl
  | txnEnd => exact SerialKept.of_rest hw rfl
  | shadowBit k p i v h => exact setShadow_serial hw h
  | shadowSet k p v h => exact setShadow_serial hw h
  | regFrame k p h =>
    have hp := regAddr_plain k p
    exact frameWrite_serial hw (r1 _ (by omega) (by omega) h)
  | gpioFrameA =>
    have h1 := setExp_rx_serial (A := A) (C := C) (V := V) (D := D) (W := W) hw []
    have h2 : ∀ r : MRes, KeepsSerial x A C V D W (s.setExp x { s.exp x with rx := [] }) r → KeepsSerial x A C V D W s r := by
      intro r hr
      cases r with
      | next u => exact h1.trans hr
      | hold u => exact h1.trans hr
      | push ms u => exact ⟨h1.trans hr.1, hr.2⟩
      | raise e u => exact h1.trans hr
      | refuse r => trivial
    simp only [micro]; split
    · exact h2 _ (frameRead_serial h1.wf)
    · exact h2 _ (frameRead_serial h1.wf)
  | gpioFrameB =>
    simp only [micro]; split
    · exact SerialKept.of_rest hw rfl
    · exact frameRead_serial hw
  | gpioEnd hW =>
    have h1 : SerialKept x A C V D W s
        (s.setExp x { s.exp x with snap := cat16 ((s.exp x).rx.getD 1 0#8) ((s.exp x).rx.getD 0 0#8) }) :=
      SerialKept.setExp rfl (.inr rfl) (fun _ _ _ => rfl) (fun _ _ => rfl) hw (.inl hW)
    exact h1.trans (.of_rest h1.wf rfl)
  | wordWrite c r d h => exact frameWrite_serial hw h
  | wordRead c r d =>
    have h1 := setExp_rx_serial (A := A) (C := C) (V := V) (D := D) (W := W) hw []
    have h2 : ∀ r : MRes, KeepsSerial x A C V D W (s.setExp x { s.exp x with rx := [] }) r → KeepsSerial x A C V D W s r := by
      intro r hr
      cases r with
      | next u => exact h1.trans hr
      | hold u => exact h1.trans hr
      | push ms u => exact ⟨h1.trans hr.1, hr.2⟩
      | raise e u => exact h1.trans hr
      | refuse r => trivial
    simp only [micro]
    exact h2 _ (frameRead_serial h1.wf)
  | ret r => simp only [micro, endOp]; split <;> exact SerialKept.of_rest hw rfl
  | scan p => exact reportPins_serial hw _
  | pins l => exact reportPins_serial hw _
  | dend r => exact SerialKept.of_rest hw rfl


theorem run_serial {ms} (hms : ∀ m ∈ ms,
    SerialStep x A C V W m) (hw : Mem.wf devDefault (s.exp x).dev) (h : run ms s = .next t) : SerialKept x A C V D W s t := by
  refine run_keeps_class (P := SerialKept x A C V D W s) (R := SerialKept x A C V D W s) (Q :=
      SerialStep x A C V W) ?_ ?_ (fun _ h => h) ?_ hms (.of_rest hw rfl) h
  · intro u hu; exact hu.trans (.of_rest hu.wf rfl)
  · intro u w hu; exact hu.trans (.of_rest hu.wf rfl)
  · intro m u hm hu
    have := micro_serial (D := D) (W := W) hm hu.wf
    cases hmic : micro m u with
    | next v => rw [hmic] at this; exact hu.trans this
    | hold v => rw [hmic] at this; exact hu.trans this
    | push l v => rw [hmic] at this; exact ⟨hu.trans this.1, this.2⟩
    | raise e v => rw [hmic] at this; exact hu.trans this
    | refuse r => trivial

theorem beginOp_serial (hw : Mem.wf devDefault (s.exp x).dev) (o) : SerialKept x A C V D W s (beginOp o s) := by
  rw [beginOp_eq]; exact .of_rest hw rfl
theorem run_beginOp_serial {ms o} (hms : ∀ m ∈ ms,
    SerialStep x A C V W m) (hw : Mem.wf devDefault (s.exp x).dev) (h : run ms
    (beginOp o s) = .next t) : SerialKept x A C V D W s t :=
  (beginOp_serial hw o).trans (run_serial hms (beginOp_serial (A := []) (C := []) (V := True) (D := True) (W := True) hw o).wf h)

theorem ser_reg {k p} (h : (regAddr k p).toNat ∈ C) : ∀ m ∈ writeRegSteps x k p, SerialStep x A C V W m := by
  intro m hm; simp [writeRegSteps] at hm; rcases hm with rfl | rfl | rfl
  · exact .txnBegin
  · exact .regFrame _ _ h
  · exact .txnEnd
theorem ser_readGpio (hW : W) : ∀ m ∈ readGpioSteps x, SerialStep x A C V W m := by
  intro m hm; simp [readGpioSteps] at hm; rcases hm with rfl | rfl | rfl | rfl
  · exact .txnBegin
  · exact .gpioFrameA
  · exact .gpioFrameB
  · exact .gpioEnd hW
theorem ser_refresh {r} (hW : r = true → W) : ∀ m ∈ refreshSteps x r, SerialStep x A C V W m := by
  intro m hm; cases r
  · cases hm
  · exact ser_readGpio (hW rfl) m hm
theorem ser_app {l : List Micro} {r} (h : ∀ m ∈ l, SerialStep x A C V W m) : ∀ m ∈ l ++ [.ret r], SerialStep x A C V W m := by
  intro m hm; rw [List.mem_append] at hm; rcases hm with hm | hm
  · exact h m hm
  · simp at hm; subst hm; exact .ret _
theorem ser_cons {l : List Micro} {m0} (h0 : SerialStep x A C V W m0) (h : ∀ m ∈ l, SerialStep x A C V W m) : ∀ m ∈ m0 :: l,
    SerialStep x A C V W m := by
  intro m hm; rw [List.mem_cons] at hm; rcases hm with rfl | hm
  · exact h0
  · exact h m hm
theorem ser_append {l l' : List Micro} (h : ∀ m ∈ l, SerialStep x A C V W m) (h' : ∀ m ∈ l',
    SerialStep x A C V W m) : ∀ m ∈ l ++ l', SerialStep x A C V W m := by
  intro m hm; rw [List.mem_append] at hm; rcases hm with hm | hm
  · exact h m hm
  · exact h' m hm

/-- Virtual-port writes of given values that pulse E. -/
theorem ser_strobe {st : VportStrobe} {w : Bool → Half} (hA : regAddr .olat .a ∈ A ∧ regAddr .olat .b ∈ A)
    (hC : 0x14 ∈ C ∧ 0x15 ∈ C) (hV : V) :
    ∀ m ∈ strobeSteps st (fun e => .lit (w e)), SerialStep .relay A C V W m := by
  have one : ∀ e, ∀ m ∈ vportSteps (.lit (w e)), SerialStep .relay A C V W m := fun e =>
    ser_cons (.vportBegin _ rfl hA hV) (ser_cons (.olatFrameA hC) (ser_cons (.olatFrameB hC) (ser_cons .txnEnd (by simp))))
  cases st
  · exact ser_append (ser_append (one false) (one true)) (one false)
  · exact ser_append (one true) (one false)

/-- What an LCD word leaves that the relay carries. -/
theorem relayWord_serial {rs : Bool} {d : Byte} (hA : regAddr .olat .a ∈ A ∧ regAddr .olat .b ∈ A)
    (hC : 0x14 ∈ C ∧ 0x15 ∈ C) (hV : V) (hw : Mem.wf devDefault (s.exp .relay).dev) (ht : relayWord rs d s = .next t) : SerialKept .relay A C V D W s t := by
  unfold relayWord at ht
  split at ht
  · exact run_serial (ser_strobe hA hC hV) hw ht
  · cases ht

theorem lcdWord_addrs {i : Instr} (hi : i.isLcdWord = true) :
    (regAddr .olat .a ∈ i.shadowAddrs ∧ regAddr .olat .b ∈ i.shadowAddrs) ∧ 0x14 ∈ i.chipAddrs ∧ 0x15 ∈ i.chipAddrs := by
  cases i <;> first | exact ⟨⟨.head _, .tail _ (.head _)⟩, .head _, .tail _ (.head _)⟩ | cases hi

theorem lcdWord_serial {i : Instr} (hi : i.isLcdWord = true) (htr : s.cfg.transport = .spiRelay)
    (hA : regAddr .olat .a ∈ A ∧ regAddr .olat .b ∈ A) (hC : 0x14 ∈ C ∧ 0x15 ∈ C) (hV : V)
    (hw : Mem.wf devDefault (s.exp .relay).dev) (ht : exec i s = .next t) : SerialKept .relay A C V D W s t := by
  have write : ∀ {rs b}, ownBus s (writeCycle rs b s) = .next t → SerialKept .relay A C V D W s t := fun h => by
    have h := ownBus_next h
    simp only [writeCycle, htr] at h
    exact relayWord_serial hA hC hV hw h
  cases i with
  | displayOn => exact write (rs := false) (b := 0x3F#8) ht
  | displayOff => exact write (rs := false) (b := 0x3E#8) ht
  | setStartLine => exact write (rs := false) (b := 0xC0#8) ht
  | setPage page => exact write (rs := false) (b := 0xB8#8 ||| page.setWidth 8) ht
  | setColumn => exact write (rs := false) (b := 0x40#8) ht
  | writeData b => exact write (rs := true) (b := b) ht
  | readStatus v =>
    have h := ownBus_next (show ownBus s (statusCycle v s) = .next t from ht)
    simp only [statusCycle, htr] at h
    cases h
  | _ => cases hi

theorem lcdWord_instance {i : Instr} (hl : i.isLcdWord = true) (hi : s.instanceOf i = some x) :
    s.cfg.transport = .spiRelay ∧ x = .relay := by
  have : s.instanceOf i = if i.isLcdWord ∧ s.cfg.transport = .spiRelay then some .relay else none := by
    cases i <;> first | rfl | cases hl
  rw [this] at hi
  split at hi
  · cases hi
    exact ⟨(‹_ ∧ _›).2, rfl⟩
  · cases hi

theorem setup_serial {n : Int} {d : Direction} {fs : List SetupFlag} (ht : exec (Instr.setup x n d fs) s = .next t)
    (hw : Mem.wf devDefault (s.exp x).dev) :
    SerialKept x (Instr.setup x n d fs).shadowAddrs (Instr.setup x n d fs).chipAddrs V D ((Instr.setup x n d fs).writesSnap = true) s t := by
  have rz : ∀ e, SerialKept x (Instr.setup x n d fs).shadowAddrs (Instr.setup x n d fs).chipAddrs V D ((Instr.setup x n d fs).writesSnap = true) s (raise e s) :=
    fun e => .of_rest hw rfl
  change execSetup x n d fs s = _ at ht
  unfold execSetup withPin at ht
  split at ht
  · split at ht
    · refine run_beginOp_serial (ser_append (ser_append (ser_append (ser_cons (.shadowBit _ _ _ _ ?_) (ser_reg ?_)) (ser_cons
          (.shadowBit _ _ _ _ ?_) (ser_reg ?_))) (ser_cons (.shadowBit _ _ _ _ ?_) (ser_reg ?_))) (ser_cons (l :=
          []) (.ret _) (by simp))) hw (by beta_reduce at ht; refine Eq.trans ?_ ht; congr 1)
      all_goals simp [Instr.shadowAddrs, Instr.chipAddrs]
    · cases ht; exact rz _
  · cases ht; exact rz _

theorem outputPins_serial {m : List (Int × Int)} (ht : exec (Instr.outputPins x m) s = .next t)
    (hw : Mem.wf devDefault (s.exp x).dev) :
    SerialKept x (Instr.outputPins x m).shadowAddrs (Instr.outputPins x m).chipAddrs V D ((Instr.outputPins x m).writesSnap = true) s t := by
  have rz : ∀ e, SerialKept x (Instr.outputPins x m).shadowAddrs (Instr.outputPins x m).chipAddrs V D ((Instr.outputPins x m).writesSnap = true) s (raise e s) :=
    fun e => .of_rest hw rfl
  change execOutputPins x m s = _ at ht
  unfold execOutputPins withPins at ht
  split at ht
  · refine run_beginOp_serial (ser_app (ser_append (ser_append ?_ ?_) ?_)) hw ht
    · intro q hq; simp only [latchSteps, List.mem_map] at hq
      obtain ⟨nl, hnl, rfl⟩ := hq
      refine .shadowBit _ _ _ _ ?_
      simp only [Instr.shadowAddrs, List.mem_map]; exact ⟨nl, hnl, rfl⟩
    · split
      · rename_i h
        simp only [List.any_eq_true] at h
        obtain ⟨nl, hnl, h⟩ := h
        refine ser_reg ?_
        simp only [Instr.chipAddrs, Instr.shadowAddrs, List.mem_map]
        refine ⟨_, ⟨nl, hnl, rfl⟩, ?_⟩
        have : portOf nl.1.toNat = .a := by simp at h; unfold portOf; rw [if_pos (by omega)]
        rw [this]
      · simp
    · split
      · rename_i h
        simp only [List.any_eq_true] at h
        obtain ⟨nl, hnl, h⟩ := h
        refine ser_reg ?_
        simp only [Instr.chipAddrs, Instr.shadowAddrs, List.mem_map]
        refine ⟨_, ⟨nl, hnl, rfl⟩, ?_⟩
        have : portOf nl.1.toNat = .b := by simp at h; unfold portOf; rw [if_neg (by omega)]
        rw [this]
      · simp
  · cases ht; exact rz _

theorem output_serial {n l : Int} (ht : exec (Instr.output x n l) s = .next t)
    (hw : Mem.wf devDefault (s.exp x).dev) :
    SerialKept x (Instr.output x n l).shadowAddrs (Instr.output x n l).chipAddrs V D ((Instr.output x n l).writesSnap = true) s t := by
  have rz : ∀ e, SerialKept x (Instr.output x n l).shadowAddrs (Instr.output x n l).chipAddrs V D ((Instr.output x n l).writesSnap = true) s (raise e s) :=
    fun e => .of_rest hw rfl
  change execOutput x n l s = _ at ht
  unfold execOutput withPin at ht
  split at ht
  · refine run_beginOp_serial (ser_append (ser_cons (.shadowBit _ _ _ _ ?_) (ser_reg ?_)) (ser_cons (l :=
        []) (.ret _) (by simp))) hw (by beta_reduce at ht; refine Eq.trans ?_ ht; congr 1)
    all_goals simp [Instr.shadowAddrs, Instr.chipAddrs]
  · cases ht; exact rz _

/-- What an instruction of the serial bus leaves. -/
theorem exec_serial {i : Instr} (hi : s.instanceOf i = some x) (ht : exec i s = .next t) (hw : Mem.wf devDefault
    (s.exp x).dev) :
   SerialKept x i.shadowAddrs i.chipAddrs (i.isLcdWord = true ∨ (∃ v, i = .vportWrite v) ∨ ∃ v, i = .writeGpio .relay v) (∃ y,
       i = .dispatch y) (i.writesSnap = true) s t := by
  have rz : ∀ {A C V D W} e, SerialKept x A C V D W s (raise e s) := fun e => .of_rest hw rfl
  by_cases hl : i.isLcdWord = true
  · obtain ⟨htr, rfl⟩ := lcdWord_instance hl hi
    obtain ⟨hA, hC⟩ := lcdWord_addrs hl
    exact lcdWord_serial hl htr hA hC (.inl hl) hw ht
  cases i with
  | displayOn | displayOff | setStartLine | setPage | setColumn | writeData | readStatus => exact absurd rfl hl
  | frameWrite1 a r d =>
    have hi : s.expAt a = some x := hi
    simp only [exec, execFrameWrite1, writeFrameWord, hi] at ht
    refine run_serial (ser_cons .txnBegin (ser_cons (.wordWrite _ _ _ ?_) (ser_cons .txnEnd (by simp)))) hw ht
    intro j hj k hk
    obtain rfl : j = 0 := by simpa using hj
    exact hk
  | frameWrite2 a r d d' =>
    have hi : s.expAt a = some x := hi
    have ht := ifSequential_next ht
    simp only [writeFrameWord, hi] at ht
    refine run_serial (ser_cons .txnBegin (ser_cons (.wordWrite _ _ _ ?_) (ser_cons .txnEnd (by simp)))) hw ht
    intro j hj k hk
    rcases (show j = 0 ∨ j = 1 by simp at hj; omega) with rfl | rfl
    · exact List.mem_append_left _ hk
    · exact List.mem_append_right _ hk
  | frameRead1 a r d =>
    have hi : s.expAt a = some x := hi
    simp only [exec, execFrameRead1, readFrameWord, hi] at ht
    exact run_serial (ser_cons .txnBegin (ser_cons (.wordRead _ _ _) (ser_cons .txnEnd (ser_cons (.ret _) (by simp))))) hw ht
  | frameRead2 a r d d' =>
    have hi : s.expAt a = some x := hi
    have ht := ifSequential_next ht
    simp only [readFrameWord, hi] at ht
    exact run_serial (ser_cons .txnBegin (ser_cons (.wordRead _ _ _) (ser_cons .txnEnd (ser_cons (.ret _) (by simp))))) hw ht
  | vportWrite v =>
    cases hi
    have ht : run (vportSteps (.lit v)) s = .next t := ht
    have hC : 0x14 ∈ (Instr.vportWrite v).chipAddrs ∧ 0x15 ∈ (Instr.vportWrite v).chipAddrs :=
        by simp [Instr.chipAddrs, Instr.shadowAddrs, regAddr]
    refine run_serial (ser_cons (.vportBegin v rfl ?_ (.inr (.inl ⟨v, rfl⟩))) (ser_cons (.olatFrameA hC) (ser_cons (.olatFrameB hC) (ser_cons .txnEnd (by simp))))) hw ht
    simp [Instr.shadowAddrs]
  | setup y n d fs => cases hi; exact setup_serial ht hw
  | output y n l => cases hi; exact output_serial ht hw
  | input y n r =>
    cases hi
    change execInput x n r s = _ at ht
    unfold execInput withPin at ht
    split at ht
    · exact run_beginOp_serial (ser_app (ser_refresh fun hr => hr)) hw ht
    · cases ht; exact rz _
  | outputPins y m => cases hi; exact outputPins_serial ht hw
  | inputPins y ns r =>
    cases hi
    change execInputPins x ns r s = _ at ht
    unfold execInputPins withPins at ht
    split at ht
    · exact run_beginOp_serial (ser_app (ser_refresh fun hr => hr)) hw ht
    · cases ht; exact rz _
  | writeGpio y v =>
    cases hi
    simp only [exec, execWriteGpio] at ht
    split at ht
    · have hC : 0x14 ∈ (Instr.writeGpio x v).chipAddrs ∧ 0x15 ∈ (Instr.writeGpio x v).chipAddrs :=
          by simp [Instr.chipAddrs, Instr.shadowAddrs, regAddr]
      refine run_beginOp_serial (ser_app (ser_cons (.olatBegin _ ?_ ?_) (ser_cons (.olatFrameA hC) (ser_cons (.olatFrameB hC)
          (ser_cons .txnEnd (by simp)))))) hw ht
      · simp [Instr.shadowAddrs]
      · rintro rfl; exact .inr (.inr ⟨v, rfl⟩)
    · cases ht; exact rz _
  | readGpio y =>
    cases hi
    exact run_beginOp_serial (ser_app (ser_readGpio rfl)) hw ht
  | regWrite y k p v =>
    cases hi
    change execRegWrite x k p v s = _ at ht
    unfold execRegWrite withShadow at ht
    split at ht
    · rename_i sk hk
      beta_reduce at ht
      split at ht
      · split at ht
        · cases ht; exact rz _
        · refine run_beginOp_serial (ser_app (ser_cons (.shadowSet _ _ _ ?_) (ser_reg ?_))) hw ht
          · simp [Instr.shadowAddrs, hk]
          · simp [Instr.chipAddrs, Instr.shadowAddrs, hk]
      · cases ht; exact rz _
    · cases ht; exact rz _
  | regRead y k p =>
    cases hi
    change execRegRead x k p s = _ at ht
    unfold execRegRead withShadow at ht
    split at ht
    · cases ht; exact .of_rest hw rfl
    · cases ht; exact rz _
  | dispatch y =>
    cases hi
    change execDispatch x s = _ at ht
    unfold execDispatch at ht
    split at ht
    · have h1 : ∀ {A C V W}, SerialKept x A C V (∃ y, Instr.dispatch x = .dispatch y) W s (enterDispatch x s) := by
        intro A C V W
        have h1 : SerialKept x A C V (∃ y,
            Instr.dispatch x = .dispatch y) W s (s.setExp x { s.exp x with pending := (s.exp x).pending.tail }) :=
          SerialKept.setExp rfl (.inl ⟨x, rfl⟩) (fun _ _ _ => rfl) (fun _ _ => rfl) hw (.inr rfl)
        exact h1.trans (.of_rest h1.wf rfl)
      refine h1.trans (run_serial (ser_append (ser_readGpio rfl) (ser_cons (.scan _) (ser_cons (.dend _) (by simp)))) (h1 (A :=
          []) (C := []) (V := True) (W := True)).wf ht)
    · cases ht
  | _ => cases hi

end Sys2Proof.Machine
end

