-- ==== Sys2Proof/Tests/Slice0.lean ====
section
/-! SUPPORT. Tests whose expected values are those of 95_test_vectors.md (named by their ids) or written out from the rules, and,
for every obligation with hypotheses, a concrete state and operands that meet them. -/

namespace Sys2Proof.Tests

open Sys2Proof Sys2Proof.Machine

/-! ## Well-formedness: an ill-formed term for each check -/

/-- The parameters of the tests: R8's defaults. -/
def params : Params :=
  { csActive := true, pinMap := [], ctlMap := Config.ctlMap, offloadOrder := .independent, offloadFifoDepth := 4,
    offloadRate := 1, offloadStrobeCycles := 1, vportMap := Config.vportMap, vportStrobe := .threeWrite, tE := 0 }

/-- The parameters of an expander instance: R8's defaults, at a device address. -/
def expParams (addr : Int) : ExpParams :=
  { addr := addr, bus := .spi, seqTest := .seqopClear, irqQueueDepth := 1, intEdge := .falling }

/-- A panel of two chips and one page on a transport, with EXP_ADDR 0 for the caller's instance and 1 for the relay's. -/
def cfg (t : Transport) : Cfg :=
  { width := 128, height := 8, transport := t, params := params, gpio := expParams 0, relay := expParams 1 }

/-- What the limits of an instruction are under the tests' configuration. -/
def limit (i : Instr) : Option Reject := i.illFormed (cfg .direct)

theorem test_illFormed_unnamedRegister : limit (.frameWrite1 0#3 0x0B#8 0#8) = some .unnamedRegister := by decide
theorem test_illFormed_registerAboveMap : limit (.frameRead1 0#3 0x16#8 0#8) = some .unnamedRegister := by decide
theorem test_illFormed_secondRegister : limit (.frameWrite2 0#3 0x15#8 0#8 0#8) = some .unnamedRegister := by decide
theorem test_illFormed_unusedRegister :
    limit (.frameRead1 0#3 0x0E#8 0#8) = some .unusedRegister ∧ limit (.frameRead1 0#3 0x11#8 0#8) = some .unusedRegister
      ∧ limit (.frameWrite2 0#3 0x0D#8 0#8 0#8) = some .unusedRegister := by decide
theorem test_illFormed_bank :
    limit (.frameWrite1 0#3 0x0A#8 0x80#8) = some .bankSet ∧ limit (.frameWrite2 0#3 0x09#8 0#8 0x80#8) = some .bankSet
      ∧ limit (.frameWrite1 0#3 0x0A#8 0x7F#8) = none ∧ limit (.frameRead1 0#3 0x0A#8 0x80#8) = none := by decide
theorem test_illFormed_vportRead : limit (.vportWrite 0x0200#16) = some .vportRw := by decide
theorem test_illFormed_vportUnused : limit (.vportWrite 0x2000#16) = some .vportUnused := by decide
theorem test_illFormed_vportSelects : limit (.vportWrite 0x1800#16) = some .vportSelects := by decide
/-- Under another VPORT_MAP (R137), bit 9 is E and bit 8 RW. -/
theorem test_illFormed_vportMap :
    let g := { cfg .direct with params := { params with vportMap := { Config.vportMap with e := 9, rw := 8 } } }
    (Instr.vportWrite 0x0A00#16).illFormed g = none ∧ (Instr.vportWrite 0x0100#16).illFormed g = some .vportRw := by decide
theorem test_illFormed_enqueue :
    limit (.enqueue (.ctl 0x0#4)) = some .ctlWord ∧ limit (.enqueue (.ctl 0x3#4)) = some .ctlWord
      ∧ limit (.enqueue (.ctl 0x9#4)) = some .ctlWord ∧ limit (.enqueue (.ctl 0x6#4)) = none := by decide
theorem test_illFormed_duplicatePin : limit (.outputPins .gpio [(3, 1), (3, 0)]) = some .duplicatePin := by decide
theorem test_illFormed_queueDepth :
    limit (.construct 0 0 .direct (.expander .gpio { expParams 0 with irqQueueDepth := 0 })) = some .badParameter
      ∧ limit (.construct 64 8 .direct (.facade params { expParams 0 with irqQueueDepth := 0 })) = some .badParameter := by
  decide
theorem test_illFormed_fifoDepth :
    limit (.construct 64 8 .direct (.facade { params with offloadFifoDepth := 0 } (expParams 1))) = some .badParameter := by
  decide
theorem test_illFormed_ctlMap :
    limit (.construct 64 8 .direct (.facade { params with ctlMap := { Config.ctlMap with rs := 0 } } (expParams 1)))
      = some .badParameter := by decide
theorem test_illFormed_vportMapRange :
    limit (.construct 64 8 .direct (.facade { params with vportMap := { Config.vportMap with e := 16 } } (expParams 1)))
      = some .badParameter := by decide
theorem test_wellFormed_params : (cfg .direct).ok = true := by decide

/-! ## Decoding: words written out from the encodings of opcode_table.json -/

theorem test_decode_displayOn : decodeTableWord 10 0b0000111111 = some .displayOn := by decide
theorem test_decode_displayOff : decodeTableWord 10 0b0000111110 = some .displayOff := by decide
theorem test_decode_setStartLine : decodeTableWord 10 0b0011000000 = some .setStartLine := by decide
theorem test_decode_setPage : decodeTableWord 10 0b0010111011 = some (.setPage 3#3) := by decide
theorem test_decode_setColumn : decodeTableWord 10 0b0001000000 = some .setColumn := by decide
theorem test_decode_writeData : decodeTableWord 10 0b1010100101 = some (.writeData 0xA5#8) := by decide
theorem test_decode_readStatus : decodeTableWord 16 0b0100100000 = some (.readStatus 0x20#8) := by decide
theorem test_decode_frameWrite1 :
    decodeTableWord 24 0b010001100000010111111110 = some (.frameWrite1 3#3 0x05#8 0xFE#8) := by decide
theorem test_decode_frameWrite2 :
    decodeTableWord 32 0b01000000000101000011010000010010 = some (.frameWrite2 0#3 0x14#8 0x34#8 0x12#8) := by decide
theorem test_decode_frameRead1 :
    decodeTableWord 24 0b010010110001001110000000 = some (.frameRead1 5#3 0x13#8 0x80#8) := by decide
theorem test_decode_frameRead2 :
    decodeTableWord 32 0b01000001000100100010000000000001 = some (.frameRead2 0#3 0x12#8 0x20#8 0x01#8) := by decide
theorem test_decode_serCmdWrite : decodeTableWord 8 0b01001110 = some (.serCmdWrite 7#3) := by decide
theorem test_decode_serCmdRead : decodeTableWord 8 0b01000111 = some (.serCmdRead 3#3) := by decide
theorem test_decode_ctlChip0Cmd : decodeTableWord 4 0b0001 = some .ctlChip0Cmd := by decide
theorem test_decode_ctlChip1Cmd : decodeTableWord 4 0b0010 = some .ctlChip1Cmd := by decide
theorem test_decode_ctlChip0Data : decodeTableWord 4 0b0101 = some .ctlChip0Data := by decide
theorem test_decode_ctlChip1Data : decodeTableWord 4 0b0110 = some .ctlChip1Data := by decide
theorem test_decode_dataWord : decodeTableWord 8 0b10100101 = some (.dataWord 0xA5#8) := by decide
theorem test_decode_vportWrite : decodeTableWord 16 0b0001010110100101 = some (.vportWrite 0x15A5#16) := by decide
/-- Under another CTL_MAP (R135), with RS at bit 0 and the selects at bits 2 and 3. -/
theorem test_decode_ctlMap :
    let g := { cfg .offload with params := { params with ctlMap := { cs0 := 2, cs1 := 3, rs := 0, rw := 1 } } }
    decode g (.wire .ctl4 [0x4#8]) = .ok .ctlChip0Cmd ∧ decode g (.wire .ctl4 [0x9#8]) = .ok .ctlChip1Data
      ∧ decode g (.wire .ctl4 [0x1#8]) = .error .ctlWord := by decide
/-- Calls have no encoding; the decoder admits the well-formed ones and no wire word among them. -/
theorem test_decode_calls :
    decode (cfg .direct) (.call (.construct 64 8 .coop (.facade params (expParams 1))))
        = .ok (.construct 64 8 .coop (.facade params (expParams 1)))
      ∧ decode (cfg .direct) (.call (.setup .relay 16 .input [])) = .ok (.setup .relay 16 .input [])
      ∧ decode (cfg .direct) (.call .displayOn) = .error .notACall
      ∧ decode (cfg .direct) (.call (.outputPins .gpio [(3, 1), (3, 0)])) = .error .duplicatePin := by decide
theorem test_decode_wrongLength :
    decode (cfg .direct) (.wire .data8 []) = .error .wrongLength ∧ decode (cfg .direct) (.wire .serFrame [0x40#8, 0x14#8]) = .error .wrongLength
      ∧ decode (cfg .direct) (.wire .lcd10 [0x4#8, 0x3F#8]) = .error .lcdTopBits := by decide

/-! ## One step of each instruction -/

/-- A panel of two chips and one page on a transport, after `init`, with known registers of the target. -/
def bench (t : Transport) : State :=
  { State.initial (cfg t) with
    inited := true, draws := 0, lcd := [⟨3#3, 63#6, false, 5#6, 0⟩, ⟨1#3, 7#6, true, 9#6, 1⟩] }

/-- The bench whose next status bytes are `l`. -/
def benchStatus (t : Transport) (l : List Byte) : State := { bench t with env := { (bench t).env with status := l } }

/-- The bench with chip 1's select line asserted. -/
def bench1 : State := { bench .direct with cs := [false, true], selChip := some 1 }

/-- The refusal an instruction stops with. -/
def refusal? (o : Out) : Option Refusal :=
  match o with
  | .refused r => some r
  | .next _ | .fault _ => none

/-- What a test looks at: the trace and the value returned. -/
def seen (o : Out) : Option (List Event × RetVal) := (next? o).map fun t => (t.trace, t.ret)

/-- V-LCD-1, V-LCD-2, V-LCD-3, V-LCD-4, V-LCD-5 on chip 1. -/
theorem test_displayOn : (next? (exec .displayOn { bench1 with cs := [true, false] })).map (·.chip 0)
    = some ⟨3#3, 63#6, true, 5#6, 0⟩ := by decide
theorem test_displayOff : (next? (exec .displayOff bench1)).map (·.chip 1) = some ⟨1#3, 7#6, false, 9#6, 1⟩ := by decide
theorem test_setStartLine : (next? (exec .setStartLine bench1)).map (·.chip 1) = some ⟨1#3, 7#6, true, 0#6, 1⟩ := by decide
theorem test_setPage : (next? (exec (.setPage 7#3) bench1)).map (·.chip 1) = some ⟨7#3, 7#6, true, 9#6, 1⟩ := by decide
theorem test_setColumn : (next? (exec .setColumn bench1)).map (·.chip 1) = some ⟨1#3, 0#6, true, 9#6, 1⟩ := by decide
/-- V-LCD-6: data 0xA5 with X = 3, Y = 63; the column wraps. -/
theorem test_writeData :
    (next? (exec (.writeData 0xA5#8) { bench1 with cs := [true, false] })).map (fun t => (t.dramRead 0 3 63, (t.chip 0).y))
      = some (0xA5#8, 0#6) := by decide
/-- V-LCD-7. -/
theorem test_readStatus : seen (exec (.readStatus 0x20#8) bench1) = some ([.status 1 0x20#8], .byte 0x20#8) := by decide
/-- R188. -/
theorem test_lcdWord_noChip : exec .displayOn (bench .direct) = .refused .notOneChip := rfl
/-- R120, R135: DISPLAY_OFF to chip 1 on the offload lines is D.CTL(0x2) D.DATA(0x3E), a data word D.CTL(0x6); R187: only DIRECT and
COOP emit READ_STATUS. -/
theorem test_lcdWord_offload :
    let s := { bench .offload with ctlLines := 0x6#4, ctlDriven := true }
    (next? (exec .displayOff s)).map (fun t => (t.trace, t.ctlLines, t.dataLines, t.chip 1))
        = some ([.dCtl 0x2#4, .dData 0x3E#8], 0x2#4, 0x3E#8, ⟨1#3, 7#6, false, 9#6, 1⟩)
      ∧ (next? (exec (.writeData 0x11#8) s)).map (fun t => (t.ctlLines, t.dramRead 1 1 7)) = some (0x6#4, 0x11#8)
      ∧ refusal? (exec (.readStatus 0x20#8) s) = some .noStatusRead := by decide
/-- R120, V-REL-1: a data word 0xA5 to chip 1 on the virtual port. -/
theorem test_lcdWord_spiRelay :
    (next? (exec (.writeData 0xA5#8) { bench .spiRelay with vport := 0x1000#16 })).map (fun t => (t.trace, t.vport, t.dramRead 1 1 7))
      = some ([.vport 0x14A5#16, .frameW 0x42#8 0x14#8 [0xA5#8, 0x14#8], .vport 0x15A5#16,
          .frameW 0x42#8 0x14#8 [0xA5#8, 0x15#8], .vport 0x14A5#16, .frameW 0x42#8 0x14#8 [0xA5#8, 0x14#8]], 0x14A5#16, 0xA5#8) := by
  decide

/-- V-EXP-5 as a frame word: 0x40, 0x15, 0x02. -/
theorem test_frameWrite1 :
    (next? (exec (.frameWrite1 0#3 0x15#8 0x02#8) (bench .direct))).map (fun t => (t.trace, t.gpio.devRead 0x15))
      = some ([.frameW 0x40#8 0x15#8 [0x02#8]], some 0x02#8) := by decide
/-- V-EXP-14 as a frame word: port A's byte first. -/
theorem test_frameWrite2 :
    (next? (exec (.frameWrite2 0#3 0x14#8 0x5A#8 0xA5#8) (bench .direct))).map
        (fun t => (t.gpio.devRead 0x14, t.gpio.devRead 0x15, t.gpio.sh.olat))
      = some (some 0x5A#8, some 0xA5#8, ⟨0#8, 0#8⟩) := by decide
/-- V-EXP-18's first frame, and V-EXP-17's, as words. -/
theorem test_frameRead1 : seen (exec (.frameRead1 0#3 0x12#8 0x01#8) (bench .direct))
    = some ([.frameR 0x41#8 0x12#8 [0x01#8]], .bytes [0x01#8]) := by decide
theorem test_frameRead2 : seen (exec (.frameRead2 1#3 0x12#8 0x20#8 0x00#8) (bench .direct))
    = some ([.frameR 0x43#8 0x12#8 [0x20#8, 0x00#8]], .bytes [0x20#8, 0x00#8]) := by decide
theorem test_frame_noDevice : exec (.frameRead1 5#3 0x12#8 0x01#8) (bench .direct) = .refused .noDevice := rfl
/-- S12. -/
theorem test_serCmdWrite : (next? (exec (.serCmdWrite 3#3) (bench .direct))).map (fun t => (t.inTxn, t.openFrame))
    = some (true, some 0x46#8) := by decide
theorem test_serCmdRead : (next? (exec (.serCmdRead 7#3) (bench .direct))).map (fun t => (t.inTxn, t.openFrame))
    = some (true, some 0x4F#8) := by decide

/-- V-ENC-1. -/
theorem test_ctlWords :
    (next? (exec .ctlChip0Cmd (bench .offload))).map (·.ctlLines) = some 0x1#4
      ∧ (next? (exec .ctlChip1Cmd (bench .offload))).map (·.ctlLines) = some 0x2#4
      ∧ (next? (exec .ctlChip0Data (bench .offload))).map (·.ctlLines) = some 0x5#4
      ∧ (next? (exec .ctlChip1Data (bench .offload))).map (·.ctlLines) = some 0x6#4 := by decide
/-- R263: a data word under the control word of (chip 1, RS 1). -/
theorem test_dataWord :
    (next? (exec (.dataWord 0x11#8) { bench .offload with ctlLines := 0x6#4, ctlDriven := true })).map
        (fun t => (t.dramRead 1 1 7, (t.chip 1).y, t.trace))
      = some (0x11#8, 8#6, [.dData 0x11#8]) := by decide
/-- R188, ruling C13: a draw of ctl_lines that selects chip 1 with RS 1 is written there, whatever its RW. -/
theorem test_dataWord_drawn :
    (next? (exec (.dataWord 0x11#8) { bench .offload with env := { (bench .offload).env with ctl := [0xE#4] } })).map
        (fun t => (t.dramRead 1 1 7, (t.chip 1).y)) = some (0x11#8, 8#6) := by decide
/-- V-REL-1's words, the relay at EXP_ADDR 1. -/
theorem test_vportWrite : seen (exec (.vportWrite 0x14A5#16) (bench .spiRelay))
    = some ([.vport 0x14A5#16, .frameW 0x42#8 0x14#8 [0xA5#8, 0x14#8]], .none) := by decide
/-- V-ENC-2. -/
theorem test_vp :
    vp Config.vportMap false false false 0 0x3F#8 = 0x083F#16 ∧ vp Config.vportMap true false false 0 0x3F#8 = 0x093F#16
      ∧ vp Config.vportMap false false true 4 0x00#8 = 0x8400#16 := by decide

/-- V-ADR-1, V-ADR-2; an instance built alone (R300). -/
theorem test_construct :
    (next? (exec (.construct 128 64 .direct (.facade params (expParams 1))) (bench .offload))).map
        (fun t => (t.cfg.pages, t.cfg.chips, t.cfg.buflen, t.inited))
      = some (8, 2, 1024, false) := by decide
theorem test_construct_expander :
    (next? (exec (.construct 0 0 .direct (.expander .gpio (expParams 5)))
        { bench .direct with gpio := { Expander.reset with snap := 0x0001#16 } })).map
        (fun t => (t.gpio, t.cmdW .gpio, t.inited))
      = some (Expander.reset, 0x4A#8, true) := by decide
/-- R300, D4, R393: an address outside [0, 8); after the chip at address 0 has been used, an instance built anew there is refused, one
built at address 5 uses another chip, and the old one stays. -/
theorem test_construct_address :
    let s := { bench .direct with gpio := { Expander.reset with dev := [⟨0x15, 0x02#8⟩] } }
    let at' := fun a => exec (.construct 0 0 .direct (.expander .gpio (expParams a))) s
    ((next? (at' (-1))).map (·.err) = some (some (.badArgument (.address (-1))))) ∧ refusal? (at' 0) = some .chipNotAtPowerOn
      ∧ (next? (at' 5)).map (fun t => (t.gpio, t.cmdW .gpio, t.idleDevs.getD 0 []))
        = some (Expander.reset, 0x4A#8, [⟨0x15, 0x02#8⟩]) := by decide
theorem test_construct_badGeometry :
    (next? (exec (.construct 100 64 .direct (.facade params (expParams 1))) (bench .direct))).map (·.err)
      = some (some (.badGeometry 100 64)) := by decide
/-- S9, V-ADR-6, V-ADR-7. -/
theorem test_bufferOffset :
    let s := State.initial { cfg .direct with height := 64 }
    (seen (exec (.bufferOffset 3 1 0) s), seen (exec (.bufferOffset 7 1 63) s))
      = (some ([], .nat 448), some ([], .nat 1023)) := by decide
theorem test_bufferOffset_badIndex :
    (next? (exec (.bufferOffset 0 0 64) (bench .direct))).map (·.err)
      = some (some (.badIndex (some 0) (some 0) (some 64))) := by decide
/-- V-ADR-14; V-REL-5. -/
theorem test_selectChip : (next? (exec (.selectChip 1) (bench .direct))).map (fun t => (t.selChip, t.cs))
    = some (some 1, [false, true]) := by decide
theorem test_selectChip_relay :
    (next? (exec (.selectChip 1) { bench .spiRelay with vport := 0x0800#16 })).map (·.vport) = some 0x1000#16 := by decide
/-- V-WP-3 with the first status busy; V-OFF-4 in a FIFO of four. -/
theorem test_init :
    (next? (exec .init (benchStatus .direct [0#8, 0#8, 0#8, 0#8]))).map (·.trace)
      = some [.status 0 0#8, .lcd 0 false 0x3F#8, .status 0 0#8, .lcd 0 false 0xC0#8,
          .status 1 0#8, .lcd 1 false 0x3F#8, .status 1 0#8, .lcd 1 false 0xC0#8] := by decide +kernel
theorem test_init_offload :
    (next? (exec .init (bench .offload))).map (·.trace)
      = some [.qCtl 0x1#4, .qData 0x3F#8, .qData 0xC0#8, .qCtl 0x2#4, .qData 0x3F#8, .qData 0xC0#8] := by decide
/-- V-WP-4's error, and the head of a sweep whose second status is busy. -/
theorem test_printBuffer_badLength :
    (next? (exec (.printBuffer (List.replicate 127 0#8)) (bench .direct))).map (fun t => (t.err, t.trace))
      = some (some (.badBufferLength 127), []) := by decide +kernel
theorem test_printBuffer_head :
    (next? (exec (.printBuffer (List.replicate 128 0x55#8))
        (benchStatus .direct [0#8, 0x80#8]))).map (·.trace)
      = some [.status 0 0#8, .lcd 0 false 0xB8#8, .status 0 0x80#8] := by decide +kernel
/-- V-OFF-1, V-OFF-2. -/
theorem test_cmdGroup : (next? (exec (.cmdGroup 1 [0xBB#8, 0x40#8]) (bench .offload))).map (·.trace)
    = some [.qCtl 0x2#4, .qData 0xBB#8, .qData 0x40#8] := by decide
theorem test_dataGroup : (next? (exec (.dataGroup 0 [0x11#8, 0x22#8]) (bench .offload))).map (·.trace)
    = some [.qCtl 0x5#4, .qData 0x11#8, .qData 0x22#8] := by decide
/-- V-SEQ-6: the lines after a data write. -/
theorem test_lcdWrite :
    (next? (exec (.lcdWrite true 0xA5#8) { bench1 with env := { bench1.env with status := [0x00#8] } })).map
        (fun t => (t.trace, [t.e, t.rw, t.rs], t.d, t.ddir, t.busDir))
      = some ([.status 1 0#8, .lcd 1 true 0xA5#8], [false, false, true], 0xA5#8, .output, .write) := by decide
/-- R412: one `LcdWrite` on OFFLOAD is one Q.DATA, where the control word of its chip and RS stands; R12: with RS = 0 it latches under
another word, which goes before it. -/
theorem test_lcdWrite_offload :
    let s := { bench .offload with selChip := some 1, ctlLines := 0x6#4, ctlDriven := true }
    (next? (exec (.lcdWrite true 0xA5#8) s)).map (fun t => (t.trace, t.ctlQ)) = some ([.qData 0xA5#8], [])
      ∧ (next? (exec (.lcdWrite false 0x3E#8) s)).map (fun t => (t.trace, t.ctlQ))
        = some ([.qCtl 0x2#4, .qData 0x3E#8], [(0, 0x2#4)]) := by decide
/-- V-SEQ-4's first poll: suspended, with the lines of V-SEQ-7. -/
theorem test_lcdWrite_busy :
    (next? (exec (.lcdWrite true 0xA5#8)
        { bench .coop with selChip := some 0, env := { (bench .coop).env with status := [0x80#8, 0x10#8] } })).map
        (fun t => (t.trace, t.suspended, t.ddir, t.busDir, t.rs, t.rw))
      = some ([.status 0 0x80#8], true, .input, .read, false, true) := by decide
/-- V-REL-1. -/
theorem test_relayByte :
    (next? (exec (.relayByte true 0xA5#8) { bench .spiRelay with selChip := some 1 })).map (·.trace)
      = some [.vport 0x14A5#16, .frameW 0x42#8 0x14#8 [0xA5#8, 0x14#8], .vport 0x15A5#16,
          .frameW 0x42#8 0x14#8 [0xA5#8, 0x15#8], .vport 0x14A5#16, .frameW 0x42#8 0x14#8 [0xA5#8, 0x14#8]] := by decide
/-- V-OFF-8: a full queue holds. -/
theorem test_enqueue :
    (next? (exec (.enqueue (.data 0x40#8)) (bench .offload))).map (fun t => (t.dataQ, t.op)) = some ([(0, 0x40#8)], none) := by
  decide
theorem test_enqueue_full :
    (next? (exec (.enqueue (.data 0x40#8))
        { bench .offload with cfg := { (bench .offload).cfg with params := { params with offloadFifoDepth := 1 } },
                              dataQ := [(0, 0xB8#8)], enqCount := 1 })).map (fun t => (t.dataQ, t.trace, t.op))
      = some ([(0, 0xB8#8)], [], some .enqueue) := by decide

/-- V-EXP-1, V-EXP-2. -/
theorem test_setup : (next? (exec (.setup .gpio 3 .output []) (bench .direct))).map (·.trace)
    = some [.frameW 0x40#8 0x00#8 [0xF7#8], .frameW 0x40#8 0x02#8 [0x00#8], .frameW 0x40#8 0x0C#8 [0x00#8]] := by decide
theorem test_setup_b : (next? (exec (.setup .gpio 12 .input [.pullUp]) (bench .direct))).map (·.trace)
    = some [.frameW 0x40#8 0x01#8 [0xFF#8], .frameW 0x40#8 0x03#8 [0x00#8], .frameW 0x40#8 0x0D#8 [0x10#8]] := by decide
/-- V-EXP-5, and V-EXP-3's error. -/
theorem test_output : (next? (exec (.output .gpio 9 1) (bench .direct))).map (fun t => (t.trace, t.gpio.sh.olat.b))
    = some ([.frameW 0x40#8 0x15#8 [0x02#8]], 0x02#8) := by decide
theorem test_output_invalidPin : (next? (exec (.output .gpio 16 1) (bench .direct))).map (fun t => (t.err, t.trace))
    = some (some (.invalidPin 16), []) := by decide
/-- The bench whose next GPIO bytes are `l`. -/
def benchPins (l : List Byte) : State := { bench .direct with env := { (bench .direct).env with pins := l } }

/-- V-EXP-19, V-EXP-21. -/
theorem test_input :
    seen (exec (.input .gpio 5 false) { bench .direct with gpio := { Expander.reset with snap := 0x0020#16 } })
      = some ([], .bit true) := by decide
theorem test_input_refresh : seen (exec (.input .gpio 7 true) (benchPins [0xFF#8, 0xFF#8]))
    = some ([.frameR 0x41#8 0x12#8 [0xFF#8, 0xFF#8]], .bit true) := by decide
/-- V-EXP-7, V-EXP-8. -/
theorem test_outputPins : (next? (exec (.outputPins .gpio [(0, 1), (15, 1)]) (bench .direct))).map (·.trace)
    = some [.frameW 0x40#8 0x14#8 [0x01#8], .frameW 0x40#8 0x15#8 [0x80#8]] := by decide
theorem test_outputPins_invalidPin :
    (next? (exec (.outputPins .gpio [(3, 1), (16, 0)]) (bench .direct))).map (fun t => (t.err, t.trace, t.gpio.sh.olat))
      = some (some (.invalidPin 16), [], ⟨0#8, 0#8⟩) := by decide
/-- V-EXP-20. -/
theorem test_inputPins :
    seen (exec (.inputPins .gpio [15, 0, 1] false) { bench .direct with gpio := { Expander.reset with snap := 0x8001#16 } })
      = some ([], .bits [true, true, false]) := by decide
/-- V-EXP-14, V-EXP-15. -/
theorem test_writeGpio : (next? (exec (.writeGpio .gpio 0xA55A) (bench .direct))).map (fun t => (t.trace, t.gpio.sh.olat))
    = some ([.frameW 0x40#8 0x14#8 [0x5A#8, 0xA5#8]], ⟨0x5A#8, 0xA5#8⟩) := by decide
theorem test_writeGpio_seqOff :
    (next? (exec (.writeGpio .gpio 0xA55A)
        { bench .direct with gpio := { Expander.reset with sh := { RegFile.reset with iocon := 0x20#8 } } })).map (·.trace)
      = some [.frameW 0x40#8 0x14#8 [0x5A#8], .frameW 0x40#8 0x15#8 [0xA5#8]] := by decide
/-- V-EXP-17, V-EXP-18. -/
theorem test_readGpio : seen (exec (.readGpio .gpio) (benchPins [0x20#8, 0x00#8]))
    = some ([.frameR 0x41#8 0x12#8 [0x20#8, 0x00#8]], .half 0x0020#16) := by decide
theorem test_readGpio_seqOff :
    seen (exec (.readGpio .gpio)
        { benchPins [0x01#8, 0x80#8] with gpio := { Expander.reset with sh := { RegFile.reset with iocon := 0x20#8 } } })
      = some ([.frameR 0x41#8 0x12#8 [0x01#8], .frameR 0x41#8 0x13#8 [0x80#8]], .half 0x8001#16) := by decide
/-- V-EXP-9, V-EXP-12. -/
theorem test_regWrite : (next? (exec (.regWrite .gpio .defval .a 0x3C) (bench .direct))).map (·.trace)
    = some [.frameW 0x40#8 0x06#8 [0x3C#8]] := by decide
theorem test_regWrite_bank : (next? (exec (.regWrite .gpio .iocon .a 0x80) (bench .direct))).map (fun t => (t.err, t.trace))
    = some (some (.refused .ioconBank), []) := by decide
/-- R55: DIR reads 0xFF; V-EXP-11. -/
theorem test_regRead : seen (exec (.regRead .gpio .dir .b) (bench .direct)) = some ([], .byte 0xFF#8) := by decide
theorem test_regRead_refused : (next? (exec (.regRead .gpio .intcap .b) (bench .direct))).map (·.err)
    = some (some (.refused (.kind .intcap))) := by decide
/-- V-IRQ-9. -/
theorem test_subscribe : (next? (exec (.subscribe .gpio 5 1) (bench .direct))).map (·.gpio.subs) = some [(5, 1)] := by decide
theorem test_subscribe_invalidPin : (next? (exec (.subscribe .gpio 16 1) (bench .direct))).map (·.err)
    = some (some (.invalidPin 16)) := by decide
/-- An edge pending, subscribers 5 to 1, 9 to 2, 5 to 3 (V-IRQ-4), and the bytes of the coming read. -/
def benchEdge (l : List Byte) : State :=
  { benchPins l with gpio := { Expander.reset with subs := [(5, 1), (9, 2), (5, 3)], pending := [.edge] } }

/-- V-IRQ-4: the callbacks of the first pin stand next in registration order, then the later pins; S4. -/
theorem test_dispatch :
    (next? (exec (.dispatch .gpio) (benchEdge [0x20#8, 0x02#8]))).map (fun t => (t.work, t.gpio.snap))
      = some ([.callback 5 true 1, .callback 5 true 3, .dispatchPins .gpio [(9, true)], .dispatchEnd none], 0x0220#16) := by
  decide
/-- R344: the subscribers of a later changed pin are read when its turn comes. -/
theorem test_dispatch_subscribedInTheRound :
    (next? (step { benchEdge [] with
        work := [.dispatchPins .gpio [(7, true), (9, false)], .dispatchEnd none], op := some .dispatch, disp := .betweenOps,
        sched := [.host none] })).map (·.work)
      = some [.callback 9 false 2, .dispatchPins .gpio [], .dispatchEnd none] := by decide
theorem test_dispatch_noChange :
    (next? (exec (.dispatch .gpio) (benchEdge [0x00#8, 0x00#8]))).map (fun t => (t.work, t.gpio.pending, t.disp))
      = some ([], [], .idle) := by decide
/-- V-IRQ-8. -/
theorem test_expEdge : (next? (exec (.expEdge .gpio) (bench .direct))).map (·.gpio.pending) = some [.edge] := by decide
theorem test_expEdge_coalesced : (next? (exec (.expEdge .gpio) (benchEdge []))).map (·.gpio.pending) = some [.edge] := by decide

/-! ## Errors and the step -/

/-- V-ERR-2. -/
theorem test_errorCodes :
    ([.invalidPin 16, .busError 0#8 0#8, .badGeometry 0 0, .badBufferLength 0, .badIndex none none none,
        .badArgument (.value 0), .refused .ioconBank, .callback 9] : List Fault).map Fault.code
      = [some 1, some 2, some 3, some 4, some 5, some 6, some 7, none] := by decide
/-- R50: a write of GPIO also writes OLAT. -/
theorem test_gpioWriteReachesOlat :
    (next? (exec (.frameWrite1 0#3 0x13#8 0x5A#8) (bench .direct))).map
        (fun t => (t.gpio.devRead 0x13, t.gpio.devRead 0x15, t.gpio.devRead 0x14))
      = some (some 0x5A#8, some 0x5A#8, some 0#8) := by decide
/-- R283, R137: pins of CS0 deasserted and CS1 asserted, RS at its own value, and, on a panel of two chips, the unused bits 13 and
15 at theirs, where CS_ACTIVE is 0. -/
theorem test_relayPinLevels :
    [11, 12, 10, 8, 13, 15].map (vpLevel Config.vportMap 2 false 0x9400#16) = [true, false, true, false, false, true] := by
  decide
/-- R166, R281: `cs_pattern(1)` of two chips, the unused bits as they were; of five, all CS bits. -/
theorem test_vpSelect :
    vpSelect Config.vportMap 2 0xFFFF#16 1 = 0xF7FF#16 ∧ vpSelect Config.vportMap 5 0xFFFF#16 1 = 0x17FF#16 := by decide
/-- R101: a byte written twice during the frame reads as any of its three values. -/
theorem test_framebufferRace :
    [[false, false], [true, false], [false, true], [true, true]].map (fun l =>
        (fbRead 0 { bench .direct with
          fb := [0#8], fbMods := [(0, 1#8), (1, 9#8), (0, 2#8)], env := { (bench .direct).env with coins := l } }).1)
      = [0#8, 1#8, 2#8, 2#8] := by decide

/-- V-SEQ-1. -/
theorem test_ready : [0x00#8, 0x20#8, 0x4F#8, 0x6F#8, 0x10#8, 0x80#8, 0x90#8, 0x7F#8, 0xEF#8].map ready
    = [true, true, true, true, false, false, false, false, false] := by decide
/-- V-EXP-23: the second frame of `write_gpio` fails. -/
theorem test_busError :
    (next? (exec (.writeGpio .gpio 0x1234)
        { bench .direct with
          gpio := { Expander.reset with sh := { RegFile.reset with iocon := 0x20#8 } }
          env := { (bench .direct).env with frameFails := [false, true], coins := [false] } })).map
        (fun t => (t.err, t.inTxn, t.gpio.sh.olat, t.gpio.devRead 0x14, t.gpio.devRead 0x15))
      = some (some (.busError 0x40#8 0x15#8), false, ⟨0x34#8, 0x12#8⟩, some 0x34#8, some 0x00#8) := by decide
/-- A word placed for the next step after reset is run. -/
theorem test_step_ctlWord : (next? (step (State.reset.withFetchWord 4 0x5))).map (·.ctlLines) = some 0x5#4 := by decide
theorem test_step_lcdWord : (next? (step (State.reset.withFetchWord 10 0x2A5))).map (·.trace) = some [.lcd 0 true 0xA5#8] := by
  decide
theorem test_step_frame : (next? (step (State.reset.withFetchWord 32 0x40140102))).map (·.trace)
    = some [.frameW 0x40#8 0x14#8 [0x01#8, 0x02#8]] := by decide
/-- A callback acts on its argument (R345): called with 1 it writes a framebuffer byte and calls `output`. -/
theorem test_callback :
    (next? (step { bench .direct with
        work := [.callback 5 true 1, .dispatchEnd none], op := some .dispatch, disp := .betweenOps, sched := [.host none],
        callbacks := [(1, ⟨[.raise 3], [.fbWrite 0 0xAA#8, .call (.call (.output .gpio 0 1))]⟩)] })).map
        (fun t => (t.trace, t.work))
      = some ([.cb 5 true 1], [.fbStore 0 0xAA#8, .nested (.call (.output .gpio 0 1)), .dispatchEnd none]) := by decide

/-! ## Witnesses: a state and operands that meet the hypotheses of each obligation, at the ends of their ranges -/

/-- The bench with deep queues. -/
def benchDeep : State :=
  { bench .offload with cfg := { (bench .offload).cfg with params := { params with offloadFifoDepth := 200 } } }

/-- The relay's bench after `select_chip(1)`. -/
def benchRelay : State := { bench .spiRelay with selChip := some 1 }

theorem witness_DecodeEncode :
    ∃ (g : Cfg) (i j k : Instr), g.params.ctlMap.ok = true ∧ i = .frameWrite2 7#3 0x14#8 0xFF#8 0xFF#8 ∧ i.wellFormed g
      ∧ j = .construct 64 8 .coop (.facade params (expParams 1)) ∧ j.wellFormed g ∧ k = .vportWrite 0x15FF#16
      ∧ k.wellFormed g :=
  ⟨cfg .direct, _, _, _, by decide, rfl, by decide, rfl, by decide, rfl, by decide⟩
theorem witness_EncodeDecode :
    ∃ (g : Cfg) (it it' : Item) (i j : Instr), it = .wire .lcd10 [0x0#8, 0xBF#8] ∧ decode g it = .ok i
      ∧ it' = .call (.outputPins .relay [(0, 1), (15, 0)]) ∧ decode g it' = .ok j :=
  ⟨cfg .direct, _, _, .setPage 7#3, .outputPins .relay [(0, 1), (15, 0)], rfl, by decide, rfl, by decide⟩
theorem witness_ReservedEncodingsRejected :
    (cfg .offload).params.ok = true
      ∧ (∀ d ∈ [0x00#8, 0x3D#8, 0x41#8, 0xB7#8, 0xC1#8, 0xFF#8],
        d ≠ 0x3F#8 ∧ d ≠ 0x3E#8 ∧ d ≠ 0xC0#8 ∧ d ≠ 0x40#8 ∧ (d < 0xB8#8 ∨ 0xBF#8 < d))
      ∧ (∀ c ∈ [0x00#8, 0x3F#8, 0x50#8], c >>> 4 ≠ 0x4#8)
      ∧ (∀ c ∈ [0x40#8, 0x4E#8], c >>> 4 = 0x4#8 ∧ c.getLsbD 0 = false) ∧ (0x80#8).getLsbD 7 = true
      ∧ (∀ r ∈ [0x0B#8, 0x16#8, 0xFF#8], r = 0x0B#8 ∨ 0x15#8 < r) ∧ (∀ r ∈ [0x0E#8, 0x11#8], 0x0E#8 ≤ r ∧ r ≤ 0x11#8)
      ∧ (∀ r ∈ [0x0A#8, 0x0B#8, 0x15#8, 0xFF#8], r = 0x0A#8 ∨ r = 0x0B#8 ∨ 0x15#8 ≤ r)
      ∧ (∀ r ∈ [0x0D#8, 0x11#8], 0x0D#8 ≤ r ∧ r ≤ 0x11#8)
      ∧ (∀ w ∈ [0x0#4, 0x3#4, 0x4#4, 0x9#4], w.getLsbD 0 = w.getLsbD 1 ∨ w.getLsbD 3 = true)
      ∧ 0x0F#8 < 0x10#8 ∧ (0x0200#16).getLsbD 9 = true
      ∧ ((0x2000#16).getLsbD 9 = false ∧ 13 ∉ [0, 1, 2, 3, 4, 5, 6, 7, 8, 9, 10, 11, 12] ∧ (0x2000#16).getLsbD 13 = true)
      ∧ ((0x1800#16).getLsbD 9 = false ∧ (∀ i, i < 16 → i ∉ [0, 1, 2, 3, 4, 5, 6, 7, 8, 9, 10, 11, 12] →
          (0x1800#16).getLsbD i = false) ∧ 0 < 1 ∧ 1 < (cfg .offload).chips ∧ (0x1800#16).getLsbD 11 = true
        ∧ (0x1800#16).getLsbD 12 = true) := by
  refine ⟨by decide, by decide, by decide, by decide, rfl, by decide, by decide, by decide, by decide, by decide, by decide,
    by decide, by decide, by decide⟩

theorem witness_OffsetBijection :
    ∃ c : Cfg, 0 < c.width ∧ c.width % 64 = 0 ∧ c.height % 8 = 0
      ∧ (c.pages - 1 < c.pages ∧ c.chips - 1 < c.chips ∧ 63 < 64) ∧ c.buflen - 1 < c.buflen :=
  ⟨(bench .direct).cfg, by decide⟩
theorem witness_GeometryLaws :
    (∃ c : Cfg, geometryOk c.width c.height c.transport c.params = true ∧ 127 < c.width ∧ 7 < c.height)
      ∧ geometryOk 64 8 .direct params = true ∧ geometryOk 320 8 .coop params = true ∧ geometryOk 128 64 .offload params = true
      ∧ geometryOk 256 64 .spiRelay params = true :=
  ⟨⟨cfg .direct, by decide⟩, by decide⟩
theorem witness_BufferOffsetResult :
    ∃ s : State, (0 < s.cfg.pages ∧ 1 < s.cfg.chips ∧ 63 < 64) ∧ s.cfg.pages ≤ 1 ∧ s.cfg.chips ≤ 2 :=
  ⟨bench .direct, by decide⟩
/-- The bench whose own expander chip, at address 0, has been written. -/
def benchUsed : State := { bench .offload with gpio := { Expander.reset with dev := [⟨0x15, 0x02#8⟩] } }

theorem witness_ConstructResult :
    ∃ (s : State) (r : ExpParams), s.op = none ∧ s.work = [] ∧ geometryOk 64 8 .direct params = true
      ∧ geometryOk 320 8 .spiRelay params = true ∧ (0 ≤ r.addr ∧ r.addr < 8 ∧ 8 ≤ r.addr + 1) ∧ s.chipFresh r.addr.toNat
      ∧ (s.addrOf .gpio ≠ r.addr.toNat ∧ s.addrOf .gpio < s.idleDevs.length ∧ (s.exp .gpio).dev ≠ [])
      ∧ s.chipFresh (s.addrOf .relay) ∧ 0 < s.lcd.length :=
  ⟨benchUsed, expParams 7, rfl, rfl, by decide, by decide, by decide, ⟨rfl, fun x h => by cases x <;> revert h <;> decide⟩, by decide,
    ⟨rfl, fun x h => by cases x <;> revert h <;> decide⟩, by decide⟩
theorem witness_ConstructErrors :
    ∃ (s : State) (q r : ExpParams), s.op = none ∧ s.work = []
      ∧ (64 % 64 = 0 ∧ 7 % 8 ≠ 0 ∧ 63 % 64 ≠ 0 ∧ 2 < 192 / 64 ∧ params.vportMap.cs.length < 384 / 64)
      ∧ geometryOk 64 8 .spiRelay params = true ∧ (q.addr = -1 ∧ q.addr < 0 ∧ 8 ≤ r.addr)
      ∧ (0 ≤ (expParams 0).addr ∧ (expParams 0).addr < 8 ∧ ¬ s.chipFresh (expParams 0).addr.toNat) :=
  ⟨benchUsed, expParams (-1), expParams 8, rfl, rfl, by decide, by decide, by decide, by decide, by decide, fun h => nomatch h.2 .gpio rfl⟩

/-- The relay's bench with chip 1's bit of the virtual port set. -/
def benchCarried : State := { bench .spiRelay with vport := 0x1000#16 }

theorem wordReady_bench : benchCarried.wordReady :=
  fun _ => ⟨⟨rfl, ⟨rfl, rfl, rfl⟩, .inl (by decide), fun _ _ => rfl⟩, by decide⟩
theorem witness_LcdWords :
    ∃ (s t u : State) (c : Nat), (s.cfg.transport.bitBang = true ∧ t.cfg.transport = .offload ∧ u.cfg.transport = .spiRelay)
      ∧ ∀ v ∈ [s, t, u], v.disp ≠ .atYield ∧ (selectedChips v).1 = [c] ∧ v.lcd.length = v.cfg.chips ∧ v.wordReady
        ∧ Mem.wf dramDefault v.dram := by
  refine ⟨bench1, { bench .offload with ctlLines := 0x6#4, ctlDriven := true }, benchCarried, 1, by decide, fun v hv => ?_⟩
  simp only [List.mem_cons, List.not_mem_nil, or_false] at hv
  obtain rfl | rfl | rfl := hv
  · exact ⟨by decide, by decide, by decide, State.wordReady_of_other (by decide), by decide⟩
  · exact ⟨by decide, by decide, by decide, State.wordReady_of_other (by decide), by decide⟩
  · exact ⟨by decide, by decide, by decide, wordReady_bench, by decide⟩
theorem witness_LcdWordStops :
    ∃ (s t u v : State) (i : Instr), (i.isLcdWord = true ∧ ∀ b, i ≠ .readStatus b) ∧ s.disp = .atYield
      ∧ (t.disp ≠ .atYield ∧ t.cfg.transport.bitBang = true ∧ ∀ c, (selectedChips t).1 ≠ [c])
      ∧ (u.disp ≠ .atYield ∧ u.cfg.transport = .offload ∧ ∀ c, (selectedChips u).1 ≠ [c])
      ∧ v.disp ≠ .atYield ∧ v.cfg.transport.bitBang = false ∧ (selectedChips v).1 = [1] :=
  ⟨{ bench .coop with disp := .atYield }, bench .direct, { bench .offload with ctlLines := 0x3#4, ctlDriven := true }, benchCarried,
    .displayOn, ⟨rfl, fun _ h => nomatch h⟩, rfl, ⟨by decide, rfl, fun _ h => nomatch h⟩, ⟨by decide, rfl, fun _ h => nomatch h⟩,
    by decide⟩
theorem witness_LcdWordFrame :
    ∃ (s t u v w x z : State) (i j : Instr), (i.isLcdWord = true ∧ (∀ b, i ≠ .readStatus b) ∧ j = .readStatus 0x20#8)
      ∧ (exec i s = .next t ∧ Mem.wf dramDefault s.dram ∧ s.cfg.transport.bitBang = true)
      ∧ (exec j s = .next z ∧ s.wordReady)
      ∧ (exec i u = .next v ∧ Mem.wf dramDefault u.dram ∧ u.cfg.transport = .offload)
      ∧ exec i w = .next x ∧ w.wordReady ∧ Mem.wf dramDefault w.dram ∧ w.cfg.transport = .spiRelay :=
  ⟨bench1, _, { bench .offload with ctlLines := 0x6#4, ctlDriven := true }, _, benchCarried, _, _, .writeData 0xA5#8,
    .readStatus 0x20#8, ⟨rfl, (fun _ h => nomatch h), rfl⟩, ⟨rfl, by decide, rfl⟩, ⟨rfl, State.wordReady_of_other (by decide)⟩,
    ⟨rfl, by decide, rfl⟩, rfl, wordReady_bench, by decide, rfl⟩

theorem witness_LcdWriteReady :
    ∃ (s : State) (c : Nat) (cmd : LcdCmd), s.cfg.transport.bitBang = true ∧ s.disp ≠ .atYield ∧ s.slice = none
      ∧ s.selChip = some c ∧ c < s.cfg.chips ∧ lcdDecode true false 0xA5#8 = .ok cmd ∧ ready (drawStatus s).1 = true :=
  ⟨{ benchStatus .coop [0x6F#8] with selChip := some 1 }, 1, .data 0xA5#8, by decide⟩
theorem witness_LcdWriteNotReady :
    ∃ (s t : State) (c : Nat), (s.cfg.transport.bitBang = true ∧ s.disp ≠ .atYield ∧ s.slice = none
        ∧ s.selChip = some c ∧ ready (drawStatus s).1 = false)
      ∧ t.cfg.transport.bitBang = true ∧ t.disp ≠ .atYield ∧ t.slice = none ∧ t.selChip = some c
        ∧ ready (drawStatus t).1 = false :=
  ⟨{ benchStatus .coop [0x10#8] with selChip := some 1 }, { benchStatus .direct [0x80#8] with selChip := some 1 }, 1, by decide⟩
theorem witness_LcdWriteCompletes :
    ∃ (s : State) (c : Nat) (rs : Bool) (b v : Byte) (cmd : LcdCmd) (busy rest : List Byte) (later : List Item)
      (moves : List Move), (s.cfg.transport.bitBang = true ∧ s.err = none ∧ s.disp = .idle ∧ s.work = [] ∧ s.selChip = some c
        ∧ c < s.cfg.chips ∧ lcdDecode rs false b = .ok cmd) ∧ (∀ x ∈ busy, ready x = false) ∧ ready v = true
      ∧ s.env.status = busy ++ v :: rest ∧ s.prog = .call (.lcdWrite rs b) :: later
      ∧ s.sched = List.replicate (busy.length + 1) (.host none) ++ moves ∧ busy.length = 2 :=
  ⟨{ benchStatus .coop [0x80#8, 0x10#8, 0x00#8] with
      selChip := some 0, prog := [.call (.lcdWrite true 0xA5#8)], sched := [.host none, .host none, .host none] },
    0, true, 0xA5#8, 0x00#8, .data 0xA5#8, [0x80#8, 0x10#8], [], [], [], by decide⟩

theorem witness_SelectChip :
    ∀ t : Transport, ∃ s : State, s.cfg.transport = t ∧ s.disp ≠ .atYield ∧ s.inited = true ∧ s.slice = none
      ∧ 1 < s.cfg.chips ∧ s.cfg.chips ≤ 2 :=
  fun t => ⟨bench t, rfl, by simp [bench, State.initial], rfl, rfl, by simp [bench, State.initial, Cfg.chips, cfg],
    by simp [bench, State.initial, Cfg.chips, cfg]⟩
theorem witness_FacadeErrors :
    ∃ (s t u v w : State) (i : Instr), (s.disp ≠ .atYield ∧ s.inited = false ∧ s.cfg.transport ≠ .spiRelay
        ∧ s.cfg.transport ≠ .offload ∧ s.selChip = none ∧ s.slice = none)
      ∧ (t.disp ≠ .atYield ∧ t.inited = true ∧ (List.replicate 127 0#8).length ≠ t.cfg.buflen
        ∧ (List.replicate 129 0#8).length ≠ t.cfg.buflen)
      ∧ (i.isTransportCall = true ∧ u.disp = .atYield)
      ∧ (v.disp ≠ .atYield ∧ v.cfg.transport = .spiRelay ∧ v.selChip = none ∧ v.slice = none)
      ∧ w.disp ≠ .atYield ∧ w.cfg.transport = .offload ∧ w.selChip = none ∧ w.slice = none :=
  ⟨{ bench .direct with inited := false }, bench .direct, { bench .coop with disp := .atYield }, bench .spiRelay, bench .offload,
    .init, by decide +kernel⟩

theorem pollsReady_zeros (s : State) (n : Nat) (h : s.env.status = List.replicate n 0#8) : s.pollsReady n := by
  refine ⟨by simp [h], fun v hv => ?_⟩
  rw [h, List.take_of_length_le (by simp)] at hv
  obtain ⟨-, rfl⟩ := List.mem_replicate.mp hv
  decide

theorem witness_InitOnBitBang :
    ∃ s : State, s.cfg.transport.bitBang = true ∧ s.disp ≠ .atYield ∧ s.slice = none ∧ s.lcd.length = s.cfg.chips
      ∧ s.pollsReady (2 * s.cfg.chips) :=
  ⟨benchStatus .direct (List.replicate 4 0#8), rfl, by decide, rfl, rfl, pollsReady_zeros _ 4 rfl⟩
theorem witness_InitOnOffload :
    ∃ s : State, s.cfg.transport = .offload ∧ s.disp ≠ .atYield ∧ s.slice = none
      ∧ s.ctlQ.length + s.cfg.chips ≤ s.cfg.params.offloadFifoDepth
      ∧ s.dataQ.length + 2 * s.cfg.chips = s.cfg.params.offloadFifoDepth :=
  ⟨bench .offload, by decide⟩
theorem witness_InitOnRelay :
    ∃ s : State, s.calm ∧ s.eLow .relay ∧ s.cfg.relay.seqTest = .seqopClear ∧ Mem.wf devDefault s.relay.dev
      ∧ s.cfg.transport = .spiRelay ∧ s.disp ≠ .atYield ∧ s.lcd.length = s.cfg.chips
      ∧ geometryOk s.cfg.width s.cfg.height s.cfg.transport s.cfg.params = true ∧ s.cfg.params.ok = true :=
  ⟨bench .spiRelay, ⟨rfl, rfl, rfl⟩, fun _ _ => rfl, by decide⟩
theorem witness_PrintBufferSweeps :
    ∃ (s : State) (buffer : List Byte), geometryOk s.cfg.width s.cfg.height s.cfg.transport s.cfg.params = true
      ∧ s.cfg.transport.bitBang = true ∧ s.disp ≠ .atYield ∧ s.inited = true ∧ s.slice = none
      ∧ buffer.length = s.cfg.buflen ∧ s.pollsReady (66 * s.cfg.pages * s.cfg.chips) :=
  ⟨benchStatus .coop (List.replicate 132 0#8), List.replicate 128 0x55#8, by decide, rfl, by decide, rfl, rfl,
    List.length_replicate, pollsReady_zeros _ 132 rfl⟩
theorem relayReady_bench : benchRelay.relayReady := ⟨rfl, ⟨rfl, rfl, rfl⟩, .inl (by decide), fun _ _ => rfl⟩
theorem witness_PrintBufferShows :
    ∃ (s t : State) (buffer : List Byte),
      (∀ u ∈ [s, t], geometryOk u.cfg.width u.cfg.height u.cfg.transport u.cfg.params = true ∧ u.cfg.params.ok = true
        ∧ u.disp ≠ .atYield ∧ u.inited = true ∧ buffer.length = u.cfg.buflen ∧ u.lcd.length = u.cfg.chips
        ∧ (∀ x, Mem.wf devDefault (u.exp x).dev) ∧ Mem.wf dramDefault u.dram ∧ 0 < u.cfg.pages ∧ u.cfg.pages ≤ 0 + 8)
      ∧ s.cfg.transport.bitBang = true ∧ s.slice = none ∧ s.pollsReady (66 * s.cfg.pages * s.cfg.chips)
      ∧ t.relayReady := by
  refine ⟨benchStatus .direct (List.replicate 132 0#8), benchRelay, List.replicate 128 0x55#8, ?_, rfl, rfl,
    pollsReady_zeros _ 132 rfl, relayReady_bench⟩
  intro u hu
  simp only [List.mem_cons, List.not_mem_nil, or_false] at hu
  obtain rfl | rfl := hu
  · exact ⟨by decide, by decide, by decide, rfl, List.length_replicate, rfl, fun x => by cases x <;> decide, by decide,
      by decide, by decide⟩
  · exact ⟨by decide, by decide, by decide, rfl, List.length_replicate, rfl, fun x => by cases x <;> decide, by decide,
      by decide, by decide⟩
theorem witness_PrintBufferQueues :
    ∃ (s : State) (buffer : List Byte), s.cfg.transport = .offload ∧ s.disp ≠ .atYield ∧ s.inited = true ∧ s.slice = none
      ∧ buffer.length = s.cfg.buflen ∧ s.ctlQ.length + 2 * s.cfg.pages * s.cfg.chips ≤ s.cfg.params.offloadFifoDepth
      ∧ s.dataQ.length + 66 * s.cfg.pages * s.cfg.chips ≤ s.cfg.params.offloadFifoDepth :=
  ⟨benchDeep, List.replicate 128 0x55#8, rfl, by decide, rfl, rfl, List.length_replicate, by decide, by decide⟩

theorem witness_GroupsOnBitBang :
    ∃ (s : State) (c : Nat) (bs : List Byte), s.cfg.transport.bitBang = true ∧ s.disp ≠ .atYield ∧ s.inited = true
      ∧ s.slice = none ∧ c < s.cfg.chips ∧ s.pollsReady bs.length ∧ ∀ b ∈ bs, ∃ cmd, lcdDecode false false b = .ok cmd :=
  ⟨benchStatus .direct (List.replicate 2 0#8), 1, [0xBB#8, 0x40#8], rfl, by decide, rfl, rfl, by decide,
    pollsReady_zeros _ 2 rfl, by
      intro b hb
      simp only [List.mem_cons, List.not_mem_nil, or_false] at hb
      obtain rfl | rfl := hb
      · exact ⟨.page 3#3, by decide⟩
      · exact ⟨.column, by decide⟩⟩
theorem witness_GroupsOnRelay :
    ∃ (s : State) (c : Nat), s.relayReady ∧ geometryOk s.cfg.width s.cfg.height s.cfg.transport s.cfg.params = true
      ∧ s.cfg.params.ok = true ∧ Mem.wf devDefault s.relay.dev ∧ s.disp ≠ .atYield ∧ s.inited = true ∧ c < s.cfg.chips :=
  ⟨benchRelay, 1, relayReady_bench, by decide⟩
theorem witness_GroupsOnOffload :
    ∃ (s t u : State) (c : Nat) (bs : List Byte), (s.cfg.transport = .offload ∧ s.disp ≠ .atYield ∧ s.inited = true
        ∧ s.slice = none ∧ c < s.cfg.chips ∧ s.ctlQ.length < s.cfg.params.offloadFifoDepth
        ∧ s.dataQ.length + bs.length = s.cfg.params.offloadFifoDepth)
      ∧ (∀ v ∈ [t, u], v.cfg.transport = .offload ∧ v.disp ≠ .atYield ∧ v.slice = none ∧ v.selChip = some c
        ∧ v.ctlQ.length + 1 = v.cfg.params.offloadFifoDepth ∧ v.dataQ.length + 1 = v.cfg.params.offloadFifoDepth)
      ∧ t.standingCtl = some (ctlWord t.cfg.params.ctlMap c true false)
      ∧ u.standingCtl ≠ some (ctlWord u.cfg.params.ctlMap c true false) :=
  ⟨{ bench .offload with selChip := some 1, dataQ := [(0, 0#8), (1, 0#8), (2, 0#8)] },
    { bench .offload with
      selChip := some 1, ctlQ := [(3, 0x2#4), (4, 0x1#4), (5, 0x6#4)], dataQ := [(0, 0#8), (1, 0#8), (2, 0#8)], enqCount := 6 },
    { bench .offload with
      selChip := some 1, ctlQ := [(3, 0x2#4), (4, 0x6#4), (5, 0x2#4)], dataQ := [(0, 0#8), (1, 0#8), (2, 0#8)], enqCount := 6 },
    1, [0xFF#8], by decide⟩
theorem witness_FacadeFrame :
    ∃ (s t u v : State) (i j : Instr), i.isTransportCall = true ∧ exec i s = .next t ∧ j = .bufferOffset 0 1 63
      ∧ exec j u = .next v ∧ s.cfg.transport = .offload ∧ u.cfg.transport.bitBang = true :=
  ⟨bench .offload, _, bench .direct, _, .cmdGroup 1 [0x40#8], _, rfl, rfl, rfl, rfl, rfl, rfl⟩
theorem witness_FacadeDisplayRamFrame :
    ∃ (s t : State) (c : Nat) (b : Byte), exec (.lcdWrite true b) s = .next t ∧ Mem.wf dramDefault s.dram
      ∧ s.cfg.transport.bitBang = true ∧ s.cfg.transport ≠ .offload ∧ s.selChip = some c
      ∧ dramAddr c (s.chip c).x (s.chip c).y ≠ dramAddr c (s.chip c).x (s.chip c).y + 1 :=
  ⟨{ benchStatus .direct [0#8] with selChip := some 1 }, _, 1, 0xFF#8, rfl, by decide⟩

theorem witness_RelayByte :
    ∃ (s : State) (c : Nat) (rs : Bool) (b : Byte) (cmd : LcdCmd), s.relayReady
      ∧ geometryOk s.cfg.width s.cfg.height s.cfg.transport s.cfg.params = true ∧ s.cfg.params.ok = true
      ∧ Mem.wf devDefault s.relay.dev ∧ s.disp ≠ .atYield ∧ s.selChip = some c ∧ c < s.cfg.chips
      ∧ lcdDecode rs false b = .ok cmd :=
  ⟨benchRelay, 1, true, 0xA5#8, .data 0xA5#8, relayReady_bench, by decide⟩
theorem witness_VportWrite :
    ∃ s : State, s.calm ∧ s.noFall 0x14A5#16 ∧ Mem.wf devDefault s.relay.dev ∧ s.cfg.transport = .spiRelay :=
  ⟨benchRelay, ⟨rfl, rfl, rfl⟩, fun _ h => absurd h (by decide), by decide, rfl⟩
theorem witness_VportFallingEdge :
    ∃ (s : State) (v : Half) (c : Nat) (cmd : LcdCmd), s.calm ∧ s.cfg.transport = .spiRelay ∧ s.seq .relay = true
      ∧ Mem.wf devDefault s.relay.dev ∧ s.relayPins.getLsbD s.cfg.params.vportMap.e = true
      ∧ v.getLsbD s.cfg.params.vportMap.e = false ∧ c < s.cfg.chips
      ∧ (∀ k, k < s.cfg.chips → v.getLsbD (s.cfg.params.vportMap.cs.getD k 16) = decide (k = c))
      ∧ lcdDecode (v.getLsbD s.cfg.params.vportMap.rs) (v.getLsbD s.cfg.params.vportMap.rw) (vpData s.cfg.params.vportMap v)
        = .ok cmd :=
  ⟨{ benchRelay with relay := { Expander.reset with dev := [⟨0x15, 0x15#8⟩] } }, 0x14A5#16, 1, .data 0xA5#8,
    ⟨rfl, rfl, rfl⟩, by decide⟩

theorem witness_DataWord :
    ∃ s t u v w : State, s.cfg.transport ≠ .offload
      ∧ (t.cfg.transport = .offload ∧ t.ctlDriven = true ∧ 1 < t.cfg.chips
        ∧ (∀ k, k < t.cfg.chips → ctlChip t.cfg.params.ctlMap t.ctlLines k = decide (k = 1))
        ∧ lcdDecode (t.ctlLines.getLsbD 2) (t.ctlLines.getLsbD 3) 0xFF#8 = .ok (.data 0xFF#8))
      ∧ (u.cfg.transport = .offload ∧ u.ctlDriven = true
        ∧ ∀ c, c < u.cfg.chips → ∃ k, k < u.cfg.chips ∧ ctlChip u.cfg.params.ctlMap u.ctlLines k ≠ decide (k = c))
      ∧ (v.cfg.transport = .offload ∧ v.ctlDriven = false ∧ 0 < v.cfg.chips
        ∧ (∀ k, k < v.cfg.chips → ctlChip v.cfg.params.ctlMap (drawCtl v).1 k = decide (k = 0))
        ∧ lcdDecode ((drawCtl v).1.getLsbD 2) false 0x40#8 = .ok .column)
      ∧ w.cfg.transport = .offload ∧ w.ctlDriven = false
      ∧ ∀ c, c < w.cfg.chips → ∃ k, k < w.cfg.chips ∧ ctlChip w.cfg.params.ctlMap (drawCtl w).1 k ≠ decide (k = c) :=
  ⟨bench .direct, { bench .offload with ctlLines := 0x6#4, ctlDriven := true },
    { bench .offload with ctlLines := 0x3#4, ctlDriven := true },
    { bench .offload with env := { (bench .offload).env with ctl := [0x9#4] } },
    { bench .offload with env := { (bench .offload).env with ctl := [0x0#4] } }, by decide⟩
theorem witness_Enqueue :
    ∃ s t u : State, (s.cfg.transport = .offload ∧ s.disp ≠ .atYield ∧ s.slice = none
        ∧ s.ctlQ.length < s.cfg.params.offloadFifoDepth ∧ s.dataQ.length + 1 = s.cfg.params.offloadFifoDepth)
      ∧ (t.cfg.transport = .offload ∧ t.disp ≠ .atYield ∧ t.slice = none ∧ t.ctlQ.head? = some (0, 0x1#4)
        ∧ t.ctlQ.length = t.cfg.params.offloadFifoDepth ∧ t.work = [] ∧ t.cfg.params.offloadOrder = .independent)
      ∧ u.cfg.transport = .offload ∧ u.disp ≠ .atYield ∧ u.slice = none ∧ u.dataQ.length = u.cfg.params.offloadFifoDepth :=
  ⟨{ bench .offload with dataQ := [(0, 0#8), (1, 0#8), (2, 0#8)], enqCount := 3 },
    { bench .offload with ctlQ := [(0, 0x1#4), (1, 0x5#4), (2, 0x2#4), (3, 0x6#4)], enqCount := 4 },
    { bench .offload with dataQ := [(0, 0#8), (1, 0#8), (2, 0#8), (3, 0#8)], enqCount := 4 }, by decide⟩
/-- The offload bench with three words queued in the order control, data, control, drained in the order `o`. -/
def benchQueued (o : OffloadOrder) : State :=
  { bench .offload with
    cfg := { (bench .offload).cfg with params := { params with offloadOrder := o } }, ctlQ := [(0, 0x1#4), (2, 0x5#4)],
    dataQ := [(1, 0x3F#8)], enqCount := 3 }

theorem witness_DataConsumerDrains :
    ∃ s t : State, (s.cfg.transport = .offload ∧ s.dataQ = [(1, 0x3F#8)] ∧ numbered s.dataQ s.enqCount
        ∧ s.cfg.params.offloadOrder = .independent)
      ∧ t.cfg.transport = .offload ∧ t.dataQ = [(1, 0x3F#8)] ∧ numbered t.dataQ t.enqCount ∧ t.ctlQ = []
      ∧ t.cfg.params.offloadOrder = .merged :=
  ⟨benchQueued .independent, { benchQueued .merged with ctlQ := [] },
    ⟨rfl, rfl, ⟨by decide, by decide⟩, rfl⟩, rfl, rfl, ⟨by decide, by decide⟩, rfl, rfl⟩
theorem witness_ConsumersDrainInOrder :
    ∃ s t u : State,
      (∀ v ∈ [s, t, u], v.cfg.transport = .offload ∧ numbered v.ctlQ v.enqCount ∧ numbered v.dataQ v.enqCount)
      ∧ (s.ctlQ = [(0, 0x1#4), (2, 0x5#4)] ∧ s.cfg.params.offloadOrder = .independent)
      ∧ (t.ctlQ = [(0, 0x1#4), (2, 0x5#4)] ∧ t.cfg.params.offloadOrder = .merged ∧ (∀ a ∈ t.dataQ, 0 < a.1)
        ∧ t.dataQ = [(1, 0x3F#8)] ∧ 0 ≤ 1)
      ∧ u.ctlQ = [(2, 0x5#4)] ∧ u.cfg.params.offloadOrder = .merged ∧ (∃ a ∈ u.dataQ, a.1 ≤ 2) ∧ u.dataQ = [(1, 0x3F#8)]
      ∧ 1 < 2 := by
  refine ⟨benchQueued .independent, benchQueued .merged, { benchQueued .merged with ctlQ := [(2, 0x5#4)] }, ?_, by decide,
    by decide, by decide⟩
  intro v hv
  simp only [List.mem_cons, List.not_mem_nil, or_false] at hv
  obtain rfl | rfl | rfl := hv <;> exact ⟨rfl, ⟨by decide, by decide⟩, by decide, by decide⟩

theorem witness_ErrorsEndTheRun :
    ∃ (s t : State) (e : Fault), (s.err = some e ∧ s.sched = [.host none] ∧ s.ctlQ = [] ∧ s.dataQ = [])
      ∧ t.err = some e ∧ t.sched = [.offCtl] ∧ t.cfg.transport = .offload ∧ t.cfg.params.offloadOrder = .independent
      ∧ t.ctlQ = [(0, 0x1#4)] :=
  ⟨{ bench .direct with err := some (.invalidPin 16), sched := [.host none] },
    { bench .offload with
      err := some (.invalidPin 16), sched := [.offCtl], ctlQ := [(0, 0x1#4)], enqCount := 1 }, .invalidPin 16, by decide⟩
theorem witness_InvalidPin :
    ∀ n ∈ [(-1 : Int), 16], (n < 0 ∨ 16 ≤ n) ∧ ∀ k ∈ [(0 : Int), 15], 0 ≤ k ∧ k < 16 := by decide
theorem witness_ArgumentErrors :
    (∀ n ∈ [(0 : Int), 15], 0 ≤ n ∧ n < 16) ∧ (∀ v ∈ [(-1 : Int), 0x10000], v < 0 ∨ 0x10000 ≤ v)
      ∧ (∀ v ∈ [(-1 : Int), 0x100], v < 0 ∨ 0x100 ≤ v) ∧ (∀ v ∈ [(0x80 : Int), 0xFF], 0x80 ≤ v ∧ v < 0x100)
      ∧ Kind.iocon ≠ .intf ∧ Kind.iocon ≠ .intcap ∧ Kind.iocon ≠ .gpio := by decide
/-- The bench whose next frame fails. -/
def benchFail : State := { bench .direct with env := { (bench .direct).env with frameFails := [true], coins := [false] } }

theorem witness_BusErrorOnFrame :
    (∃ (s : State) (x : ExpId) (k : Kind) (sk : ShKind) (v : Byte) (later : List Bool), s.slice = none ∧ s.openFrame = none
      ∧ s.env.frameFails = true :: later ∧ k.shadow = some sk ∧ (sk = .iocon → v.getLsbD 7 = false) ∧ s.eLow x
      ∧ Mem.wf devDefault (s.exp x).dev)
    ∧ (∃ s : State, s.slice = none ∧ s.openFrame = none ∧ s.env.frameFails = [true] ∧ (s.exp .gpio).pending ≠ []
      ∧ s.inTxn = false ∧ s.disp = .idle ∧ s.op = none ∧ s.work = [])
    ∧ ∃ s : State, s.slice = none ∧ s.openFrame = none ∧ s.env.frameFails = [false, true] ∧ (s.exp .gpio).pending ≠ []
      ∧ s.inTxn = false ∧ s.disp = .idle ∧ s.op = none ∧ s.work = [] ∧ s.seq .gpio = false :=
  ⟨⟨benchFail, .gpio, .iocon, .iocon, 0x7F#8, [], rfl, rfl, rfl, by decide, by decide, nofun, by decide⟩,
    ⟨{ benchFail with gpio := { Expander.reset with pending := [.edge] } }, by decide⟩,
    { benchFail with
      gpio := { Expander.reset with pending := [.edge], sh := { RegFile.reset with iocon := 0x20#8 } }
      env := { benchFail.env with frameFails := [false, true] } }, by decide⟩

theorem witness_ExpanderOperations :
    ∃ (s t : State), (s.calm ∧ 15 < 16 ∧ s.eLow .gpio ∧ Mem.wf devDefault (s.exp .gpio).dev)
      ∧ t.calm ∧ t.eLow .relay ∧ t.noFall 0xFFFF#16 ∧ Mem.wf devDefault (t.exp .relay).dev ∧ t.cfg.transport = .spiRelay :=
  ⟨bench .direct, bench .spiRelay, ⟨⟨rfl, rfl, rfl⟩, by decide, nofun, by decide⟩, ⟨rfl, rfl, rfl⟩, fun _ _ => rfl,
    fun _ _ => by decide, by decide, rfl⟩
theorem witness_Setup :
    (∀ d ∈ [Direction.input, .output], d = .input ∨ d = .output)
      ∧ (∀ f ∈ [SetupFlag.pullUp, .invert], f = .pullUp ∨ f = .invert) := by decide
theorem witness_OutputPins :
    ∃ m : List (Nat × Int), m = [(0, 1), (15, 0), (7, -1)] ∧ (∀ nl ∈ m, nl.1 < 16) ∧ (m.map (·.1)).Nodup :=
  ⟨_, rfl, by decide, by decide⟩
theorem witness_RegWrite :
    ∃ (s : State) (k : Kind) (sk : ShKind) (v : Byte), k.shadow = some sk ∧ s.calm ∧ (sk = .iocon → v.getLsbD 7 = false)
      ∧ (sk = .olat → s.eLow .relay) ∧ Mem.wf devDefault (s.exp .relay).dev :=
  ⟨bench .spiRelay, .olat, .olat, 0xFF#8, by decide, ⟨rfl, rfl, rfl⟩, nofun, fun _ _ _ => rfl, by decide⟩
theorem witness_FrameWords :
    ∃ (s t : State) (x : ExpId), (s.calm ∧ s.expAt 0#3 = some x ∧ s.eLow x ∧ Mem.wf devDefault (s.exp x).dev ∧ s.seq x = true)
      ∧ t.calm ∧ t.expAt 0#3 = some x ∧ t.eLow x ∧ Mem.wf devDefault (t.exp x).dev ∧ t.seq x = false
      ∧ s.expAt 7#3 = none :=
  ⟨bench .direct, { bench .direct with gpio := { Expander.reset with sh := { RegFile.reset with iocon := 0x20#8 } } }, .gpio,
    ⟨⟨rfl, rfl, rfl⟩, by decide, nofun, by decide, by decide⟩, ⟨rfl, rfl, rfl⟩, by decide, nofun, by decide, by decide, by decide⟩
theorem witness_CommandByte :
    ∃ (s t u : State) (c : Byte), s.openFrame = none ∧ t.openFrame ≠ none
      ∧ (t.slice = none ∧ t.env.frameFails = [] ∧ t.expAt 0#3 = some .gpio
        ∧ t.openFrame = some (0x40#8 ||| ((0#3).setWidth 8 <<< 1)))
      ∧ u.slice = none ∧ u.expAt 0#3 = some .gpio ∧ u.openFrame = some c ∧ c ≠ 0x40#8 ||| ((0#3).setWidth 8 <<< 1) :=
  ⟨bench .direct, { bench .direct with inTxn := true, openFrame := some 0x40#8 },
    { bench .direct with inTxn := true, openFrame := some 0x41#8 }, 0x41#8, by decide⟩
theorem witness_SerialFrame :
    ∃ (s t u v w y : State) (i j k : Instr) (x : ExpId), (s.instanceOf i = some x ∧ exec i s = .next t
        ∧ Mem.wf devDefault (s.exp x).dev)
      ∧ (u.instanceOf j = some x ∧ exec j u = .next v ∧ v.err.isSome)
      ∧ k.isLcdWord = true ∧ w.instanceOf k = some .relay ∧ exec k w = .next y ∧ Mem.wf devDefault w.relay.dev :=
  ⟨bench .direct, _, bench .direct, _, benchCarried, _, .output .gpio 9 1, .output .gpio 16 1, .displayOn, .gpio,
    ⟨rfl, rfl, by decide⟩, ⟨rfl, rfl, rfl⟩, rfl, rfl, rfl, by decide⟩

theorem witness_SubscribeAndEdge :
    ∃ s t : State, 15 < 16 ∧ ((-1 : Int) < 0 ∧ (16 : Int) ≤ 16) ∧ (s.exp .gpio).pending.length < (s.cfg.exp .gpio).irqQueueDepth
      ∧ (t.cfg.exp .gpio).irqQueueDepth ≤ (t.exp .gpio).pending.length :=
  ⟨bench .direct, benchEdge [], by decide⟩
theorem witness_DispatchNotEnabled :
    ∃ s t u v : State, (s.exp .gpio).pending = [] ∧ t.inTxn = true ∧ u.disp ≠ .idle
      ∧ v.suspended = false ∧ v.op ≠ none :=
  ⟨bench .direct, { benchEdge [] with inTxn := true }, { benchEdge [] with disp := .betweenOps },
    { benchEdge [] with op := some .printBuffer }, by decide⟩
theorem witness_Dispatch :
    ∃ s t : State, (s.calm ∧ (s.exp .gpio).pending ≠ [] ∧ s.inTxn = false ∧ s.disp = .idle ∧ s.op = none ∧ s.work = [])
      ∧ t.calm ∧ (t.exp .gpio).pending ≠ [] ∧ t.inTxn = false ∧ t.disp = .idle ∧ t.suspended = true
      ∧ 5 ∈ (s.exp .gpio).subs.map (·.1) ∧ ∀ pv ∈ [(0, true), (4, true)], ∀ sub ∈ (s.exp .gpio).subs, sub.1 ≠ pv.1 :=
  ⟨benchEdge [0xFF#8, 0xFF#8], { benchEdge [] with suspended := true, work := [.fsmPoll] },
    ⟨⟨rfl, rfl, rfl⟩, by decide⟩, ⟨rfl, rfl, rfl⟩, by decide⟩
/-- A step of each kind stands next in some state: a callback with actions and one without, a call that is an instruction and one
that is not, an error of a callback, a framebuffer write, pins with a subscriber and without, the return. -/
theorem witness_DispatchWork :
    ∀ m ∈ [Micro.callback 5 true 1, .callback 5 false 1, .nested (.wire .ctl4 [0x5#8]), .nested (.wire .ctl4 [0x0#8]),
        .callbackRaise 3, .fbStore 0 0#8, .dispatchPins .gpio [(4, true), (5, true)], .dispatchPins .gpio [(4, true)],
        .dispatchEnd none],
      ∃ s : State, s.work = [m, .dispatchEnd none] ∧ s.callbacks = [(1, ⟨[], [.raise 3]⟩)]
        ∧ s.gpio.subs = [(5, 1), (9, 2), (5, 3)] :=
  fun m _ => ⟨{ benchEdge [] with work := [m, .dispatchEnd none], callbacks := [(1, ⟨[], [.raise 3]⟩)] }, rfl, rfl, rfl⟩

theorem witness_StepRunsDecodedInstruction :
    ∃ (s t : State) (i : Instr) (r : Reject),
      (s.err = none ∧ s.sched = [.host none] ∧ s.work = [] ∧ s.prog = [.wire .ctl4 [0x5#8]]
        ∧ decode s.cfg (.wire .ctl4 [0x5#8]) = .ok i)
      ∧ t.err = none ∧ t.sched = [.host none] ∧ t.work = [] ∧ t.prog = [.wire .ctl4 [0x0#8]]
      ∧ decode t.cfg (.wire .ctl4 [0x0#8]) = .error r :=
  ⟨{ bench .offload with sched := [.host none], prog := [.wire .ctl4 [0x5#8]] },
    { bench .offload with sched := [.host none], prog := [.wire .ctl4 [0x0#8]] }, .ctlChip0Data, .ctlWord, by decide⟩
theorem witness_ConfigurationIsFixed :
    (∃ (s t : State) (i : Instr), (∀ w h tr b, i ≠ .construct w h tr b) ∧ exec i s = .next t)
      ∧ ∃ s t : State, (∀ it w h tr b, s.work.head? = some (.nested it) ∨ (s.work = [] ∧ s.prog.head? = some it) →
          decode s.cfg it ≠ .ok (.construct w h tr b)) ∧ step s = .next t ∧ t.trace ≠ s.trace :=
  ⟨⟨bench .direct, _, .writeGpio .gpio 0xFFFF, nofun, rfl⟩,
    { bench .offload with sched := [.offCtl], ctlQ := [(0, 0x1#4)], enqCount := 1 }, _, by
      rintro it _ _ _ b (h | ⟨-, h⟩) <;> (cases h), rfl, by decide⟩
/-- A bench with chip 1 selected, a word queued and display RAM written meets the invariant, and a step runs from it. -/
theorem witness_InvariantKept :
    ∃ s t : State, s.Inv ∧ step s = .next t ∧ t.trace ≠ s.trace := by
  refine ⟨{ benchQueued .merged with selChip := some 1, dram := [⟨0, 0xA5#8⟩], sched := [.offCtl] }, _, ?_, rfl, by decide⟩
  exact { dramWf := by decide, devWf := fun x => by cases x <;> decide, idleWf := by decide, geometry := by decide, params := by decide,
          selected := fun c h => by cases h; decide, selectLines := .inl rfl, lcdChips := rfl, ctlRoom := by decide,
          dataRoom := by decide, edgeRoom := fun x => by cases x <;> decide, ctlNumbered := ⟨by decide, by decide⟩,
          dataNumbered := ⟨by decide, by decide⟩, bank := fun x => by cases x <;> rfl, bankWork := nofun,
          coopOnly := by decide, errorEnds := nofun }

end Sys2Proof.Tests
end

section
/-! The configuration is fixed (10_state.md R22): no primitive step writes it, hence no run of them, no instruction but
`construct`, and no move of any agent in which HOST begins no `construct`. -/

namespace Sys2Proof.Machine

/-! ## Primitive steps -/

/-- Whatever state a primitive step answers with, its configuration is `c`. -/
abbrev MRes.KeepsCfg (c : Cfg) (r : MRes) : Prop := r.keeps (fun u => u.cfg = c) (fun u => u.cfg = c) (fun _ => True)

theorem lcdRespond_cfg (c : Nat) (cmd : LcdCmd) (s : State) : (lcdRespond c cmd s).cfg = s.cfg := (lcdRespond_rest c cmd s).1

theorem lcdCycle_cfg {chips : List Nat} {rs rw : Bool} {d : Byte} {s t : State} (h : lcdCycle chips rs rw d s = .ok t) :
    t.cfg = s.cfg := by
  obtain ⟨c, cmd, -, -, rfl⟩ := lcdCycle_ok h
  exact lcdRespond_cfg c cmd s

theorem strobeLines_cfg {s t : State} (h : strobeLines s = .ok t) : t.cfg = s.cfg := by
  obtain ⟨_, _, -, -, -, -, -, hcfg, -⟩ := strobeLines_ok h
  exact hcfg

theorem relayLatch_cfg {old : Half} {s t : State} (h : relayLatch old s = .ok t) : t.cfg = s.cfg := by
  rcases relayLatch_ok h with rfl | ⟨c, cmd, -, rfl⟩
  · rfl
  · exact lcdRespond_cfg c cmd s

theorem devLand_cfg {x : ExpId} {reg : Byte} {vs : List (Byte × Bool)} {s t : State} (h : devLand x reg vs s = .ok t) :
    t.cfg = s.cfg := by
  rcases devLand_ok h with rfl | ⟨c, cmd, -, -, rfl⟩
  · exact setExp_cfg ..
  · exact (lcdRespond_cfg ..).trans (setExp_cfg ..)

theorem frameWrite_keepsCfg (x : ExpId) (cmd reg : Byte) (data : List Byte) (s : State) :
    (frameWrite x cmd reg data s).KeepsCfg s.cfg := by
  rcases frameWrite_cases x cmd reg data s with ⟨s1, t, hd, hl, e⟩ | ⟨s1, t, vs, hd, hl, -, e⟩ | ⟨r, e⟩ <;> rw [e]
  · exact (devLand_cfg hl).trans hd.cfg
  · exact (devLand_cfg hl).trans hd.cfg
  · trivial

theorem frameRead_keepsCfg (x : ExpId) (cmd reg : Byte) (given : Option (List Byte)) (n : Nat) (s : State) :
    (frameRead x cmd reg given n s).KeepsCfg s.cfg := by
  rcases frameRead_cases x cmd reg given n s with ⟨s1, l, hd, e⟩ | ⟨s1, hd, e⟩ | ⟨r, e⟩ <;> rw [e]
  · exact (setExp_cfg ..).trans hd.cfg
  · exact hd.cfg
  · trivial

/-- A read frame begins with the bytes of the one before discarded. -/
theorem frameRead_clearRx_keepsCfg (x : ExpId) (cmd reg : Byte) (given : Option (List Byte)) (n : Nat) (s : State) :
    (frameRead x cmd reg given n (s.setExp x { s.exp x with rx := [] })).KeepsCfg s.cfg := by
  have h := frameRead_keepsCfg x cmd reg given n (s.setExp x { s.exp x with rx := [] })
  rwa [setExp_cfg] at h

theorem selectChipStep_keepsCfg (c : Nat) (s : State) : (selectChipStep c s).KeepsCfg s.cfg :=
  MRes.keeps_mono (selectChipStep_keeps c) (fun _ h => h.1) (fun _ h => h.1) fun _ h => h

theorem reportPins_keepsCfg (x : ExpId) (pins : List (Nat × Bool)) (s : State) : (reportPins x pins s).KeepsCfg s.cfg := by
  rcases reportPins_cases x pins s with e | ⟨_, _, _, e⟩ <;> rw [e]
  · rfl
  · exact ⟨rfl, fun _ _ => trivial⟩

/-- No primitive step writes the configuration. -/
theorem micro_keepsCfg (m : Micro) (s : State) : (micro m s).KeepsCfg s.cfg := by
  cases m with
  | selectChip c => exact selectChipStep_keepsCfg c s
  | groupSelect c =>
    simp only [micro]
    split
    · rfl
    · exact selectChipStep_keepsCfg c s
  | fsmSelect =>
    simp only [micro]
    split
    · rfl
    · trivial
  | fsmPoll => exact MRes.keeps_mono pollStep_keeps (fun _ h => h.1) (fun _ h => h.elim) fun _ h => h
  | fsmStrobe =>
    simp only [micro, MRes.ofExcept]
    split
    · exact (strobeLines_cfg ‹_› :)
    · trivial
  | enqCtl w =>
    simp only [micro, enqueueCtl]
    split <;> rfl
  | enqData src =>
    simp only [micro, enqueueData]
    split <;> rfl
  | vportBegin v =>
    simp only [micro]
    split
    · exact (olatBegin_cfg ..).trans (event_cfg ..)
    · trivial
  | olatBegin x v => exact olatBegin_cfg x v s
  | olatFrameA x =>
    simp only [micro]
    split <;> exact frameWrite_keepsCfg ..
  | olatFrameB x =>
    simp only [micro]
    split
    · rfl
    · exact frameWrite_keepsCfg ..
  | regFrame x k p => exact frameWrite_keepsCfg ..
  | wordWrite x cmd reg data => exact frameWrite_keepsCfg ..
  | gpioFrameA x =>
    simp only [micro]
    split <;> exact frameRead_clearRx_keepsCfg ..
  | gpioFrameB x =>
    simp only [micro]
    split
    · rfl
    · exact frameRead_keepsCfg ..
  | wordRead x cmd reg data =>
    simp only [micro]
    exact frameRead_clearRx_keepsCfg ..
  | loadBlock pg ch => exact MRes.keeps_mono (loadBlock_keeps pg ch) (fun _ h => h.1) (fun _ h => h.elim) fun _ h => h
  | ret r => exact endOp_cfg ..
  | dispatchScan x prev => exact reportPins_keepsCfg ..
  | dispatchPins x pins => exact reportPins_keepsCfg ..
  | callback pin value cb => exact ⟨rfl, fun _ _ => trivial⟩
  | shadowBit x | shadowSet x | gpioEnd x => exact setExp_cfg ..
  | fsmReadDir | fsmWriteDir | fsmIdle | txnBegin | txnEnd | position | bitBangSetup | selectNone | setInited | dispatchEnd
  | nested | callbackRaise | fbStore => rfl

/-! ## Outcomes -/

/-- If the outcome is a next state, its configuration is `c`. -/
def KeepsCfg (c : Cfg) : Out → Prop
  | .next t => t.cfg = c
  | .fault _ => True
  | .refused _ => True

theorem keepsCfg_iff {c : Cfg} {o : Out} : KeepsCfg c o ↔ ∀ t, o = .next t → t.cfg = c := by
  cases o <;> simp [KeepsCfg]

variable {c : Cfg} {s : State}

theorem keepsCfg_ofExcept {r : Except Refusal State} (h : ∀ t, r = .ok t → t.cfg = c) : KeepsCfg c (ofExcept r) :=
  keepsCfg_iff.2 fun t ht => h t (ofExcept_next ht)

theorem keepsCfg_run (ms : List Micro) (h : s.cfg = c) : KeepsCfg c (run ms s) := keepsCfg_iff.2 fun _ ht =>
  run_keeps (P := fun u => u.cfg = c) (R := fun u => u.cfg = c) (Q := fun _ => True) (fun _ hu => hu) (fun _ _ hu _ => hu)
    (fun _ hu => hu) (fun m u _ hu => hu ▸ micro_keepsCfg m u) (fun _ _ => trivial) h ht

theorem keepsCfg_run_beginOp (ms : List Micro) (o : Op) : KeepsCfg s.cfg (run ms (beginOp o s)) :=
  keepsCfg_run ms (beginOp_cfg o s)

theorem keepsCfg_ownBus {k : Out} (h : KeepsCfg c k) : KeepsCfg c (ownBus s k) :=
  keepsCfg_iff.2 fun t ht => keepsCfg_iff.1 h t (ownBus_next ht)

theorem keepsCfg_ifSequential {addr : BitVec 3} {k : Out} (h : KeepsCfg c k) : KeepsCfg c (ifSequential addr s k) :=
  keepsCfg_iff.2 fun t ht => keepsCfg_iff.1 h t (ifSequential_next ht)

theorem keepsCfg_withPin {n : Int} {k : Nat → Out} (h : KeepsCfg s.cfg (k n.toNat)) : KeepsCfg s.cfg (withPin n s k) := by
  refine keepsCfg_iff.2 fun t ht => ?_
  rcases withPin_next ht with ht | ⟨e, rfl⟩
  · exact keepsCfg_iff.1 h t ht
  · rfl

theorem keepsCfg_withPins {ns : List Int} {k : Out} (h : KeepsCfg s.cfg k) : KeepsCfg s.cfg (withPins ns s k) := by
  refine keepsCfg_iff.2 fun t ht => ?_
  rcases withPins_next ht with ht | ⟨e, rfl⟩
  · exact keepsCfg_iff.1 h t ht
  · rfl

theorem keepsCfg_withShadow {k : Kind} {f : ShKind → Out} (h : ∀ sk, KeepsCfg s.cfg (f sk)) :
    KeepsCfg s.cfg (withShadow k s f) := by
  refine keepsCfg_iff.2 fun t ht => ?_
  rcases withShadow_next ht with ⟨sk, -, ht⟩ | ⟨e, rfl⟩
  · exact keepsCfg_iff.1 (h sk) t ht
  · rfl

/-! ## Instructions -/

theorem offloadWord_cfg {rs : Bool} {d : Byte} {t : State} (h : offloadWord rs d s = .ok t) : t.cfg = s.cfg :=
  (lcdCycle_cfg h).trans (selectedChips_drawn s).cfg

theorem drainData_cfg {b : Byte} {t : State} (h : drainData b s = .ok t) : t.cfg = s.cfg := by
  unfold drainData at h
  simp only at h
  split at h
  · exact (lcdCycle_cfg h).trans (ctlSeen_drawn _).cfg
  all_goals
    cases h
    rfl

theorem keepsCfg_relayWord (rs : Bool) (d : Byte) : KeepsCfg s.cfg (relayWord rs d s) := by
  unfold relayWord
  split
  · exact keepsCfg_run _ rfl
  · trivial

theorem keepsCfg_writeCycle (rs : Bool) (b : Byte) : KeepsCfg s.cfg (writeCycle rs b s) := by
  have lines : KeepsCfg s.cfg (ofExcept (strobeLines (setWriteDir rs b s))) := keepsCfg_ofExcept fun _ => strobeLines_cfg
  unfold writeCycle
  split
  · exact lines
  · exact lines
  · exact keepsCfg_ofExcept fun _ => offloadWord_cfg
  · exact keepsCfg_relayWord rs b

theorem keepsCfg_statusCycle (v : Byte) : KeepsCfg s.cfg (statusCycle v s) := by
  have cycle : ∀ chips t, lcdCycle chips false true v (setReadDir s) = .ok t → t.cfg = s.cfg := fun _ _ => lcdCycle_cfg
  unfold statusCycle
  split
  case h_1 | h_2 =>
    simp only
    split
    · exact (cycle _ _ ‹_› :)
    · trivial
  all_goals trivial

theorem keepsCfg_writeFrameWord (addr : BitVec 3) (reg : Byte) (data : List Byte) :
    KeepsCfg s.cfg (writeFrameWord addr reg data s) := by
  unfold writeFrameWord
  split
  · trivial
  · exact keepsCfg_run _ rfl

theorem keepsCfg_readFrameWord (addr : BitVec 3) (reg : Byte) (data : List Byte) :
    KeepsCfg s.cfg (readFrameWord addr reg data s) := by
  unfold readFrameWord
  split
  · trivial
  · exact keepsCfg_run _ rfl

theorem keepsCfg_commandByte (cmd : Byte) : KeepsCfg s.cfg (commandByte cmd s) := by
  unfold commandByte
  split
  · trivial
  · rfl

theorem enterDispatch_cfg (x : ExpId) : (enterDispatch x s).cfg = s.cfg := setExp_cfg ..

theorem signalEdge_cfg (x : ExpId) : (signalEdge x s).cfg = s.cfg := by
  unfold signalEdge
  split
  · exact setExp_cfg ..
  · rfl

theorem keepsCfg_dispatch (x : ExpId) : KeepsCfg s.cfg (execDispatch x s) := by
  unfold execDispatch
  split
  · exact keepsCfg_run _ (enterDispatch_cfg x)
  · trivial

/-- R22: no instruction but `construct` writes the configuration. -/
theorem keepsCfg_exec {i : Instr} (hi : ∀ w h tr b, i ≠ .construct w h tr b) : KeepsCfg s.cfg (exec i s) := by
  cases i with
  | displayOn | displayOff | setStartLine | setPage | setColumn | writeData =>
    exact keepsCfg_ownBus (keepsCfg_writeCycle ..)
  | readStatus v => exact keepsCfg_ownBus (keepsCfg_statusCycle v)
  | frameWrite1 => exact keepsCfg_writeFrameWord ..
  | frameWrite2 => exact keepsCfg_ifSequential (keepsCfg_writeFrameWord ..)
  | frameRead1 => exact keepsCfg_readFrameWord ..
  | frameRead2 => exact keepsCfg_ifSequential (keepsCfg_readFrameWord ..)
  | serCmdWrite | serCmdRead => exact keepsCfg_commandByte ..
  | ctlChip0Cmd | ctlChip1Cmd | ctlChip0Data | ctlChip1Data => rfl
  | dataWord b => exact keepsCfg_ofExcept fun _ => drainData_cfg
  | vportWrite v => exact keepsCfg_run _ rfl
  | construct w h tr b => exact absurd rfl (hi w h tr b)
  | bufferOffset page chip column =>
    exact keepsCfg_iff.2 fun t ht => (exec_facade (L := True) (.inr ⟨page, chip, column, rfl⟩) (.inr trivial) ht).cfg
  | selectChip | init | printBuffer | cmdGroup | dataGroup | lcdWrite | relayByte | enqueue =>
    exact keepsCfg_iff.2 fun t ht => (exec_facade (L := True) (.inl rfl) (.inr trivial) ht).cfg
  | setup x pin d flags =>
    simp only [exec, execSetup]
    refine keepsCfg_withPin ?_
    split
    · exact keepsCfg_run_beginOp ..
    · rfl
  | output | input =>
    simp only [exec, execOutput, execInput]
    exact keepsCfg_withPin (keepsCfg_run_beginOp ..)
  | outputPins | inputPins => exact keepsCfg_withPins (keepsCfg_run_beginOp ..)
  | writeGpio x v =>
    simp only [exec, execWriteGpio]
    split
    · exact keepsCfg_run_beginOp ..
    · rfl
  | readGpio x => exact keepsCfg_run_beginOp ..
  | regWrite x k p v =>
    refine keepsCfg_withShadow fun sk => ?_
    split
    · split
      · rfl
      · exact keepsCfg_run_beginOp ..
    · rfl
  | regRead x k p => exact keepsCfg_withShadow fun _ => rfl
  | subscribe x pin cb =>
    simp only [exec, execSubscribe]
    exact keepsCfg_withPin (setExp_cfg ..)
  | dispatch x => exact keepsCfg_dispatch x
  | expEdge x => exact signalEdge_cfg x

/-! ## Moves of the agents -/

/-- A HOST move from this state begins no `construct`: neither the call a callback makes next, nor, with nothing in progress, the
next item of the program decodes to one. -/
def State.BeginsNoConstruct (s : State) : Prop :=
  ∀ it w h tr b, s.work.head? = some (.nested it) ∨ (s.work = [] ∧ s.prog.head? = some it) →
    decode s.cfg it ≠ .ok (.construct w h tr b)

theorem keepsCfg_fetch {it : Item} (hit : ∀ w h tr b, decode s.cfg it ≠ .ok (.construct w h tr b)) :
    KeepsCfg s.cfg (fetch it s) := by
  unfold fetch
  split
  · rename_i i hd
    exact keepsCfg_exec fun w h tr b e => hit w h tr b (e ▸ hd)
  · trivial

theorem keepsCfg_hostMove (hs : s.BeginsNoConstruct) : KeepsCfg s.cfg (hostMove s) := by
  unfold hostMove
  split
  · rename_i it ms hw
    exact keepsCfg_fetch (s := { s with work := ms }) fun w h tr b => hs it w h tr b (.inl (by rw [hw]; rfl))
  · exact keepsCfg_run _ rfl
  · rename_i hw
    split
    · rfl
    · rename_i it its hp
      exact keepsCfg_fetch (s := { s with prog := its }) fun w h tr b => hs it w h tr b (.inr ⟨hw, by rw [hp]; rfl⟩)

theorem offCtlMove_cfg {t : State} (h : offCtlMove s = some t) : t.cfg = s.cfg := by
  unfold offCtlMove at h
  split at h
  · split at h <;> cases h
    rfl
  · cases h

theorem offDataMove_cfg {t : State} (h : offDataMove s = some (.ok t)) : t.cfg = s.cfg := by
  unfold offDataMove at h
  split at h
  · split at h
    · exact (drainData_cfg (Option.some.inj h) :)
    · cases h
  · cases h

theorem keepsCfg_otherMove (a : OtherAct) : KeepsCfg s.cfg (otherMove a s) := by
  unfold otherMove
  split
  · split
    · rfl
    · rfl
    · trivial
  · rfl

theorem lcdResetMove_cfg (chip : Nat) : (lcdResetMove chip s).cfg = s.cfg := by
  unfold lcdResetMove
  split <;> rfl

theorem expResetMove_cfg {x : ExpId} {t : State} (h : expResetMove x s = .ok t) : t.cfg = s.cfg := by
  cases x with
  | gpio =>
    cases h
    rfl
  | relay => exact (relayLatch_cfg h :)

theorem keepsCfg_liveMove (m : Move) (hs : s.BeginsNoConstruct) : KeepsCfg s.cfg (liveMove m s) := by
  cases m with
  | host q => exact keepsCfg_hostMove (s := { s with slice := q }) hs
  | offCtl =>
    simp only [liveMove]
    split
    · exact offCtlMove_cfg ‹_›
    · rfl
  | offData =>
    simp only [liveMove]
    split
    · rename_i r hr
      exact keepsCfg_ofExcept fun t ht => offDataMove_cfg (ht ▸ hr)
    · rfl
  | edge x => exact signalEdge_cfg x
  | dispatch x q =>
    simp only [liveMove]
    split
    · exact keepsCfg_dispatch (s := { s with slice := q }) x
    · rfl
  | other a => exact keepsCfg_otherMove a
  | lcdReset chip => exact lcdResetMove_cfg chip
  | expReset x => exact keepsCfg_ofExcept fun _ => expResetMove_cfg
  | idleReset addr => rfl

theorem keepsCfg_faultedMove (e : Fault) (m : Move) : KeepsCfg s.cfg (faultedMove e m s) := by
  cases m with
  | offCtl =>
    simp only [faultedMove]
    split
    · exact offCtlMove_cfg ‹_›
    · trivial
  | offData =>
    simp only [faultedMove]
    split
    · rename_i r hr
      exact keepsCfg_ofExcept fun t ht => offDataMove_cfg (ht ▸ hr)
    · trivial
  | host | edge | dispatch | other | lcdReset | expReset | idleReset => trivial

theorem keepsCfg_agentMove (m : Move) (hs : s.BeginsNoConstruct) : KeepsCfg s.cfg (agentMove m s) := by
  unfold agentMove
  split
  · exact keepsCfg_liveMove m hs
  · exact keepsCfg_faultedMove _ m

/-- R22: a step in which HOST begins no `construct` keeps the configuration. -/
theorem keepsCfg_step (hs : s.BeginsNoConstruct) : KeepsCfg s.cfg (step s) := by
  unfold step stepMove
  split
  · exact keepsCfg_agentMove (s := { s with sched := _ }) _ hs
  · exact keepsCfg_agentMove (s := s.drew) _ hs

end Sys2Proof.Machine

namespace Sys2Proof

/-- Settles O58: the configuration is kept by every instruction but `construct`, by the primitive steps each is made of, and so
by every agent's move that begins none. -/
theorem configurationIsFixed : Obligations.ConfigurationIsFixed := by
  unfold Obligations.ConfigurationIsFixed
  exact ⟨fun s t _ hi => Machine.keepsCfg_iff.1 (Machine.keepsCfg_exec hi) t,
    fun _ t hs => Machine.keepsCfg_iff.1 (Machine.keepsCfg_step hs) t⟩

end Sys2Proof
end

section
/-! The addressing calls (40_addressing.md): `buffer_offset` (R162) and `select_chip` (R166, R281). -/

namespace Sys2Proof.Machine

/-! ## The CS bits of the virtual port -/

/-- R281: the CS bits of a panel of `n` chips become `cs_pattern(c)`, every other bit of the word stays. A chip VPORT_MAP gives no
line has no bit, so it leaves them all clear. -/
theorem vpSelect_bit (m : VportMap) {n c i : Nat} (v : Half) (hc : c < n) (hi : i < 16) :
    (vpSelect m n v c).getLsbD i = if i ∈ m.cs.take n then decide (m.cs[c]? = some i) else v.getLsbD i := by
  have line : (i = m.cs.getD c 16) ↔ m.cs[c]? = some i := by
    rw [List.getD_eq_getElem?_getD]
    cases m.cs[c]? with
    | none => simpa using hi.ne
    | some j => simp [eq_comm]
  have bit : (vpSelect m n v c).getLsbD i = ((v.getLsbD i && !decide (i ∈ m.cs.take n)) || decide (m.cs[c]? = some i)) := by
    simp only [vpSelect, vpCs, BitVec.getLsbD_or, BitVec.getLsbD_and, BitVec.getLsbD_not, vbit_bit, vbits_bit, hi, line,
      decide_true, Bool.true_and]
  rw [bit]
  by_cases hin : i ∈ m.cs.take n
  · simp [hin]
  · have hne : m.cs[c]? ≠ some i := fun h => hin (List.mem_of_getElem? (List.getElem?_take_of_lt hc ▸ h))
    simp [hin, hne]

/-! ## `select_chip` -/

/-- The step that selects chip `c` led from `s` to `t` (R166): `sel_chip` is written, no event is made, and of the select lines and
the virtual port each transport drives its own. -/
structure ChipSelected (c : Nat) (s t : State) : Prop where
  selChip : t.selChip = some c
  trace : t.trace = s.trace
  kept : t.kept = s.kept
  bitBang : s.cfg.transport.bitBang = true → t.cs = csPattern s.cfg.chips c ∧ t.vport = s.vport
  offload : s.cfg.transport = .offload → t.cs = s.cs ∧ t.vport = s.vport
  spiRelay : s.cfg.transport = .spiRelay →
    t.cs = s.cs ∧ t.vport = vpSelect s.cfg.params.vportMap s.cfg.chips s.vport c

theorem micro_selectChip_inRange {c : Nat} {s : State} (hc : c < s.cfg.chips) :
    ∃ t, micro (.selectChip c) s = .next t ∧ ChipSelected c s t := by
  simp only [micro, selectChipStep]
  rw [if_pos hc]
  cases ht : s.cfg.transport with
  | direct | coop => exact ⟨_, rfl, rfl, rfl, rfl, fun _ => ⟨rfl, rfl⟩, by simp [ht], by simp [ht]⟩
  | offload => exact ⟨_, rfl, rfl, rfl, rfl, by simp [ht, Transport.bitBang], fun _ => ⟨rfl, rfl⟩, by simp [ht]⟩
  | spiRelay => exact ⟨_, rfl, rfl, rfl, rfl, by simp [ht, Transport.bitBang], by simp [ht], fun _ => ⟨rfl, rfl⟩⟩

theorem micro_selectChip_outOfRange {c : Nat} {s : State} (hc : s.cfg.chips ≤ c) :
    micro (.selectChip c) s = .raise (.badIndex none (some c) none) s :=
  if_neg hc.not_gt

/-- The levels of the select lines once they are driven (R166). -/
theorem csLevel_of_csPattern {c k : Nat} {s : State} (hcs : s.cs = csPattern s.cfg.chips c) (hk : k < s.cfg.chips) :
    s.csLevel k = if k = c then s.cfg.params.csActive else !s.cfg.params.csActive := by
  simp only [State.csLevel, hcs, csPattern_getD hk, decide_eq_true_eq]

/-- What the call had begun is cleared by the error it takes (60_exceptions.md R360). -/
theorem raise_beginOp (e : Fault) (o : Op) (s : State) : raise e (beginOp o s) = raise e s := by
  rw [beginOp_eq]
  rfl

section
variable {c : Nat} {s : State} (hy : s.disp ≠ .atYield) (hi : s.inited = true) (hs : s.slice = none)
include hy hi

theorem exec_selectChip : exec (.selectChip c) s = run [.selectChip c, .ret .unit] (beginOp .selectChip s) :=
  (ownTransport_of hy _).trans (afterInit_of hi _)

include hs

/-- R166: a call with a chip of the panel selects it and returns. -/
theorem exec_selectChip_inRange (hc : c < s.cfg.chips) :
    ∃ t, exec (.selectChip c) s = .next (endOp .unit t) ∧ ChipSelected c (beginOp .selectChip s) t := by
  obtain ⟨t, hstep, ht⟩ := micro_selectChip_inRange (s := beginOp .selectChip s) (c := c) (by simpa using hc)
  have hslice : t.slice = none := (slice_kept ht.kept).trans (by simpa using hs)
  refine ⟨t, ?_, ht⟩
  rw [exec_selectChip hy hi, run_next (by simpa using hs) hstep, run_ret hslice]
  rfl

theorem exec_selectChip_outOfRange (hc : s.cfg.chips ≤ c) :
    exec (.selectChip c) s = .next (raise (.badIndex none (some c) none) s) := by
  rw [exec_selectChip hy hi, run_raise (by simpa using hs) (micro_selectChip_outOfRange (by simpa using hc)), raise_beginOp]

end

/-! ## `buffer_offset` -/

theorem exec_bufferOffset_inRange {s : State} {page chip column : Nat} (hp : page < s.cfg.pages) (hc : chip < s.cfg.chips)
    (hk : column < 64) :
    exec (.bufferOffset page chip column) s = .next { s with ret := .nat (s.cfg.offset page chip column) } :=
  if_pos ⟨hp, hc, hk⟩

theorem exec_bufferOffset_outOfRange {s : State} {page chip column : Nat}
    (h : s.cfg.pages ≤ page ∨ s.cfg.chips ≤ chip ∨ 64 ≤ column) :
    exec (.bufferOffset page chip column) s = .next (raise (.badIndex (some page) (some chip) (some column)) s) :=
  if_neg (by omega)

end Sys2Proof.Machine

namespace Sys2Proof
open Machine

/-- Settles O20: in the range the call is the one step that selects the chip (R166) and its return, and the lines and the virtual
port are read off that step, transport by transport; out of it the step raises BadIndex. -/
theorem selectChipResult : Obligations.SelectChipResult := by
  unfold Obligations.SelectChipResult
  intro s c hy hi hs
  refine ⟨fun hc => ?_, exec_selectChip_outOfRange hy hi hs⟩
  obtain ⟨t, hexec, ht⟩ := exec_selectChip_inRange hy hi hs hc
  have hcfg : t.cfg = s.cfg := (congrArg (·.1) ht.kept).trans (beginOp_cfg ..)
  have hop : (endOp .unit t).op = s.opAfter :=
    (congrArg State.op (endOp_eq ..)).trans ((opAfter_kept ht.kept).trans (opAfter_beginOp ..))
  refine ⟨endOp .unit t, hexec, by simpa using ht.selChip, by simpa using ht.trace, endOp_ret .., hop, fun htr => ?_,
    fun htr => ?_, fun htr => ?_⟩
  · obtain ⟨hcs, hvp⟩ := ht.bitBang (by simpa using htr)
    refine ⟨by simpa using hvp, fun k hk => ?_⟩
    simpa [hcfg] using csLevel_of_csPattern (s := endOp .unit t) (by simpa [hcfg] using hcs)
      (by simpa [hcfg] using hk)
  · simpa using ht.offload (by simpa using htr)
  · obtain ⟨hcs, hvp⟩ := ht.spiRelay (by simpa using htr)
    refine ⟨by simpa using hcs, fun i hi16 => ?_⟩
    simpa only [endOp_vport, hvp, beginOp_cfg, beginOp_vport] using vpSelect_bit s.cfg.params.vportMap s.vport hc hi16

/-- Settles O7: the offset inside the ranges (R162), BadIndex outside them. -/
theorem bufferOffsetResult : Obligations.BufferOffsetResult := by
  unfold Obligations.BufferOffsetResult
  exact fun _ _ _ _ => ⟨exec_bufferOffset_inRange, exec_bufferOffset_outOfRange⟩

end Sys2Proof
end

section
/-! A pin outside [0, 16) at the expander's entry points (46_expander_ops.md R301, 60_exceptions.md R362). -/

namespace Sys2Proof.Machine

theorem validPin_iff {n : Int} : validPin n = true ↔ 0 ≤ n ∧ n < 16 := by simp [validPin]

/-- R301: the complement of `validPin_iff`, in the form the statements of invalid pins use. -/
theorem validPin_eq_false_iff {n : Int} : validPin n = false ↔ n < 0 ∨ 16 ≤ n := by
  rw [← Bool.not_eq_true, validPin_iff]
  omega

/-- R362: valid pins before a bad one are passed over, and what comes after it is not looked at. -/
theorem firstBadPin_append_cons {good rest : List Int} {n : Int} (hgood : ∀ k ∈ good, 0 ≤ k ∧ k < 16)
    (hn : n < 0 ∨ 16 ≤ n) : firstBadPin (good ++ n :: rest) = some n := by
  have hnone : firstBadPin good = none := List.find?_eq_none.2 fun k hk => by simp [validPin_iff.2 (hgood k hk)]
  have hhead : firstBadPin (n :: rest) = some n := List.find?_cons_of_pos (by simp [validPin_eq_false_iff.2 hn])
  calc firstBadPin (good ++ n :: rest)
      = (firstBadPin good).or (firstBadPin (n :: rest)) := List.find?_append
    _ = some n := by rw [hnone, hhead, Option.none_or]

theorem withPin_invalid {n : Int} (hn : n < 0 ∨ 16 ≤ n) (s : State) (k : Nat → Out) :
    withPin n s k = .next (raise (.invalidPin n) s) :=
  if_neg (by simp [validPin_eq_false_iff.2 hn])

theorem withPins_invalid {ns : List Int} {n : Int} (h : firstBadPin ns = some n) (s : State) (k : Out) :
    withPins ns s k = .next (raise (.invalidPin n) s) := by
  rw [withPins, h]

end Sys2Proof.Machine

namespace Sys2Proof
open Machine

/-- Settles O41: each entry point checks its pin, or all the pins of its batch, before it begins the operation; in a batch the
check finds the pin behind the good ones. -/
theorem invalidPinHasNoEffect : Obligations.InvalidPinHasNoEffect := by
  unfold Obligations.InvalidPinHasNoEffect
  intro s x n hn
  refine ⟨fun d fs => ?setup, fun l => ?output, fun r => ?input, fun cb => ?subscribe, fun good rest r hgood => ?inputPins,
    fun good rest l hgood => ?outputPins⟩
  case setup => rw [exec, execSetup, withPin_invalid hn]
  case output => rw [exec, execOutput, withPin_invalid hn]
  case input => rw [exec, execInput, withPin_invalid hn]
  case subscribe => rw [exec, execSubscribe, withPin_invalid hn]
  case inputPins => exact withPins_invalid (firstBadPin_append_cons hgood hn) s _
  case outputPins =>
    have hfirst : firstBadPin ((good ++ (n, l) :: rest).map (·.1)) = some n := by
      rw [List.map_append, List.map_cons]
      exact firstBadPin_append_cons (List.forall_mem_map.2 hgood) hn
    exact withPins_invalid hfirst s _

end Sys2Proof
end

section
/-! Subscribing to a pin and the edge signal (47_expander_interrupts.md R341, R342). -/

namespace Sys2Proof.Machine

theorem withPin_valid {n : Nat} (hn : n < 16) (s : State) (k : Nat → Out) : withPin (n : Int) s k = k n :=
  if_pos (validPin_nat hn)

/-- R342: an edge where the queue has room. -/
theorem signalEdge_room {s : State} {x : ExpId} (hroom : (s.exp x).pending.length < (s.cfg.exp x).irqQueueDepth) :
    signalEdge x s = s.setExp x { s.exp x with pending := (s.exp x).pending ++ [.edge] } :=
  if_pos hroom

/-- R342: an edge is coalesced into the ones pending where the queue is full. -/
theorem signalEdge_full {s : State} {x : ExpId} (hfull : (s.cfg.exp x).irqQueueDepth ≤ (s.exp x).pending.length) :
    signalEdge x s = s :=
  if_neg hfull.not_gt

end Sys2Proof.Machine

namespace Sys2Proof
open Machine

/-- Settles O54: `subscribe` is the check of its pin and then the pair appended (R341); an edge is the signal to a queue with room
or to a full one (R342). -/
theorem subscribeAndEdge : Obligations.SubscribeAndEdge := by
  unfold Obligations.SubscribeAndEdge
  intro s x
  refine ⟨fun n cb hn => ?validPin, fun n cb hn => ?invalidPin, fun hroom => ?room, fun hfull => ?full⟩
  case validPin => rw [exec, execSubscribe, withPin_valid hn]
  case invalidPin => rw [exec, execSubscribe, withPin_invalid hn]
  case room => rw [exec, execExpEdge, signalEdge_room hroom]
  case full => rw [exec, execExpEdge, signalEdge_full hfull]

end Sys2Proof
end

section
/-! The decoder and the encoder (30_encoding.md): each word format reads back what it was written as, and was written as what it
reads back. -/

namespace Sys2Proof

/-! ## LCD10 words -/

/-- R121: an LCD10 item is decoded as the target reads its RS, RW and D. -/
theorem decode_lcd10 (g : Cfg) (rs rw : Bool) (d : Byte) :
    decode g (lcd10 rs rw d) = (lcdDecode rs rw d).map LcdCmd.instr := by
  cases rs <;> cases rw <;> rfl

theorem lcdDecode_setPage (p : BitVec 3) : lcdDecode false false (0xB8#8 ||| p.setWidth 8) = .ok (.page p) := by
  revert p
  decide

/-- A first byte without bits above RS and RW is the one those two bits make (R121). -/
theorem lcd10_firstByte {hi : Byte} (h : hi.toNat < 4) (lo : Byte) :
    Item.wire .lcd10 [hi, lo] = lcd10 (hi.getLsbD 1) (hi.getLsbD 0) lo := by
  have hsmall : ∀ b : Byte, b.toNat < 4 →
      b = (if b.getLsbD 1 then 0x2#8 else 0x0#8) ||| (if b.getLsbD 0 then 0x1#8 else 0x0#8) := by decide
  rw [lcd10, ← hsmall hi h]

/-- A set-page byte is 0xB8 with its page below (R125). -/
theorem setPage_byte {d : Byte} (h : d.extractLsb' 3 5 = 0b10111#5) : 0xB8#8 ||| (d.extractLsb' 0 3).setWidth 8 = d := by
  revert d
  decide

/-- R121 to R125: the encoding of the instruction the target reads is the word it read, and it breaks no limit. -/
theorem encode_of_lcdDecode (g : Cfg) {rs rw : Bool} {d : Byte} {cmd : LcdCmd} (h : lcdDecode rs rw d = .ok cmd) :
    encode g cmd.instr = lcd10 rs rw d ∧ cmd.instr.wellFormed g := by
  cases rs <;> cases rw <;> simp only [lcdDecode] at h
  case true.true => cases h
  case true.false | false.true =>
    cases h
    exact ⟨rfl, rfl⟩
  case false.false =>
    split_ifs at h with hon hoff hstart hpage hcolumn <;> cases h
    · exact ⟨by rw [hon]; rfl, rfl⟩
    · exact ⟨by rw [hoff]; rfl, rfl⟩
    · exact ⟨by rw [hstart]; rfl, rfl⟩
    · exact ⟨by simp only [LcdCmd.instr, encode, setPage_byte hpage], rfl⟩
    · exact ⟨by rw [hcolumn]; rfl, rfl⟩

/-! ## Limits -/

theorem checked_of_wellFormed {g : Cfg} {i : Instr} (h : i.wellFormed g) : checked g i = .ok i := by
  rw [checked, h]

theorem checked_eq_ok {g : Cfg} {i j : Instr} (h : checked g i = .ok j) : j = i ∧ i.wellFormed g := by
  unfold checked at h
  split at h
  · cases h
    exact ⟨rfl, ‹_›⟩
  · cases h

/-- A call that breaks no limit is itself (R120). -/
theorem decode_call {g : Cfg} {i : Instr} (hi : i.isCall = true) (h : i.wellFormed g) : decode g (.call i) = .ok i := by
  simp only [decode, hi, if_true, checked_of_wellFormed h]

theorem encode_call (g : Cfg) {i : Instr} (hi : i.isCall = true) : encode g i = .call i := by
  cases i with
  | displayOn | displayOff | setStartLine | setPage | setColumn | writeData | readStatus | frameWrite1 | frameWrite2
  | frameRead1 | frameRead2 | serCmdWrite | serCmdRead | ctlChip0Cmd | ctlChip1Cmd | ctlChip0Data | ctlChip1Data
  | dataWord | vportWrite => cases hi
  | _ => rfl

/-! ## Serial words -/

theorem decode_serFrame1 (g : Cfg) (a : BitVec 3) (read : Bool) (r d0 : Byte) :
    decode g (.wire .serFrame [serCmd a read, r, d0])
      = checked g (if read then .frameRead1 a r d0 else .frameWrite1 a r d0) := by
  simp only [decode, decodeWire, decodeFrame1, decodeSerCmd_serCmd]
  cases read <;> rfl

theorem decode_serFrame2 (g : Cfg) (a : BitVec 3) (read : Bool) (r d0 d1 : Byte) :
    decode g (.wire .serFrame [serCmd a read, r, d0, d1])
      = checked g (if read then .frameRead2 a r d0 d1 else .frameWrite2 a r d0 d1) := by
  simp only [decode, decodeWire, decodeFrame2, decodeSerCmd_serCmd]
  cases read <;> rfl

theorem decode_serCmd8 (g : Cfg) (a : BitVec 3) (read : Bool) :
    decode g (.wire .serCmd8 [serCmd a read]) = .ok (if read then .serCmdRead a else .serCmdWrite a) := by
  simp only [decode, decodeWire, decodeSerCmd_serCmd]
  cases read <;> rfl

/-! ## Control words -/

/-- The control word of chip 0 or 1 for a command or for data. -/
def ctlInstr (chip : Fin 2) (rs : Bool) : Instr :=
  match chip, rs with
  | 0, false => .ctlChip0Cmd
  | 1, false => .ctlChip1Cmd
  | 0, true => .ctlChip0Data
  | 1, true => .ctlChip1Data

/-- R135: the four control words of an admitted CTL_MAP are told apart. -/
theorem decode_ctlByte {g : Cfg} (hm : g.params.ctlMap.ok = true) (chip : Fin 2) (rs : Bool) :
    decode g (.wire .ctl4 [ctlByte g.params.ctlMap chip rs]) = .ok (ctlInstr chip rs) := by
  have hne := fun c c' r r' => @ctlByte_ne _ hm c c' r r'
  have h10 := hne 1 0 false false (by decide)
  have h20 := hne 0 0 true false (by decide)
  have h21 := hne 0 1 true false (by decide)
  have h30 := hne 1 0 true false (by decide)
  have h31 := hne 1 1 true false (by decide)
  have h32 := hne 1 0 true true (by decide)
  simp only [decode, decodeWire, decodeCtl4]
  match chip, rs with
  | 0, false => exact if_pos rfl
  | 1, false => exact (if_neg h10).trans (if_pos rfl)
  | 0, true => exact (if_neg h20).trans ((if_neg h21).trans (if_pos rfl))
  | 1, true => exact (if_neg h30).trans ((if_neg h31).trans ((if_neg h32).trans (if_pos rfl)))

theorem encode_of_decodeCtl4 {g : Cfg} {w : Byte} {i : Instr} (h : decodeCtl4 g.params.ctlMap w = .ok i) :
    encode g i = .wire .ctl4 [w] ∧ i.wellFormed g := by
  unfold decodeCtl4 at h
  split_ifs at h with h0 h1 h2 h3 <;> cases h
  · exact ⟨by rw [h0]; rfl, rfl⟩
  · exact ⟨by rw [h1]; rfl, rfl⟩
  · exact ⟨by rw [h2]; rfl, rfl⟩
  · exact ⟨by rw [h3]; rfl, rfl⟩

/-! ## Virtual-port words -/

/-- R137: a virtual-port item is its two bytes, high one first. -/
theorem decode_vport16 (g : Cfg) (v : Half) :
    decode g (.wire .vport16 [v.extractLsb' 8 8, v.extractLsb' 0 8]) = checked g (.vportWrite v) := by
  have hcat : v.extractLsb' 8 8 ++ v.extractLsb' 0 8 = v := Machine.cat16_high_low v
  simp only [decode, decodeWire, hcat]

/-! ## A word that decodes is an encoding -/

theorem encode_of_decodeLcd10 (g : Cfg) {hi lo : Byte} {i : Instr} (h : decodeLcd10 hi lo = .ok i) :
    encode g i = .wire .lcd10 [hi, lo] ∧ i.wellFormed g := by
  unfold decodeLcd10 at h
  split at h
  · rename_i hsmall
    cases hd : lcdDecode (hi.getLsbD 1) (hi.getLsbD 0) lo with
    | error e =>
      rw [hd] at h
      cases h
    | ok cmd =>
      rw [hd] at h
      cases h
      rw [lcd10_firstByte hsmall]
      exact encode_of_lcdDecode g hd
  · cases h

theorem encode_of_decodeFrame1 {g : Cfg} {c r d0 : Byte} {i : Instr} (h : decodeFrame1 g c r d0 = .ok i) :
    encode g i = .wire .serFrame [c, r, d0] ∧ i.wellFormed g := by
  unfold decodeFrame1 at h
  split at h
  · cases h
  all_goals
    obtain ⟨rfl, hwf⟩ := checked_eq_ok h
    exact ⟨by simp only [encode, serCmd_of_decode ‹decodeSerCmd c = _›], hwf⟩

theorem encode_of_decodeFrame2 {g : Cfg} {c r d0 d1 : Byte} {i : Instr} (h : decodeFrame2 g c r d0 d1 = .ok i) :
    encode g i = .wire .serFrame [c, r, d0, d1] ∧ i.wellFormed g := by
  unfold decodeFrame2 at h
  split at h
  · cases h
  all_goals
    obtain ⟨rfl, hwf⟩ := checked_eq_ok h
    exact ⟨by simp only [encode, serCmd_of_decode ‹decodeSerCmd c = _›], hwf⟩

/-- R137: two bytes are the word they make, high one first. -/
theorem encode_vportWrite_append (g : Cfg) (hi lo : Byte) : encode g (.vportWrite (hi ++ lo)) = .wire .vport16 [hi, lo] := by
  have hhigh : (hi ++ lo : Half).extractLsb' 8 8 = hi := Machine.highByte_cat16 hi lo
  have hlow : (hi ++ lo : Half).extractLsb' 0 8 = lo := Machine.lowByte_cat16 hi lo
  simp only [encode, hhigh, hlow]

/-- A wire word that decodes is the encoding of its instruction, which breaks no limit. -/
theorem encode_of_decodeWire {g : Cfg} {f : Format} {bytes : List Byte} {i : Instr} (h : decodeWire g f bytes = .ok i) :
    encode g i = .wire f bytes ∧ i.wellFormed g := by
  unfold decodeWire at h
  split at h
  · exact encode_of_decodeLcd10 g h
  · exact encode_of_decodeFrame1 h
  · exact encode_of_decodeFrame2 h
  · split at h <;> cases h
    all_goals exact ⟨by simp only [encode, serCmd_of_decode ‹decodeSerCmd _ = _›], rfl⟩
  · exact encode_of_decodeCtl4 h
  · cases h
    exact ⟨rfl, rfl⟩
  · obtain ⟨rfl, hwf⟩ := checked_eq_ok h
    exact ⟨encode_vportWrite_append g .., hwf⟩
  · cases h

/-- Settles O1: format by format, the word reads back; a call is itself. -/
theorem decodeEncode : Obligations.DecodeEncode := by
  unfold Obligations.DecodeEncode
  intro g i hm hi
  cases i with
  | displayOn | displayOff | setStartLine | setColumn | writeData | readStatus => exact decode_lcd10 g ..
  | setPage p => exact (decode_lcd10 g ..).trans (by rw [lcdDecode_setPage]; rfl)
  | frameWrite1 a | frameRead1 a => exact (decode_serFrame1 g a _ ..).trans (checked_of_wellFormed hi)
  | frameWrite2 a | frameRead2 a => exact (decode_serFrame2 g a _ ..).trans (checked_of_wellFormed hi)
  | serCmdWrite a | serCmdRead a => exact decode_serCmd8 g a _
  | ctlChip0Cmd => exact decode_ctlByte hm 0 false
  | ctlChip1Cmd => exact decode_ctlByte hm 1 false
  | ctlChip0Data => exact decode_ctlByte hm 0 true
  | ctlChip1Data => exact decode_ctlByte hm 1 true
  | dataWord b => rfl
  | vportWrite v => exact (decode_vport16 g v).trans (checked_of_wellFormed hi)
  | _ => exact decode_call rfl hi

/-- Settles O2: a wire word by its format; a call is what it was checked as. -/
theorem encodeDecode : Obligations.EncodeDecode := by
  unfold Obligations.EncodeDecode
  intro g it i h
  cases it with
  | wire f bytes => exact encode_of_decodeWire h
  | call j =>
    simp only [decode] at h
    split at h
    · obtain ⟨rfl, hwf⟩ := checked_eq_ok h
      exact ⟨encode_call g ‹_›, hwf⟩
    · cases h

end Sys2Proof
end

section
/-! The invariant: it holds at reset, and every move of every agent keeps it. -/

namespace Sys2Proof.Machine

/-! ## The moves -/

/-- An item that decodes is well formed, so running it keeps the invariant. -/
theorem fetch_inv {it : Item} {s t : State} (h : InvNoErr s) (ht : fetch it s = .next t) : t.Inv := by
  unfold fetch at ht
  split at ht
  · exact exec_inv (encodeDecode _ _ _ ‹_›).2 h ht
  · cases ht

theorem hostMove_inv {s t : State} (h : InvNoErr s) (ht : hostMove s = .next t) : t.Inv := by
  unfold hostMove at ht
  split at ht
  · exact fetch_inv (dropWork_inv h ‹_›) ht
  · rename_i m ms _ hwork
    exact run_inv (fun k hk => h.1.bankWork k (hwork ▸ hk)) (noWork_inv h) ht
  · split at ht
    · cases ht
      exact h.1
    · rename_i it its hprog
      have rest : InvNoErr { s with prog := its } := ⟨h.1.congr h.2 rfl, h.2⟩
      exact fetch_inv rest ht

theorem otherMove_inv {a : OtherAct} {s t : State} (h : InvNoErr s) (ht : otherMove a s = .next t) : t.Inv := by
  unfold otherMove at ht
  split at ht
  · cases a with
    | idle =>
      cases ht
      exact h.1
    | fbWrite off b =>
      cases ht
      exact h.1.congr h.2 rfl
    | driveBus => cases ht
  · cases ht
    exact h.1

theorem liveMove_inv {m : Move} {s t : State} (h : InvNoErr s) (ht : liveMove m s = .next t) : t.Inv := by
  have bounded (q : Option Nat) : InvNoErr { s with slice := q } := ⟨h.1.congr h.2 rfl, h.2⟩
  cases m with
  | host q => exact hostMove_inv (bounded q) ht
  | offCtl =>
    simp only [liveMove] at ht
    split at ht <;> cases ht
    · exact offCtlMove_inv h.1 ‹_›
    · exact h.1
  | offData =>
    simp only [liveMove] at ht
    split at ht
    · exact offDataMove_inv h.1 ‹_› (ofExcept_next ht)
    · cases ht
      exact h.1
  | edge x => exact exec_inv (i := .expEdge x) rfl h ht
  | dispatch x q =>
    simp only [liveMove] at ht
    split at ht
    · exact exec_inv rfl (bounded q) ht
    · cases ht
      exact h.1
  | other a => exact otherMove_inv h ht
  | lcdReset c =>
    cases ht
    exact lcdResetMove_inv h c
  | expReset x => exact expResetMove_inv h (ofExcept_next ht)
  | idleReset addr =>
    cases ht
    exact idleResetMove_inv h.1 addr

theorem agentMove_inv {m : Move} {s t : State} (h : s.Inv) (ht : agentMove m s = .next t) : t.Inv := by
  unfold agentMove at ht
  split at ht
  · exact liveMove_inv ⟨h, ‹_›⟩ ht
  · exact faultedMove_inv h ht

theorem step_inv {s t : State} (h : s.Inv) (ht : step s = .next t) : t.Inv := by
  unfold step stepMove at ht
  split at ht
  · rename_i m ms hsched
    have rest : State.Inv { s with sched := ms } := congr_inv h rfl rfl rfl rfl
    exact agentMove_inv rest ht
  · exact agentMove_inv (s := s.drew) (congr_inv h rfl rfl rfl rfl) ht

/-! ## Reset -/

/-- The parameters at reset are in their ranges, whatever the OPEN ones are (log 7). -/
theorem resetCfg_ok : Config.cfg.ok = true := by
  have hmaps : Config.ctlMap.ok = true ∧ Config.vportMap.ok = true := by decide
  simp [Cfg.ok, Params.ok, ExpParams.ok, Config.cfg, Config.params, Config.expParams, hmaps]

theorem numbered_nil {α : Type} (n : Nat) : numbered ([] : List (Nat × α)) n := ⟨.nil, by simp⟩

theorem reset_exp (x : ExpId) : State.reset.exp x = Expander.reset := by cases x <;> rfl

theorem reset_inv : State.reset.Inv where
  dramWf := Mem.wf_nil
  devWf x := reset_exp x ▸ Mem.wf_nil
  idleWf := ⟨rfl, fun m hm => List.eq_of_mem_replicate hm ▸ Mem.wf_nil⟩
  geometry := rfl
  params := resetCfg_ok
  selected _ hc := nomatch hc
  selectLines := .inl rfl
  lcdChips := rfl
  ctlRoom := Nat.zero_le _
  dataRoom := Nat.zero_le _
  edgeRoom x := reset_exp x ▸ Nat.zero_le _
  ctlNumbered := numbered_nil _
  dataNumbered := numbered_nil _
  bank x := reset_exp x ▸ rfl
  bankWork _ hm := nomatch hm
  coopOnly hs := by rcases hs with hs | hs <;> cases hs
  errorEnds hs := nomatch hs

end Sys2Proof.Machine

namespace Sys2Proof
open Machine

/-- Settles O60: by the agent that moves, and for HOST by what it goes on with or begins. -/
theorem invariantKept : Obligations.InvariantKept := by
  unfold Obligations.InvariantKept
  exact fun s t => step_inv

/-- Settles O59: clause by clause; no OPEN parameter matters to any of them. -/
theorem invariantAtReset : Obligations.InvariantAtReset := by
  unfold Obligations.InvariantAtReset
  exact reset_inv

end Sys2Proof
end

section
/-! Words written out from the spec, and the encodings it reserves (30_encoding.md R133 to R141, 41_lcd_commands.md R188). -/

namespace Sys2Proof

/-! ## LCD and serial command bytes -/

theorem lcdDecode_reserved {d : Byte} (hon : d ≠ 0x3F#8) (hoff : d ≠ 0x3E#8) (hstart : d ≠ 0xC0#8) (hcolumn : d ≠ 0x40#8)
    (hpage : d < 0xB8#8 ∨ 0xBF#8 < d) : lcdDecode false false d = .error .lcdCommand := by
  have hbits : ∀ b : Byte, (b < 0xB8#8 ∨ 0xBF#8 < b) → b.extractLsb' 3 5 ≠ 0b10111#5 := by decide
  simp only [lcdDecode, hon, hoff, hstart, hcolumn, hbits d hpage, if_false]

theorem decodeSerCmd_reserved {c : Byte} (h : c >>> 4 ≠ 0x4#8) : decodeSerCmd c = .error .serCommand := by
  have hbits : ∀ b : Byte, b >>> 4 ≠ 0x4#8 → b.extractLsb' 4 4 ≠ 0b0100#4 := by decide
  exact if_neg (hbits c h)

theorem decodeSerCmd_admitted {c : Byte} (h : c >>> 4 = 0x4#8) :
    decodeSerCmd c = .ok (c.extractLsb' 1 3, c.getLsbD 0) := by
  have hbits : ∀ b : Byte, b >>> 4 = 0x4#8 → b.extractLsb' 4 4 = 0b0100#4 := by decide
  exact if_pos (hbits c h)

/-- The item of a command byte with R131's top bits is that of its address and direction. -/
theorem eq_serCmd {c : Byte} (h : c >>> 4 = 0x4#8) : c = serCmd (c.extractLsb' 1 3) (c.getLsbD 0) :=
  (serCmd_of_decode (decodeSerCmd_admitted h)).symm

/-! ## Register addresses -/

theorem checked_of_illFormed {g : Cfg} {i : Instr} {e : Reject} (h : i.illFormed g = some e) : checked g i = .error e := by
  rw [checked, h]

theorem regIllFormed_unnamed : ∀ r : Byte, r = 0x0B#8 ∨ 0x15#8 < r → regIllFormed r.toNat = some .unnamedRegister := by
  decide

theorem regIllFormed_unused : ∀ r : Byte, 0x0E#8 ≤ r ∧ r ≤ 0x11#8 → regIllFormed r.toNat = some .unusedRegister := by
  decide

/-- Of two registers the first that is unnamed or unused says the name (log 42). -/
theorem pairIllFormed_unnamed : ∀ r : Byte, r = 0x0A#8 ∨ r = 0x0B#8 ∨ 0x15#8 ≤ r →
    (regIllFormed r.toNat).or (regIllFormed (r.toNat + 1)) = some .unnamedRegister := by
  decide

theorem pairIllFormed_unused : ∀ r : Byte, 0x0D#8 ≤ r ∧ r ≤ 0x11#8 →
    (regIllFormed r.toNat).or (regIllFormed (r.toNat + 1)) = some .unusedRegister := by
  decide

section
variable {g : Cfg} {c : Byte} (hc : c >>> 4 = 0x4#8)
include hc

/-- A frame of one byte to a register no frame carries is rejected, a write and a read alike. -/
theorem decode_serFrame1_reserved {r : Byte} {e : Reject} (hr : regIllFormed r.toNat = some e) (d : Byte) :
    decode g (.wire .serFrame [c, r, d]) = .error e := by
  rw [eq_serCmd hc, decode_serFrame1]
  refine checked_of_illFormed ?_
  split
  · exact hr
  · simp only [Instr.illFormed, hr, Option.some_or]

theorem decode_serFrame2_reserved {r : Byte} {e : Reject}
    (hr : (regIllFormed r.toNat).or (regIllFormed (r.toNat + 1)) = some e) (d d' : Byte) :
    decode g (.wire .serFrame [c, r, d, d']) = .error e := by
  rw [eq_serCmd hc, decode_serFrame2]
  refine checked_of_illFormed ?_
  split
  · exact hr
  · simp only [Instr.illFormed, hr, Option.some_or]

/-- R141: a write frame that sets IOCON.BANK, in its one register or in its second. -/
theorem decode_serFrame_bankSet (hw : c.getLsbD 0 = false) {d' : Byte} (hb : d'.getLsbD 7 = true) (d : Byte) :
    decode g (.wire .serFrame [c, 0x0A#8, d']) = .error .bankSet
      ∧ decode g (.wire .serFrame [c, 0x09#8, d, d']) = .error .bankSet := by
  rw [eq_serCmd hc, hw, decode_serFrame1, decode_serFrame2]
  have hnamed : regIllFormed 0x0A = none ∧ regIllFormed 0x09 = none := by decide
  obtain ⟨h0A, h09⟩ := hnamed
  exact ⟨checked_of_illFormed (by simp [Instr.illFormed, h0A, hb]),
    checked_of_illFormed (by simp [Instr.illFormed, h0A, h09, hb])⟩

end

/-! ## Control words -/

/-- A byte that is none of the four control words is rejected. -/
theorem decodeCtl4_reserved {m : CtlMap} {w : Byte} (h : ∀ x ∈ Machine.ctlEmitted m, w ≠ x.setWidth 8) :
    decodeCtl4 m w = .error .ctlWord := by
  simp only [Machine.ctlEmitted, List.forall_mem_cons] at h
  obtain ⟨h0, h1, h2, h3, -⟩ := h
  simp only [decodeCtl4, ctlByte, h0, h1, h2, h3, if_false]

/-- R140 (c): a word with none or both of the CS bits, or with RW, is not emitted. -/
theorem not_mem_ctlEmitted {m : CtlMap} (hm : m.ok = true) {w : Nibble}
    (h : w.getLsbD m.cs0 = w.getLsbD m.cs1 ∨ w.getLsbD m.rw = true) : w ∉ Machine.ctlEmitted m := fun hw => by
  obtain ⟨hcs, hrw⟩ := bits_of_ctlEmitted hm hw
  rcases h with h | h
  · exact hcs h
  · rw [hrw] at h
    cases h

theorem setWidth_nibble_injective {w x : Nibble} (h : w.setWidth 8 = x.setWidth 8) : w = x := by
  revert w x
  decide

theorem setWidth_nibble_le (x : Nibble) : ¬ 0x0F#8 < x.setWidth 8 := by
  revert x
  decide

/-! ## Virtual-port words -/

/-- Two places of a list that satisfy `p` make two of what `p` keeps. -/
theorem one_lt_length_filter {α : Type} {p : α → Bool} {l : List α} {i j : Nat} (hij : i < j) (hj : j < l.length)
    (hi' : p (l[i]'(hij.trans hj)) = true) (hj' : p l[j] = true) : 1 < (l.filter p).length := by
  have hfirst : l[i]'(hij.trans hj) ∈ (l.take j).filter p :=
    List.mem_filter.2 ⟨List.mem_take_iff_getElem.2 ⟨i, by omega, rfl⟩, hi'⟩
  have hsecond : l[j] ∈ (l.drop j).filter p :=
    List.mem_filter.2 ⟨List.mem_drop_iff_getElem.2 ⟨0, by omega, by simp⟩, hj'⟩
  have hsplit : (l.filter p).length = ((l.take j).filter p).length + ((l.drop j).filter p).length := by
    rw [← List.length_append, ← List.filter_append, List.take_append_drop]
  have := List.length_pos_of_mem hfirst
  have := List.length_pos_of_mem hsecond
  omega

section
variable {g : Cfg} {w : Half}

/-- A word has a bit the panel does not use, bit by bit (R137). -/
theorem vport_unused_iff : w &&& ~~~(Machine.vpUsed g.params.vportMap g.chips) ≠ 0#16 ↔
    ∃ i, i < 16 ∧ i ∉ g.params.vportMap.d ++ [g.params.vportMap.e, g.params.vportMap.rw, g.params.vportMap.rs]
      ++ g.params.vportMap.cs.take g.chips ∧ w.getLsbD i = true := by
  rw [outside_ne_zero_iff]
  refine exists_congr fun i => and_congr_right fun hi => ?_
  rw [Machine.vpUsed, vbits_getLsbD _ hi, decide_eq_false_iff_not, Machine.vpCs]

theorem vportIllFormed_rw (h : w.getLsbD g.params.vportMap.rw = true) :
    vportIllFormed g.params.vportMap g.chips w = some .vportRw := by
  rw [vportIllFormed, if_pos h]

theorem vportIllFormed_unused (h : w.getLsbD g.params.vportMap.rw = false)
    (hu : w &&& ~~~(Machine.vpUsed g.params.vportMap g.chips) ≠ 0#16) :
    vportIllFormed g.params.vportMap g.chips w = some .vportUnused := by
  rw [vportIllFormed, if_neg (by simp [h]), if_pos hu]

theorem vportIllFormed_selects (h : w.getLsbD g.params.vportMap.rw = false)
    (hu : ¬ w &&& ~~~(Machine.vpUsed g.params.vportMap g.chips) ≠ 0#16)
    (hs : 1 < (g.params.vportMap.cs.filter (w.getLsbD ·)).length) :
    vportIllFormed g.params.vportMap g.chips w = some .vportSelects := by
  rw [vportIllFormed, if_neg (by simp [h]), if_neg hu, if_pos hs]

end

/-- Settles O3: each word is read by its format. -/
theorem specWordsDecode : Obligations.SpecWordsDecode := by
  unfold Obligations.SpecWordsDecode
  exact ⟨rfl, rfl, rfl, rfl, rfl, rfl, rfl, rfl, rfl⟩

/-- Settles O4: format by format, the first limit the word breaks names it. -/
theorem reservedEncodingsRejected : Obligations.ReservedEncodingsRejected := by
  unfold Obligations.ReservedEncodingsRejected
  intro g hp
  have hm : g.params.ctlMap.ok = true := by
    simp only [Params.ok, Bool.and_eq_true] at hp
    exact hp.1.2
  refine ⟨fun d hon hoff hstart hcolumn hpage => ?lcdCommand, fun d => ?dataRead, fun c r d hc => ?frame, fun c hc => ?command,
    fun c r d d' hc => ⟨fun hr => ?unnamed1, fun hr => ?unused1, fun hr => ?unnamed2, fun hr => ?unused2, fun hw hb => ?bank⟩,
    fun w hw => ?ctl, fun w hw => ?ctlTop, fun w => ?vport⟩
  case lcdCommand =>
    exact (decode_lcd10 g false false d).trans (by rw [lcdDecode_reserved hon hoff hstart hcolumn hpage]; rfl)
  case dataRead => exact decode_lcd10 g true true d
  case frame => simp only [decode, decodeWire, decodeFrame1, decodeSerCmd_reserved hc]
  case command => simp only [decode, decodeWire, decodeSerCmd_reserved hc]
  case unnamed1 => exact decode_serFrame1_reserved hc (regIllFormed_unnamed r hr) d
  case unused1 => exact decode_serFrame1_reserved hc (regIllFormed_unused r hr) d
  case unnamed2 => exact decode_serFrame2_reserved hc (pairIllFormed_unnamed r hr) d d'
  case unused2 => exact decode_serFrame2_reserved hc (pairIllFormed_unused r hr) d d'
  case bank => exact decode_serFrame_bankSet hc hw hb d
  case ctl =>
    have hnot := not_mem_ctlEmitted hm hw
    exact ⟨decodeCtl4_reserved fun x hx e => hnot (setWidth_nibble_injective e ▸ hx),
      checked_of_illFormed (if_neg hnot)⟩
  case ctlTop => exact decodeCtl4_reserved fun x _ e => setWidth_nibble_le x (e ▸ hw)
  case vport =>
    simp only [decode_vport16]
    refine ⟨fun h => checked_of_illFormed (vportIllFormed_rw h),
      fun h hu => checked_of_illFormed (vportIllFormed_unused h (vport_unused_iff.2 hu)), fun h hu hs => ?_⟩
    obtain ⟨k, l, hkl, -, hl, hk', hl'⟩ := hs
    have hused : ¬ w &&& ~~~(Machine.vpUsed g.params.vportMap g.chips) ≠ 0#16 := fun hne => by
      obtain ⟨i, hi, hmem, hbit⟩ := vport_unused_iff.1 hne
      rw [hu i hi hmem] at hbit
      cases hbit
    rw [Machine.getD_of_lt (hkl.trans hl)] at hk'
    rw [Machine.getD_of_lt hl] at hl'
    exact checked_of_illFormed (vportIllFormed_selects h hused (one_lt_length_filter hkl hl hk' hl'))

end Sys2Proof
end

section
/-! The geometry (40_addressing.md R161 to R167), and what building the block leaves (70_reset_and_hazards.md R390 to R393). -/

namespace Sys2Proof

/-! ## Lengths and offsets -/

section
variable {c : Cfg}

theorem Cfg.width_eq_chips (hw : c.width % 64 = 0) : c.width = 64 * c.chips := by
  simp only [Cfg.chips]
  omega

/-- R160: the framebuffer holds a row of WIDTH bytes for each page. -/
theorem Cfg.buflen_eq (hh : c.height % 8 = 0) : c.buflen = c.pages * c.width := by
  have hpages : c.height = 8 * c.pages := by
    simp only [Cfg.pages]
    omega
  calc c.buflen = c.width * (8 * c.pages) / 8 := by rw [Cfg.buflen, hpages]
    _ = 8 * (c.pages * c.width) / 8 := by ring_nf
    _ = c.pages * c.width := Nat.mul_div_cancel_left _ (by decide)

variable (hw : c.width % 64 = 0)
include hw

theorem Cfg.offset_inRow {chip column : Nat} (hchip : chip < c.chips) (hcol : column < 64) : column + 64 * chip < c.width := by
  rw [Cfg.width_eq_chips hw]
  omega

/-- R163: the page, chip and column formulas read the three back from an offset. -/
theorem Cfg.offset_inverse {page chip column : Nat} (hchip : chip < c.chips) (hcol : column < 64) :
    let o := c.offset page chip column
    o / c.width = page ∧ o % c.width / 64 = chip ∧ o % 64 = column := by
  have hrow : column + 64 * chip < c.width := c.offset_inRow hw hchip hcol
  have hpos : 0 < c.width := by omega
  refine ⟨?_, ?_, ?_⟩
  · rw [Cfg.offset, Nat.add_mul_div_right _ _ hpos, Nat.div_eq_of_lt hrow, Nat.zero_add]
  · rw [Cfg.offset, Nat.add_mul_mod_self_right, Nat.mod_eq_of_lt hrow]
    omega
  · rw [Cfg.offset, Nat.add_mod, Nat.mul_mod, hw]
    omega

/-- R163: an offset is that of the page, chip and column read from it. -/
theorem Cfg.offset_of_inverse (o : Nat) : c.offset (o / c.width) (o % c.width / 64) (o % 64) = o := by
  have hcol : o % 64 = o % c.width % 64 := (Nat.mod_mod_of_dvd o (Nat.dvd_of_mod_eq_zero hw)).symm
  calc c.offset (o / c.width) (o % c.width / 64) (o % 64)
      = o % c.width % 64 + 64 * (o % c.width / 64) + o / c.width * c.width := by rw [Cfg.offset, hcol]
    _ = o % c.width + o / c.width * c.width := by rw [Nat.mod_add_div]
    _ = o := Nat.mod_add_div' o c.width

end

/-- What an admitted geometry says of its sizes (R160). -/
theorem geometryOk_sizes {w h : Nat} {t : Transport} {p : Params} (hg : Machine.geometryOk w h t p = true) :
    0 < w ∧ 0 < h ∧ w % 64 = 0 ∧ h % 8 = 0 := by
  simp only [Machine.geometryOk, Bool.and_eq_true, decide_eq_true_eq, beq_iff_eq] at hg
  obtain ⟨⟨⟨⟨hw, hh⟩, hw64⟩, hh8⟩, -⟩ := hg
  exact ⟨hw, hh, hw64, hh8⟩

/-- Settles O5: the row of an offset is its page, and within the row chip and column are read off. -/
theorem offsetBijection : Obligations.OffsetBijection := by
  unfold Obligations.OffsetBijection
  intro c hpos hw hh
  rw [Cfg.buflen_eq hh]
  refine ⟨fun page chip column hpage hchip hcol => ⟨?_, Cfg.offset_inverse hw hchip hcol⟩, fun o ho => ⟨?_, ?_, ?_, ?_⟩⟩
  · have hrow : column + 64 * chip < c.width := Cfg.offset_inRow hw hchip hcol
    calc column + 64 * chip + page * c.width < c.width + page * c.width := Nat.add_lt_add_right hrow _
      _ = (page + 1) * c.width := by ring
      _ ≤ c.pages * c.width := Nat.mul_le_mul_right _ hpage
  · exact (Nat.div_lt_iff_lt_mul hpos).2 ho
  · exact Nat.div_lt_div_of_lt_of_dvd (Nat.dvd_of_mod_eq_zero hw) (Nat.mod_lt _ hpos)
  · exact Nat.mod_lt _ (by decide)
  · exact Cfg.offset_of_inverse hw o

/-- Settles O6: the sizes of an admitted geometry are exact, and a pixel's byte is in the row of its page. -/
theorem geometryLaws : Obligations.GeometryLaws := by
  unfold Obligations.GeometryLaws
  intro c hg
  obtain ⟨-, -, hw, hh⟩ := geometryOk_sizes hg
  refine ⟨rfl, rfl, rfl, ?_, fun x y hx hy => ⟨?_, ?_, ?_⟩⟩
  · rw [Cfg.buflen_eq hh, Cfg.width_eq_chips hw]
    ring
  · simp only [Cfg.pages]
    omega
  · simp only [Cfg.chips]
    omega
  · rw [Cfg.offset, Nat.mod_add_div, Nat.add_comm]

end Sys2Proof
end

section
/-! What `construct` builds, and what it checks first (70_reset_and_hazards.md R390 to R393). -/

namespace Sys2Proof.Machine

/-! ## An expander instance just built -/

theorem reset_constructed : Expander.reset.constructed where
  dir p := by cases p <;> rfl
  shadows k p hk := by
    cases k with
    | dir => exact absurd rfl hk
    | iocon => rfl
    | ipol | gpinten | defval | intcon | gppu | olat => cases p <;> rfl
  snap := rfl
  subs := rfl
  pending := rfl

/-- R393: no register of the chip of a new instance has been written. -/
theorem reset_chipAtPowerOn : Expander.reset.chipAtPowerOn := fun a ha => by
  simp only [Expander.devRead, Expander.reset, Mem.read_nil, devDefault, ha, if_true]
  split <;> rfl

theorem builtInstance_exp_same (x : ExpId) (p : ExpParams) (s : State) : (builtInstance x p s).exp x = Expander.reset := by
  cases x <;> rfl

theorem builtInstance_exp_other {x y : ExpId} (p : ExpParams) (s : State) (h : y ≠ x) :
    (builtInstance x p s).exp y = s.exp y := by
  cases x <;> cases y
  case gpio.gpio | relay.relay => exact absurd rfl h
  case gpio.relay | relay.gpio => rfl

/-! ## The facade just built -/

/-- Select lines that are all deasserted are at the level that is not CS_ACTIVE (R166). -/
theorem csLevel_of_deasserted {s : State} {n : Nat} (h : s.cs = List.replicate n false) (k : Nat) :
    s.csLevel k = !s.cfg.params.csActive := by
  have hclear : s.cs.getD k false = false := by
    rw [h, List.getD_eq_getElem?_getD, List.getElem?_replicate]
    split <;> rfl
  simp only [State.csLevel, hclear, Bool.false_eq_true, if_false]

theorem initial_facadeConstructed (c : Cfg) : (State.initial c).facadeConstructed c where
  geometry := ⟨rfl, rfl, rfl⟩
  params := rfl
  op := rfl
  st := rfl
  selChip := rfl
  inited := rfl
  busDir := rfl
  ddir := rfl
  lines := ⟨rfl, rfl, rfl, rfl⟩
  cs k _ := csLevel_of_deasserted (s := State.initial c) rfl k
  queues := ⟨rfl, rfl⟩
  strobe := rfl
  vport := rfl
  inTxn := rfl

/-- R55: the values do not depend on the parameters of the relay's instance. -/
theorem builtFacade_facadeConstructed (c : Cfg) (r : ExpParams) (s : State) :
    (builtFacade c s).facadeConstructed { c with relay := r } :=
  { initial_facadeConstructed c with }

/-- An LCD chip the panel had keeps its registers (log 9). -/
theorem builtFacade_chip {c : Cfg} {s : State} {k : Nat} (hk : k < c.chips) (hl : k < s.lcd.length) :
    (builtFacade c s).chip k = s.chip k := by
  simp only [State.chip, builtFacade, List.getD_eq_getElem?_getD, List.getElem?_map, List.getElem?_range hk,
    List.getElem?_eq_getElem hl, Option.map_some, Option.getD_some]

/-! ## The checks -/

theorem geometryOk_eq_false {w h : Nat} {t : Transport} {p : Params}
    (hbad : w = 0 ∨ h = 0 ∨ w % 64 ≠ 0 ∨ h % 8 ≠ 0 ∨ (t = .offload ∧ 2 < w / 64)
      ∨ (t = .spiRelay ∧ p.vportMap.cs.length < w / 64)) : geometryOk w h t p = false := by
  rw [← Bool.not_eq_true]
  intro hg
  obtain ⟨hw, hh, hw64, hh8⟩ := geometryOk_sizes hg
  rcases hbad with hb | hb | hb | hb | ⟨rfl, hb⟩ | ⟨rfl, hb⟩
  · omega
  · omega
  · exact hb hw64
  · exact hb hh8
  all_goals
    simp only [geometryOk, Bool.and_eq_true, decide_eq_true_eq] at hg
    omega

theorem buildInstance_badAddress {p : ExpParams} (h : p.addr < 0 ∨ 8 ≤ p.addr) (s : State) (k : Out) :
    buildInstance p s k = .next (raise (.badArgument (.address p.addr)) s) :=
  if_pos h

theorem buildInstance_notFresh {p : ExpParams} {s : State} (h0 : 0 ≤ p.addr) (h8 : p.addr < 8)
    (hf : ¬ s.chipFresh p.addr.toNat) (k : Out) : buildInstance p s k = .refused .chipNotAtPowerOn := by
  rw [buildInstance, if_neg (by omega), if_neg (by rwa [powerOnAt_iff])]

section
variable {s : State} (hop : s.op = none) (hwork : s.work = [])
include hop hwork

/-- Between operations an expander instance is built alone (R300). -/
theorem exec_construct_expander (w h : Nat) (t : Transport) (x : ExpId) (p : ExpParams) :
    exec (.construct w h t (.expander x p)) s = buildInstance p s (.next (builtInstance x p s)) := by
  simp only [exec, execConstruct, hop, hwork, Option.isSome_none, List.isEmpty_nil, Bool.not_true, Bool.or_self,
    Bool.false_eq_true, if_false]

theorem exec_construct_badGeometry {w h : Nat} {t : Transport} {p : Params} (hg : geometryOk w h t p = false) (r : ExpParams) :
    exec (.construct w h t (.facade p r)) s = .next (raise (.badGeometry w h) s) := by
  simp only [exec, execConstruct, hop, hwork, hg, Option.isSome_none, List.isEmpty_nil, Bool.not_true, Bool.or_self,
    Bool.false_eq_true, Bool.not_false, if_false, if_true]

/-- On SPI_RELAY the facade is built with the instance the relay owns (R280). -/
theorem exec_construct_relay {w h : Nat} {p : Params} (hg : geometryOk w h .spiRelay p = true) (r : ExpParams) :
    exec (.construct w h .spiRelay (.facade p r)) s = buildInstance r s (.next (builtFacade
      { width := w, height := h, transport := .spiRelay, params := p, gpio := s.cfg.gpio, relay := r } s)) := by
  simp only [exec, execConstruct, hop, hwork, hg, Option.isSome_none, List.isEmpty_nil, Bool.not_true, Bool.or_self,
    Bool.false_eq_true, if_false]

theorem exec_construct_plain {w h : Nat} {t : Transport} {p : Params} (hg : geometryOk w h t p = true) (ht : t ≠ .spiRelay)
    (r : ExpParams) :
    exec (.construct w h t (.facade p r)) s = .next (builtFacade
      { width := w, height := h, transport := t, params := p, gpio := s.cfg.gpio, relay := s.cfg.relay } s) := by
  simp only [exec, execConstruct, hop, hwork, hg, Option.isSome_none, List.isEmpty_nil, Bool.not_true, Bool.or_self,
    Bool.false_eq_true, if_false]
  cases t with
  | spiRelay => exact absurd rfl ht
  | direct | coop | offload => rfl

end

end Sys2Proof.Machine

namespace Sys2Proof
open Machine

/-- Settles O8: the facade on SPI_RELAY and on the other transports, and an expander instance alone, each read off the state it
builds. -/
theorem constructResult : Obligations.ConstructResult := by
  unfold Obligations.ConstructResult
  intro s hop hwork
  refine ⟨fun w h t p r hg hr => ?facade, fun w h t x p h0 h8 hf => ?expander⟩
  case facade =>
    by_cases ht : t = .spiRelay
    · subst ht
      obtain ⟨h0, h8, hf⟩ := hr rfl
      refine ⟨_, (exec_construct_relay hop hwork hg r).trans (buildInstance_of h0 h8 hf _),
        builtFacade_facadeConstructed _ r s, rfl, rfl, fun _ => ?_, fun hne => absurd rfl hne, rfl, rfl,
        fun c hc hl => builtFacade_chip hc hl, rfl, rfl, rfl, rfl, rfl⟩
      exact ⟨reset_constructed, reset_chipAtPowerOn, rfl, leaveChip_leaves rfl⟩
    · refine ⟨_, exec_construct_plain hop hwork hg ht r, builtFacade_facadeConstructed _ r s, rfl, rfl,
        fun h => absurd h ht, fun _ => ⟨if_neg ht, rfl, if_neg ht⟩, rfl, rfl, fun c hc hl => builtFacade_chip hc hl, rfl, rfl,
        rfl, rfl, rfl⟩
  case expander =>
    refine ⟨_, (exec_construct_expander hop hwork w h t x p).trans (buildInstance_of h0 h8 hf _), ?_⟩
    rw [builtInstance_exp_same]
    refine ⟨reset_constructed, reset_chipAtPowerOn, rfl, rfl, fun y hy => builtInstance_exp_other p s hy, ?_⟩
    cases x with
    | gpio | relay =>
      exact ⟨rfl, rfl, ⟨rfl, rfl, rfl, rfl, rfl⟩, ⟨rfl, rfl, rfl, rfl, rfl, rfl, rfl⟩, ⟨rfl, rfl, rfl⟩,
        ⟨rfl, rfl, rfl, rfl, rfl, rfl, rfl⟩, ⟨rfl, rfl⟩, ⟨rfl, rfl, rfl⟩, rfl, rfl, rfl, rfl, leaveChip_leaves rfl⟩

/-- Settles O9: the geometry is checked first, then on SPI_RELAY, and for an instance alone, the address and then the chip. -/
theorem constructErrors : Obligations.ConstructErrors := by
  unfold Obligations.ConstructErrors
  intro s hop hwork
  refine ⟨fun w h t p r => ⟨fun hbad => ?_, fun hg ha => ?_, fun hg h0 h8 hf => ?_⟩,
    fun w h t x p => ⟨fun ha => ?_, fun h0 h8 hf => ?_⟩⟩
  · exact exec_construct_badGeometry hop hwork (geometryOk_eq_false hbad) r
  · exact (exec_construct_relay hop hwork hg r).trans (buildInstance_badAddress ha s _)
  · exact (exec_construct_relay hop hwork hg r).trans (buildInstance_notFresh h0 h8 hf _)
  · exact (exec_construct_expander hop hwork w h t x p).trans (buildInstance_badAddress ha s _)
  · exact (exec_construct_expander hop hwork w h t x p).trans (buildInstance_notFresh h0 h8 hf _)

/-- Settles O10: the reset state is the block just built. -/
theorem resetState : Obligations.ResetState := by
  unfold Obligations.ResetState
  exact ⟨initial_facadeConstructed Config.cfg, reset_constructed, reset_constructed, reset_chipAtPowerOn, reset_chipAtPowerOn⟩

end Sys2Proof
end

section
/-! The LCD words (41_lcd_commands.md R181 to R188): what each does to the chip selected, when one stops, and what it leaves. -/

namespace Sys2Proof.Machine

/-! ## One write word -/

/-- An LCD word is a status cycle or a write cycle of a word the target knows, of data only for WRITE_DATA. -/
theorem exec_lcdWord {i : Instr} (hi : i.isLcdWord = true) :
    (∃ v, i = .readStatus v) ∨ ∃ rs b cmd, lcdDecode rs false b = .ok cmd ∧ (∀ b', cmd = .data b' → i = .writeData b')
      ∧ (∀ v, i ≠ .readStatus v) ∧ ∀ s, exec i s = ownBus s (writeCycle rs b s) := by
  cases i with
  | displayOn => exact .inr ⟨false, 0x3F#8, .on, rfl, nofun, nofun, fun _ => rfl⟩
  | displayOff => exact .inr ⟨false, 0x3E#8, .off, rfl, nofun, nofun, fun _ => rfl⟩
  | setStartLine => exact .inr ⟨false, 0xC0#8, .startLine, rfl, nofun, nofun, fun _ => rfl⟩
  | setPage p => exact .inr ⟨false, _, .page p, lcdDecode_setPage p, nofun, nofun, fun _ => rfl⟩
  | setColumn => exact .inr ⟨false, 0x40#8, .column, rfl, nofun, nofun, fun _ => rfl⟩
  | writeData b => exact .inr ⟨true, b, .data b, rfl, fun _ h => by cases h; rfl, nofun, fun _ => rfl⟩
  | readStatus v => exact .inl ⟨v, rfl⟩
  | _ => cases hi

theorem chip_congr {s t : State} (h : t.lcd = s.lcd) (c : Nat) : t.chip c = s.chip c := by
  simp only [State.chip, h]

theorem lcdRespond_chip_other (c : Nat) (cmd : LcdCmd) (s : State) {j : Nat} (hj : j ≠ c) :
    (lcdRespond c cmd s).chip j = s.chip j := by
  obtain ⟨k, m, e, -⟩ := lcdRespond_cases c cmd s
  rw [e]
  exact setChip_chip_other s k hj

/-- A command word whose chip's response is one register written. -/
theorem writeCycle_command {s : State} {c : Nat} {b : Byte} {cmd : LcdCmd} {k : LcdChip} (hsel : (selectedChips s).1 = [c])
    (hl : s.lcd.length = s.cfg.chips) (hr : s.wordReady) (hd : lcdDecode false false b = .ok cmd)
    (hk : lcdRespond c cmd s = s.setChip c k) :
    ∃ t, writeCycle false b s = .next t ∧ t.chip c = k ∧ (∀ j, j ≠ c → t.chip j = s.chip j) ∧ t.dram = s.dram
      ∧ t.trace = s.trace ++ s.lcdWordEvents c false b ∧ t.carries c false b := by
  obtain ⟨t, ht, hlcd, hdram, htrace, hcarries⟩ := writeCycle_next hr hsel hd
  have hc : c < s.lcd.length := hl ▸ selectedChips_lt hsel
  rw [hk] at hlcd hdram
  exact ⟨t, ht, (chip_congr hlcd c).trans (setChip_chip_same s k hc),
    fun j hj => (chip_congr hlcd j).trans (setChip_chip_other s k hj), hdram, htrace, hcarries⟩

/-! ## What a word leaves -/

/-- A write cycle that ends well, on a relay that is undisturbed if it carries it, is one of one chip, which acts; the rest of HOST's
state stays. -/
theorem writeCycle_acted {rs : Bool} {b : Byte} {cmd : LcdCmd} {s t : State} (hr : s.wordReady)
    (hd : lcdDecode rs false b = .ok cmd) (h : writeCycle rs b s = .next t) :
    ∃ c, (selectedChips s).1 = [c] ∧ t.lcd = (lcdRespond c cmd s).lcd ∧ t.dram = (lcdRespond c cmd s).dram
      ∧ t.carries c rs b ∧ t.kept = s.kept := by
  by_cases hsel : ∃ c, (selectedChips s).1 = [c]
  · obtain ⟨c, hsel⟩ := hsel
    obtain ⟨t', ht', hlcd, hdram, -, hcarries⟩ := writeCycle_next hr hsel hd
    obtain rfl : t' = t := Host.Outcome.next.inj (ht'.symm.trans h)
    refine ⟨c, hsel, hlcd, hdram, hcarries, ?_⟩
    by_cases ht : s.cfg.transport = .spiRelay
    · obtain ⟨u, hu, hrel⟩ := relayWord_run (.of_word ht hr) hsel hd
      have hword : writeCycle rs b s = relayWord rs b s := by simp only [writeCycle, ht]
      obtain rfl : u = t' := Host.Outcome.next.inj (hu.symm.trans (hword.symm.trans h))
      exact hrel.kept
    · rw [writeCycle_one ht hsel hd] at h
      obtain ⟨env, n, hdraw⟩ := selectedChips_drawn s
      rw [← Host.Outcome.next.inj h, offloadCarried, hdraw]
      split
      · rw [lcdRespond_eq]
        rfl
      · rw [lcdRespond_eq]
        rfl
  · rw [writeCycle_not rs b (by simpa using hsel)] at h
    cases h

/-- What an LCD word leaves that the relay does not carry. -/
def WordFrame (s t : State) : Prop :=
  t.cfg = s.cfg ∧ t.gpio = s.gpio ∧ t.relay = s.relay ∧ SameSequencer s t ∧ SameSession s t ∧ SameBus s t
    ∧ SameFramebuffer s t ∧ SameCaller s t ∧ t.suspended = s.suspended ∧ t.cs = s.cs
    ∧ (s.cfg.transport.bitBang = true → SameOffload s t) ∧ (s.cfg.transport = .offload → SameLines s t)
    ∧ t.ctlQ = s.ctlQ ∧ t.dataQ = s.dataQ ∧ t.enqCount = s.enqCount

/-- A change of the lines of DIRECT and COOP, of the target and of the value returned. -/
theorem wordFrame_bang {s t : State} (hb : s.cfg.transport.bitBang = true)
    (ht : t = { s with
      e := t.e, rw := t.rw, rs := t.rs, d := t.d, ddir := t.ddir, busDir := t.busDir, lcd := t.lcd, dram := t.dram,
      ret := t.ret, trace := t.trace }) : WordFrame s t := by
  have hno : s.cfg.transport ≠ .offload := fun e => by simp [e, Transport.bitBang] at hb
  rw [ht]
  exact ⟨rfl, rfl, rfl, ⟨rfl, rfl, rfl, rfl, rfl⟩, ⟨rfl, rfl, rfl⟩, ⟨rfl, rfl⟩, ⟨rfl, rfl, rfl⟩, ⟨rfl, rfl, rfl, rfl⟩, rfl, rfl,
    fun _ => ⟨rfl, rfl, rfl, rfl, rfl, rfl, rfl⟩, fun e => absurd e hno, rfl, rfl, rfl⟩

/-- A change of the offload lines, of the target and of the draws. -/
theorem wordFrame_offload {s t : State} (hb : s.cfg.transport.bitBang = false)
    (ht : t = { s with
      ctlLines := t.ctlLines, ctlDriven := t.ctlDriven, dataLines := t.dataLines, strobe := t.strobe, lcd := t.lcd,
      dram := t.dram, trace := t.trace, env := t.env, draws := t.draws }) : WordFrame s t := by
  rw [ht]
  exact ⟨rfl, rfl, rfl, ⟨rfl, rfl, rfl, rfl, rfl⟩, ⟨rfl, rfl, rfl⟩, ⟨rfl, rfl⟩, ⟨rfl, rfl, rfl⟩, ⟨rfl, rfl, rfl, rfl⟩, rfl, rfl,
    fun e => absurd (e.symm.trans hb) (by decide), fun _ => ⟨rfl, rfl, rfl, rfl, rfl, rfl, rfl⟩, rfl, rfl, rfl⟩

theorem writeCycle_frame {rs : Bool} {b : Byte} {s t : State} (ht : s.cfg.transport ≠ .spiRelay)
    (h : writeCycle rs b s = .next t) : WordFrame s t := by
  obtain ⟨c, cmd, -, -, rfl⟩ := writeCycle_cases ht h
  cases hb : s.cfg.transport.bitBang with
  | true =>
    refine wordFrame_bang hb ?_
    rw [if_pos rfl, lcdRespond_eq]
    rfl
  | false =>
    obtain ⟨env, n, hdraw⟩ := selectedChips_drawn s
    refine wordFrame_offload hb ?_
    rw [if_neg (by decide), lcdRespond_eq, offloadCarried, hdraw]
    rfl

/-- The status word ends well on DIRECT and COOP alone, with one chip selected. -/
theorem statusCycle_next {v : Byte} {s t : State} (h : statusCycle v s = .next t) :
    s.cfg.transport.bitBang = true ∧ ∃ c, t = { setReadDir s with ret := .byte v }.event (.status c v) := by
  cases hb : s.cfg.transport.bitBang with
  | false =>
    rw [statusCycle_refused v hb] at h
    cases h
  | true =>
    by_cases hsel : ∃ c, (selectedChips s).1 = [c]
    · obtain ⟨c, hsel⟩ := hsel
      rw [statusCycle_one v hb hsel] at h
      exact ⟨rfl, c, (Host.Outcome.next.inj h).symm⟩
    · rw [statusCycle_not v hb (by simpa using hsel)] at h
      cases h

/-- A byte a response does not store to reads as before; a command stores none. -/
theorem lcdRespond_read_other {c a : Nat} {cmd : LcdCmd} {s : State} (hw : Mem.wf dramDefault s.dram)
    (ha : a ≠ dramAddr c (s.chip c).x (s.chip c).y) :
    Mem.read dramDefault (lcdRespond c cmd s).dram a = Mem.read dramDefault s.dram a := by
  rcases lcdRespond_dram_cases c cmd s with e | ⟨b, -, e⟩ <;> rw [e]
  exact Mem.read_write_other hw b ha

end Sys2Proof.Machine

namespace Sys2Proof
open Machine

/-- Settles O11: each command word is one write cycle, whose response is one register of the chip written. -/
theorem lcdCommandWordsAct : Obligations.LcdCommandWordsAct := by
  unfold Obligations.LcdCommandWordsAct
  intro s c hown hsel hl hr
  have acts {b : Byte} {cmd : LcdCmd} {k : LcdChip} (hd : lcdDecode false false b = .ok cmd)
      (hk : lcdRespond c cmd s = s.setChip c k) :=
    (ownBus_of hown (writeCycle false b s)).symm ▸ writeCycle_command hsel hl hr hd hk
  exact ⟨⟨rfl, acts rfl rfl⟩, ⟨rfl, acts rfl rfl⟩, ⟨rfl, acts rfl rfl⟩, fun page => ⟨rfl, acts (lcdDecode_setPage page) rfl⟩,
    rfl, acts rfl rfl⟩

/-- Settles O12: the data word is one write cycle, whose response stores the byte and advances the column. -/
theorem writeDataWordActs : Obligations.WriteDataWordActs := by
  unfold Obligations.WriteDataWordActs
  intro s c b hown hsel hl hr hw
  obtain ⟨t, ht, hlcd, hdram, htrace, hcarries⟩ := writeCycle_next (b := b) (rs := true) hr hsel rfl
  have hexec : exec (.writeData b) s = .next t := (ownBus_of hown _).trans ht
  have hdraws : t.ramDraws = s.ramDraws := exec_ramDraws (by nofun) hexec
  have hstored : Mem.read dramDefault t.dram (dramAddr c (s.chip c).x (s.chip c).y) = some b :=
    hdram ▸ Mem.read_write_same hw _ b
  refine ⟨rfl, t, hexec, dramRead_of_listed hstored, fun a ha => dramAt_congr hdraws ?_, ?_, fun j hj => ?_, htrace, hcarries⟩
  · rw [hdram, lcdRespond_read_other hw ha]
  · exact (chip_congr hlcd c).trans (setChip_chip_same s _ (hl ▸ selectedChips_lt hsel))
  · exact (chip_congr hlcd j).trans (lcdRespond_chip_other c _ s hj)

/-- Settles O13: with one chip selected the status cycle is made, and changes no target. -/
theorem readStatusWordReturns : Obligations.ReadStatusWordReturns := by
  unfold Obligations.ReadStatusWordReturns
  intro s c v hb hown hsel
  exact ⟨_, (ownBus_of hown _).trans (statusCycle_one v hb hsel), rfl, rfl, rfl, rfl, rfl, rfl, rfl, rfl, rfl⟩

/-- Settles O14: the bus is looked at first, then whether there is a status read, then whether one chip is selected. -/
theorem lcdWordStops : Obligations.LcdWordStops := by
  unfold Obligations.LcdWordStops
  intro s i hi
  rcases exec_lcdWord hi with ⟨v, rfl⟩ | ⟨rs, b, cmd, -, -, hno, hexec⟩
  · refine ⟨fun h => if_pos h, fun hown hb _ _ => (ownBus_of hown _).trans (statusCycle_refused v hb), fun hown hb hsel => ?_⟩
    exact (ownBus_of hown _).trans (statusCycle_not v (hb.resolve_right fun h => h v rfl) hsel)
  · rw [hexec]
    exact ⟨fun h => if_pos h, fun _ _ v e => absurd e (hno v), fun hown _ hsel =>
      (ownBus_of hown _).trans (writeCycle_not rs b hsel)⟩

/-- Settles O15: a write word by its cycle, on each carrier; a status word, which DIRECT and COOP alone have, by its one. -/
theorem lcdWordFrame : Obligations.LcdWordFrame := by
  unfold Obligations.LcdWordFrame
  intro s t i hi ht
  have hdraws : t.ramDraws = s.ramDraws := exec_ramDraws (fun _ _ _ _ e => by rw [e] at hi; cases hi) ht
  rcases exec_lcdWord hi with ⟨v, rfl⟩ | ⟨rs, b, cmd, hd, hdata, hno, hexec⟩
  · obtain ⟨hb, c, rfl⟩ := statusCycle_next (ownBus_next ht)
    exact ⟨fun _ => wordFrame_bang hb rfl, fun _ => ⟨rfl, rfl, rfl, rfl, fun h => absurd rfl (h v), fun _ _ => rfl,
      fun _ => sameDisplayRam_of hdraws rfl, fun _ _ _ => dramAt_congr hdraws rfl⟩⟩
  · have hcycle : writeCycle rs b s = .next t := ownBus_next ((hexec s).symm.trans ht)
    refine ⟨fun htr => writeCycle_frame htr hcycle, fun hr => ?_⟩
    obtain ⟨c, hsel, hlcd, hdram, hcarries, hkept⟩ := writeCycle_acted hr hd hcycle
    simp only [State.kept, Prod.mk.injEq] at hkept
    obtain ⟨hcfg, ⟨hop, hdisp, hwork, herr⟩, hret, -⟩ := hkept
    refine ⟨hwork, herr, hdisp, hop, fun _ => ⟨hret, fun hb => ?lines⟩, fun j hj => ?chips, fun hnot => ?command, fun hw a ha => ?ram⟩
    case lines =>
      rw [← hcfg] at hb
      unfold State.carries at hcarries
      split at hcarries
      · exact ⟨hcarries.2.1, hcarries.2.2.1⟩
      · exact ⟨hcarries.2.1, hcarries.2.2.1⟩
      · simp [‹t.cfg.transport = _›, Transport.bitBang] at hb
      · simp [‹t.cfg.transport = _›, Transport.bitBang] at hb
    case chips => exact (chip_congr hlcd j).trans (lcdRespond_chip_other c cmd s fun e => hj (e ▸ hsel))
    case command =>
      refine sameDisplayRam_of hdraws (hdram.trans ?_)
      rcases lcdRespond_dram_cases c cmd s with e | ⟨b', e, -⟩
      · exact e
      · exact absurd (hdata b' e) (hnot b')
    case ram =>
      refine dramAt_congr hdraws ?_
      rw [hdram, lcdRespond_read_other hw (ha c hsel)]

end Sys2Proof
end

section
/-! HOST's step, and `LcdWrite` on DIRECT and COOP: the status polls and the write after them (43_bitbang_sequencer.md R232 to
R239). -/

namespace Sys2Proof.Machine

/-! ## HOST's step -/

section
variable {s : State} {q : Option Nat} {moves : List Move}

theorem step_host (herr : s.err = none) (hsched : s.sched = .host q :: moves) :
    step s = hostMove { s with sched := moves, slice := q } := by
  simp only [step, stepMove, hsched, agentMove, herr, liveMove]

/-- The state HOST begins an item in, past it and its own move. -/
def State.pastItem (q : Option Nat) (moves : List Move) (later : List Item) (s : State) : State :=
  { s with sched := moves, slice := q, prog := later }

/-- With nothing in progress HOST begins its next item. -/
theorem step_fetch {it : Item} {later : List Item} (herr : s.err = none) (hsched : s.sched = .host q :: moves)
    (hwork : s.work = []) (hprog : s.prog = it :: later) :
    step s = fetch it (s.pastItem q moves later) := by
  rw [step_host herr hsched]
  simp only [hostMove, hwork, hprog, State.pastItem]

/-- The state HOST goes on from with what it has begun. -/
def State.goesOn (q : Option Nat) (moves : List Move) (s : State) : State :=
  { s with sched := moves, slice := q, work := [], suspended := false }

/-- A poll left to be made is made again. -/
theorem step_fsmPoll {ms : List Micro} (herr : s.err = none) (hsched : s.sched = .host q :: moves)
    (hwork : s.work = .fsmPoll :: ms) :
    step s = run (.fsmPoll :: ms) (s.goesOn q moves) := by
  rw [step_host herr hsched]
  simp only [hostMove, hwork, State.goesOn]

theorem fetch_ok {it : Item} {i : Instr} (h : decode s.cfg it = .ok i) : fetch it s = exec i s := by
  rw [fetch, h]

theorem fetch_error {it : Item} {r : Reject} (h : decode s.cfg it = .error r) : fetch it s = .refused (.undecodable r) := by
  rw [fetch, h]

/-- One step of a run that goes on. -/
theorem core_run_succ {s' : State} (h : step s = .next s') (k : Nat) :
    Host.Core.run core (k + 1) s = Host.Core.run core k s' := by
  have hcore : core.step s = .next s' := h
  simp only [Host.Core.run, hcore]

end

/-! ## One `LcdWrite` -/

section
variable {s : State} {c : Nat} {rs : Bool} {b : Byte} {cmd : LcdCmd} (hb : s.cfg.transport.bitBang = true)
  (hown : s.disp ≠ .atYield) (hu : s.slice = none) (hsel : s.selChip = some c)
include hb hown

theorem exec_lcdWrite_bitBang (rs : Bool) (b : Byte) :
    exec (.lcdWrite rs b) s = run (fsmSteps rs (.imm b) ++ [.ret .unit]) (beginOp .lcdWrite s) := by
  have hno : s.cfg.transport ≠ .offload := fun e => by simp [e, Transport.bitBang] at hb
  rw [exec, execLcdWrite_of hno, ownTransport_of hown, bitBang_byteSteps hb]

include hu hsel

/-- R232: the first status is ready. -/
theorem exec_lcdWrite_ready (hc : c < s.cfg.chips) (hd : lcdDecode rs false b = .ok cmd) (hr : ready (drawStatus s).1 = true) :
    exec (.lcdWrite rs b) s = .next (endOp .unit (lcdWritten c rs b cmd (beginOp .lcdWrite s))) := by
  obtain ⟨op', hop, -⟩ := beginOp_cases .lcdWrite s
  have hsteps : Steps (fsmSteps rs (.imm b)) (beginOp .lcdWrite s) (lcdWritten c rs b cmd (beginOp .lcdWrite s)) := by
    rw [hop]
    exact steps_fsm hu hsel hc (by simpa only [drawStatus_eq] using hr) hd
  rw [exec_lcdWrite_bitBang hb hown, hsteps.run_append, run_ret (by rw [hop]; exact hu)]
  rfl

/-- R236: the first status is not ready. -/
theorem exec_lcdWrite_busy (hr : ready (drawStatus s).1 = false) :
    exec (.lcdWrite rs b) s = .next (((polled c (beginOp .lcdWrite s)).suspend (s.cfg.transport == .coop)).leave
      [.fsmPoll, .fsmWriteDir rs (.imm b), .fsmStrobe, .fsmIdle, .ret .unit]) := by
  obtain ⟨op', hop, -⟩ := beginOp_cases .lcdWrite s
  rw [exec_lcdWrite_bitBang hb hown, hop]
  exact poll_again (s := { s with op := op' }) hu hsel (by simpa only [drawStatus_eq] using hr)
    [.fsmWriteDir rs (.imm b), .fsmStrobe, .fsmIdle, .ret .unit]

end

/-! ## Polls made again -/

/-- The state after a status cycle of chip `c` (R234). -/
def sampled (c : Nat) (s : State) : State :=
  { s with
    st := .pollBusy, e := false, suspended := false, env := s.env.afterStatus, draws := s.env.drawsAfter s.draws,
    trace := s.trace ++ [.status c (s.env.nextStatus s.draws)] }

theorem micro_fsmPoll {s : State} {c : Nat} (hsel : s.selChip = some c) :
    micro .fsmPoll s = if ready (s.env.nextStatus s.draws) then .next (sampled c s)
      else .hold ((sampled c s).suspend (s.cfg.transport == .coop)) := by
  obtain rfl : s.selChip.getD 0 = c := by rw [hsel]; rfl
  simp only [micro, pollStep, drawStatus_eq]
  rfl

/-- HOST inside an `LcdWrite`, its next step the poll. -/
structure Polling (c : Nat) (rs : Bool) (b : Byte) (s : State) : Prop where
  err : s.err = none
  disp : s.disp = .idle
  selChip : s.selChip = some c
  inRange : c < s.cfg.chips
  lines : s.cs = csPattern s.cfg.chips c
  work : s.work = [.fsmPoll, .fsmWriteDir rs (.imm b), .fsmStrobe, .fsmIdle, .ret .unit]

/-- `t` is `s` after the status cycles of `polls`, the last one ready, and the write. -/
structure PolledAndWrote (c : Nat) (rs : Bool) (b : Byte) (cmd : LcdCmd) (polls : List Byte) (s t : State) : Prop where
  trace : t.trace = s.trace ++ polls.map (.status c ·) ++ [.lcd c rs b]
  op : t.op = none
  work : t.work = []
  prog : t.prog = s.prog
  st : t.st = .idle
  lcd : t.lcd = (lcdRespond c cmd s).lcd
  dram : t.dram = (lcdRespond c cmd s).dram

/-- `t` is `s` after the status cycle of a busy poll, HOST to poll again. -/
structure PolledBusy (c : Nat) (rs : Bool) (b v : Byte) (rest : List Byte) (moves : List Move) (s t : State) : Prop where
  polling : Polling c rs b t
  status : t.env.status = rest
  sched : t.sched = moves
  trace : t.trace = s.trace ++ [.status c v]
  prog : t.prog = s.prog
  lcd : t.lcd = s.lcd
  dram : t.dram = s.dram

section
variable {c : Nat} {rs : Bool} {b v : Byte} {cmd : LcdCmd} {rest : List Byte} {moves : List Move} {s : State}

theorem PolledAndWrote.after_busy {polls : List Byte} {u t : State} (h : PolledAndWrote c rs b cmd polls u t)
    (hu : PolledBusy c rs b v rest moves s u) : PolledAndWrote c rs b cmd (v :: polls) s t where
  trace := by rw [h.trace, hu.trace, List.map_cons, List.append_assoc s.trace, List.singleton_append]
  op := h.op
  work := h.work
  prog := h.prog.trans hu.prog
  st := h.st
  lcd := h.lcd.trans (lcdRespond_target c cmd hu.lcd hu.dram).1
  dram := h.dram.trans (lcdRespond_target c cmd hu.lcd hu.dram).2

/-- The status supplied next is the one sampled. -/
theorem nextStatus_of_supplied (hstatus : s.env.status = v :: rest) :
    s.env.nextStatus s.draws = v ∧ s.env.afterStatus.status = rest := by
  simp only [Env.nextStatus, Env.afterStatus, hstatus, List.headD_cons, List.tail_cons, and_self]

/-- A busy status leaves HOST polling. -/
theorem Polling.busy (h : Polling c rs b s) (hv : Machine.ready v = false) (hstatus : s.env.status = v :: rest)
    (hsched : s.sched = .host none :: moves) : ∃ t, step s = .next t ∧ PolledBusy c rs b v rest moves s t := by
  obtain ⟨hnext, hrest⟩ := nextStatus_of_supplied hstatus
  have hpoll : micro .fsmPoll (s.goesOn none moves) =
      .hold ((sampled c (s.goesOn none moves)).suspend (s.cfg.transport == .coop)) :=
    (micro_fsmPoll (s := s.goesOn none moves) h.selChip).trans (if_neg (by simpa [State.goesOn, hnext] using hv))
  rw [step_fsmPoll h.err hsched h.work, run_hold rfl hpoll]
  refine ⟨_, rfl, ⟨h.err, h.disp, h.selChip, h.inRange, h.lines, rfl⟩, hrest, rfl, ?_, rfl, rfl, rfl⟩
  rw [← hnext]
  rfl

/-- A ready status lets the write complete. -/
theorem Polling.ready (h : Polling c rs b s) (hd : lcdDecode rs false b = .ok cmd) (hv : Machine.ready v = true)
    (hstatus : s.env.status = v :: rest) (hsched : s.sched = .host none :: moves) :
    ∃ t, step s = .next t ∧ PolledAndWrote c rs b cmd [v] s t ∧ t.env.status = rest ∧ t.sched = moves := by
  obtain ⟨hnext, hrest⟩ := nextStatus_of_supplied hstatus
  have hpoll : micro .fsmPoll (s.goesOn none moves) = .next (sampled c (s.goesOn none moves)) :=
    (micro_fsmPoll (s := s.goesOn none moves) h.selChip).trans (if_pos (by simpa [State.goesOn, hnext] using hv))
  have hwrite := steps_fsmWrite (s := sampled c (s.goesOn none moves)) (rs := rs) (src := .imm b) rfl h.inRange h.lines hd
  rw [step_fsmPoll h.err hsched h.work, run_next rfl hpoll]
  refine ⟨_, (hwrite.run_append [.ret .unit]).trans (run_ret rfl _), ?_⟩
  rw [endOp_eq]
  have htarget := lcdRespond_target (s := s) (t := sampled c (s.goesOn none moves)) c cmd rfl rfl
  refine ⟨⟨?_, ?_, rfl, rfl, rfl, htarget.1, htarget.2⟩, hrest, rfl⟩
  · rw [← hnext]
    rfl
  · simp only [State.opAfter, sampled, State.goesOn, h.disp]

/-- However many polls are busy, a ready one lets the write complete. -/
theorem Polling.completes (busy : List Byte) (h : Polling c rs b s) (hd : lcdDecode rs false b = .ok cmd)
    (hbusy : ∀ x ∈ busy, Machine.ready x = false) (hv : Machine.ready v = true) (hstatus : s.env.status = busy ++ v :: rest)
    (hsched : s.sched = List.replicate (busy.length + 1) (.host none) ++ moves) :
    ∃ t, Host.Core.run core (busy.length + 1) s = .next t ∧ PolledAndWrote c rs b cmd (busy ++ [v]) s t ∧ t.env.status = rest
      ∧ t.sched = moves := by
  induction busy generalizing s with
  | nil =>
    obtain ⟨t, hstep, hdone⟩ := h.ready hd hv hstatus hsched
    exact ⟨t, (core_run_succ hstep 0).trans rfl, hdone⟩
  | cons x xs ih =>
    obtain ⟨hx, hxs⟩ := List.forall_mem_cons.1 hbusy
    obtain ⟨u, hstep, hu⟩ := h.busy hx hstatus hsched
    obtain ⟨t, hrun, hdone, hend⟩ := ih hu.polling hxs hu.status hu.sched
    exact ⟨t, (core_run_succ hstep _).trans hrun, hdone.after_busy hu, hend⟩

/-! ## The call itself, with a status supplied -/

section
variable (hb : s.cfg.transport.bitBang = true) (hdisp : s.disp = .idle) (hu : s.slice = none) (hwork : s.work = [])
  (hsel : s.selChip = some c) (hc : c < s.cfg.chips) (hstatus : s.env.status = v :: rest)
include hb hdisp hu hwork hsel hc hstatus

theorem exec_lcdWrite_firstBusy (herr : s.err = none) (hv : Machine.ready v = false) :
    ∃ t, exec (.lcdWrite rs b) s = .next t ∧ PolledBusy c rs b v rest s.sched s t := by
  obtain ⟨hnext, hrest⟩ := nextStatus_of_supplied hstatus
  obtain ⟨op', hop, -⟩ := beginOp_cases .lcdWrite s
  have hown : s.disp ≠ .atYield := by simp [hdisp]
  have hfirst : (drawStatus s).1 = v := by rw [drawStatus_eq, hnext]
  refine ⟨_, exec_lcdWrite_busy hb hown hu hsel (hfirst ▸ hv), ?_⟩
  rw [hop]
  refine ⟨⟨herr, hdisp, hsel, hc, rfl, ?_⟩, hrest, rfl, ?_, rfl, rfl, rfl⟩
  · exact congrArg (_ ++ ·) hwork
  · rw [← hfirst, drawStatus_eq]
    simp only [leave_trace, suspend_trace, polled, drawStatus_eq]

theorem exec_lcdWrite_firstReady (hd : lcdDecode rs false b = .ok cmd) (hv : Machine.ready v = true) :
    ∃ t, exec (.lcdWrite rs b) s = .next t ∧ PolledAndWrote c rs b cmd [v] s t ∧ t.env.status = rest ∧ t.sched = s.sched := by
  obtain ⟨hnext, hrest⟩ := nextStatus_of_supplied hstatus
  obtain ⟨op', hop, hafter⟩ := beginOp_cases .lcdWrite s
  have hown : s.disp ≠ .atYield := by simp [hdisp]
  have hfirst : (drawStatus s).1 = v := by rw [drawStatus_eq, hnext]
  refine ⟨_, exec_lcdWrite_ready hb hown hu hsel hc hd (hfirst ▸ hv), ?_⟩
  rw [endOp_eq, hop]
  have htarget := lcdRespond_target (s := s) (t := { s with op := op' }) c cmd rfl rfl
  refine ⟨⟨?_, ?_, hwork, rfl, rfl, htarget.1, htarget.2⟩, hrest, rfl⟩
  · rw [← hfirst]
    simp [lcdWritten, drawStatus_eq]
  · simp only [State.opAfter, lcdWritten, hdisp]

end

end

end Sys2Proof.Machine

namespace Sys2Proof
open Machine

/-- Settles O57: HOST with nothing in progress fetches its next item. -/
theorem stepRunsDecodedInstruction : Obligations.StepRunsDecodedInstruction := by
  unfold Obligations.StepRunsDecodedInstruction
  intro s q moves it later herr hsched hwork hprog
  rw [step_fetch herr hsched hwork hprog]
  exact ⟨fun i hd => fetch_ok hd, fun r hd => fetch_error hd⟩

/-- Settles O16: of the 256 bytes, those ready are those with both bits clear. -/
theorem readyPredicate : Obligations.ReadyPredicate := by
  unfold Obligations.ReadyPredicate
  decide

/-- Settles O17: the state the six steps of the sequencer and the return lead to. -/
theorem lcdWriteReady : Obligations.LcdWriteReady := by
  unfold Obligations.LcdWriteReady
  intro s c rs b cmd hb hown hu hsel hc hd hr
  obtain ⟨op', hop, hafter⟩ := beginOp_cases .lcdWrite s
  refine ⟨_, exec_lcdWrite_ready hb hown hu hsel hc hd hr, ?_⟩
  rw [endOp_eq, hop]
  have htarget := lcdRespond_target (s := s) (t := { s with op := op' }) c cmd rfl rfl
  refine ⟨?_, htarget.1, htarget.2, rfl, rfl, rfl, rfl, rfl, rfl, rfl, rfl, hsel, rfl, hafter, rfl, rfl⟩
  simp only [lcdWritten, drawStatus_eq]

/-- Settles O18: the poll holds, so it and what follows it are left to be made. -/
theorem lcdWriteNotReadyPollsAgain : Obligations.LcdWriteNotReadyPollsAgain := by
  unfold Obligations.LcdWriteNotReadyPollsAgain
  intro s c rs b hb hown hu hsel hr
  obtain ⟨op', hop, -⟩ := beginOp_cases .lcdWrite s
  refine ⟨_, exec_lcdWrite_busy hb hown hu hsel hr, ?_⟩
  rw [hop]
  refine ⟨?_, ⟨rfl, rfl⟩, rfl, rfl, rfl, rfl, rfl, rfl, rfl, rfl⟩
  simp only [polled, drawStatus_eq]
  rfl

/-- Settles O19: the call's own step ends the write at once or leaves HOST polling, and then by induction on the busy polls. -/
theorem lcdWriteCompletesAfterBusyPolls : Obligations.LcdWriteCompletesAfterBusyPolls := by
  unfold Obligations.LcdWriteCompletesAfterBusyPolls
  intro s c rs b v cmd busy rest later moves hb herr hdisp hwork hsel hc hd hbusy hv hstatus hprog hsched
  obtain ⟨u, hu⟩ : ∃ u, u = s.pastItem none (List.replicate busy.length (.host none) ++ moves) later := ⟨_, rfl⟩
  have hstep : step s = exec (.lcdWrite rs b) u := by
    rw [step_fetch herr hsched hwork hprog, hu]
    exact fetch_ok rfl
  have done : ∃ t : State, Host.Core.run core (busy.length + 1) s = .next t
      ∧ PolledAndWrote c rs b cmd (busy ++ [v]) u t ∧ t.env.status = rest ∧ t.sched = moves := by
    cases busy with
    | nil =>
      obtain ⟨t, ht, hdone, hrest, hmoves⟩ := exec_lcdWrite_firstReady (s := u) (rest := rest) (rs := rs) (b := b) (c := c)
        (by rwa [hu]) (by rwa [hu]) (by rw [hu]; rfl) (by rwa [hu]) (by rwa [hu]) (by rwa [hu]) (by rwa [hu]) hd hv
      exact ⟨t, (core_run_succ (hstep.trans ht) 0).trans rfl, hdone, hrest, hmoves.trans (by rw [hu]; rfl)⟩
    | cons x xs =>
      obtain ⟨hx, hxs⟩ := List.forall_mem_cons.1 hbusy
      obtain ⟨w, hw, hpolled⟩ := exec_lcdWrite_firstBusy (s := u) (rest := xs ++ v :: rest) (rs := rs) (b := b) (c := c)
        (by rwa [hu]) (by rwa [hu]) (by rw [hu]; rfl) (by rwa [hu]) (by rwa [hu]) (by rwa [hu]) (by rwa [hu]) (by rwa [hu]) hx
      obtain ⟨t, hrun, hdone, hend⟩ := hpolled.polling.completes xs hd hxs hv hpolled.status
        (hpolled.sched.trans (by rw [hu]; rfl))
      exact ⟨t, (core_run_succ (hstep.trans hw) _).trans hrun, hdone.after_busy hpolled, hend⟩
  obtain ⟨t, hrun, hdone, hrest, hmoves⟩ := done
  have htarget := lcdRespond_target (s := s) (t := u) c cmd (by rw [hu]; rfl) (by rw [hu]; rfl)
  refine ⟨t, hrun, ?_, hdone.op, hdone.work, hdone.prog.trans (by rw [hu]; rfl), hmoves, hrest, hdone.st,
    hdone.lcd.trans htarget.1, hdone.dram.trans htarget.2⟩
  rw [hdone.trace, hu]
  simp [State.pastItem]

end Sys2Proof
end

section
/-! The transport calls: what they refuse, how their steps return, and the calls on DIRECT and COOP with every status ready
(42_write_protocol.md, 43_bitbang_sequencer.md). -/

namespace Sys2Proof.Machine

/-! ## Entry and return -/

section
variable {s : State} (hown : s.disp ≠ .atYield)
include hown

theorem exec_init : exec .init s = run (initSteps s.cfg) (beginOp .init s) := ownTransport_of hown _

section
variable (hin : s.inited = true)
include hin

theorem exec_cmdGroup (c : Nat) (bs : List Byte) :
    exec (.cmdGroup c bs) s = run (groupSteps s.cfg c false bs ++ [.ret .unit]) (beginOp .cmdGroup s) :=
  (ownTransport_of hown _).trans (afterInit_of hin _)

theorem exec_dataGroup (c : Nat) (bs : List Byte) :
    exec (.dataGroup c bs) s = run (groupSteps s.cfg c true bs ++ [.ret .unit]) (beginOp .dataGroup s) :=
  (ownTransport_of hown _).trans (afterInit_of hin _)

end

theorem exec_lcdWrite_relay (ht : s.cfg.transport = .spiRelay) (rs : Bool) (b : Byte) :
    exec (.lcdWrite rs b) s
      = run (relaySteps s.cfg.params.vportStrobe rs (.imm b) ++ [.ret .unit]) (beginOp .lcdWrite s) := by
  rw [exec, execLcdWrite_of (by simp [ht]), ownTransport_of hown, byteSteps, ht]

theorem exec_relayByte (ht : s.cfg.transport = .spiRelay) (rs : Bool) (b : Byte) :
    exec (.relayByte rs b) s
      = run (relaySteps s.cfg.params.vportStrobe rs (.imm b) ++ [.ret .unit]) (beginOp .relayByte s) :=
  (ownTransport_of hown _).trans (if_pos ht)

end

/-- The state the sweep of a buffer begins in (42_write_protocol.md R215). -/
def printBegun (buffer : List Byte) (s : State) : State := { beginOp .printBuffer s with fb := buffer, fbMods := [] }

theorem printBegun_eq (buffer : List Byte) (s : State) :
    printBegun buffer s = { s with op := (beginOp .printBuffer s).op, fb := buffer, fbMods := [] } := by
  rw [printBegun, beginOp_eq]

theorem exec_printBuffer {s : State} {buffer : List Byte} (hown : s.disp ≠ .atYield) (hin : s.inited = true)
    (hlen : buffer.length = s.cfg.buflen) :
    exec (.printBuffer buffer) s = run (sweepSteps s.cfg ++ [.ret .unit]) (printBegun buffer s) :=
  ((ownTransport_of hown _).trans (afterInit_of hin _)).trans (if_pos hlen)

/-- What the steps of a call keep, its return keeps, but for the result and `op`. -/
theorem steps_returns {ms : List Micro} {s t : State} (h : Steps ms s t) (hk : t.kept = s.kept) (hu : s.slice = none) :
    run (ms ++ [.ret .unit]) s = .next (endOp .unit t) ∧ (endOp .unit t).ret = .unit ∧ (endOp .unit t).op = s.opAfter
      ∧ (endOp .unit t).work = s.work ∧ (endOp .unit t).err = s.err := by
  have hslice : t.slice = none := (slice_kept hk).trans hu
  have hop : (endOp .unit t).op = s.opAfter := (congrArg State.op (endOp_eq ..)).trans (opAfter_kept hk)
  simp only [State.kept, Prod.mk.injEq] at hk
  obtain ⟨-, ⟨-, -, hwork, herr⟩, -⟩ := hk
  exact ⟨(h.run_append _).trans (run_ret hslice _), endOp_ret .., hop, (endOp_work ..).trans hwork, (endOp_err ..).trans herr⟩

theorem run_refuse {s : State} {m : Micro} {ms : List Micro} {r : Refusal} (h : s.slice = none) (hm : micro m s = .refuse r) :
    run (m :: ms) s = .refused r := by
  rw [run_cons_unbounded h, hm]

/-- With no chip selected a pulse of E has no word (R282, log 23). -/
theorem run_relaySteps_noChip {s : State} (hu : s.slice = none) (hsel : s.selChip = none) (st : VportStrobe) (rs : Bool)
    (src : Src) (ms : List Micro) : run (relaySteps st rs src ++ ms) s = .refused .notOneChip := by
  cases st with
  | threeWrite | twoWrite => exact run_refuse hu (by simp only [micro, VSrc.value, hsel, Option.map_none])

/-! ## LCD writes by a carrier -/

/-- What the writes of a call do to the target, its beginning and its return do not touch. -/
theorem Acted.call {ws : List Write} {s u t : State} (h : Acted ws u t) (h1 : u.lcd = s.lcd) (h2 : u.dram = s.dram) (v : RetVal) :
    (endOp v t).lcd = (actAll ws s).lcd ∧ (endOp v t).dram = (actAll ws s).dram := by
  obtain ⟨hlcd, hdram⟩ := actAll_target ws h1 h2
  exact ⟨(endOp_lcd v t).trans (h.1.trans hlcd), (endOp_dram v t).trans (h.2.trans hdram)⟩

/-- A group on a transport that carries writes, from its call to its return. -/
theorem Carrier.groupCall {P : List Write → State → State → Prop} {room : Nat → State → Prop} (h : Carrier P room) {s : State}
    {c : Nat} {rs : Bool} {bs : List Byte} {i : Instr} {o : Op}
    (hexec : exec i s = run (groupSteps s.cfg c rs bs ++ [.ret .unit]) (beginOp o s)) (hroom : room bs.length (beginOp o s))
    (hc : c < s.cfg.chips) (hd : ∀ b ∈ bs, ∃ cmd, lcdDecode rs false b = .ok cmd) :
    ∃ t, exec i s = .next (endOp .unit t) ∧ P (bs.map fun b => (c, rs, b)) (beginOp o s) t ∧ (endOp .unit t).selChip = some c
      ∧ (endOp .unit t).ret = .unit ∧ (endOp .unit t).op = s.opAfter := by
  obtain ⟨t, hsteps, hwrote, -, hsel, -, hkept⟩ :=
    h.group bs ((Nat.zero_add bs.length).symm ▸ hroom) ((beginOp_cfg o s).symm ▸ hc) hd
  obtain ⟨hrun, hret, hop, -, -⟩ := steps_returns hsteps hkept (h.unbounded hroom)
  rw [beginOp_cfg] at hrun
  exact ⟨t, hexec.trans hrun, hwrote, (endOp_selChip ..).trans hsel, hret, hop.trans (opAfter_beginOp o s)⟩

theorem lcdDecode_data (b : Byte) : lcdDecode true false b = .ok (.data b) := rfl

/-- The commands of `init` leave every chip on, its start line 0, and display RAM as it was (R214). -/
theorem Acted.init {c : Cfg} {s u t : State} (h : Acted (initWrites c) u t) (h1 : u.lcd = s.lcd) (h2 : u.dram = s.dram)
    (hl : s.lcd.length = c.chips) :
    (∀ k, k < c.chips → (endOp .unit t.initialised).chip k = { s.chip k with on := true, z := 0#6 })
      ∧ (endOp .unit t.initialised).dram = s.dram := by
  obtain ⟨-, hdram, hchips, -⟩ := actAll_init c.chips u (by rw [h1, hl])
  have hlcd : (endOp .unit t.initialised).lcd = t.lcd := endOp_lcd ..
  refine ⟨fun k hk => ?_, ((endOp_dram .unit t.initialised).trans h.2).trans (hdram.trans h2)⟩
  rw [chip_congr (hlcd.trans h.1) k, ← chip_congr h1 k]
  exact hchips k hk

/-- `init` from its setup to its return. -/
theorem run_init {c : Cfg} {s u t : State} (hsetup : Steps (setupSteps c.transport) s u)
    (hcmds : Steps ((List.range c.chips).flatMap fun ch => .selectChip ch :: groupSteps c ch false [0x3F#8, 0xC0#8]) u t)
    (hk : t.kept = u.kept) (hu : u.slice = none) :
    run (initSteps c) s = .next (endOp .unit t.initialised) ∧ (endOp .unit t.initialised).inited = true
      ∧ (endOp .unit t.initialised).ret = .unit ∧ (endOp .unit t.initialised).op = u.opAfter := by
  have hslice : t.slice = none := (slice_kept hk).trans hu
  refine ⟨?_, endOp_inited .., endOp_ret .., (congrArg State.op (endOp_eq ..)).trans (opAfter_kept hk :)⟩
  rw [initSteps, (hsetup.append hcmds).run_append, run_next hslice (s' := t.initialised) rfl]
  exact run_ret (s := t.initialised) hslice _

/-- An admitted geometry has a page and a chip, so its sweep writes. -/
theorem sweepWrites_ne_nil {c : Cfg} (hg : geometryOk c.width c.height c.transport c.params = true) (fb : List Byte) :
    sweepWrites c fb ≠ [] := fun e => by
  obtain ⟨hw, hh, hw64, hh8⟩ := geometryOk_sizes hg
  have hpages : 0 < c.pages := Nat.div_pos (by omega) (by decide)
  have hchips : 0 < c.chips := Nat.div_pos (by omega) (by decide)
  have hlength : 66 * c.pages * c.chips = 0 := (sweepWrites_length c fb).symm.trans (congrArg List.length e)
  exact (Nat.mul_pos (Nat.mul_pos (by decide) hpages) hchips).ne' hlength

/-! ## DIRECT and COOP -/

theorem bangRoom_beginOp {n : Nat} {s : State} (h : BangRoom n s) (o : Op) : BangRoom n (beginOp o s) := by
  rw [beginOp_eq]
  exact { h with }

/-- A group on DIRECT and COOP, from its call to its return. -/
theorem group_bitBang {s : State} {c : Nat} {rs : Bool} {bs : List Byte} {i : Instr} {o : Op}
    (hexec : exec i s = run (groupSteps s.cfg c rs bs ++ [.ret .unit]) (beginOp o s)) (hroom : BangRoom bs.length s)
    (hc : c < s.cfg.chips) (hd : ∀ b ∈ bs, ∃ cmd, lcdDecode rs false b = .ok cmd) :
    ∃ t, exec i s = .next t ∧ t.trace = s.trace ++ bitBangEvents (bs.map fun b => (c, rs, b)) s.env.status ∧ t.selChip = some c
      ∧ t.lcd = (actAll (bs.map fun b => (c, rs, b)) s).lcd ∧ t.dram = (actAll (bs.map fun b => (c, rs, b)) s).dram
      ∧ t.ret = .unit ∧ t.op = s.opAfter := by
  obtain ⟨t, hrun, hwrote, hsel, hret, hop⟩ := bangCarrier.groupCall hexec (bangRoom_beginOp hroom o) hc hd
  obtain ⟨hlcd, hdram⟩ := hwrote.acted.call (beginOp_lcd o s) (beginOp_dram o s) .unit
  refine ⟨_, hrun, ?_, hsel, hlcd, hdram, hret, hop⟩
  rw [endOp_trace, hwrote.trace, beginOp_trace, beginOp_env]

/-- Lines that are all deasserted are at the level that is not CS_ACTIVE (R166). -/
theorem bitBangSetup_csLevel (s : State) (k : Nat) : (bitBangSetup s).csLevel k = !s.cfg.params.csActive :=
  csLevel_of_deasserted (s := bitBangSetup s) (n := s.cfg.chips) rfl k

theorem setupSteps_bitBang {t : Transport} (h : t.bitBang = true) : setupSteps t = [.bitBangSetup] := by
  cases t with
  | direct | coop => rfl
  | offload | spiRelay => cases h

theorem bangRoom_setup {n : Nat} {s : State} (h : BangRoom n s) : BangRoom n (bitBangSetup s) := { h with }

/-- `init` on DIRECT and COOP, from its call to its return (R214). -/
theorem init_bitBang {s : State} (hown : s.disp ≠ .atYield) (hl : s.lcd.length = s.cfg.chips)
    (hroom : BangRoom (2 * s.cfg.chips) s) :
    ∃ t, exec .init s = .next t ∧ t.inited = true ∧ t.trace = s.trace ++ bitBangEvents (initWrites s.cfg) s.env.status
      ∧ (∀ c, c < s.cfg.chips → t.chip c = { s.chip c with on := true, z := 0#6 })
      ∧ t.dram = s.dram ∧ t.ret = .unit ∧ t.op = s.opAfter ∧ t.work = s.work := by
  obtain ⟨op', hop, hafter⟩ := beginOp_cases .init s
  obtain ⟨v, hv⟩ : ∃ v, v = bitBangSetup { s with op := op' } := ⟨_, rfl⟩
  have hlen : (List.range s.cfg.chips).length = s.cfg.chips := List.length_range
  have hroom' : BangRoom (2 * (List.range s.cfg.chips).length) v := by
    rw [hlen, hv]
    exact { hroom with }
  obtain ⟨t, hsteps, hwrote, hkept⟩ := bangCarrier.init s.cfg (List.range s.cfg.chips) hroom' (by rw [hv]; rfl)
    fun ch hch => List.mem_range.1 hch
  have hsetup : Steps (setupSteps s.cfg.transport) (beginOp .init s) v := by
    rw [setupSteps_bitBang hroom.bang, hop, hv]
    exact .one hroom.unbounded rfl
  obtain ⟨hrun, hinited, hret, hafter'⟩ := run_init hsetup hsteps hkept hroom'.unbounded
  have hlcd : v.lcd = s.lcd := by rw [hv]; rfl
  obtain ⟨hchips, hdram⟩ := Acted.init hwrote.acted hlcd (by rw [hv]; rfl) hl
  simp only [State.kept, Prod.mk.injEq] at hkept
  obtain ⟨-, ⟨-, -, hwork, -⟩, -⟩ := hkept
  refine ⟨_, (exec_init hown).trans hrun, hinited, ?_, hchips, hdram, hret, hafter'.trans ?_, ?_⟩
  · rw [endOp_trace, initialised_trace, hwrote.trace, hv]
    rfl
  · rw [hv]
    exact hafter
  · rw [endOp_work, initialised_work, hwork, hv]
    rfl

end Sys2Proof.Machine

namespace Sys2Proof
open Machine

/-- Settles O21: each call's checks, and the first step of an LCD write with no chip selected. -/
theorem facadeErrors : Obligations.FacadeErrors := by
  unfold Obligations.FacadeErrors
  refine ⟨fun s hown hin => ?beforeInit, fun s buffer hown hin hlen => ?length, fun s i hi hy => ?concurrent,
    fun s hown => ⟨fun ht rs b => ?notRelay, fun ht w => ?notOffload, fun hsel hu rs b => ⟨?lcdWrite, fun ht => ?relayByte⟩⟩⟩
  case beforeInit =>
    have refused (k : Out) : ownTransport s (afterInit s k) = .refused .beforeInit :=
      (ownTransport_of hown _).trans (if_neg (by simp [hin]))
    exact ⟨fun _ => refused _, fun _ _ => refused _, fun _ _ => refused _, fun _ => refused _⟩
  case length => exact ((ownTransport_of hown _).trans (afterInit_of hin _)).trans (if_neg hlen)
  case concurrent =>
    have refused (k : Out) : ownTransport s k = .refused .undefinedConcurrentUse := if_pos hy
    cases i with
    | selectChip | init | printBuffer | cmdGroup | dataGroup | lcdWrite | relayByte | enqueue => exact refused _
    | _ => cases hi
  case notRelay => exact (ownTransport_of hown _).trans (if_neg ht)
  case notOffload => exact (ownTransport_of hown _).trans (if_neg ht)
  case lcdWrite =>
    cases ht : s.cfg.transport with
    | direct | coop =>
      rw [exec_lcdWrite_bitBang (by rw [ht]; rfl) hown]
      exact run_refuse (by simpa using hu) (by simp only [micro, beginOp_selChip, hsel])
    | offload => exact (ownTransport_of hown _).trans (by simp only [ht, hsel])
    | spiRelay =>
      rw [exec_lcdWrite_relay hown ht]
      exact run_relaySteps_noChip (by simpa using hu) (by simpa using hsel) ..
  case relayByte =>
    rw [exec_relayByte hown ht]
    exact run_relaySteps_noChip (by simpa using hu) (by simpa using hsel) ..

/-- Settles O28: both groups are the same sequence of writes, for data each a word the target knows. -/
theorem groupsOnBitBang : Obligations.GroupsOnBitBang := by
  unfold Obligations.GroupsOnBitBang
  intro s c bs hb hown hin hu hc hpolls
  have hroom : BangRoom bs.length s := ⟨hb, hu, hpolls⟩
  exact ⟨fun hd => group_bitBang (exec_cmdGroup hown hin c bs) hroom hc hd,
    group_bitBang (exec_dataGroup hown hin c bs) hroom hc fun b _ => ⟨_, lcdDecode_data b⟩⟩

/-- Settles O25: the sweep is one sequence of writes. -/
theorem printBufferSweeps : Obligations.PrintBufferSweeps := by
  unfold Obligations.PrintBufferSweeps
  intro s buffer hg hb hown hin hu hlen hpolls
  obtain ⟨u, hbegun⟩ : ∃ u, u = printBegun buffer s := ⟨_, rfl⟩
  have hroom : BangRoom (0 + 66 * u.cfg.pages * u.cfg.chips) u := by
    rw [hbegun, printBegun_eq, Nat.zero_add]
    exact ⟨hb, hu, hpolls⟩
  obtain ⟨t, hsteps, hwrote, -, hkept⟩ := bangCarrier.sweep hroom (by rw [hbegun]; rfl)
  obtain ⟨hrun, hret, hop, hwork, -⟩ := steps_returns hsteps hkept hroom.unbounded
  have hexec : exec (.printBuffer buffer) s = run (sweepSteps u.cfg ++ [.ret .unit]) u := by
    rw [exec_printBuffer hown hin hlen, hbegun, printBegun_eq]
  have hfsm : t.st = .idle := hwrote.fsm.trans (if_neg (sweepWrites_ne_nil (by rwa [hbegun, printBegun_eq]) _))
  refine ⟨_, hexec.trans hrun, ?_, sweepWrites_length .., hret, hop.trans ?_, hwork.trans ?_, (endOp_st ..).trans hfsm⟩
  · rw [endOp_trace, hwrote.trace, hbegun, printBegun_eq]
  · rw [hbegun]
    exact opAfter_beginOp .printBuffer s
  · rw [hbegun, printBegun_eq]

/-- Settles O22: the setup's one step, then two commands to each chip. -/
theorem initOnBitBang : Obligations.InitOnBitBang := by
  unfold Obligations.InitOnBitBang
  intro s hb hu
  rw [setupSteps_bitBang hb]
  refine ⟨⟨bitBangSetup s, run_next hu rfl, rfl, rfl, rfl, rfl, rfl, rfl, fun k _ => bitBangSetup_csLevel s k, rfl, rfl, rfl, rfl⟩,
    fun hown hl hpolls => init_bitBang hown hl ⟨hb, hu, hpolls⟩⟩

end Sys2Proof
end

section
/-! The calls and words of SPI_RELAY (45_spi_relay.md R280 to R286) with no frame failing. -/

namespace Sys2Proof.Machine

/-! ## The room of the relay -/

theorem relayRoom_beginOp {s : State} (h : RelayRoom s) (o : Op) : RelayRoom (beginOp o s) := by
  rw [beginOp_eq]
  exact { h with }

/-- A group on SPI_RELAY, from its call to its return. -/
theorem group_relay {s : State} {c : Nat} {rs : Bool} {bs : List Byte} {i : Instr} {o : Op}
    (hexec : exec i s = run (groupSteps s.cfg c rs bs ++ [.ret .unit]) (beginOp o s)) (hroom : RelayRoom s)
    (hc : c < s.cfg.chips) (hd : ∀ b ∈ bs, ∃ cmd, lcdDecode rs false b = .ok cmd) :
    ∃ t, exec i s = .next t ∧ t.trace = s.trace ++ s.relayWriteEvents (bs.map fun b => (c, rs, b)) ∧ t.selChip = some c
      ∧ t.lcd = (actAll (bs.map fun b => (c, rs, b)) s).lcd ∧ t.dram = (actAll (bs.map fun b => (c, rs, b)) s).dram
      ∧ t.ret = .unit ∧ t.op = s.opAfter := by
  obtain ⟨t, hrun, hwrote, hsel, hret, hop⟩ := relayCarrier.groupCall hexec (relayRoom_beginOp hroom o) hc hd
  obtain ⟨hlcd, hdram⟩ := hwrote.acted.call (beginOp_lcd o s) (beginOp_dram o s) .unit
  refine ⟨_, hrun, ?_, hsel, hlcd, hdram, hret, hop⟩
  rw [endOp_trace, hwrote.trace, beginOp_eq]
  rfl

/-! ## `relay_byte` -/

theorem endOp_relayPins (v : RetVal) (s : State) : (endOp v s).relayPins = s.relayPins :=
  relayPins_congr (congrArg Expander.dev (endOp_relay v s))

/-- The steps of `relay_byte` from the call to the return (R282, R283). -/
theorem relayByte_returns {s : State} {c : Nat} {rs : Bool} {b : Byte} {cmd : LcdCmd} {i : Instr} {o : Op}
    (hexec : exec i s = run (relaySteps s.cfg.params.vportStrobe rs (.imm b) ++ [.ret .unit]) (beginOp o s))
    (hroom : RelayRoom s) (hsel : s.selChip = some c) (hc : c < s.cfg.chips) (hd : lcdDecode rs false b = .ok cmd) :
    let v := vp s.cfg.params.vportMap false false rs c b
    ∃ t, exec i s = .next t
      ∧ t.trace = s.trace ++ relayEvents s.cfg.params (s.cmdW .relay) (s.seq .relay) v
      ∧ t.vport = v ∧ cat16 (t.relay.sh.get .olat .b) (t.relay.sh.get .olat .a) = v ∧ t.relayPins = v
      ∧ t.lcd = (lcdRespond c cmd s).lcd ∧ t.dram = (lcdRespond c cmd s).dram
      ∧ t.inTxn = false ∧ t.ret = .unit ∧ t.op = s.opAfter ∧ t.work = s.work := by
  intro v
  obtain ⟨op', hop, hafter⟩ := beginOp_cases o s
  rw [hop] at hexec
  obtain ⟨t, hsteps, hrel⟩ := steps_relay (s := { s with op := op' }) (src := .imm b) hroom.calm hroom.relay hroom.frames hroom.low
    hroom.map hroom.chips hroom.wf hsel hc hd
  obtain ⟨hrun, hret, hop', hwork, -⟩ := steps_returns hsteps hrel.kept hroom.calm.1
  have htarget := lcdRespond_target (s := s) (t := { s with op := op' }) c cmd rfl rfl
  refine ⟨_, hexec.trans hrun, (endOp_trace ..).trans hrel.trace, (endOp_vport ..).trans hrel.vport, ?_,
    (endOp_relayPins ..).trans hrel.pins, (endOp_lcd ..).trans (hrel.lcd.trans htarget.1),
    (endOp_dram ..).trans (hrel.dram.trans htarget.2), (endOp_inTxn ..).trans hrel.inTxn, hret, hop'.trans hafter, hwork⟩
  rw [endOp_relay, hrel.shadows]
  exact cat16_high_low v

/-! ## `VPortWrite` -/

/-- The chip registers beside OLAT are as before (R283). -/
theorem vported_sameChipBut {s : State} (hw : Mem.wf devDefault s.relay.dev) (v : Half) :
    SameChipBut s.relay (vported v s).relay 0x14 2 := fun k hk =>
  (congrArg (Mem.read devDefault · k) (vported_dev v s)).trans (read_devStore_outside hw _ (.inr le_rfl) hk)

/-- R283: the level of each pin, CS pins by CS_ACTIVE. -/
theorem vpLevel_eq (m : VportMap) (n : Nat) (csActive : Bool) (v : Half) (i : Nat) :
    vpLevel m n csActive v i =
      if i ∈ m.cs.take n then (if v.getLsbD i then csActive else !csActive) else v.getLsbD i := by
  simp only [vpLevel, vpCs]
  cases v.getLsbD i <;> cases csActive <;> rfl

/-! ## `init` -/

/-- The frames of the relay's `transport_setup()` (R286), by the command byte of a write to its instance. -/
def relaySetupFrames (w : Byte) : List Event :=
  [.frameW w 0x0A#8 [0x00#8], .frameW w 0x00#8 [0x00#8], .frameW w 0x01#8 [0x00#8], .frameW w 0x14#8 [0x00#8, 0x00#8]]

/-- `init` on SPI_RELAY, from its call to its return (R286, R214). -/
theorem init_relay {s : State} (hc : s.calm) (hlow : s.eLow .relay) (hq : s.cfg.relay.seqTest = .seqopClear)
    (hw : Mem.wf devDefault s.relay.dev) (ht : s.cfg.transport = .spiRelay) (hown : s.disp ≠ .atYield)
    (hl : s.lcd.length = s.cfg.chips) (hg : geometryOk s.cfg.width s.cfg.height s.cfg.transport s.cfg.params = true)
    (hp : s.cfg.params.ok = true) :
    ∃ t, exec .init s = .next t ∧ t.inited = true
      ∧ t.trace = s.trace ++ relaySetupFrames (cmdW s.cfg.relay.addr.toNat) ++ ((initWrites s.cfg).flatMap fun x =>
          relayEvents s.cfg.params (cmdW s.cfg.relay.addr.toNat) true (vp s.cfg.params.vportMap false false x.2.1 x.1 x.2.2))
      ∧ (∀ c, c < s.cfg.chips → t.chip c = { s.chip c with on := true, z := 0#6 })
      ∧ t.dram = s.dram ∧ t.ret = .unit ∧ t.op = s.opAfter ∧ t.work = s.work := by
  obtain ⟨op', hop, hafter⟩ := beginOp_cases .init s
  obtain ⟨u, hsetup, hcalm, hwf, hpins, hseq, htrace, -, -, -, -, -, -, -, ⟨hlcd, hdram⟩, -, hcfg, hopu, hwork, hdisp⟩ :=
    steps_relaySetup (s := { s with op := op' }) hc hlow hq hw
  replace hcfg : u.cfg = s.cfg := hcfg
  have hready : u.relayReady := ⟨by rw [hcfg, ht], hcalm, .inl hseq, fun _ _ => by rw [hpins]; exact BitVec.getLsbD_zero⟩
  have hroom : RelayRoom u := .of_ready hready (by rwa [hcfg]) (by rwa [hcfg]) hwf
  obtain ⟨t, hcmds, hwrote, hkept⟩ := relayCarrier.init s.cfg (List.range s.cfg.chips) hroom hcfg
    fun ch hch => List.mem_range.1 hch
  obtain ⟨hrun, hinited, hret, hafter'⟩ := run_init (c := s.cfg) (ht ▸ hsetup) hcmds hkept hcalm.1
  obtain ⟨hchips, hdram'⟩ := Acted.init (c := s.cfg) hwrote.acted hlcd hdram hl
  have hcmd : u.cmdW .relay = cmdW s.cfg.relay.addr.toNat := by rw [State.cmdW, State.addrOf, hcfg]; rfl
  refine ⟨_, (exec_init hown).trans (hop ▸ hrun), hinited, ?_, hchips, hdram', hret, hafter'.trans ?_, ?_⟩
  · rw [endOp_trace, initialised_trace, hwrote.trace, htrace, State.relayWriteEvents, hcmd, hseq, hcfg]
    rfl
  · rw [← hafter]
    simp only [State.opAfter, hdisp, hopu]
  · simp only [State.kept, Prod.mk.injEq] at hkept
    rw [endOp_work, initialised_work, hkept.2.1.2.2.1, hwork]

end Sys2Proof.Machine

namespace Sys2Proof
open Machine

/-- Settles O29: both groups are the same sequence of writes, for data each a word the target knows. -/
theorem groupsOnRelay : Obligations.GroupsOnRelay := by
  unfold Obligations.GroupsOnRelay
  intro s c bs hr hg hp hw hown hin hc
  have hroom : RelayRoom s := .of_ready hr hg hp hw
  exact ⟨fun hd => group_relay (exec_cmdGroup hown hin c bs) hroom hc hd,
    group_relay (exec_dataGroup hown hin c bs) hroom hc fun b _ => ⟨_, lcdDecode_data b⟩⟩

/-- Settles O33: both calls run the same steps. -/
theorem relayByteResult : Obligations.RelayByteResult := by
  unfold Obligations.RelayByteResult
  intro s c rs b cmd hr hg hp hw hown hsel hc hd v i hi
  have hroom : RelayRoom s := .of_ready hr hg hp hw
  rcases hi with rfl | rfl
  · exact relayByte_returns (exec_relayByte hown hroom.relay rs b) hroom hsel hc hd
  · exact relayByte_returns (exec_lcdWrite_relay hown hroom.relay rs b) hroom hsel hc hd

/-- Settles O34: the frames of the write, under which E does not fall. -/
theorem vportWriteResult : Obligations.VportWriteResult := by
  unfold Obligations.VportWriteResult
  intro s v hc hno hw
  refine ⟨vported v s, (steps_vport (vs := .lit v) rfl hc hno hw).run, vported_trace v s, rfl, rfl, rfl, fun i => ?_, vported_pins hw v,
    vported_sameChipBut hw v, ⟨rfl, rfl⟩, rfl, rfl⟩
  rw [State.relayPinLevel, vported_pins hw]
  exact vpLevel_eq ..

/-- Settles O35: the frame of the write, under which E falls once, with the pins at their new levels. -/
theorem vportFallingEdgeLatches : Obligations.VportFallingEdgeLatches := by
  unfold Obligations.VportFallingEdgeLatches
  intro s v c cmd hc ht hseq hw m hold hnew hcc hsel hd
  have hsteps := steps_vport_fall (vs := .lit v) rfl hc ht (.inl hseq) hold hnew (chipsWhere_one hcc hsel) hd hw
  refine ⟨_, hsteps.run, rfl, rfl, ?_, rfl, ?_⟩
  · exact vported_pins hw v
  · rw [← hseq]
    exact vported_trace v s

/-- Settles O24: the setup's four frames, then two commands to each chip. -/
theorem initOnRelay : Obligations.InitOnRelay := by
  unfold Obligations.InitOnRelay
  intro s hc hlow hq hw w frames
  refine ⟨?_, fun ht hown hl hg hp => init_relay hc hlow hq hw ht hown hl hg hp⟩
  obtain ⟨t, hsteps, -, -, -, -, htrace, hvport, hsel, hdirA, hdirB, hiocon, holatA, holatB, htarget, htxn, -⟩ :=
    steps_relaySetup hc hlow hq hw
  exact ⟨t, hsteps.run, htrace, hvport, hsel, hdirA, hdirB, hiocon, holatA, holatB, htarget, htxn⟩

end Sys2Proof
end

section
/-! The transport calls on OFFLOAD where the queues have room: what steps made once for each member of a list queue, `init`, the
sweep, the groups, and one `LcdWrite` (44_fifo_offload.md). -/

namespace Sys2Proof.Machine

/-! ## Steps that queue -/

/-- The steps `ms` queue the events `evs`, `k` control words and `l` data words, wherever HOST's own state is `s₀`'s and the
queues have room for them. -/
def Queues (s₀ : State) (k l : Nat) (ms : List Micro) (evs : List Event) : Prop :=
  ∀ (nc nd : Nat) (s : State), s.kept = s₀.kept → OffloadRoom (nc + k) (nd + l) s →
    ∃ t, Steps ms s t ∧ QueuedBy evs s t ∧ OffloadRoom nc nd t

/-- Steps made for each member of a list queue what they queue for each. -/
theorem Queues.flatMap {α : Type} {s₀ : State} {k l : Nat} {steps : α → List Micro} {evs : α → List Event} :
    ∀ {as : List α}, (∀ a ∈ as, Queues s₀ k l (steps a) (evs a)) →
      Queues s₀ (k * as.length) (l * as.length) (as.flatMap steps) (as.flatMap evs)
  | [], _ => fun _ _ _ _ hroom => ⟨_, .nil _, .nil rfl rfl rfl ⟨rfl, rfl⟩ rfl, hroom⟩
  | a :: as, h => by
    intro nc nd s hkept hroom
    obtain ⟨t, hsteps, hqueued, hroom'⟩ := h a List.mem_cons_self (nc + k * as.length) (nd + l * as.length) s hkept
      (by rwa [Nat.add_assoc, Nat.add_assoc])
    obtain ⟨u, hsteps', hqueued', hroom''⟩ := Queues.flatMap (fun b hb => h b (List.mem_cons_of_mem a hb))
      nc nd t (hqueued.kept.trans hkept) hroom'
    exact ⟨u, hsteps.append hsteps', hqueued.append hqueued', hroom''⟩

theorem cfg_kept {s t : State} (h : t.kept = s.kept) : t.cfg = s.cfg := congrArg (·.1) h

/-- The two commands of `init` to a chip: one control word and two bytes (R214). -/
theorem queues_initCommands (s₀ : State) {ch : Nat} (hc : ch < s₀.cfg.chips) :
    Queues s₀ 1 2 (.selectChip ch :: groupSteps s₀.cfg ch false [0x3F#8, 0xC0#8])
      (offloadGroupEvents s₀.cfg ch false [0x3F#8, 0xC0#8]) := by
  intro nc nd s hkept hroom
  have hcfg : s.cfg = s₀.cfg := cfg_kept hkept
  obtain ⟨t, hselect, hnone, hroom', -⟩ := selectChip_offload hroom (hcfg ▸ hc)
  obtain ⟨u, hsteps, hqueued, hroom'', -⟩ := steps_group_offload false s₀.cfg [0x3F#8, 0xC0#8] (hnone.cfg.trans hcfg) hroom' hc
  exact ⟨u, .cons hroom.2.1 hselect hsteps, hnone.append hqueued, hroom''⟩

/-- A block of the sweep: two control words and 66 bytes (R271). -/
theorem queues_block (s₀ : State) (hmods : s₀.fbMods = []) (pg : Nat) {ch : Nat} (hc : ch < s₀.cfg.chips) :
    Queues s₀ 2 66 (blockSteps s₀.cfg pg ch)
      (offloadGroupEvents s₀.cfg ch false [0xB8#8 ||| BitVec.ofNat 8 (pg % 8), 0x40#8]
        ++ offloadGroupEvents s₀.cfg ch true
          ((List.range 64).map fun col => s₀.fb.getD (col + 64 * ch + pg * s₀.cfg.width) 0#8)) := by
  intro nc nd s hkept hroom
  simp only [State.kept, Prod.mk.injEq] at hkept
  obtain ⟨hcfg, -, -, ⟨hfb, hmods'⟩, -⟩ := hkept
  exact steps_block_offload s₀.cfg s₀.fb hcfg hfb (hmods'.trans hmods) hroom hc

theorem queues_sweep (s₀ : State) (hmods : s₀.fbMods = []) :
    Queues s₀ (2 * s₀.cfg.chips * s₀.cfg.pages) (66 * s₀.cfg.chips * s₀.cfg.pages) (sweepSteps s₀.cfg)
      (offloadSweepEvents s₀.cfg s₀.fb) := by
  rw [sweepSteps_eq]
  have page (pg : Nat) := Queues.flatMap (s₀ := s₀) (as := List.range s₀.cfg.chips) fun ch hch =>
    queues_block s₀ hmods pg (List.mem_range.1 hch)
  have sweep := Queues.flatMap (as := List.range s₀.cfg.pages) fun pg _ => page pg
  rwa [List.length_range, List.length_range] at sweep

/-! ## How many words the sweep's events hold -/

theorem length_filterMap_flatMap {α β γ : Type} (f : β → Option γ) (g : α → List β) (n : Nat) (l : List α)
    (h : ∀ a, ((g a).filterMap f).length = n) : ((l.flatMap g).filterMap f).length = n * l.length := by
  rw [List.filterMap_flatMap, length_flatMap_const _ n l h, Nat.mul_comm]

theorem ctlWords_sweep_length (c : Cfg) (fb : List Byte) :
    (ctlWords (offloadSweepEvents c fb)).length = 2 * c.pages * c.chips := by
  have row (pg : Nat) := length_filterMap_flatMap _ _ 2 (List.range c.chips) fun ch => congrArg List.length
    ((ctlWords_append (offloadGroupEvents c ch false [0xB8#8 ||| BitVec.ofNat 8 (pg % 8), 0x40#8])
      (offloadGroupEvents c ch true ((List.range 64).map fun col => fb.getD (col + 64 * ch + pg * c.width) 0#8))).trans
      (congrArg₂ (· ++ ·) (ctlWords_group ..) (ctlWords_group ..)))
  refine (length_filterMap_flatMap _ _ _ (List.range c.pages) row).trans ?_
  rw [List.length_range, List.length_range]
  ring

theorem dataWords_sweep_length (c : Cfg) (fb : List Byte) :
    (dataWords (offloadSweepEvents c fb)).length = 66 * c.pages * c.chips := by
  have row (pg : Nat) := length_filterMap_flatMap _ _ 66 (List.range c.chips) fun ch => (congrArg List.length
    ((dataWords_append (offloadGroupEvents c ch false [0xB8#8 ||| BitVec.ofNat 8 (pg % 8), 0x40#8])
      (offloadGroupEvents c ch true ((List.range 64).map fun col => fb.getD (col + 64 * ch + pg * c.width) 0#8))).trans
      (congrArg₂ (· ++ ·) (dataWords_group ..) (dataWords_group ..)))).trans (by simp)
  refine (length_filterMap_flatMap _ _ _ (List.range c.pages) row).trans ?_
  rw [List.length_range, List.length_range]
  ring

/-! ## One word onto a queue -/

section
variable {s : State}

theorem micro_enqCtl_room (h : s.ctlQ.length < s.cfg.params.offloadFifoDepth) (w : Nibble) :
    micro (.enqCtl w) s = .next ((s.queueCtl w).event (.qCtl w)) := if_pos h

theorem micro_enqData_room (h : s.dataQ.length < s.cfg.params.offloadFifoDepth) (src : Src) :
    micro (.enqData src) s = .next ((s.queueData (src.value s)).event (.qData (src.value s))) := if_pos h

theorem micro_enqCtl_full (h : s.ctlQ.length = s.cfg.params.offloadFifoDepth) (w : Nibble) :
    micro (.enqCtl w) s = .hold s := if_neg h.not_lt

theorem micro_enqData_full (h : s.dataQ.length = s.cfg.params.offloadFifoDepth) (src : Src) :
    micro (.enqData src) s = .hold s := if_neg h.not_lt

end

/-- What steps queued stands at the return of their call. -/
theorem QueuedBy.returned {evs : List Event} {s t : State} (h : QueuedBy evs s t) (v : RetVal) :
    (endOp v t).trace = s.trace ++ evs ∧ (endOp v t).ctlQ.map (·.2) = s.ctlQ.map (·.2) ++ ctlWords evs
      ∧ (endOp v t).dataQ.map (·.2) = s.dataQ.map (·.2) ++ dataWords evs ∧ SameTarget s (endOp v t) := by
  obtain ⟨htrace, hctl, hdata, htarget, -⟩ := h
  rw [endOp_eq]
  exact ⟨htrace, hctl, hdata, htarget⟩

theorem offloadRoom_beginOp {nc nd : Nat} {s : State} (h : OffloadRoom nc nd s) (o : Op) : OffloadRoom nc nd (beginOp o s) := by
  rw [beginOp_eq]
  exact h

/-- A group on OFFLOAD, from its call to its return. -/
theorem group_offload {s : State} {c : Nat} {rs : Bool} {bs : List Byte} {i : Instr} {o : Op}
    (hexec : exec i s = run (groupSteps s.cfg c rs bs ++ [.ret .unit]) (beginOp o s)) (hroom : OffloadRoom 1 bs.length s)
    (hc : c < s.cfg.chips) :
    ∃ t, exec i s = .next t ∧ t.trace = s.trace ++ offloadGroupEvents s.cfg c rs bs
      ∧ t.ctlQ.map (·.2) = s.ctlQ.map (·.2) ++ [ctlWord s.cfg.params.ctlMap c rs false]
      ∧ t.dataQ.map (·.2) = s.dataQ.map (·.2) ++ bs ∧ t.selChip = some c ∧ SameTarget s t ∧ t.ret = .unit
      ∧ t.op = s.opAfter := by
  have hroom' := offloadRoom_beginOp hroom o
  obtain ⟨t, hsteps, hqueued, -, hsel, -⟩ := steps_group_offload (nc := 0) (nd := 0) rs s.cfg bs (beginOp_cfg o s)
    (by rwa [Nat.zero_add, Nat.zero_add]) hc
  obtain ⟨hrun, hret, hop, -, -⟩ := steps_returns hsteps hqueued.kept hroom'.2.1
  obtain ⟨htrace, hctl, hdata, htarget⟩ := hqueued.returned .unit
  rw [beginOp_eq] at htrace hctl hdata htarget
  rw [ctlWords_group] at hctl
  rw [dataWords_group] at hdata
  exact ⟨_, hexec.trans hrun, htrace, hctl, hdata, (endOp_selChip ..).trans hsel, htarget, hret, hop.trans (opAfter_beginOp o s)⟩

/-! ## One `LcdWrite` -/

section
variable {s : State} {c : Nat} (htr : s.cfg.transport = .offload) (hown : s.disp ≠ .atYield) (hu : s.slice = none)
  (hsel : s.selChip = some c) (hdata : s.dataQ.length < s.cfg.params.offloadFifoDepth)
include htr hown hu hsel hdata

/-- Under a control word that stands already the data word goes alone. -/
theorem lcdWrite_standing {rs : Bool} (b : Byte) (hstands : s.standingCtl = some (ctlWord s.cfg.params.ctlMap c rs false)) :
    exec (.lcdWrite rs b) s = .next (endOp .unit (((beginOp .lcdWrite s).queueData b).event (.qData b))) := by
  refine (execLcdWrite_offload htr hsel rs b).trans ((ownTransport_of hown _).trans ?_)
  rw [ctlSteps, if_pos hstands, List.nil_append,
    run_next (by simpa using hu) (micro_enqData_room (by simpa using hdata) (.imm b))]
  exact run_ret (by simpa [State.queueData, State.event] using hu) _

/-- Under another the control word of the selected chip goes before it. -/
theorem lcdWrite_changing {rs : Bool} (b : Byte) (hctl : s.ctlQ.length < s.cfg.params.offloadFifoDepth)
    (hother : s.standingCtl ≠ some (ctlWord s.cfg.params.ctlMap c rs false)) :
    exec (.lcdWrite rs b) s
      = .next (endOp .unit (((((beginOp .lcdWrite s).queueCtl (ctlWord s.cfg.params.ctlMap c rs false)).event
          (.qCtl (ctlWord s.cfg.params.ctlMap c rs false))).queueData b).event (.qData b))) := by
  refine (execLcdWrite_offload htr hsel rs b).trans ((ownTransport_of hown _).trans ?_)
  rw [ctlSteps, if_neg hother, List.singleton_append, run_next (by simpa using hu) (micro_enqCtl_room (by simpa using hctl) _),
    run_next (by simpa [State.queueCtl, State.event] using hu)
      (micro_enqData_room (by simpa [State.queueCtl, State.event] using hdata) (.imm b))]
  exact run_ret (by simpa [State.queueData, State.queueCtl, State.event] using hu) _

end

end Sys2Proof.Machine

namespace Sys2Proof
open Machine

/-- Settles O23: one control word and two bytes for each chip. -/
theorem initOnOffload : Obligations.InitOnOffload := by
  unfold Obligations.InitOnOffload
  intro s htr hown hu hctl hdata
  obtain ⟨op', hop, hafter⟩ := beginOp_cases .init s
  obtain ⟨v, hv⟩ : ∃ v : State, v = State.select none { s with op := op' } := ⟨_, rfl⟩
  have hcfg : v.cfg = s.cfg := by rw [hv]; rfl
  have hroom : OffloadRoom (0 + 1 * (List.range s.cfg.chips).length) (0 + 2 * (List.range s.cfg.chips).length) v := by
    rw [List.length_range, Nat.zero_add, Nat.zero_add, Nat.one_mul, hv]
    exact ⟨htr, hu, hctl, hdata⟩
  have hqueues := Queues.flatMap (s₀ := v) (as := List.range s.cfg.chips) fun ch hch =>
    queues_initCommands v (hcfg.symm ▸ List.mem_range.1 hch)
  obtain ⟨t, hsteps, hqueued, -⟩ := hqueues _ _ v rfl hroom
  rw [hcfg] at hsteps hqueued
  have hsetup : Steps (setupSteps s.cfg.transport) (beginOp .init s) v := by
    rw [htr, hop, hv]
    exact .one hu rfl
  obtain ⟨hrun, hinited, hret, hafter'⟩ := run_init hsetup hsteps hqueued.kept hroom.2.1
  obtain ⟨htrace, hctl', hdata', htarget, -⟩ := hqueued
  obtain ⟨hnc, hnd⟩ := initEvents_words s.cfg (List.range s.cfg.chips)
  rw [List.length_range] at hnc hnd
  subst hv
  rw [endOp_eq] at hrun hinited hret hafter'
  exact ⟨_, (exec_init hown).trans hrun, hinited, htrace, hctl', hdata', hnc, hnd, htarget, hret, hafter'.trans hafter⟩

/-- Settles O27: two control words and 66 bytes for each block. -/
theorem printBufferQueues : Obligations.PrintBufferQueues := by
  unfold Obligations.PrintBufferQueues
  intro s buffer htr hown hin hu hlen hctl hdata
  obtain ⟨u, hbegun⟩ : ∃ u, u = printBegun buffer s := ⟨_, rfl⟩
  have hu' : u.slice = none := by rw [hbegun, printBegun_eq]; exact hu
  have hroom : OffloadRoom (0 + 2 * u.cfg.chips * u.cfg.pages) (0 + 66 * u.cfg.chips * u.cfg.pages) u := by
    rw [Nat.zero_add, Nat.zero_add, Nat.mul_right_comm, Nat.mul_right_comm 66, hbegun, printBegun_eq]
    exact ⟨htr, hu, hctl, hdata⟩
  obtain ⟨t, hsteps, hqueued, -⟩ := queues_sweep u (by rw [hbegun]; rfl) _ _ u rfl hroom
  obtain ⟨hrun, hret, hop, -, -⟩ := steps_returns hsteps hqueued.kept hu'
  have hexec : exec (.printBuffer buffer) s = run (sweepSteps u.cfg ++ [.ret .unit]) u := by
    rw [exec_printBuffer hown hin hlen, hbegun, printBegun_eq]
  obtain ⟨htrace, hctl', hdata', htarget⟩ := hqueued.returned .unit
  have hop' : u.opAfter = s.opAfter := by
    rw [hbegun]
    exact opAfter_beginOp .printBuffer s
  rw [printBegun_eq] at hbegun
  subst hbegun
  exact ⟨_, hexec.trans hrun, htrace, hctl', hdata', ctlWords_sweep_length .., dataWords_sweep_length .., htarget, hret,
    hop.trans hop'⟩

/-- Settles O30: a group's control word goes before its bytes, and `LcdWrite`'s before its one where another stands. -/
theorem groupsOnOffload : Obligations.GroupsOnOffload := by
  unfold Obligations.GroupsOnOffload
  refine ⟨fun s c bs htr hown hin hu hc hctl hdata => ?groups, fun s c rs b htr hown hu hsel hctl hdata => ?lcdWrite, by decide⟩
  case groups =>
    have hroom : OffloadRoom 1 bs.length s := ⟨htr, hu, hctl, hdata⟩
    exact ⟨group_offload (exec_cmdGroup hown hin c bs) hroom hc, group_offload (exec_dataGroup hown hin c bs) hroom hc⟩
  case lcdWrite =>
    obtain ⟨op', hop, hafter⟩ := beginOp_cases .lcdWrite s
    by_cases hstands : s.standingCtl = some (ctlWord s.cfg.params.ctlMap c rs false)
    case pos =>
      refine ⟨_, lcdWrite_standing htr hown hu hsel hdata b hstands, ?_⟩
      rw [endOp_eq, hop]
      refine ⟨hstands, by simp [State.queueData, State.event], fun _ => ⟨rfl, rfl⟩, fun h => absurd hstands h, rfl, ⟨rfl, rfl⟩,
        rfl, hafter⟩
    case neg =>
      refine ⟨_, lcdWrite_changing htr hown hu hsel hdata b hctl hstands, ?_⟩
      rw [endOp_eq, hop]
      refine ⟨by simp [State.standingCtl, State.queueData, State.queueCtl, State.event],
        by simp [State.queueData, State.queueCtl, State.event], fun h => absurd h hstands,
        fun _ => ⟨by simp [State.queueData, State.queueCtl, State.event], rfl, rfl⟩, rfl, ⟨rfl, rfl⟩, rfl, hafter⟩

end Sys2Proof
end

section
/-! The offload device: its lines and the LCD behind them, a full queue, and its two consumers (44_fifo_offload.md). -/

namespace Sys2Proof.Machine

/-! ## Data words -/

/-- One chip selected is that one and no other. -/
theorem chipsWhere_eq_singleton {n c : Nat} {sel : Nat → Bool} :
    chipsWhere n sel = [c] ↔ c < n ∧ ∀ k, k < n → sel k = decide (k = c) := by
  refine ⟨fun h => ⟨chipsWhere_lt h, fun k hk => ?_⟩, fun ⟨hc, h⟩ => chipsWhere_one hc h⟩
  have hmem : k ∈ chipsWhere n sel ↔ k = c := by rw [h, List.mem_singleton]
  rw [chipsWhere, List.mem_filter, List.mem_range] at hmem
  rw [Bool.eq_iff_iff, decide_eq_true_iff, ← hmem]
  exact (and_iff_right hk).symm

section
variable {s : State}

theorem drainData_elsewhere (h : s.cfg.transport ≠ .offload) (b : Byte) : drainData b s = .ok (driveData b s) := by
  cases ht : s.cfg.transport with
  | offload => exact absurd ht h
  | direct | coop | spiRelay => simp only [drainData, ht]

variable (htr : s.cfg.transport = .offload)
include htr

/-- Under a driven control word the cycle has its RS and RW. -/
theorem drainData_driven (hd : s.ctlDriven = true) (b : Byte) :
    drainData b s = lcdCycle (chipsWhere s.cfg.chips (ctlChip s.cfg.params.ctlMap s.ctlLines))
      (s.ctlLines.getLsbD s.cfg.params.ctlMap.rs) (s.ctlLines.getLsbD s.cfg.params.ctlMap.rw) b (driveData b s) := by
  simp only [drainData, htr, ctlSeen, driveData_ctlDriven, driveData_ctlLines, hd, if_true, Bool.true_and]

/-- Under a drawn one it is a write. -/
theorem drainData_drawn (hd : s.ctlDriven = false) (b : Byte) :
    drainData b s = lcdCycle (chipsWhere s.cfg.chips (ctlChip s.cfg.params.ctlMap (drawCtl (driveData b s)).1))
      ((drawCtl (driveData b s)).1.getLsbD s.cfg.params.ctlMap.rs) false b (drawCtl (driveData b s)).2 := by
  simp only [drainData, htr, ctlSeen, driveData_ctlDriven, hd, Bool.false_and, Bool.false_eq_true, if_false]

/-! ## The consumers -/

/-- OFF_CTL's move where the order admits the word at its head, and where it does not. -/
theorem offCtlMove_eq {n : Nat} {w : Nibble} {q : List (Nat × Nibble)} (hq : s.ctlQ = (n, w) :: q) :
    offCtlMove s = if drainAdmitted s.cfg.params.offloadOrder n (s.dataQ.head?.map (·.1)) then
      some (drainCtl w { s with ctlQ := q }) else none := by
  simp only [offCtlMove, htr, hq]

/-- OFF_DATA's move where the order admits the word at its head, and where it does not. -/
theorem offDataMove_eq {n : Nat} {b : Byte} {q : List (Nat × Byte)} (hq : s.dataQ = (n, b) :: q) :
    offDataMove s = if drainAdmitted s.cfg.params.offloadOrder n (s.ctlQ.head?.map (·.1)) then
      some (drainData b { s with dataQ := q }) else none := by
  simp only [offDataMove, htr, hq]

end

section
variable {s : State}

theorem liveMove_offCtl_some {t : State} (h : offCtlMove s = some t) : liveMove .offCtl s = .next t := by
  simp only [liveMove, h]

theorem liveMove_offCtl_none (h : offCtlMove s = none) : liveMove .offCtl s = .next s := by
  simp only [liveMove, h]

theorem liveMove_offData_some {r : Except Refusal State} (h : offDataMove s = some r) : liveMove .offData s = ofExcept r := by
  simp only [liveMove, h]

theorem liveMove_offData_none (h : offDataMove s = none) : liveMove .offData s = .next s := by
  simp only [liveMove, h]

end

@[simp] theorem drainAdmitted_independent (n : Nat) (k : Option Nat) : drainAdmitted .independent n k = true := by
  cases k <;> rfl

@[simp] theorem drainAdmitted_none (o : OffloadOrder) (n : Nat) : drainAdmitted o n none = true := by cases o <;> rfl

@[simp] theorem drainAdmitted_merged (n k : Nat) : drainAdmitted .merged n (some k) = decide (n < k) := rfl

/-- The head of a numbered queue has the least number. -/
theorem numbered_head {α : Type} {a : Nat × α} {q : List (Nat × α)} {n : Nat} (h : numbered (a :: q) n) :
    ∀ b ∈ q, a.1 < b.1 := (List.pairwise_cons.1 h.1).1

/-! ## `Enqueue` -/

section
variable {s : State} (htr : s.cfg.transport = .offload) (hown : s.disp ≠ .atYield)
include htr hown

theorem exec_enqueue_ctl (w : Nibble) :
    exec (.enqueue (.ctl w)) s = run [.enqCtl w, .ret .unit] (beginOp .enqueue s) :=
  (ownTransport_of hown _).trans (if_pos htr)

theorem exec_enqueue_data (b : Byte) :
    exec (.enqueue (.data b)) s = run [.enqData (.imm b), .ret .unit] (beginOp .enqueue s) :=
  (ownTransport_of hown _).trans (if_pos htr)

end

section
variable {s : State} (hu : s.slice = none)
include hu

theorem run_enqCtl_room (h : s.ctlQ.length < s.cfg.params.offloadFifoDepth) (w : Nibble) :
    run [.enqCtl w, .ret .unit] s = .next (endOp .unit ((s.queueCtl w).event (.qCtl w))) :=
  (run_next hu (micro_enqCtl_room h w)).trans (run_ret (s := (s.queueCtl w).event (.qCtl w)) hu .unit)

theorem run_enqData_room (h : s.dataQ.length < s.cfg.params.offloadFifoDepth) (b : Byte) :
    run [.enqData (.imm b), .ret .unit] s = .next (endOp .unit ((s.queueData b).event (.qData b))) :=
  (run_next hu (micro_enqData_room h (.imm b))).trans (run_ret (s := (s.queueData b).event (.qData b)) hu .unit)

end

/-- HOST goes on with an `Enqueue` it holds at. -/
theorem liveMove_host_enqCtl {s : State} {w : Nibble} {ms : List Micro} (hwork : s.work = .enqCtl w :: ms) (q : Option Nat) :
    liveMove (.host q) s = run (.enqCtl w :: ms) { s with slice := q, work := [], suspended := false } := by
  simp only [liveMove, hostMove, hwork]

end Sys2Proof.Machine

namespace Sys2Proof
open Machine

/-- Settles O36: a control word is its own drain. -/
theorem controlWordsDrive : Obligations.ControlWordsDrive := by
  unfold Obligations.ControlWordsDrive
  intro s m driven
  have drain {w v : Nibble} (h : w = v) : (.next (drainCtl w s) : Out) = .next (driven v) := h ▸ rfl
  exact ⟨drain (by simp [ctlWord, m]), drain (by simp [ctlWord, m]), drain (by simp [ctlWord, m]), drain (by simp [ctlWord, m])⟩

/-- Settles O37: the chips the lines select are one or are not. -/
theorem dataWordLatches : Obligations.DataWordLatches := by
  unfold Obligations.DataWordLatches
  intro s b s1 m oneChip
  have one {w : Nibble} {c : Nat} : chipsWhere s.cfg.chips (ctlChip m w) = [c] ↔ oneChip w c := chipsWhere_eq_singleton
  have exec_eq {r : Except Refusal State} (h : drainData b s = r) : exec (.dataWord b) s = ofExcept r := congrArg ofExcept h
  refine ⟨fun htr => exec_eq (drainData_elsewhere htr b), fun htr hd => ⟨fun c cmd hc hcmd => ?acts, fun hnone => ?refused⟩,
    fun htr hd => ⟨fun c cmd hc hcmd => ?drawnActs, fun hnone => ?drawnRefused⟩⟩
  case acts =>
    refine exec_eq (r := .ok _) ((drainData_driven htr hd b).trans ?_)
    refine (congrArg (lcdCycle · _ _ b _) (one.2 hc)).trans ?_
    exact lcdCycle_one c _ _ b _ hcmd
  case refused =>
    exact exec_eq (r := .error _) ((drainData_driven htr hd b).trans (lcdCycle_not _ _ b _ fun c hc => hnone c (one.1 hc)))
  case drawnActs =>
    refine exec_eq (r := .ok _) ((drainData_drawn htr hd b).trans ?_)
    refine (congrArg (lcdCycle · _ _ b _) (one.2 hc)).trans ?_
    exact lcdCycle_one c _ _ b _ hcmd
  case drawnRefused =>
    exact exec_eq (r := .error _) ((drainData_drawn htr hd b).trans (lcdCycle_not _ _ b _ fun c hc => hnone c (one.1 hc)))

/-- Settles O38: the word is appended, or the step holds and is made again once a word has drained. -/
theorem enqueueResult : Obligations.EnqueueResult := by
  unfold Obligations.EnqueueResult
  intro s htr hown hu
  obtain ⟨op', hop, hafter⟩ := beginOp_cases .enqueue s
  refine ⟨fun w hroom => ?ctl, fun b hroom => ?data, fun w n v q hq hfull hwork horder => ?drained, fun b hfull => ?held⟩
  case ctl =>
    refine ⟨_, (exec_enqueue_ctl htr hown w).trans (run_enqCtl_room (by simpa using hu) (by simpa using hroom) w), ?_⟩
    rw [endOp_eq, hop]
    exact ⟨rfl, rfl, rfl, rfl, rfl, hafter⟩
  case data =>
    refine ⟨_, (exec_enqueue_data htr hown b).trans (run_enqData_room (by simpa using hu) (by simpa using hroom) b), ?_⟩
    rw [endOp_eq, hop]
    exact ⟨rfl, rfl, rfl, rfl, rfl, hafter⟩
  case drained =>
    obtain ⟨t, ht⟩ : ∃ t, t = (beginOp .enqueue s).leave [.enqCtl w, .ret .unit] := ⟨_, rfl⟩
    have held : exec (.enqueue (.ctl w)) s = .next t := by
      rw [ht, exec_enqueue_ctl htr hown]
      exact run_hold (by simpa using hu) (micro_enqCtl_full (by simpa using hfull) w)
    have hq' : t.ctlQ = (n, v) :: q := by simpa [ht] using hq
    have drains : liveMove .offCtl t = .next (drainCtl v { t with ctlQ := q }) :=
      liveMove_offCtl_some ((offCtlMove_eq (by simpa [ht] using htr) hq').trans (if_pos (by simp [ht, horder])))
    have hwork' : t.work = [.enqCtl w, .ret .unit] := by simp [ht, State.leave, hwork]
    have hroom : q.length < t.cfg.params.offloadFifoDepth := by
      rw [ht, leave_cfg, beginOp_cfg, ← hfull, hq]
      exact Nat.lt_succ_self _
    have goesOn := (liveMove_host_enqCtl (s := drainCtl v { t with ctlQ := q }) hwork' none).trans (run_enqCtl_room rfl hroom w)
    refine ⟨t, _, _, held, hq'.trans hq.symm, by simp [ht], by simp [ht], drains, rfl, goesOn, ?_, ?_⟩
    · rw [endOp_ctlQ, ht, hop]
      rfl
    · rw [endOp_eq, ht, hop]
      exact hafter
  case held =>
    refine ⟨_, (exec_enqueue_data htr hown b).trans
      (run_hold (by simpa using hu) (micro_enqData_full (by simpa using hfull) (.imm b))), ?_⟩
    rw [hop]
    exact ⟨rfl, rfl, rfl, rfl⟩

/-- Settles O39: a consumer drains where the order admits its head's number, and numbers rise along a queue. -/
theorem consumersDrainInOrder : Obligations.ConsumersDrainInOrder := by
  unfold Obligations.ConsumersDrainInOrder
  refine ⟨fun s k b r htr hq hn => ⟨fun hfree => ?data, numbered_head (hq ▸ hn)⟩,
    fun s n w q htr hq hn hnd => ⟨fun horder => ?independent, fun horder hbelow => ?first, fun horder ⟨a, ha, hle⟩ => ?waits,
      numbered_head (hq ▸ hn), fun k b r hdata horder => ⟨fun hle => ?dataWaits, fun hlt => ?dataFirst⟩⟩⟩
  case data =>
    refine liveMove_offData_some ((offDataMove_eq htr hq).trans (if_pos ?_))
    cases hfree with
    | inl h => simp [h]
    | inr h => simp [h]
  case independent => exact liveMove_offCtl_some ((offCtlMove_eq htr hq).trans (if_pos (by simp [horder])))
  case first =>
    refine liveMove_offCtl_some ((offCtlMove_eq htr hq).trans (if_pos ?_))
    cases hd : s.dataQ with
    | nil => simp
    | cons a r => simpa [horder] using hbelow a (by simp [hd])
  case waits =>
    refine liveMove_offCtl_none ((offCtlMove_eq htr hq).trans (if_neg ?_))
    cases hd : s.dataQ with
    | nil => simp [hd] at ha
    | cons head r =>
      have hhead : head.1 ≤ a.1 := by
        rw [hd] at ha hnd
        cases ha with
        | head => exact Nat.le_refl _
        | tail _ hmem => exact (numbered_head hnd a hmem).le
      simpa [horder] using hhead.trans hle
  case dataWaits => exact liveMove_offData_none ((offDataMove_eq htr hdata).trans (if_neg (by simpa [horder, hq] using hle)))
  case dataFirst => exact liveMove_offData_some ((offDataMove_eq htr hdata).trans (if_pos (by simpa [horder, hq] using hlt)))

end Sys2Proof
end

section
/-! Errors: their codes, what taking one leaves, and the moves after it (60_exceptions.md). -/

namespace Sys2Proof.Machine

theorem step_faulted {s : State} {e : Fault} {m : Move} {ms : List Move} (herr : s.err = some e) (hsched : s.sched = m :: ms) :
    step s = faultedMove e m { s with sched := ms } := by
  simp only [step, stepMove, hsched, agentMove, herr]

theorem offCtlMove_empty {s : State} (h : s.ctlQ = []) : offCtlMove s = none := by
  cases ht : s.cfg.transport with
  | direct | coop | offload | spiRelay => simp only [offCtlMove, h, ht]

theorem offDataMove_empty {s : State} (h : s.dataQ = []) : offDataMove s = none := by
  cases ht : s.cfg.transport with
  | direct | coop | offload | spiRelay => simp only [offDataMove, h, ht]

/-- With nothing to drain every move answers the error. -/
theorem faultedMove_drained {s : State} (e : Fault) (m : Move) (hctl : s.ctlQ = []) (hdata : s.dataQ = []) :
    faultedMove e m s = .fault e := by
  cases m with
  | offCtl => simp only [faultedMove, offCtlMove_empty hctl]
  | offData => simp only [faultedMove, offDataMove_empty hdata]
  | _ => rfl

theorem faultedMove_offCtl {s t : State} {e : Fault} (h : offCtlMove s = some t) : faultedMove e .offCtl s = .next t := by
  simp only [faultedMove, h]

end Sys2Proof.Machine

namespace Sys2Proof
open Machine

/-- Settles O40: `raise` writes what it says, and after it only the consumers move. -/
theorem errorsEndTheRun : Obligations.ErrorsEndTheRun := by
  unfold Obligations.ErrorsEndTheRun
  refine ⟨fun e s => ⟨rfl, rfl, rfl, rfl, rfl, rfl, rfl, ⟨rfl, rfl⟩, ⟨rfl, rfl, rfl, rfl, rfl, rfl, rfl⟩,
      ⟨rfl, rfl, rfl, rfl, rfl, rfl, rfl⟩, rfl, rfl, rfl⟩,
    fun s e m ms herr hsched => ⟨fun hm => ?hostsMove, fun hctl hdata => ?drained, fun n w q hm htr horder hq => ?drains⟩,
    fun _ => rfl, fun _ _ => rfl, fun _ _ => rfl, fun _ => rfl, fun _ _ _ => rfl, fun _ => rfl, fun _ => rfl⟩
  case hostsMove =>
    rw [step_faulted herr hsched]
    obtain ⟨q, rfl⟩ | ⟨x, q, rfl⟩ := hm
    · rfl
    · rfl
  case drained => exact (step_faulted herr hsched).trans (faultedMove_drained e m hctl hdata)
  case drains =>
    subst hm
    refine (step_faulted herr hsched).trans (faultedMove_offCtl ?_)
    exact (offCtlMove_eq (s := { s with sched := ms }) htr hq).trans (if_pos (by simp [horder]))

end Sys2Proof
end

section
/-! What display RAM shows after a sweep on a transport that carries its writes (42_write_protocol.md R215, 40_addressing.md R164). -/

namespace Sys2Proof.Machine

section
variable {s : State} {buffer : List Byte} (hown : s.disp ≠ .atYield) (hin : s.inited = true)
  (hlen : buffer.length = s.cfg.buflen)
include hown hin hlen

/-- The sweep on a transport that carries writes, from its call to its return. -/
theorem Carrier.printCall {P : List Write → State → State → Prop} {room : Nat → State → Prop} (h : Carrier P room)
    (hroom : room (0 + 66 * s.cfg.pages * s.cfg.chips) (printBegun buffer s)) :
    ∃ t, exec (.printBuffer buffer) s = .next (endOp .unit t) ∧ P (sweepWrites s.cfg buffer) (printBegun buffer s) t
      ∧ (endOp .unit t).err = s.err ∧ (endOp .unit t).op = s.opAfter ∧ (endOp .unit t).ret = .unit := by
  obtain ⟨u, hu⟩ : ∃ u, u = printBegun buffer s := ⟨_, rfl⟩
  have hafter : u.opAfter = s.opAfter := by
    rw [hu]
    exact opAfter_beginOp .printBuffer s
  rw [printBegun_eq] at hu
  have hcfg : u.cfg = s.cfg := by rw [hu]
  have hfb : u.fb = buffer := by rw [hu]
  have herr : u.err = s.err := by rw [hu]
  rw [printBegun_eq, ← hu] at hroom ⊢
  obtain ⟨t, hsteps, hwrote, -, hkept⟩ := h.sweep (hcfg.symm ▸ hroom) (by rw [hu])
  obtain ⟨hrun, hret, hop, -, herr'⟩ := steps_returns hsteps hkept (h.unbounded hroom)
  rw [hcfg] at hrun
  rw [hcfg, hfb] at hwrote
  refine ⟨t, ?_, hwrote, herr'.trans herr, hop.trans hafter, hret⟩
  rw [exec_printBuffer hown hin hlen, printBegun_eq, ← hu]
  exact hrun

end

/-- The framebuffer's byte for a place of an admitted geometry. -/
theorem buffer_at_offset {c : Cfg} (hg : geometryOk c.width c.height c.transport c.params = true) {buffer : List Byte}
    (hlen : buffer.length = c.buflen) {page chip column : Nat} (hpage : page < c.pages) (hchip : chip < c.chips)
    (hcol : column < 64) :
    buffer[column + 64 * chip + page * c.width]? = some (buffer.getD (column + 64 * chip + page * c.width) 0#8) := by
  obtain ⟨hw, -, hw64, hh8⟩ := geometryOk_sizes hg
  obtain ⟨hlt, -⟩ := (offsetBijection c hw hw64 hh8).1 page chip column hpage hchip hcol
  have hin : column + 64 * chip + page * c.width < buffer.length := hlen ▸ hlt
  rw [List.getD_eq_getElem?_getD, List.getElem?_eq_getElem hin, Option.getD_some]

/-- A sweep shows the framebuffer wherever no later page aliases. -/
theorem Acted.shows {c : Cfg} {buffer : List Byte} {u t : State} (h : Acted (sweepWrites c buffer) u t)
    (hl : u.lcd.length = c.chips) (hw : Mem.wf dramDefault u.dram) {page chip column : Nat} (hpage : page < c.pages)
    (hlast : c.pages ≤ page + 8) (hchip : chip < c.chips) (hcol : column < 64) :
    (endOp .unit t).dramRead chip (page % 8) column = buffer.getD (column + 64 * chip + page * c.width) 0#8 := by
  obtain ⟨-, -, hlisted, -⟩ := actAll_sweep c buffer c.pages u hl.ge hw
  refine dramRead_of_listed ?_
  rw [State.ramListed, endOp_dram, h.2]
  exact hlisted page chip column hpage hlast hchip hcol

end Sys2Proof.Machine

namespace Sys2Proof
open Machine

/-- Settles O26: on either kind of transport the sweep is the same writes. -/
theorem printBufferShows : Obligations.PrintBufferShows := by
  unfold Obligations.PrintBufferShows
  intro s buffer hready hg hp hown hin hlen hl hwf hdram
  have hlcd : (printBegun buffer s).lcd.length = s.cfg.chips := by rw [printBegun_eq]; exact hl
  have hram : Mem.wf dramDefault (printBegun buffer s).dram := by rw [printBegun_eq]; exact hdram
  have shows {t : State} (h : Acted (sweepWrites s.cfg buffer) (printBegun buffer s) t) (page chip column : Nat)
      (hpage : page < s.cfg.pages) (hlast : s.cfg.pages ≤ page + 8) (hchip : chip < s.cfg.chips) (hcol : column < 64) :
      buffer[column + 64 * chip + page * s.cfg.width]? = some ((endOp .unit t).dramRead chip (page % 8) column) := by
    rw [buffer_at_offset hg hlen hpage hchip hcol, h.shows hlcd hram hpage hlast hchip hcol]
  cases hready with
  | inl hbang =>
    obtain ⟨hb, hu, hpolls⟩ := hbang
    have hroom : BangRoom (0 + 66 * s.cfg.pages * s.cfg.chips) (printBegun buffer s) := by
      rw [printBegun_eq, Nat.zero_add]
      exact ⟨hb, hu, hpolls⟩
    obtain ⟨t, hrun, hwrote, herr, hop, hret⟩ := bangCarrier.printCall hown hin hlen hroom
    exact ⟨_, hrun, herr, hop, hret, fun ht => absurd (ht ▸ hb) (by decide), shows hwrote.acted⟩
  | inr hrelay =>
    have hroom : RelayRoom (printBegun buffer s) := by
      rw [printBegun_eq]
      exact .of_ready hrelay hg hp (hwf .relay)
    obtain ⟨t, hrun, hwrote, herr, hop, hret⟩ := relayCarrier.printCall hown hin hlen hroom
    refine ⟨_, hrun, herr, hop, hret, fun _ => ?_, shows hwrote.acted⟩
    rw [endOp_trace, hwrote.trace, printBegun_eq]
    rfl

end Sys2Proof
end

section
/-! What the transport calls leave unchanged, and what they leave of display RAM (42_write_protocol.md, 41_lcd_commands.md). -/

namespace Sys2Proof.Machine

variable {s t : State}

/-! ## Steps that send nothing -/

/-- The steps of the transport calls that make no LCD cycle and no frame. -/
inductive QuietStep : Micro → Prop
  | selectChip (c) : QuietStep (.selectChip c)
  | enqCtl (w) : QuietStep (.enqCtl w)
  | enqData (src) : QuietStep (.enqData src)
  | ret (r) : QuietStep (.ret r)

theorem micro_quiet {m : Micro} (hm : QuietStep m) {u : State} (h : SameDram s u) :
    (micro m u).keeps (SameDram s) (SameDram s) (fun _ => True) := by
  cases hm with
  | selectChip c =>
    exact MRes.keeps_mono (selectChipStep_keeps c) (fun _ hv => hv.2.1.trans h) (fun _ hv => hv.2.trans h) fun _ _ => trivial
  | enqCtl w => simp only [micro, enqueueCtl]; split <;> exact h
  | enqData src => simp only [micro, enqueueData]; split <;> exact h
  | ret r => exact (endOp_dram ..).trans h

theorem run_quiet {ms : List Micro} (hms : ∀ m ∈ ms, QuietStep m) {u : State} (h : run ms u = .next t) : SameDram u t :=
  run_keeps_class (Q := QuietStep) (fun _ h => h) (fun _ _ h => h) (fun _ h => h) (fun _ _ hm hu => micro_quiet hm hu) hms rfl h

theorem quiet_return {m : Micro} (hm : QuietStep m) (r : RetSpec) : ∀ m' ∈ [m, .ret r], QuietStep m' := by
  simp only [List.forall_mem_cons]
  exact ⟨hm, .ret r, List.forall_mem_nil _⟩

/-! ## Calls that send no data -/

theorem selectChip_sameDram {c : Nat} (h : exec (.selectChip c) s = .next t) : SameDram s t :=
  (run_quiet (quiet_return (.selectChip c) .unit) (afterInit_next (ownTransport_next h))).trans (beginOp_dram ..)

theorem enqueue_sameDram {w : QWord} (h : exec (.enqueue w) s = .next t) : SameDram s t := by
  have h := ownTransport_next h
  split at h
  case isFalse => cases h
  case isTrue =>
    cases w with
    | ctl v => exact (run_quiet (quiet_return (.enqCtl v) .unit) h).trans (beginOp_dram ..)
    | data b => exact (run_quiet (quiet_return (.enqData (.imm b)) .unit) h).trans (beginOp_dram ..)

theorem bufferOffset_sameDram {page chip column : Nat} (h : exec (.bufferOffset page chip column) s = .next t) : SameDram s t := by
  simp only [exec, execBufferOffset] at h
  split at h <;> cases h <;> rfl

/-! ## Calls on DIRECT and COOP -/

section
variable (hb : s.cfg.transport.bitBang = true)
include hb

theorem cmdGroup_sameDram {c : Nat} {bs : List Byte} (h : exec (.cmdGroup c bs) s = .next t) : SameDram s t :=
  run_group_commands hb (beginOp_dram ..) (afterInit_next (ownTransport_next h))

/-- `LcdWrite` is the sequencer's steps. -/
theorem lcdWrite_steps {rs : Bool} {b : Byte} (h : exec (.lcdWrite rs b) s = .next t) :
    run (fsmSteps rs (.imm b) ++ [.ret .unit]) (beginOp .lcdWrite s) = .next t := by
  have hown : s.disp ≠ .atYield := fun hy => by
    rw [show exec (.lcdWrite rs b) s = .refused .undefinedConcurrentUse from if_pos hy] at h
    cases h
  rwa [exec_lcdWrite_bitBang hb hown] at h

theorem lcdWrite_command_sameDram {b : Byte} (h : exec (.lcdWrite false b) s = .next t) : SameDram s t :=
  run_fsm_command (s := s) (ms := [.ret .unit]) (beginOp_dram ..) (commandStep_app (l := []) fun _ hm => nomatch hm)
    (lcdWrite_steps hb h)

/-- After the setup RS is low, and every later step of `init` sends a command. -/
theorem init_sameDram (h : exec .init s = .next t) : SameDram s t := by
  have hsteps : initSteps s.cfg = .bitBangSetup :: (((List.range s.cfg.chips).flatMap fun ch =>
      .selectChip ch :: groupSteps s.cfg ch false [0x3F#8, 0xC0#8]) ++ [.setInited, .ret .unit]) := by
    rw [initSteps, setupSteps_bitBang hb]
    rfl
  have h := ownTransport_next h
  rw [hsteps] at h
  obtain ht | ⟨u, hu, hrest⟩ := run_first (m := .bitBangSetup) (P' := CommandKept s) (R := SameDram s)
    (show CommandKept s (bitBangSetup (beginOp .init s).tick) from ⟨rfl, beginOp_dram .init s⟩) (beginOp_dram ..) (fun _ _ hv => hv.2) h
  · exact ht
  refine run_commands (fun m hm => ?_) hu hrest
  rw [List.mem_append, List.mem_flatMap] at hm
  obtain ⟨ch, -, hm⟩ | hm := hm
  · rw [groupSteps, groupHead_bitBang hb] at hm
    simp only [byteSteps_bitBang hb, List.mem_cons, List.mem_append, List.mem_flatMap] at hm
    obtain rfl | (rfl | hm) | ⟨b, -, hm⟩ := hm
    · exact .selectChip _
    · exact .groupSelect _
    · cases hm
    · exact commandStep_fsm m hm
  · simp only [List.mem_cons, List.not_mem_nil, or_false] at hm
    obtain rfl | rfl := hm
    · exact .setInited
    · exact .ret _

/-- All of display RAM stays but the byte at chip `c`'s page and column. -/
def ByteKept (s : State) (c : Nat) (t : State) : Prop :=
  ∀ a, a ≠ dramAddr c (s.chip c).x (s.chip c).y → Mem.read dramDefault t.dram a = Mem.read dramDefault s.dram a

theorem lcdWrite_data_byteKept (hw : Mem.wf dramDefault s.dram) {c : Nat} {b : Byte} (hsel : s.selChip = some c)
    (h : exec (.lcdWrite true b) s = .next t) : ByteKept s c t := by
  have hdram : (beginOp .lcdWrite s).dram = s.dram := beginOp_dram ..
  have hlcd : (beginOp .lcdWrite s).lcd = s.lcd := beginOp_lcd ..
  have kept {v : State} (hv : v.dram = s.dram) : ByteKept s c v := fun _ _ => by rw [hv]
  have acted {v : State} (d : Byte) (hv : v.dram = (lcdRespond c (.data d) (beginOp .lcdWrite s)).dram) : ByteKept s c v := by
    intro a ha
    rw [hv, (lcdRespond_target c (.data d) hlcd hdram).2]
    exact Mem.read_write_other hw _ ha
  obtain ht | ⟨v, hv, hrest⟩ := run_fsm_data (P' := ByteKept s c) (R := ByteKept s c) (c := c) ((beginOp_selChip ..).trans hsel)
    (fun v _ _ hd _ => kept (hd.trans hdram)) (fun v d _ _ hd _ => acted d hd) (fun _ _ hv => hv) (fun _ hv => hv)
    (lcdWrite_steps hb h)
  · exact ht
  · have hend : SameDram v t := run_quiet (ms := [.ret .unit]) (List.forall_mem_singleton.2 (.ret .unit)) hrest
    exact fun a ha => by rw [hend, hv a ha]

/-- All of display RAM stays but chip `c`'s page. -/
def OutsidePage (s : State) (c : Nat) (t : State) : Prop :=
  ∀ a, (a < dramAddr c (s.chip c).x 0#6 ∨ dramAddr c (s.chip c).x 0#6 + 64 ≤ a) →
    Mem.read dramDefault t.dram a = Mem.read dramDefault s.dram a

/-- The chip is selected, or BadIndex is raised, and then the bytes go out to it. -/
theorem dataGroup_outsidePage (hw : Mem.wf dramDefault s.dram) {c : Nat} {ds : List Byte}
    (h : exec (.dataGroup c ds) s = .next t) : OutsidePage s c t := by
  have h := afterInit_next (ownTransport_next h)
  rw [groupSteps, groupHead_bitBang hb] at h
  simp only [byteSteps_bitBang hb] at h
  obtain ⟨u, hu⟩ : ∃ u, u = beginOp .dataGroup s := ⟨_, rfl⟩
  have hcfg : u.cfg = s.cfg := by rw [hu, beginOp_cfg]
  have hlcd : u.lcd = s.lcd := by rw [hu, beginOp_lcd]
  have hdram : u.dram = s.dram := by rw [hu, beginOp_dram]
  rw [← hu] at h
  have outside {v : State} (hv : v.dram = s.dram) : OutsidePage s c v := fun _ _ => by rw [hv]
  have selected {v : State} (h1 : v.cfg = s.cfg) (h2 : v.selChip = some c) (h3 : v.lcd = s.lcd) (h4 : v.dram = s.dram) :
      PageKept s c v := ⟨h1, h2, by rw [chip_congr h3], h4 ▸ hw, fun _ _ => by rw [h4]⟩
  have hselect : (micro (.groupSelect c) u.tick).keeps (PageKept s c) (OutsidePage s c) (fun _ => True) := by
    simp only [micro]
    split
    · exact selected hcfg ‹_› hlcd hdram
    · exact MRes.keeps_mono (selectChipStep_keeps c)
        (fun v ⟨h1, h2, h3, h4⟩ => selected (h1.trans hcfg) h4 (h3.trans hlcd) (h2.trans hdram))
        (fun v ⟨_, h2⟩ => outside (h2.trans hdram)) (fun _ _ => trivial)
  obtain ht | ⟨v, hv, hrest⟩ := run_first hselect (outside hdram) (fun _ _ hv => hv.same) h
  · exact ht
  · exact (run_data_bytes ds hv hrest).same

end

end Sys2Proof.Machine

namespace Sys2Proof
open Machine

/-- Settles O31: by what each step of a transport call leaves. -/
theorem facadeFrame : Obligations.FacadeFrame := by
  unfold Obligations.FacadeFrame
  intro s t i hi ht
  have hload : (∀ buffer, i ≠ .printBuffer buffer) ∨ ∃ buffer, i = .printBuffer buffer := by
    by_cases h : ∃ buffer, i = .printBuffer buffer
    · exact .inr h
    · exact .inl fun buffer e => h ⟨buffer, e⟩
  obtain ⟨hcfg, hgpio, hcaller, ⟨hints, hsnap⟩, ⟨hctl, hdriven, hdata, hstrobe⟩, hfb, hbang, hoff, hrelay⟩ := exec_facade hi hload ht
  exact ⟨hcfg, hgpio, hcaller, hints, hsnap, hctl, hdriven, hdata, hstrobe,
    fun hno => hfb.resolve_left fun ⟨buffer, e⟩ => hno buffer e, hbang, hoff, hrelay⟩

/-- Settles O32: no call but `construct` changes the draws, so a written byte that stays is a byte that stays. -/
theorem facadeDisplayRamFrame : Obligations.FacadeDisplayRamFrame := by
  unfold Obligations.FacadeDisplayRamFrame
  intro s t i ht hw same
  have sameOf (hi : ∀ w h tr b, i ≠ .construct w h tr b) {a : Nat} (ha : Mem.read dramDefault t.dram a = Mem.read dramDefault s.dram a) :
      same a := dramAt_congr (exec_ramDraws hi ht) ha
  have sameAll (hi : ∀ w h tr b, i ≠ .construct w h tr b) (hd : SameDram s t) (a : Nat) : same a := sameOf hi (by rw [hd])
  refine ⟨fun hi a => ?silent, fun hb hi a => ?commands, fun hb c b hsel hi a ha => ?byte, fun hb c ds hi a ha => ?page,
    fun hoff hi a ha => ?beyond⟩
  case silent =>
    obtain ⟨c, rfl⟩ | ⟨w, rfl⟩ | ⟨p, c, k, rfl⟩ := hi
    · exact sameAll nofun (selectChip_sameDram ht) a
    · exact sameAll nofun (enqueue_sameDram ht) a
    · exact sameAll nofun (bufferOffset_sameDram ht) a
  case commands =>
    obtain rfl | ⟨c, bs, rfl⟩ | ⟨b, rfl⟩ := hi
    · exact sameAll nofun (init_sameDram hb ht) a
    · exact sameAll nofun (cmdGroup_sameDram hb ht) a
    · exact sameAll nofun (lcdWrite_command_sameDram hb ht) a
  case byte =>
    subst hi
    exact sameOf nofun (lcdWrite_data_byteKept hb hw hsel ht a ha)
  case page =>
    subst hi
    exact sameOf nofun (dataGroup_outsidePage hb hw ht a ha)
  case beyond =>
    have hno : ∀ w h tr b, i ≠ .construct w h tr b := fun w h tr b e => by rw [e] at hi; cases hi
    exact sameOf hno ((exec_beyond hi hw ht).same a ha)

end Sys2Proof
end

section
/-! The expander operations: their checks, and the shadows, frames and registers of those that write, where no frame fails
(46_expander_ops.md). -/

namespace Sys2Proof.Machine

/-! ## Checks -/

theorem withPins_valid {ns : List Int} (h : ∀ n ∈ ns, validPin n = true) (s : State) (k : Out) : withPins ns s k = k := by
  have hnone : firstBadPin ns = none := List.find?_eq_none.2 fun n hn => by simp [h n hn]
  rw [withPins, hnone]

theorem withShadow_some {k : Kind} {sk : ShKind} (h : k.shadow = some sk) (s : State) (f : ShKind → Out) :
    withShadow k s f = f sk := by
  rw [withShadow, h]

theorem shadow_isSome {k : Kind} (h1 : k ≠ .intf) (h2 : k ≠ .intcap) (h3 : k ≠ .gpio) : ∃ sk, k.shadow = some sk := by
  cases k with
  | intf | intcap | gpio => contradiction
  | _ => exact ⟨_, rfl⟩

theorem setupArgsOk_iff {d : Direction} {fs : List SetupFlag} :
    setupArgsOk d fs = true ↔ (d = .input ∨ d = .output) ∧ ∀ f ∈ fs, f = .pullUp ∨ f = .invert := by
  simp only [setupArgsOk, Bool.and_eq_true, Bool.or_eq_true, beq_iff_eq, List.all_eq_true]

/-- A number from 0x80 to 0xFF is a byte with bit 7 set. -/
theorem ofNat_bit7 {n : Nat} (h : 0x80 ≤ n) (h' : n < 0x100) : (BitVec.ofNat 8 n).getLsbD 7 = true := by
  have hhigh : n / 2 ^ 7 = 1 := by omega
  rw [BitVec.getLsbD_ofNat, Nat.testBit_eq_decide_div_mod_eq, hhigh]
  rfl

/-! ## From a call's steps to its return -/

/-- `s` is inside the operation a call has begun in `s₀`: only `op` may differ. -/
structure Begun (s₀ s : State) : Prop where
  eq : ∃ o, s = { s₀ with op := o }
  after : s.opAfter = s₀.opAfter

theorem beginOp_begun (o : Op) (s : State) : Begun s (beginOp o s) := ⟨⟨_, beginOp_eq o s⟩, opAfter_beginOp o s⟩

section
variable {s₀ s : State} (h : Begun s₀ s)
include h

theorem Begun.exp (x : ExpId) : s.exp x = s₀.exp x := by obtain ⟨⟨o, rfl⟩, -⟩ := h; rfl
theorem Begun.trace : s.trace = s₀.trace := by obtain ⟨⟨o, rfl⟩, -⟩ := h; rfl
theorem Begun.cmdW (x : ExpId) : s.cmdW x = s₀.cmdW x := by obtain ⟨⟨o, rfl⟩, -⟩ := h; rfl
theorem Begun.seq (x : ExpId) : s.seq x = s₀.seq x := by obtain ⟨⟨o, rfl⟩, -⟩ := h; rfl
theorem Begun.work : s.work = s₀.work := by obtain ⟨⟨o, rfl⟩, -⟩ := h; rfl
theorem Begun.calm (hc : s₀.calm) : s.calm := by obtain ⟨⟨o, rfl⟩, -⟩ := h; exact hc
theorem Begun.eLow {x : ExpId} (hl : s₀.eLow x) : s.eLow x := by obtain ⟨⟨o, rfl⟩, -⟩ := h; exact hl
theorem Begun.noFall {v : Half} (hno : s₀.noFall v) : s.noFall v := by obtain ⟨⟨o, rfl⟩, -⟩ := h; exact hno

end

/-- Steps that leave what HOST has in progress as it was, and the call's return. -/
theorem call_returns {ms : List Micro} {s₀ s t : State} (hb : Begun s₀ s) (hsteps : Steps ms s t) (hu : t.slice = none)
    (hkept : t.op = s.op ∧ t.work = s.work ∧ t.disp = s.disp) {r : RetSpec} {v : RetVal} (hr : r.value t = v) :
    run (ms ++ [.ret r]) s = .next (endOp v t) ∧ (endOp v t).op = s₀.opAfter ∧ (endOp v t).work = s₀.work := by
  obtain ⟨hop, hwork, hdisp⟩ := hkept
  have hafter : t.opAfter = s₀.opAfter := by
    rw [← hb.after]
    simp only [State.opAfter, hop, hdisp]
  refine ⟨(hsteps.run_append _).trans (hr ▸ run_ret hu r), ?_, (endOp_work ..).trans (hwork.trans hb.work)⟩
  rw [endOp_eq]
  exact hafter

/-- What the steps of a serial operation leave of HOST's state, its return leaves too, but for the result and `op`. -/
theorem serial_returns {x : ExpId} {ms : List Micro} {s₀ s t : State} (hb : Begun s₀ s) (hsteps : Steps ms s t)
    (h : SerialCalm x s t) {r : RetSpec} {v : RetVal} (hr : r.value t = v) :
    run (ms ++ [.ret r]) s = .next (endOp v t) ∧ (endOp v t).inTxn = false ∧ (endOp v t).op = s₀.opAfter
      ∧ (endOp v t).work = s₀.work := by
  obtain ⟨-, hop, hwork, hdisp, htxn⟩ := h.rest
  obtain ⟨hrun, hop', hwork'⟩ := call_returns hb hsteps h.calm.1 ⟨hop, hwork, hdisp⟩ hr
  exact ⟨hrun, (endOp_inTxn ..).trans htxn, hop', hwork'⟩

theorem SerialCalm.trans {x : ExpId} {s t u : State} (h : SerialCalm x s t) (h' : SerialCalm x t u) : SerialCalm x s u := by
  obtain ⟨hcfg, hop, hwork, hdisp, -⟩ := h.rest
  obtain ⟨hcfg', hop', hwork', hdisp', htxn⟩ := h'.rest
  exact ⟨h'.calm, ⟨hcfg'.trans hcfg, hop'.trans hop, hwork'.trans hwork, hdisp'.trans hdisp, htxn⟩, h'.wf⟩

/-- `t` is `s` after the register of a shadow was given the value `v`, by one frame. -/
structure RegWrote (x : ExpId) (k : ShKind) (p : Port) (v : Byte) (s t : State) : Prop where
  calm : SerialCalm x s t
  sh : (t.exp x).sh = (s.exp x).sh.set k p v
  dev : ∀ a, (t.exp x).devRead a = if a = (regAddr k p).toNat then some v else (s.exp x).devRead a
  trace : t.trace = s.trace ++ [.frameW (s.cmdW x) (regAddr k p) [v]]
  cmdW : t.cmdW x = s.cmdW x

/-- A step that writes a shadow, and the frame of its register. -/
theorem steps_regWrote {x : ExpId} {k : ShKind} {p : Port} {v : Byte} {s : State} {m : Micro} (hc : s.calm)
    (hw : Mem.wf devDefault (s.exp x).dev) (hq : s.quietLanding x (regAddr k p) [v])
    (hm : micro m s = .next (s.setShadow x k p v)) : ∃ t, Steps (m :: writeRegSteps x k p) s t ∧ RegWrote x k p v s t := by
  obtain ⟨hsteps, hcalm⟩ := steps_regWritten_kept v hc hw hq hm
  exact ⟨_, hsteps, hcalm, congrArg Expander.sh (regWritten_exp_same ..), regWritten_devRead hw, regWritten_trace ..,
    regWritten_cmdW ..⟩

/-- One bit of a shadow, and the frame of the whole register (R305, R307). -/
theorem steps_bitWrote {x : ExpId} {k : ShKind} {p : Port} (i : Nat) (b : Bool) {s : State} (hc : s.calm)
    (hw : Mem.wf devDefault (s.exp x).dev) (hq : ∀ v, s.quietLanding x (regAddr k p) [v]) :
    ∃ t, Steps (.shadowBit x k p i b :: writeRegSteps x k p) s t ∧ RegWrote x k p (setBit ((s.exp x).sh.get k p) i b) s t :=
  steps_regWrote hc hw (hq _) rfl

theorem regAddr_ne {k k' : ShKind} (h : k' ≠ k) (p p' : Port) : regAddr k' p' ≠ regAddr k p := fun e =>
  h ((regAddr_eq_iff ..).1 e).1

section
variable {x : ExpId} {k : ShKind} {p : Port} {v : Byte} {s t : State} (h : RegWrote x k p v s t)
include h

theorem RegWrote.get_same : (t.exp x).sh.get k p = v := by rw [h.sh, RegFile.get_set_same]

theorem RegWrote.get_other {k' : ShKind} (hk : k' ≠ k) (p' : Port) : (t.exp x).sh.get k' p' = (s.exp x).sh.get k' p' := by
  rw [h.sh, RegFile.get_set_other _ v (regAddr_ne hk p p')]

theorem RegWrote.dev_same : (t.exp x).devRead (regAddr k p).toNat = some v := by rw [h.dev, if_pos rfl]

theorem RegWrote.dev_other {k' : ShKind} (hk : k' ≠ k) (p' : Port) :
    (t.exp x).devRead (regAddr k' p').toNat = (s.exp x).devRead (regAddr k' p').toNat := by
  rw [h.dev, if_neg fun e => regAddr_ne hk p p' (BitVec.eq_of_toNat_eq e)]

end

/-- The bits of a byte one bit of which was written. -/
theorem setBit_bit (b : Byte) {j : Nat} (hj : j < 8) (v : Bool) (i : Nat) :
    (setBit b j v).getLsbD i = if i = j then v else b.getLsbD i := by
  split
  case isTrue e => rw [e, setBit_same b v hj]
  case isFalse e => exact setBit_other b v e

/-! ## `setup` -/

/-- The bit `setup` gives a shadow (R305). -/
def setupBit (d : Direction) (fs : List SetupFlag) : ShKind → Bool
  | .dir => d == .input
  | .ipol => fs.contains .invert
  | _ => fs.contains .pullUp

theorem setupBit_eq (d : Direction) (fs : List SetupFlag) {k : ShKind} (hk : k = .dir ∨ k = .ipol ∨ k = .gppu) :
    setupBit d fs k = if k = .dir then decide (d = .input) else if k = .ipol then decide (.invert ∈ fs)
      else decide (.pullUp ∈ fs) := by
  obtain rfl | rfl | rfl := hk
  · exact beq_eq_decide ..
  · exact List.contains_eq_mem ..
  · exact List.contains_eq_mem ..

/-- The steps of `setup` after its checks, `b` the bits the shadows of port `p` get at `i` (R305). -/
def setupWrites (x : ExpId) (p : Port) (i : Nat) (b : ShKind → Bool) : List Micro :=
  .shadowBit x .dir p i (b .dir) :: writeRegSteps x .dir p ++ .shadowBit x .ipol p i (b .ipol) :: writeRegSteps x .ipol p
    ++ .shadowBit x .gppu p i (b .gppu) :: writeRegSteps x .gppu p

theorem exec_setup {n : Nat} {d : Direction} {fs : List SetupFlag} (hn : n < 16) (hargs : setupArgsOk d fs = true) (x : ExpId)
    (s : State) : exec (.setup x n d fs) s
      = run (setupWrites x (portOf n) (bitOf n) (setupBit d fs) ++ [.ret .unit]) (beginOp .setup s) := by
  rw [exec, execSetup, withPin_valid hn, if_pos hargs]
  rfl

/-- The three writes of `setup` are of different registers, so that each shadow and register ends with its bit written. -/
theorem steps_setupWrites {x : ExpId} {s : State} (hc : s.calm) (hw : Mem.wf devDefault (s.exp x).dev) (p : Port) (i : Nat)
    (b : ShKind → Bool) :
    let V := fun k => setBit ((s.exp x).sh.get k p) i (b k)
    ∃ t, Steps (setupWrites x p i b) s t ∧ SerialCalm x s t
      ∧ (∀ k, k = .dir ∨ k = .ipol ∨ k = .gppu →
        (t.exp x).sh.get k p = V k ∧ (t.exp x).devRead (regAddr k p).toNat = some (V k))
      ∧ t.trace = s.trace ++ [.frameW (s.cmdW x) (regAddr .dir p) [V .dir], .frameW (s.cmdW x) (regAddr .ipol p) [V .ipol],
          .frameW (s.cmdW x) (regAddr .gppu p) [V .gppu]] := by
  intro V
  have quiet {k : ShKind} (hk : k ≠ .olat) {u : State} (hwu : Mem.wf devDefault (u.exp x).dev) (v : Byte) :
      u.quietLanding x (regAddr k p) [v] := quietLanding_notOlat hk hwu
  obtain ⟨t1, steps1, w1⟩ := steps_bitWrote (k := .dir) (p := p) i (b .dir) hc hw (quiet (by decide) hw)
  obtain ⟨t2, steps2, w2⟩ := steps_bitWrote (k := .ipol) (p := p) i (b .ipol) w1.calm.calm w1.calm.wf (quiet (by decide) w1.calm.wf)
  obtain ⟨t3, steps3, w3⟩ := steps_bitWrote (k := .gppu) (p := p) i (b .gppu) w2.calm.calm w2.calm.wf (quiet (by decide) w2.calm.wf)
  rw [w1.get_other (by decide)] at w2
  rw [w2.get_other (by decide), w1.get_other (by decide)] at w3
  refine ⟨t3, (steps1.append steps2).append steps3, (w1.calm.trans w2.calm).trans w3.calm, fun k hk => ?_, ?_⟩
  · obtain rfl | rfl | rfl := hk
    · exact ⟨(w3.get_other (by decide) p).trans ((w2.get_other (by decide) p).trans w1.get_same),
        (w3.dev_other (by decide) p).trans ((w2.dev_other (by decide) p).trans w1.dev_same)⟩
    · exact ⟨(w3.get_other (by decide) p).trans w2.get_same, (w3.dev_other (by decide) p).trans w2.dev_same⟩
    · exact ⟨w3.get_same, w3.dev_same⟩
  · rw [w3.trace, w2.trace, w1.trace, w2.cmdW, w1.cmdW, List.append_assoc, List.append_assoc]
    rfl

/-! ## `output` -/

theorem exec_output {n : Nat} (hn : n < 16) (x : ExpId) (level : Int) (s : State) :
    exec (.output x n level) s
      = run ((.shadowBit x .olat (portOf n) (bitOf n) (level != 0) :: writeRegSteps x .olat (portOf n)) ++ [.ret .unit])
        (beginOp .output s) := by
  rw [exec, execOutput, withPin_valid hn]

/-! ## `write_gpio` -/

theorem olatWritten_exp (x : ExpId) (v : Half) (s : State) :
    (olatWritten x v s).exp x = { s.exp x with
      sh := { (s.exp x).sh with olat := { a := lowByte v, b := highByte v } }
      dev := devStore (s.exp x).dev 0x14 [(lowByte v, true), (highByte v, true)] } := by
  cases x <;> rfl

theorem olatWritten_trace (x : ExpId) (v : Half) (s : State) :
    (olatWritten x v s).trace = s.trace ++ olatEvents (s.cmdW x) (s.seq x) v := rfl

theorem olatWritten_calm {x : ExpId} {v : Half} {s : State} (hc : s.calm) (hw : Mem.wf devDefault (s.exp x).dev) :
    SerialCalm x s (olatWritten x v s) := by
  refine ⟨?_, ?_, ?_⟩
  · cases x <;> exact ⟨hc.1, hc.2.1, rfl⟩
  · cases x <;> exact ⟨rfl, rfl, rfl, rfl, rfl⟩
  · rw [olatWritten_exp]
    exact devStore_wf hw _ _

theorem exec_writeGpio (x : ExpId) (v : Half) (s : State) :
    exec (.writeGpio x v.toNat) s = run (writeGpioSteps x v ++ [.ret .unit]) (beginOp .writeGpio s) := by
  have hv : v.toNat < 0x10000 := v.isLt
  rw [exec, execWriteGpio, if_pos (by omega), Int.toNat_natCast, BitVec.ofNat_toNat, BitVec.setWidth_eq]

/-! ## `reg_write` -/

theorem exec_regWrite {k : Kind} {sk : ShKind} (hk : k.shadow = some sk) {v : Byte} (hbank : sk = .iocon → v.getLsbD 7 = false)
    (x : ExpId) (p : Port) (s : State) :
    exec (.regWrite x k p v.toNat) s = run (regWriteSteps x sk p v ++ [.ret .unit]) (beginOp .regWrite s) := by
  have hv : v.toNat < 0x100 := v.isLt
  rw [exec, execRegWrite, withShadow_some hk, if_pos (by omega), Int.toNat_natCast, BitVec.ofNat_toNat, BitVec.setWidth_eq,
    if_neg fun ⟨hsk, hset⟩ => Bool.false_ne_true ((hbank hsk).symm.trans hset)]

theorem exec_regRead {k : Kind} {sk : ShKind} (hk : k.shadow = some sk) (x : ExpId) (p : Port) (s : State) :
    exec (.regRead x k p) s = .next { s with ret := .byte ((s.exp x).sh.get sk p) } := by
  rw [exec, execRegRead, withShadow_some hk]

end Sys2Proof.Machine

namespace Sys2Proof
open Machine

/-- Settles O42: each check fails before any step. -/
theorem argumentErrors : Obligations.ArgumentErrors := by
  unfold Obligations.ArgumentErrors
  intro s x
  refine ⟨fun n d fs h0 h16 hbad => ?setup, fun v hv => if_neg (by omega), fun k p v hk => ?noShadow,
    fun k p v h1 h2 h3 hv => ?value, fun p v h80 h100 => ?bank⟩
  case setup =>
    obtain ⟨m, rfl⟩ := Int.eq_ofNat_of_zero_le h0
    have hargs : ¬ setupArgsOk d fs = true := by
      rw [setupArgsOk_iff]
      rintro ⟨hd, hfs⟩
      obtain ⟨k, rfl⟩ | ⟨k, hk⟩ := hbad
      · simp at hd
      · simpa using hfs _ hk
    rw [exec, execSetup, withPin_valid (by omega), if_neg hargs]
  case noShadow =>
    obtain rfl | rfl | rfl := hk
    · exact ⟨rfl, rfl⟩
    · exact ⟨rfl, rfl⟩
    · exact ⟨rfl, rfl⟩
  case value =>
    obtain ⟨sk, hsk⟩ := shadow_isSome h1 h2 h3
    rw [exec, execRegWrite, withShadow_some hsk, if_neg (by omega)]
  case bank =>
    rw [exec, execRegWrite, withShadow_some (sk := .iocon) rfl, if_pos (by omega),
      if_pos ⟨rfl, ofNat_bit7 (by omega) (by omega)⟩]

/-- Settles O44: three registers written one after another. -/
theorem setupResult : Obligations.SetupResult := by
  unfold Obligations.SetupResult
  intro s x n d fs hc hn hd hfs hw p w
  have hb := beginOp_begun .setup s
  obtain ⟨t, hsteps, hcalm, hregs, htrace⟩ :=
    steps_setupWrites (x := x) (hb.calm hc) ((hb.exp x).symm ▸ hw) p (bitOf n) (setupBit d fs)
  rw [hb.exp] at hregs htrace
  obtain ⟨hrun, htxn, hop, hwork⟩ := serial_returns hb hsteps hcalm (r := .unit) (v := .unit) rfl
  have hexp : (endOp .unit t).exp x = t.exp x := endOp_exp ..
  refine ⟨_, (exec_setup hn (setupArgsOk_iff.2 ⟨hd, hfs⟩) x s).trans hrun, fun k i hi hk => ?bits, ?trace, fun k hk => ?chip, htxn,
    endOp_ret .., hop, hwork⟩
  case bits =>
    rw [hexp, (hregs k hk).1, setBit_bit _ (bitOf_lt n), setupBit_eq d fs hk]
    rfl
  case trace =>
    rw [hexp, (hregs .dir (.inl rfl)).1, (hregs .ipol (.inr (.inl rfl))).1, (hregs .gppu (.inr (.inr rfl))).1, endOp_trace, htrace,
      hb.trace, hb.cmdW]
  case chip =>
    rw [hexp, (hregs k hk).1]
    exact (hregs k hk).2

/-- Settles O45: one bit of OLAT, under which E, being low, does not fall. -/
theorem outputResult : Obligations.OutputResult := by
  unfold Obligations.OutputResult
  intro s x n level hc hn hlow hw p
  have hb := beginOp_begun .output s
  obtain ⟨t, hsteps, hwrote⟩ := steps_bitWrote (x := x) (k := .olat) (p := p) (bitOf n) (level != 0) (hb.calm hc)
    ((hb.exp x).symm ▸ hw) fun v => quietLanding_of_eLow (hb.eLow hlow) _ _
  rw [hb.exp] at hwrote
  obtain ⟨hrun, htxn, hop, hwork⟩ := serial_returns hb hsteps hwrote.calm (r := .unit) (v := .unit) rfl
  have hexp : (endOp .unit t).exp x = t.exp x := endOp_exp ..
  refine ⟨_, (exec_output hn x level s).trans hrun, fun i hi => ?bits, ?trace, ?chip, htxn, endOp_ret .., hop, hwork⟩
  case bits =>
    rw [hexp, hwrote.get_same, setBit_bit _ (bitOf_lt n)]
    simp [bitOf, bne, beq_eq_decide, p]
  case trace => rw [hexp, hwrote.get_same, endOp_trace, hwrote.trace, hb.trace, hb.cmdW]
  case chip => rw [hexp, hwrote.get_same, hwrote.dev_same]

/-- Settles O50: the register written, and the shadow read after it. -/
theorem regWriteReadsBack : Obligations.RegWriteReadsBack := by
  unfold Obligations.RegWriteReadsBack
  intro s x k sk p hk
  refine ⟨exec_regRead hk x p s, fun v hc hbank hlow hw => ?_⟩
  have hb := beginOp_begun .regWrite s
  have hw' : Mem.wf devDefault ((beginOp .regWrite s).exp x).dev := (hb.exp x).symm ▸ hw
  have hquiet : (beginOp .regWrite s).quietLanding x (regAddr sk p) [v] := by
    by_cases hsk : sk = .olat
    · exact quietLanding_of_eLow (hb.eLow (hlow hsk)) _ _
    · exact quietLanding_notOlat hsk hw'
  obtain ⟨t, hsteps, hwrote⟩ := steps_regWrote (m := .shadowSet x sk p v) (hb.calm hc) hw' hquiet rfl
  obtain ⟨hrun, htxn, hop, hwork⟩ := serial_returns hb hsteps hwrote.calm (r := .unit) (v := .unit) rfl
  have hexp : (endOp .unit t).exp x = t.exp x := endOp_exp ..
  refine ⟨_, (exec_regWrite hk hbank x p s).trans hrun, by rw [hexp, hwrote.get_same], by rw [hexp, hwrote.dev_same],
    by rw [endOp_trace, hwrote.trace, hb.trace, hb.cmdW], htxn, endOp_ret .., hop, hwork, ?_⟩
  rw [exec_regRead hk, hexp, hwrote.get_same]

/-- Settles O48: the frames of the OLAT pair, under which E does not fall. -/
theorem writeGpioResult : Obligations.WriteGpioResult := by
  unfold Obligations.WriteGpioResult
  intro s x v hc hno hw
  have hb := beginOp_begun .writeGpio s
  have hw' : Mem.wf devDefault ((beginOp .writeGpio s).exp x).dev := (hb.exp x).symm ▸ hw
  have hsteps : Steps (writeGpioSteps x v) (beginOp .writeGpio s) (olatWritten x v (beginOp .writeGpio s)) :=
    steps_olat (hb.calm hc) (fun hx => hb.noFall (hno hx)) hw' (hb.calm hc).1 rfl
  obtain ⟨hrun, htxn, hop, hwork⟩ := serial_returns hb hsteps (olatWritten_calm (hb.calm hc) hw') (r := .unit) (v := .unit) rfl
  have hexp := (endOp_exp .unit (olatWritten x v (beginOp .writeGpio s)) x).trans (olatWritten_exp ..)
  refine ⟨_, (exec_writeGpio x v s).trans hrun, by rw [hexp]; rfl, by rw [hexp]; rfl, ?_, ?_, ?_, htxn, endOp_ret .., hop, hwork⟩
  · rw [endOp_trace, olatWritten_trace, hb.trace, hb.cmdW, hb.seq]
  · rw [hexp]
    exact read_devStore_at hw' 0x14 0 rfl
  · rw [hexp]
    exact read_devStore_at hw' 0x14 1 rfl

end Sys2Proof
end

section
/-! `output_pins` and the operations that read (46_expander_ops.md R308 to R313), where no frame fails. -/

namespace Sys2Proof.Machine

theorem cmdW_congr {s t : State} (h : t.cfg = s.cfg) (x : ExpId) : t.cmdW x = s.cmdW x := by
  rw [State.cmdW, State.addrOf, h]
  rfl

/-! ## One OLAT frame, sent or not -/

/-- `t` is `s` after the OLAT register of port `p` was sent where `c` holds, and `s` where it does not (R309). -/
structure OlatSent (x : ExpId) (p : Port) (c : Bool) (s t : State) : Prop where
  calm : t.calm
  wf : Mem.wf devDefault (t.exp x).dev
  kept : t.op = s.op ∧ t.work = s.work ∧ t.disp = s.disp
  inTxn : t.inTxn = (s.inTxn && !c)
  sh : (t.exp x).sh = (s.exp x).sh
  dev : ∀ a, (t.exp x).devRead a =
    if c = true ∧ a = (regAddr .olat p).toNat then some ((s.exp x).sh.get .olat p) else (s.exp x).devRead a
  trace : t.trace = s.trace ++ if c then [.frameW (s.cmdW x) (regAddr .olat p) [(s.exp x).sh.get .olat p]] else []
  cfg : t.cfg = s.cfg

theorem wroteReg_eq_regWritten (x : ExpId) (k : ShKind) (p : Port) (s : State) :
    wroteReg x k p s = regWritten x k p ((s.exp x).sh.get k p) s := by
  rw [regWritten, setShadow_self]

theorem steps_olatSent {x : ExpId} {p : Port} (c : Bool) {s : State} (hc : s.calm) (hw : Mem.wf devDefault (s.exp x).dev)
    (hq : s.quietLanding x (regAddr .olat p) [(s.exp x).sh.get .olat p]) :
    ∃ t, Steps (if c then writeRegSteps x .olat p else []) s t ∧ OlatSent x p c s t := by
  cases c with
  | false => exact ⟨s, .nil s, hc, hw, ⟨rfl, rfl, rfl⟩, by simp, rfl, fun a => by simp, by simp, rfl⟩
  | true =>
    obtain ⟨hcfg, hop, hwork, hdisp, htxn⟩ := wroteReg_rest x .olat p s
    refine ⟨wroteReg x .olat p s, steps_writeReg hc hq, wroteReg_calm hc, ?_, ⟨hop, hwork, hdisp⟩, by simpa using htxn, ?_, ?_,
      wroteReg_trace .., hcfg⟩
    · rw [wroteReg_eq_regWritten]
      exact regWritten_wf hw
    · rw [wroteReg_exp_same]
    · simpa [wroteReg_eq_regWritten] using regWritten_devRead (v := (s.exp x).sh.get .olat p) hw

/-- Where only port A can hold E high, a write of port B's latch does not make it fall. -/
theorem quietLanding_portB {x : ExpId} {s : State} (hw : Mem.wf devDefault (s.exp x).dev)
    (h : x = .relay → s.cfg.transport = .spiRelay → ¬ s.cfg.params.vportMap.e < 8 →
      s.relayPins.getLsbD s.cfg.params.vportMap.e = false) (v : Byte) : s.quietLanding x 0x15#8 [v] := by
  rintro rfl htr hhigh
  have hlow : s.cfg.params.vportMap.e < 8 := by
    by_contra hge
    rw [h rfl htr hge] at hhigh
    cases hhigh
  rw [relayPins_bit, if_pos hlow] at hhigh
  rw [landed_pins_b hw, cat16_bit, if_pos hlow, hhigh]

/-- The frames of `output_pins`, port A's before port B's, from latches at which E is low on the pins. -/
theorem steps_olatsSent {x : ExpId} (ca cb : Bool) {s : State} (hc : s.calm) (hw : Mem.wf devDefault (s.exp x).dev)
    (hlow : s.eLow x) :
    ∃ u t, Steps ((if ca then writeRegSteps x .olat .a else []) ++ if cb then writeRegSteps x .olat .b else []) s t
      ∧ OlatSent x .a ca s u ∧ OlatSent x .b cb u t := by
  obtain ⟨u, stepsA, hA⟩ := steps_olatSent (p := .a) ca hc hw (quietLanding_of_eLow hlow _ _)
  have hq : u.quietLanding x (regAddr .olat .b) [(u.exp x).sh.get .olat .b] := by
    refine quietLanding_portB hA.wf (fun hx htr hge => ?_) _
    subst hx
    rw [hA.cfg] at htr hge ⊢
    have hb : u.relay.devRead 0x15 = s.relay.devRead 0x15 := (hA.dev 0x15).trans (if_neg fun h => absurd h.2 (by decide))
    have hpins := hlow rfl htr
    rw [relayPins_bit, if_neg hge] at hpins ⊢
    rw [hb, hpins]
  obtain ⟨t, stepsB, hB⟩ := steps_olatSent (p := .b) cb hA.calm hA.wf hq
  exact ⟨u, t, stepsA.append stepsB, hA, hB⟩

/-! ## `output_pins` -/

/-- The mapping as the call takes it. -/
def intPins (m : List (Nat × Int)) : List (Int × Int) := m.map fun nl => ((nl.1 : Int), nl.2)

/-- Whether a mapping touches a port. -/
def touches (m : List (Nat × Int)) (p : Port) : Bool := m.any fun nl => portOf nl.1 == p

theorem touches_iff {m : List (Nat × Int)} {p : Port} : touches m p = true ↔ ∃ nl ∈ m, portOf nl.1 = p := by
  simp [touches]

theorem any_intPins_a (m : List (Nat × Int)) : ((intPins m).any fun nl => nl.1 < 8) = touches m .a := by
  rw [intPins, List.any_map, touches]
  congr 1
  funext nl
  by_cases h : nl.1 < 8 <;> simp [portOf, h]

theorem any_intPins_b (m : List (Nat × Int)) : ((intPins m).any fun nl => 8 ≤ nl.1) = touches m .b := by
  rw [intPins, List.any_map, touches]
  congr 1
  funext nl
  by_cases h : nl.1 < 8
  · simp [portOf, h, show ¬ 8 ≤ nl.1 by omega]
  · simp [portOf, h, show 8 ≤ nl.1 by omega]

/-- A pin is of one of the two ports. -/
theorem touches_none {m : List (Nat × Int)} : (!touches m .a && !touches m .b) = m.isEmpty := by
  cases m with
  | nil => rfl
  | cons nl m => cases h : portOf nl.1 <;> simp [touches, h]

theorem exec_outputPins {m : List (Nat × Int)} (hm : ∀ nl ∈ m, nl.1 < 16) (x : ExpId) (s : State) :
    exec (.outputPins x (intPins m)) s
      = run (latchSteps x (intPins m) ++ ((if touches m .a then writeRegSteps x .olat .a else [])
          ++ if touches m .b then writeRegSteps x .olat .b else []) ++ [.ret .unit]) (beginOp .outputPins s) := by
  have hvalid : ∀ n ∈ (intPins m).map (·.1), validPin n = true := by
    simp only [intPins, List.map_map, List.forall_mem_map]
    exact fun nl hnl => validPin_nat (hm nl hnl)
  rw [exec, execOutputPins, withPins_valid hvalid, any_intPins_a, any_intPins_b, List.append_assoc (latchSteps _ _)]

/-! ## `read_gpio`, `input` and `input_pins` -/

theorem Begun.cmdR {s₀ s : State} (h : Begun s₀ s) (x : ExpId) : s.cmdR x = s₀.cmdR x := by obtain ⟨⟨o, rfl⟩, -⟩ := h; rfl

theorem Begun.nextPins {s₀ s : State} (h : Begun s₀ s) : s.nextPins = s₀.nextPins := by
  obtain ⟨⟨o, rfl⟩, -⟩ := h
  exact nextPins_congr rfl rfl

/-- A call that reads the port, from its first step to the return of `v`, which the return finds in the snapshot (R313). -/
theorem read_returns {x : ExpId} {s : State} (hc : s.calm) (o : Op) {r : RetSpec} {v : RetVal}
    (hr : ∀ t : State, (t.exp x).snap = cat16 s.nextPins.2 s.nextPins.1 → r.value t = v) :
    ∃ t, run (readGpioSteps x ++ [.ret r]) (beginOp o s) = .next t ∧ (t.exp x).snap = cat16 s.nextPins.2 s.nextPins.1
      ∧ t.ret = v ∧ t.trace = s.trace ++ gpioReadEvents (s.cmdR x) (s.seq x) s.nextPins.1 s.nextPins.2
      ∧ (t.exp x).sh = (s.exp x).sh ∧ (t.exp x).dev = (s.exp x).dev ∧ t.inTxn = false ∧ t.op = s.opAfter ∧ t.work = s.work := by
  have hb := beginOp_begun o s
  obtain ⟨t, hsteps, hread⟩ := read_steps (x := x) (hb.calm hc)
  rw [hb.nextPins] at hread
  obtain ⟨-, hop, hdisp, hwork, -⟩ := hread.kept
  obtain ⟨hrun, hop', hwork'⟩ := call_returns hb hsteps hread.calm.1 ⟨hop, hwork, hdisp⟩ (hr t hread.snap)
  have hend : (endOp v t).exp x = t.exp x := endOp_exp ..
  refine ⟨_, hrun, by rw [hend, hread.snap], endOp_ret .., ?_, by rw [hend, hread.sh, hb.exp], by rw [hend, hread.dev, hb.exp],
    (endOp_inTxn ..).trans hread.inTxn, hop', hwork'⟩
  rw [endOp_trace, hread.trace, hb.trace, hb.cmdR, hb.seq]

/-- A call that returns what stands in the snapshot, with no frame. -/
theorem snap_returns {s : State} (hu : s.slice = none) (o : Op) {x : ExpId} {r : RetSpec} {v : RetVal}
    (hr : ∀ t : State, (t.exp x).snap = (s.exp x).snap → r.value t = v) :
    ∃ t, run [.ret r] (beginOp o s) = .next t ∧ t.ret = v ∧ t.trace = s.trace ∧ t.exp x = s.exp x ∧ t.op = s.opAfter := by
  have hb := beginOp_begun o s
  obtain ⟨hrun, hop, -⟩ := call_returns hb (.nil _) (by simpa using hu) ⟨rfl, rfl, rfl⟩ (hr _ (by rw [hb.exp]))
  exact ⟨_, hrun, endOp_ret .., (endOp_trace ..).trans hb.trace, (endOp_exp ..).trans (hb.exp x), hop⟩

theorem exec_input {n : Nat} (hn : n < 16) (x : ExpId) (refresh : Bool) (s : State) :
    exec (.input x n refresh) s = run (refreshSteps x refresh ++ [.ret (.snapBit x n)]) (beginOp .input s) := by
  rw [exec, execInput, withPin_valid hn]

theorem exec_inputPins {ns : List Nat} (hns : ∀ n ∈ ns, n < 16) (x : ExpId) (refresh : Bool) (s : State) :
    exec (.inputPins x (ns.map Int.ofNat) refresh) s
      = run (refreshSteps x refresh ++ [.ret (.snapBits x ns)]) (beginOp .inputPins s) := by
  have hvalid : ∀ n ∈ ns.map Int.ofNat, validPin n = true := List.forall_mem_map.2 fun n hn => validPin_nat (hns n hn)
  have hback : (ns.map Int.ofNat).map Int.toNat = ns := by
    rw [List.map_map]
    exact List.map_id ns
  rw [exec, execInputPins, withPins_valid hvalid, hback]

end Sys2Proof.Machine

namespace Sys2Proof
open Machine

/-- Settles O46: the latches first, and then the frame of each port touched. -/
theorem outputPinsResult : Obligations.OutputPinsResult := by
  unfold Obligations.OutputPinsResult
  intro s x m hc hm hnodup hlow hw frame
  have hb := beginOp_begun .outputPins s
  obtain ⟨f, latches, hwritten, hothers⟩ := steps_latch (x := x) m (hb.calm hc).1 hm hnodup
  obtain ⟨v, hv⟩ : ∃ v, v = (beginOp .outputPins s).setExp x { (beginOp .outputPins s).exp x with
      sh := { ((beginOp .outputPins s).exp x).sh with olat := f } } := ⟨_, rfl⟩
  rw [← hv] at latches
  have hexp : v.exp x = { s.exp x with sh := { (s.exp x).sh with olat := f } } := by rw [hv, setExp_exp_same, hb.exp]
  have hcalm : v.calm := by
    refine (hb.calm hc).congr ?_ ?_ (.inl ?_) <;> rw [hv] <;> simp
  have hwf : Mem.wf devDefault (v.exp x).dev := by rw [hexp]; exact hw
  have hcfg : v.cfg = s.cfg := by rw [hv, setExp_cfg, beginOp_cfg]
  have hlow' : v.eLow x := by
    rintro rfl htr
    rw [hcfg] at htr ⊢
    rw [relayPins_congr (congrArg Expander.dev hexp :)]
    exact hlow rfl htr
  obtain ⟨u, t, sends, hA, hB⟩ := steps_olatsSent (touches m .a) (touches m .b) hcalm hwf hlow'
  have hkept : t.op = (beginOp .outputPins s).op ∧ t.work = (beginOp .outputPins s).work
      ∧ t.disp = (beginOp .outputPins s).disp := by
    obtain ⟨hopA, hworkA, hdispA⟩ := hA.kept
    obtain ⟨hopB, hworkB, hdispB⟩ := hB.kept
    refine ⟨(hopB.trans hopA).trans ?_, (hworkB.trans hworkA).trans ?_, (hdispB.trans hdispA).trans ?_⟩ <;> rw [hv] <;> simp
  obtain ⟨hrun, hop, -⟩ := call_returns hb (latches.append sends) hB.calm.1 hkept (r := .unit) (v := .unit) rfl
  have hend : (endOp .unit t).exp x = t.exp x := endOp_exp ..
  have hshA : (u.exp x).sh = { (s.exp x).sh with olat := f } := hA.sh.trans (by rw [hexp])
  have hsh : (t.exp x).sh = { (s.exp x).sh with olat := f } := hB.sh.trans hshA
  have holat (p : Port) : ((endOp .unit t).exp x).sh.get .olat p = f.get p := by
    rw [hend, hsh]
    rfl
  have hframe (p : Port) : frame (endOp .unit t) p
      = if touches m p then [.frameW (s.cmdW x) (regAddr .olat p) [f.get p]] else [] := by
    simp only [frame, holat]
    exact if_congr touches_iff.symm rfl rfl
  refine ⟨_, (exec_outputPins hm x s).trans hrun, fun nl hnl => ?written, fun n hn hnot => ?others, ?trace, fun nl hnl => ?chip,
    ?inTxn, endOp_ret .., hop⟩
  case written =>
    rw [holat]
    exact hwritten nl hnl
  case others =>
    rw [holat, hothers n hn hnot, hb.exp]
    rfl
  case trace =>
    have hvtrace : v.trace = s.trace := by rw [hv, setExp_trace, beginOp_trace]
    rw [hframe, hframe, endOp_trace, hB.trace, hA.trace, hvtrace, cmdW_congr hA.cfg, cmdW_congr hcfg, hshA, hexp]
    rfl
  case chip =>
    have htouched : touches m (portOf nl.1) = true := touches_iff.2 ⟨nl, hnl, rfl⟩
    rw [holat, hend, hB.dev]
    cases hp : portOf nl.1 with
    | a =>
      rw [hp] at htouched
      rw [if_neg fun h => absurd h.2 (by decide), hA.dev, if_pos ⟨htouched, rfl⟩, hexp]
      rfl
    | b =>
      rw [hp] at htouched
      rw [if_pos ⟨htouched, rfl⟩, hshA]
      rfl
  case inTxn => rw [endOp_inTxn, hB.inTxn, hA.inTxn, hv, setExp_inTxn, beginOp_inTxn, Bool.and_assoc, touches_none]

/-- Settles O47: the return finds the bits in the snapshot, the one there was or the one read. -/
theorem inputResult : Obligations.InputResult := by
  unfold Obligations.InputResult
  intro s x hc a b
  refine ⟨fun n hn => ⟨?bit, ?freshBit⟩, fun ns hns => ⟨?bits, ?freshBits⟩⟩
  case bit =>
    rw [exec_input hn]
    exact snap_returns hc.1 .input fun t ht => congrArg (fun v : Half => RetVal.bit (v.getLsbD n)) ht
  case freshBit =>
    obtain ⟨t, hrun, hsnap, hret, htrace, -, -, -, hop, -⟩ := read_returns hc .input (x := x) (r := .snapBit x n) fun t ht =>
      congrArg (fun v : Half => RetVal.bit (v.getLsbD n)) ht
    exact ⟨t, (exec_input hn x true s).trans hrun, hret, htrace, hsnap, hop⟩
  case bits =>
    rw [exec_inputPins hns]
    exact snap_returns hc.1 .inputPins fun t ht => congrArg (fun v : Half => RetVal.bits (ns.map fun n => v.getLsbD n)) ht
  case freshBits =>
    obtain ⟨t, hrun, hsnap, hret, htrace, -, -, -, hop, -⟩ := read_returns hc .inputPins (x := x) (r := .snapBits x ns) fun t ht =>
      congrArg (fun v : Half => RetVal.bits (ns.map fun n => v.getLsbD n)) ht
    exact ⟨t, (exec_inputPins hns x true s).trans hrun, hret, htrace, hsnap, hop⟩

/-- Settles O49: the frames of one read, and the return of the snapshot. -/
theorem readGpioResult : Obligations.ReadGpioResult := by
  unfold Obligations.ReadGpioResult
  intro s x hc a b
  exact read_returns hc .readGpio (r := .snap x) fun t ht => congrArg RetVal.half ht

end Sys2Proof
end

section
/-! The serial frame words and the command bytes (30_encoding.md R130 to R134). -/

namespace Sys2Proof.Machine

/-! ## What a stored byte holds -/

/-- A byte stands at the register addressed, one written to GPIO at OLAT too (10_state.md R50). -/
def HoldsByte (m : Mem) (a : Nat) (d : Byte) : Prop :=
  Mem.read devDefault m a = some d ∧ (a = 0x12 ∨ a = 0x13 → Mem.read devDefault m (a + 2) = some d)

theorem devPut_holdsByte {m : Mem} (h : Mem.wf devDefault m) (a : Nat) (d : Byte) : HoldsByte (devPut m a d) a d := by
  refine ⟨?_, fun ha => ?_⟩
  · rw [read_devPut h, if_pos (mem_storeAddrs.2 (.inl rfl))]
  · rw [read_devPut h, if_pos (mem_storeAddrs.2 (.inr ⟨ha, rfl⟩))]

/-- The byte after it is written elsewhere. -/
theorem devPut_next_holdsByte {m : Mem} (h : Mem.wf devDefault m) {a : Nat} {d : Byte} (hd : HoldsByte m a d) (d' : Byte) :
    HoldsByte (devPut m (a + 1) d') a d := by
  refine ⟨?_, fun ha => ?_⟩
  · rw [read_devPut h, if_neg fun hm => ?_]
    · exact hd.1
    · obtain h | h := mem_storeAddrs.1 hm <;> omega
  · rw [read_devPut h, if_neg fun hm => ?_]
    · exact hd.2 ha
    · obtain h | h := mem_storeAddrs.1 hm <;> omega

/-! ## The words -/

section
variable {s : State} {addr : BitVec 3} {x : ExpId} {r : Byte} {data : List Byte} (hc : s.calm) (ha : s.expAt addr = some x)
include hc ha

/-- A write word, in what its frame leaves. -/
theorem writeWord_done (hlow : s.eLow x) {i : Instr} (hexec : exec i s = writeFrameWord addr r data s) {P : Expander → Prop}
    (hP : ∀ e : Expander, e.dev = devStore (s.exp x).dev r.toNat (data.map fun b => (b, true)) → P e) :
    ∃ t, exec i s = .next t ∧ t.trace = s.trace ++ [.frameW (serCmd addr false) r data] ∧ t.ret = s.ret ∧ P (t.exp x)
      ∧ (t.exp x).sh = (s.exp x).sh ∧ t.inTxn = false ∧ t.openFrame = none ∧ t.work = s.work := by
  obtain ⟨hexp, htrace, hret, htxn, hopen, hwork⟩ := writeFrameWord_result (s := s) (x := x) (w := serCmd addr false) (r := r)
    (data := data) rfl
  exact ⟨_, hexec.trans (writeFrameWord_next hc ha hlow), htrace, hret, hP _ (by rw [hexp]), by rw [hexp], htxn, hopen, hwork⟩

/-- A read word. -/
theorem readWord_done {i : Instr} (hexec : exec i s = readFrameWord addr r data s) :
    ∃ t, exec i s = .next t ∧ t.trace = s.trace ++ [.frameR (serCmd addr true) r data] ∧ t.ret = .bytes data
      ∧ (t.exp x).dev = (s.exp x).dev ∧ (t.exp x).sh = (s.exp x).sh ∧ t.inTxn = false ∧ t.openFrame = none ∧ t.work = s.work := by
  obtain ⟨t, hrun, ht⟩ := readFrameWord_next (r := r) (data := data) hc ha
  exact ⟨t, hexec.trans hrun, ht⟩

end

theorem ifSequential_some {s : State} {addr : BitVec 3} {x : ExpId} (ha : s.expAt addr = some x) (k : Out) :
    ifSequential addr s k = if s.seq x then k else .refused .notSequential := by
  rw [ifSequential, ha]

theorem ifSequential_none {s : State} {addr : BitVec 3} (ha : s.expAt addr = none) (k : Out) :
    ifSequential addr s k = .refused .noDevice := by
  rw [ifSequential, ha]

theorem writeFrameWord_none {s : State} {addr : BitVec 3} (ha : s.expAt addr = none) (r : Byte) (data : List Byte) :
    writeFrameWord addr r data s = .refused .noDevice := by
  rw [writeFrameWord, ha]

theorem readFrameWord_none {s : State} {addr : BitVec 3} (ha : s.expAt addr = none) (r : Byte) (data : List Byte) :
    readFrameWord addr r data s = .refused .noDevice := by
  rw [readFrameWord, ha]

theorem writeFrameWord_some {s : State} {addr : BitVec 3} {x : ExpId} (ha : s.expAt addr = some x) (r : Byte) (data : List Byte) :
    writeFrameWord addr r data s = run [.txnBegin, .wordWrite x (serCmd addr false) r data, .txnEnd] s := by
  rw [writeFrameWord, ha]

/-! ## Command bytes -/

theorem commandByte_free {s : State} (h : s.openFrame = none) (cmd : Byte) :
    commandByte cmd s = .next { s with inTxn := true, openFrame := some cmd } := by
  rw [commandByte, h]

theorem commandByte_open {s : State} (h : s.openFrame ≠ none) (cmd : Byte) : commandByte cmd s = .refused .frameOverlap := by
  obtain ⟨c, hc⟩ := Option.ne_none_iff_exists'.1 h
  rw [commandByte, hc]

theorem frameMayBegin_open {s : State} {c : Byte} (h : s.openFrame = some c) (cmd : Byte) :
    frameMayBegin cmd s = (c == cmd) := by
  rw [frameMayBegin, h]

end Sys2Proof.Machine

namespace Sys2Proof
open Machine

/-- Settles O51: what each word's frame stores or returns, and where it stops. -/
theorem frameWordsAct : Obligations.FrameWordsAct := by
  unfold Obligations.FrameWordsAct
  refine ⟨fun s addr r d0 d1 ha => ⟨writeFrameWord_none ha r [d0], readFrameWord_none ha r [d0], ifSequential_none ha _,
    ifSequential_none ha _⟩, ?_⟩
  intro s addr x r d0 d1 hc ha hlow hw w q done holds
  refine ⟨?write1, ?read1, fun hseq => ⟨?write2, ?read2⟩, fun hseq => ⟨?notSeqWrite, ?notSeqRead⟩⟩
  case write1 =>
    exact writeWord_done (P := fun e => holds e r.toNat d0) hc ha hlow rfl fun e he =>
      (show HoldsByte e.dev r.toNat d0 from he ▸ devPut_holdsByte hw r.toNat d0)
  case read1 => exact readWord_done hc ha rfl
  case write2 =>
    have hexec : exec (.frameWrite2 addr r d0 d1) s = writeFrameWord addr r [d0, d1] s :=
      (ifSequential_some ha _).trans (if_pos hseq)
    exact writeWord_done (P := fun e => holds e r.toNat d0 ∧ holds e (r.toNat + 1) d1) hc ha hlow hexec fun e he =>
      (show HoldsByte e.dev r.toNat d0 ∧ HoldsByte e.dev (r.toNat + 1) d1 from he ▸
        ⟨devPut_next_holdsByte (devPut_wf hw _ _) (devPut_holdsByte hw r.toNat d0) d1,
          devPut_holdsByte (devPut_wf hw _ _) (r.toNat + 1) d1⟩)
  case read2 => exact readWord_done hc ha ((ifSequential_some ha _).trans (if_pos hseq))
  case notSeqWrite => exact (ifSequential_some ha _).trans (if_neg (by simp [hseq]))
  case notSeqRead => exact (ifSequential_some ha _).trans (if_neg (by simp [hseq]))

/-- Settles O52: a command byte stands open until the frame that begins with it. -/
theorem commandByteOpensFrame : Obligations.CommandByteOpensFrame := by
  unfold Obligations.CommandByteOpensFrame
  intro s addr
  refine ⟨fun h => ⟨commandByte_free h _, commandByte_free h _⟩, fun h => ⟨commandByte_open h _, commandByte_open h _⟩,
    fun r d hu hf ha hopen => ?closes, fun r d c x hu ha hopen hne => ?overlap⟩
  case closes =>
    have hbegin : frameMayBegin (serCmd addr false) (s.txn true) = true :=
      (frameMayBegin_open (s := s.txn true) hopen _).trans (beq_self_eq_true (serCmd addr false))
    obtain ⟨u, hu'⟩ : ∃ u, u = (landed .gpio r [d] (s.txn true)).event (.frameW (serCmd addr false) r [d]) := ⟨_, rfl⟩
    have hlands : micro (.wordWrite .gpio (serCmd addr false) r [d]) (s.txn true) = .next u :=
      hu' ▸ frameWrite_landed (s := s.txn true) hf hbegin (quietLanding_gpio (s.txn true) r [d])
    have huslice : u.slice = none := by rw [hu']; exact hu
    have hexec : exec (.frameWrite1 addr r d) s
        = run [.txnBegin, .wordWrite .gpio (serCmd addr false) r [d], .txnEnd] s := writeFrameWord_some ha r [d]
    refine ⟨u.txn false, ?_, by rw [hu']; rfl, rfl⟩
    rw [hexec, run_next (s' := s.txn true) hu rfl, run_next (s := s.txn true) hu hlands, run_next (s' := u.txn false) huslice rfl,
      run_nil]
  case overlap =>
    have hexec : exec (.frameWrite1 addr r d) s
        = run [.txnBegin, .wordWrite x (serCmd addr false) r [d], .txnEnd] s := writeFrameWord_some ha r [d]
    have hother : (c == serCmd addr false) = false := beq_false_of_ne hne
    refine hexec.trans ((run_next (s' := s.txn true) hu rfl).trans (run_refuse hu ?_))
    exact if_neg (by rw [frameMayBegin_open (s := s.txn true) hopen, hother]; exact Bool.false_ne_true)

end Sys2Proof
end

section
/-! What the instructions of the serial bus leave unchanged (46_expander_ops.md), and `dispatch` (47_expander_interrupts.md). -/

namespace Sys2Proof.Machine

/-! ## Running steps that put others before them -/

/-- A step that puts others before what follows it ends HOST's move. -/
theorem run_push {s s' : State} {m : Micro} {ms ns : List Micro} (h : s.slice = none) (hm : micro m s = .push ns s')
    (hne : ns ≠ []) : run (m :: ms) s = .next (s'.leave (ns ++ ms)) := by
  rw [run_cons_unbounded h, hm]
  cases ns with
  | nil => exact absurd rfl hne
  | cons n ns => rfl

/-- One that puts none goes on. -/
theorem run_push_nil {s s' : State} {m : Micro} {ms : List Micro} (h : s.slice = none) (hm : micro m s = .push [] s') :
    run (m :: ms) s = run ms s' := by
  rw [run_cons_unbounded h, hm]

/-! ## When a dispatch starts -/

theorem dispatchEnabled_iff {x : ExpId} {s : State} :
    dispatchEnabled x s = true ↔ (s.exp x).pending ≠ [] ∧ s.inTxn = false ∧ s.disp = .idle
      ∧ (s.suspended = true ∨ (s.op = none ∧ s.work = [])) := by
  simp only [dispatchEnabled, Bool.and_eq_true, Bool.or_eq_true, Bool.not_eq_true', beq_iff_eq, List.isEmpty_iff,
    List.isEmpty_eq_false_iff, and_assoc, ne_eq]

theorem exec_dispatch {x : ExpId} {s : State} (h : dispatchEnabled x s = true) :
    exec (.dispatch x) s
      = run (readGpioSteps x ++ [.dispatchScan x (s.exp x).snap, .dispatchEnd s.op]) (enterDispatch x s) := if_pos h

/-! ## Entering -/

section
variable (x : ExpId) (s : State)

theorem enterDispatch_exp : (enterDispatch x s).exp x = { s.exp x with pending := (s.exp x).pending.tail } := by
  cases x <;> rfl

theorem enterDispatch_trace : (enterDispatch x s).trace = s.trace := by cases x <;> rfl
theorem enterDispatch_work : (enterDispatch x s).work = s.work := by cases x <;> rfl
theorem enterDispatch_env : (enterDispatch x s).env = s.env := by cases x <;> rfl
theorem enterDispatch_draws : (enterDispatch x s).draws = s.draws := by cases x <;> rfl
theorem enterDispatch_slice : (enterDispatch x s).slice = s.slice := by cases x <;> rfl
theorem enterDispatch_openFrame : (enterDispatch x s).openFrame = s.openFrame := by cases x <;> rfl
theorem enterDispatch_cmdR : (enterDispatch x s).cmdR x = s.cmdR x := by cases x <;> rfl
theorem enterDispatch_seq : (enterDispatch x s).seq x = s.seq x := by cases x <;> rfl

theorem enterDispatch_disp : (enterDispatch x s).disp = if s.suspended then .atYield else .betweenOps := rfl

theorem enterDispatch_calm {x : ExpId} {s : State} (hc : s.calm) : (enterDispatch x s).calm := by cases x <;> exact hc

theorem enterDispatch_nextPins : (enterDispatch x s).nextPins = s.nextPins :=
  nextPins_congr (enterDispatch_env x s) (enterDispatch_draws x s)

end

/-- The changed pins in increasing order, each with its new value (R344). -/
theorem changedPins_eq (prev new : Half) : changedPins prev new
    = ((List.range 16).filter fun n => prev.getLsbD n != new.getLsbD n).map fun n => (n, new.getLsbD n) := by
  simp only [changedPins, BitVec.getLsbD_xor]

/-- The point a return from a dispatch restores is suspended exactly where the one left was. -/
theorem entered_atYield (b : Bool) : ((if b then DispatchState.atYield else .betweenOps) == .atYield) = b := by cases b <;> rfl

/-! ## The report -/

/-- The calls of a pin's subscribers, in registration order. -/
theorem callsOf_eq (subs : List (Nat × Nat)) (n : Nat) (v : Bool) :
    callsOf subs n v = (subs.filter (·.1 = n)).map fun sub => Micro.callback n v sub.2 := rfl

/-- The dispatch of an instance from the point `s` has read the port as `a` and `b`, and stands at its report. -/
structure DispatchRead (x : ExpId) (a b : Byte) (s t : State) : Prop where
  exp : (t.exp x).pending = (s.exp x).pending.tail ∧ (t.exp x).snap = cat16 b a ∧ (t.exp x).subs = (s.exp x).subs
  trace : t.trace = s.trace ++ gpioReadEvents (s.cmdR x) (s.seq x) a b
  inTxn : t.inTxn = false
  slice : t.slice = none
  point : t.op = some .dispatch ∧ t.disp = (if s.suspended then .atYield else .betweenOps) ∧ t.work = s.work

/-- R343, R344: a token popped and the port read, the changed pins are reported. -/
theorem dispatch_reads {x : ExpId} {s : State} (hc : s.calm) (h : dispatchEnabled x s = true) :
    ∃ t, DispatchRead x s.nextPins.1 s.nextPins.2 s t
      ∧ exec (.dispatch x) s = run [.dispatchScan x (s.exp x).snap, .dispatchEnd s.op] t := by
  obtain ⟨t, hsteps, hread⟩ := read_steps (x := x) (enterDispatch_calm (x := x) hc)
  obtain ⟨-, hop, hdisp, hwork, -⟩ := hread.kept
  rw [enterDispatch_nextPins] at hread
  have hexp := enterDispatch_exp x s
  refine ⟨t, ⟨⟨hread.pend.trans (by rw [hexp]), hread.snap, hread.subs.trans (by rw [hexp])⟩, ?_, hread.inTxn, hread.calm.1,
    hop, hdisp, hwork.trans (enterDispatch_work x s)⟩, (exec_dispatch h).trans (hsteps.run_append _)⟩
  rw [hread.trace, enterDispatch_trace, enterDispatch_cmdR, enterDispatch_seq]

section
variable {x : ExpId} {a b : Byte} {s t : State} (h : DispatchRead x a b s t)
include h

/-- The report of the dispatch. -/
theorem DispatchRead.micro_scan :
    micro (.dispatchScan x (s.exp x).snap) t = reportPins x (changedPins (s.exp x).snap (cat16 b a)) t := by
  rw [← h.exp.2.1]
  rfl

/-- With no subscriber on a changed pin HOST is back where it was (R345). -/
theorem DispatchRead.run_silent
    (hnone : ∀ pv ∈ changedPins (s.exp x).snap (cat16 b a), ∀ sub ∈ (s.exp x).subs, sub.1 ≠ pv.1) :
    run [.dispatchScan x (s.exp x).snap, .dispatchEnd s.op] t = .next (returnDispatch s.op t) := by
  rw [← h.exp.2.2] at hnone
  rw [run_next h.slice (h.micro_scan.trans (reportPins_none hnone)), run_next h.slice (s' := returnDispatch s.op t) rfl, run_nil]

/-- Otherwise the calls of the first that has any stand next (R344). -/
theorem DispatchRead.run_calls {calls : List Micro} {later : List (Nat × Bool)}
    (hreport : reportPins x (changedPins (s.exp x).snap (cat16 b a)) t = .push (calls ++ [.dispatchPins x later]) t) :
    run [.dispatchScan x (s.exp x).snap, .dispatchEnd s.op] t
      = .next (t.leave (calls ++ [.dispatchPins x later] ++ [.dispatchEnd s.op])) :=
  run_push h.slice (h.micro_scan.trans hreport) (by simp)

/-- The report, where a subscriber is on the changed pin `n` and none on one before it. -/
theorem DispatchRead.report {pins before later : List (Nat × Bool)} {n : Nat} {v : Bool} (hpins : pins = before ++ (n, v) :: later)
    (hbefore : ∀ pv ∈ before, ∀ sub ∈ (s.exp x).subs, sub.1 ≠ pv.1) (hn : n ∈ (s.exp x).subs.map (·.1)) :
    reportPins x pins t = .push (callsOf (s.exp x).subs n v ++ [.dispatchPins x later]) t := by
  obtain ⟨sub, hsub, hpin⟩ := List.mem_map.1 hn
  have hsubs := h.exp.2.2
  rw [hpins, reportPins_first (pv := (n, v)) (hsubs ▸ hbefore) ⟨sub, hsubs.symm ▸ hsub, hpin⟩, hsubs]

end

/-- The first pin of a list with a subscriber, if any has one. -/
theorem exists_firstSubscribed {subs : List (Nat × Nat)} {pins : List (Nat × Bool)}
    (h : ¬ ∀ pv ∈ pins, ∀ sub ∈ subs, sub.1 ≠ pv.1) :
    ∃ before n v later, pins = before ++ (n, v) :: later ∧ (∀ pv ∈ before, ∀ sub ∈ subs, sub.1 ≠ pv.1)
      ∧ n ∈ subs.map (·.1) := by
  obtain ⟨-, hall⟩ | ⟨before, ⟨n, v⟩, later, hpins, hbefore, hcalls, -⟩ := firstCalls_cases subs pins
  · exact absurd (fun pv hpv => callsOf_eq_nil.1 (hall pv hpv)) h
  · refine ⟨before, n, v, later, hpins, fun pv hpv => callsOf_eq_nil.1 (hbefore pv hpv), ?_⟩
    by_contra hno
    exact hcalls (callsOf_eq_nil.2 fun sub hsub e => hno (List.mem_map.2 ⟨sub, hsub, e⟩))

/-! ## HOST's move on what stands in `work` -/

/-- The state HOST goes on from, its work taken up. -/
def State.resumed (s : State) : State := { s with slice := none, suspended := false, work := [] }

/-- HOST goes on from what it has begun, not a call of a callback. -/
theorem liveMove_work {s : State} {m : Micro} {ms : List Micro} (hwork : s.work = m :: ms) (hm : ∀ it, m ≠ .nested it) :
    liveMove (.host none) s = run (m :: ms) s.resumed := by
  simp only [liveMove, hostMove, hwork, State.resumed]

/-- What its first step puts before the rest then stands next. -/
theorem resumed_push {s s' : State} {m : Micro} {ms ns : List Micro} (hm : micro m s.resumed = .push ns s') (hne : ns ≠ [])
    (hempty : s'.work = []) : run (m :: ms) s.resumed = .next { s' with work := ns ++ ms } := by
  rw [run_push rfl hm hne, State.leave, hempty, List.append_nil]

/-- A call of a callback is decoded and run. -/
theorem liveMove_nested {s : State} {it : Item} {ms : List Micro} (hwork : s.work = .nested it :: ms) :
    liveMove (.host none) s = fetch it { s with slice := none, work := ms } := by
  simp only [liveMove, hostMove, hwork]

/-- The body of the first callback of a number. -/
theorem callbackBody_first {s : State} {cb : Nat} {before after : List (Nat × CbBody)} {body : CbBody}
    (h : s.callbacks = before ++ (cb, body) :: after) (hfirst : ∀ c ∈ before, c.1 ≠ cb) (v : Bool) :
    s.callbackBody cb v = if v then body.high else body.low := by
  have hnone : before.find? (fun c => c.1 == cb) = none := List.find?_eq_none.2 fun c hc => by simpa using hfirst c hc
  have hfind : s.callbacks.find? (fun c => c.1 == cb) = some (cb, body) := by
    rw [h, List.find?_append, hnone, Option.none_or, List.find?_cons_of_pos (by simp)]
  rw [State.callbackBody, hfind]

end Sys2Proof.Machine

namespace Sys2Proof
open Machine

/-- Settles O53: by what each step of the serial bus leaves. -/
theorem serialFrame : Obligations.SerialFrame := by
  unfold Obligations.SerialFrame
  intro s t i x hi ht hw
  have h := exec_serial hi ht hw
  refine ⟨h.cfg, h.sq, h.li, h.off, h.fb, h.ca, h.sel.1, h.sel.2, h.oth, h.subs,
    fun hno => h.pend.resolve_left fun ⟨y, e⟩ => hno y e, fun hno => h.snap.resolve_left (by simp [hno]), h.sh, h.dev,
    fun hl hv hg => h.vp.resolve_left ?_, h.tgt⟩
  rintro (h | ⟨v, e⟩ | ⟨v, e⟩)
  · rw [hl] at h
    cases h
  · exact hv v e
  · exact hg v e

/-- Settles O55: each case is one of R343's conditions that fails. -/
theorem dispatchStartsOnlyWhereEnabled : Obligations.DispatchStartsOnlyWhereEnabled := by
  unfold Obligations.DispatchStartsOnlyWhereEnabled
  intro s x hno
  refine if_neg fun h => ?_
  obtain ⟨hpending, htxn, hdisp, hpoint⟩ := dispatchEnabled_iff.1 h
  obtain h | h | h | ⟨h, hbusy⟩ := hno
  · exact hpending h
  · rw [htxn] at h
    cases h
  · exact h hdisp
  · obtain hsusp | ⟨hop, hwork⟩ := hpoint
    · rw [h] at hsusp
      cases hsusp
    · exact hbusy.elim (· hop) (· hwork)

/-- Settles O56: the read and its report, and then each kind of step that stands in `work`. -/
theorem dispatchResult : Obligations.DispatchResult := by
  unfold Obligations.DispatchResult
  refine ⟨fun s x hc hpending htxn hdisp hpoint => ?_, fun s ms => ?_⟩
  · intro a b new changed
    have hchanged : changedPins (s.exp x).snap new = changed := changedPins_eq ..
    obtain ⟨t, hread, hexec⟩ := dispatch_reads hc (dispatchEnabled_iff.2 ⟨hpending, htxn, hdisp, hpoint⟩)
    have ⟨⟨hpend, hsnap, _⟩, htrace, htxn', _, ⟨hop, hdisp', hwork⟩⟩ := hread
    by_cases hnone : ∀ pv ∈ changed, ∀ sub ∈ (s.exp x).subs, sub.1 ≠ pv.1
    case pos =>
      have hexp : (returnDispatch s.op t).exp x = t.exp x := by cases x <;> rfl
      refine ⟨returnDispatch s.op t, hexec.trans (hread.run_silent (hchanged ▸ hnone)), by rw [hexp, hpend], by rw [hexp, hsnap],
        htrace, htxn', fun _ => ⟨rfl, rfl, ?_, hwork⟩, fun before n v later hpins _ hn => ?_⟩
      · rw [← entered_atYield s.suspended, ← hdisp']
        rfl
      · obtain ⟨sub, hsub, e⟩ := List.mem_map.1 hn
        exact absurd e (hnone (n, v) (by rw [hpins]; simp) sub hsub)
    case neg =>
      obtain ⟨before, n, v, later, hpins, hbefore, hn⟩ := exists_firstSubscribed hnone
      have hreport := hread.report (hchanged.trans hpins) hbefore hn
      have hexp (w : List Micro) : (t.leave w).exp x = t.exp x := by cases x <;> rfl
      refine ⟨_, hexec.trans (hread.run_calls hreport), by rw [hexp, hpend], by rw [hexp, hsnap], htrace, htxn',
        fun hno => absurd hno hnone, fun before' n' v' later' hpins' hbefore' hn' => ⟨hop, hdisp', ?_⟩⟩
      have hsame := hread.report (hchanged.trans hpins') hbefore' hn'
      rw [hreport] at hsame
      injection hsame with hcalls
      rw [leave_work, hcalls, hwork, callsOf_eq, List.append_assoc, List.append_assoc, List.append_assoc]
      rfl
  · intro after goOn
    refine ⟨fun n v cb before after' body hwork hcbs hfirst => ?callback, fun it hwork => ?nested, fun code hwork => ?raises,
      fun off b hwork => ?store, fun x pins hwork => ⟨fun hnone => ?noPin, fun before n v later hpins hbefore hn => ?pin⟩,
      fun o hwork => ?returns⟩
    case callback =>
      intro acts u
      have hbody : s.callbackBody cb v = acts := callbackBody_first hcbs hfirst v
      have hcall : micro (.callback n v cb) s.resumed = .push (acts.map CbAct.step) (s.resumed.event (.cb n v cb)) := by
        rw [← hbody]
        rfl
      have hmove := liveMove_work hwork nofun
      refine ⟨fun hne => hmove.trans ((resumed_push hcall (by simpa using hne) rfl).trans rfl), fun he => ?_⟩
      rw [he] at hcall
      exact hmove.trans (run_push_nil rfl hcall)
    case nested =>
      exact ⟨fun i hi => (liveMove_nested hwork).trans (fetch_ok hi), fun e he => (liveMove_nested hwork).trans (fetch_error he)⟩
    case raises =>
      exact ⟨_, (liveMove_work hwork nofun).trans (run_raise rfl rfl), rfl, rfl, rfl, rfl, rfl, rfl, rfl⟩
    case store => exact (liveMove_work hwork nofun).trans (run_next rfl rfl)
    case noPin => exact (liveMove_work hwork nofun).trans (run_next rfl (reportPins_none hnone))
    case pin =>
      obtain ⟨sub, hsub, hpin⟩ := List.mem_map.1 hn
      have hreport : micro (.dispatchPins x pins) s.resumed
          = .push (callsOf (s.exp x).subs n v ++ [.dispatchPins x later]) s.resumed :=
        hpins ▸ reportPins_first (s := s.resumed) (pv := (n, v)) hbefore ⟨sub, hsub, hpin⟩
      refine (liveMove_work hwork nofun).trans ((resumed_push hreport (by simp) rfl).trans ?_)
      rw [callsOf_eq, List.append_assoc]
      rfl
    case returns => exact (liveMove_work hwork nofun).trans (run_next rfl rfl)

end Sys2Proof
end

section
/-! Frames that fail (60_exceptions.md R363): a `reg_write`'s, a `read_gpio`'s, and those of the `read_gpio` of a dispatch. -/

namespace Sys2Proof.Machine

/-! ## Draws -/

theorem drawFail_cons {s : State} {b : Bool} {later : List Bool} (h : s.env.frameFails = b :: later) :
    drawFail s = (b, s.redraw { s.env with frameFails := later } s.draws) := by
  rw [drawFail, h]
  rfl

theorem drawCoin_congr {s t : State} (h1 : t.env.coins = s.env.coins) (h2 : t.draws = s.draws) :
    (drawCoin t).1 = (drawCoin s).1 := by
  simp only [drawCoin, h1, h2]
  split <;> rfl

/-! ## Frames -/

/-- Where E is low bytes land in a chip with no LCD cycle. -/
theorem devLand_eLow {x : ExpId} {reg : Byte} {s : State} (hlow : s.eLow x) (vs : List (Byte × Bool)) :
    devLand x reg vs s = .ok (s.setExp x { s.exp x with dev := devStore (s.exp x).dev reg.toNat vs }) := by
  cases x with
  | gpio => rfl
  | relay => exact relayLatch_low fun htr => hlow rfl htr

section
variable {x : ExpId} {cmd reg : Byte} {s : State} (ho : s.openFrame = none)
include ho

theorem frameMayBegin_free (cmd : Byte) : frameMayBegin cmd s = true := by rw [frameMayBegin, ho]

/-- A read frame that fails. -/
theorem frameRead_fails {later : List Bool} (hf : s.env.frameFails = true :: later) (given : Option (List Byte)) (n : Nat) :
    ∃ env k, frameRead x cmd reg given n s
      = .raise (.busError cmd reg) ((s.closeFrame.redraw env k).event (.frameFailed cmd reg)) := by
  refine ⟨{ s.env with frameFails := later }, s.draws, ?_⟩
  unfold frameRead
  rw [if_pos (frameMayBegin_free ho cmd), drawFail_cons (s := s.closeFrame) hf]
  rfl

/-- A read frame of one byte that completes, with a supply of failures. -/
theorem frameRead_one {later : List Bool} (hf : s.env.frameFails = false :: later) :
    ∃ env k, env.frameFails = later ∧ frameRead x cmd reg none 1 s
      = .next (((s.closeFrame.redraw env k).setExp x { s.exp x with rx := (s.exp x).rx ++ [s.nextPins.1] }).event
          (.frameR cmd reg [s.nextPins.1])) := by
  refine ⟨afterPin { s.env with frameFails := later }, drawsPin { s.env with frameFails := later } s.draws, rfl, ?_⟩
  unfold frameRead
  rw [if_pos (frameMayBegin_free ho cmd), drawFail_cons (s := s.closeFrame) hf, nextPins_eq]
  simp only [drawPins, drawPin_eq]
  rfl

/-- A write frame of one byte that fails: its register holds old or new by a draw. -/
theorem frameWrite_fails {later : List Bool} (hf : s.env.frameFails = true :: later) (hlow : s.eLow x) (v : Byte) :
    ∃ env k, frameWrite x cmd reg [v] s
      = .raise (.busError cmd reg) (((s.closeFrame.redraw env k).setExp x
          { s.exp x with dev := devStore (s.exp x).dev reg.toNat [(v, (drawCoin s).1)] }).event (.frameFailed cmd reg)) := by
  obtain ⟨u, hu⟩ : ∃ u, u = s.closeFrame.redraw { s.env with frameFails := later } s.draws := ⟨_, rfl⟩
  have hfail : drawFail s.closeFrame = (true, u) := hu ▸ drawFail_cons (s := s.closeFrame) hf
  have hcoin : (drawCoin u).1 = (drawCoin s).1 := drawCoin_congr (by rw [hu]; rfl) (by rw [hu]; rfl)
  obtain ⟨env, k, hdrawn⟩ := drawCoin_drawn u
  have hlow' : (drawCoin u).2.eLow x := by
    rw [hdrawn, hu]
    exact hlow
  have hland := devLand_eLow (reg := reg) hlow' [(v, (drawCoin s).1)]
  refine ⟨env, k, ?_⟩
  unfold frameWrite
  rw [if_pos (frameMayBegin_free ho cmd), hfail]
  simp only [if_true, List.length_singleton, drawCoins, List.zip_cons_cons, List.zip_nil_right, hcoin, hland]
  rw [hdrawn, hu]
  rfl

end

/-! ## A failing `reg_write` -/

theorem read_devStore_drawn {m : Mem} (h : Mem.wf devDefault m) (a : Nat) (v : Byte) (c : Bool) :
    Mem.read devDefault (devStore m a [(v, c)]) a = if c then some v else Mem.read devDefault m a := by
  cases c with
  | true => exact read_devStore_one h a v
  | false => rfl

/-- The steps of `reg_write`, its frame failing (R315, R363). -/
theorem run_regWrite_fails {x : ExpId} {k : ShKind} {p : Port} {v : Byte} {s : State} {later : List Bool} (hu : s.slice = none)
    (ho : s.openFrame = none) (hf : s.env.frameFails = true :: later) (hlow : s.eLow x) (ms : List Micro) :
    ∃ t, run (regWriteSteps x k p v ++ ms) s = .next (raise (.busError (s.cmdW x) (regAddr k p)) t)
      ∧ t.exp x = { s.exp x with
          sh := (s.exp x).sh.set k p v
          dev := devStore (s.exp x).dev (regAddr k p).toNat [(v, (drawCoin s).1)] }
      ∧ t.trace = s.trace ++ [.frameFailed (s.cmdW x) (regAddr k p)] := by
  obtain ⟨w, hw⟩ : ∃ w, w = (s.setShadow x k p v).txn true := ⟨_, rfl⟩
  have hexp : w.exp x = { s.exp x with sh := (s.exp x).sh.set k p v } := by rw [hw, txn_exp, setShadow_exp_same]
  have hkept : w.slice = s.slice ∧ w.openFrame = s.openFrame ∧ w.env = s.env ∧ w.draws = s.draws ∧ w.trace = s.trace
      ∧ w.cmdW x = s.cmdW x := by
    rw [hw]
    cases x <;> exact ⟨rfl, rfl, rfl, rfl, rfl, rfl⟩
  obtain ⟨hslice, hopen, henv, hdraws, htrace, hcmd⟩ := hkept
  have hlow' : w.eLow x := by
    rw [hw]
    cases x <;> exact hlow
  have hcoin : (drawCoin w).1 = (drawCoin s).1 := drawCoin_congr (congrArg Env.coins henv) hdraws
  obtain ⟨env, n, hfails⟩ := frameWrite_fails (cmd := s.cmdW x) (reg := regAddr k p) (hopen.trans ho) (later := later)
    (by rw [henv]; exact hf) hlow' v
  have hframe : micro (.regFrame x k p) w = frameWrite x (s.cmdW x) (regAddr k p) [v] w := by
    simp only [micro, hcmd, hexp, RegFile.get_set_same]
  refine ⟨_, (run_next hu rfl).trans ((run_next (s' := w) ?_ (by rw [hw]; rfl)).trans
    (run_raise (hslice.trans hu) (hframe.trans hfails))), ?_, ?_⟩
  · cases x <;> exact hu
  · rw [event_exp, setExp_exp_same, hexp, hcoin]
  · rw [event_trace, setExp_trace, ← htrace]
    rfl

/-! ## A failing `read_gpio` -/

/-- `t` is `s` after the frame of `reg` failed, the events `evs` before it (R363): nothing of the instance but `rx` is new. -/
structure ReadFailed (x : ExpId) (reg : Byte) (evs : List Event) (s t : State) : Prop where
  err : t.err = some (.busError (s.cmdR x) reg)
  ended : t.op = none ∧ t.inTxn = false ∧ t.work = []
  snap : (t.exp x).snap = (s.exp x).snap
  sh : (t.exp x).sh = (s.exp x).sh
  dev : (t.exp x).dev = (s.exp x).dev
  trace : t.trace = s.trace ++ evs ++ [.frameFailed (s.cmdR x) reg]

/-- The state the frames of `read_gpio` begin in. -/
def readBegun (x : ExpId) (s : State) : State := (s.txn true).setExp x { s.exp x with rx := [] }

theorem micro_gpioFrameA (x : ExpId) (s : State) :
    micro (.gpioFrameA x) (s.txn true)
      = frameRead x (s.cmdR x) gpioAddrA none (if s.seq x then 2 else 1) (readBegun x s) := by
  have hseq : (s.txn true).seq x = s.seq x := by cases x <;> rfl
  simp only [micro, hseq]
  split <;> cases x <;> rfl

theorem micro_gpioFrameB {x : ExpId} {s : State} (h : s.seq x = false) :
    micro (.gpioFrameB x) s = frameRead x (s.cmdR x) gpioAddrB none 1 s := by
  simp only [micro, h, Bool.false_eq_true, if_false]

@[simp] theorem readBegun_exp (x : ExpId) (s : State) : (readBegun x s).exp x = { s.exp x with rx := [] } := setExp_exp_same ..

@[simp] theorem readBegun_trace (x : ExpId) (s : State) : (readBegun x s).trace = s.trace := setExp_trace ..

/-- The failing frame, where what stood before it had changed only `rx` and shown `evs`. -/
theorem readFailed_raise {x : ExpId} {s u : State} {evs : List Event} {rx : List Byte} (hexp : u.exp x = { s.exp x with rx := rx })
    (htrace : u.trace = s.trace ++ evs) (reg : Byte) (env : Env) (k : Nat) :
    ReadFailed x reg evs s
      (raise (.busError (s.cmdR x) reg) ((u.closeFrame.redraw env k).event (.frameFailed (s.cmdR x) reg))) := by
  obtain ⟨t, ht⟩ : ∃ t, t = raise (.busError (s.cmdR x) reg)
      ((u.closeFrame.redraw env k).event (.frameFailed (s.cmdR x) reg)) := ⟨_, rfl⟩
  have hend : t.exp x = u.exp x := by
    rw [ht]
    cases x <;> rfl
  rw [← ht]
  exact ⟨by rw [ht]; rfl, by rw [ht]; exact ⟨rfl, rfl, rfl⟩, by rw [hend, hexp], by rw [hend, hexp], by rw [hend, hexp],
    by rw [ht, ← htrace]; rfl⟩

section
variable {x : ExpId} {s : State} (hu : s.slice = none) (ho : s.openFrame = none) {later : List Bool}
include hu ho

/-- The first frame of `read_gpio` fails. -/
theorem run_read_failsA (hf : s.env.frameFails = true :: later) (ms : List Micro) :
    ∃ t, run (readGpioSteps x ++ ms) s = .next t ∧ ReadFailed x 0x12#8 [] s t := by
  obtain ⟨env, k, hfails⟩ := frameRead_fails (x := x) (cmd := s.cmdR x) (reg := gpioAddrA) (s := readBegun x s) (later := later)
    (by cases x <;> exact ho) (by cases x <;> exact hf) none (if s.seq x then 2 else 1)
  exact ⟨_, (run_next (s' := s.txn true) hu rfl).trans (run_raise hu ((micro_gpioFrameA x s).trans hfails)),
    readFailed_raise (readBegun_exp x s) ((readBegun_trace x s).trans (List.append_nil _).symm) _ env k⟩

/-- Its second frame fails, without sequential mode. -/
theorem run_read_failsB (hf : s.env.frameFails = false :: true :: later) (hseq : s.seq x = false) (ms : List Micro) :
    ∃ t, run (readGpioSteps x ++ ms) s = .next t
      ∧ ReadFailed x 0x13#8 [.frameR (s.cmdR x) 0x12#8 [s.nextPins.1]] s t := by
  have hpins : (readBegun x s).nextPins = s.nextPins := nextPins_congr (by cases x <;> rfl) (by cases x <;> rfl)
  obtain ⟨env, k, henv, hreads⟩ := frameRead_one (x := x) (cmd := s.cmdR x) (reg := gpioAddrA) (s := readBegun x s)
    (later := true :: later) (by cases x <;> exact ho) (by cases x <;> exact hf)
  rw [hpins] at hreads
  obtain ⟨w, hw⟩ : ∃ w, w = ((((readBegun x s).closeFrame.redraw env k).setExp x { (readBegun x s).exp x with
      rx := ((readBegun x s).exp x).rx ++ [s.nextPins.1] }).event (.frameR (s.cmdR x) gpioAddrA [s.nextPins.1])) := ⟨_, rfl⟩
  have hfirst : micro (.gpioFrameA x) (s.txn true) = .next w := by
    rw [micro_gpioFrameA, hseq, hw]
    exact hreads
  have hkept : w.slice = s.slice ∧ w.openFrame = none ∧ w.env = env ∧ w.seq x = s.seq x ∧ w.cmdR x = s.cmdR x := by
    rw [hw]
    refine ⟨?_, ?_, ?_, ?_, ?_⟩ <;> simp [readBegun, State.redraw, State.seq, State.cmdR, State.addrOf]
  obtain ⟨hslice, hopen, henv', hseq', hcmd⟩ := hkept
  obtain ⟨env', k', hfails⟩ := frameRead_fails (x := x) (cmd := s.cmdR x) (reg := gpioAddrB) hopen (later := later)
    (by rw [henv', henv]) none 1
  have hsecond : micro (.gpioFrameB x) w = frameRead x (s.cmdR x) gpioAddrB none 1 w := by
    rw [micro_gpioFrameB (hseq'.trans hseq), hcmd]
  have hexp : w.exp x = { s.exp x with rx := [s.nextPins.1] } := by
    rw [hw, event_exp, setExp_exp_same, readBegun_exp, List.nil_append]
  have htrace : w.trace = s.trace ++ [.frameR (s.cmdR x) gpioAddrA [s.nextPins.1]] := by
    rw [hw, event_trace, setExp_trace, ← readBegun_trace x s]
    rfl
  exact ⟨_, (run_next (s' := s.txn true) hu rfl).trans ((run_next (s := s.txn true) hu hfirst).trans
    (run_raise (hslice.trans hu) (hsecond.trans hfails))), readFailed_raise hexp htrace _ env' k'⟩

end

/-- What a failed read leaves is the same of any state the call began from with the same instance and trace. -/
theorem ReadFailed.of_eq {x : ExpId} {reg : Byte} {evs : List Event} {s₀ s t : State} (h : ReadFailed x reg evs s t)
    (hcmd : s.cmdR x = s₀.cmdR x) (hsnap : (s.exp x).snap = (s₀.exp x).snap) (hsh : (s.exp x).sh = (s₀.exp x).sh)
    (hdev : (s.exp x).dev = (s₀.exp x).dev) (htrace : s.trace = s₀.trace) : ReadFailed x reg evs s₀ t :=
  ⟨hcmd ▸ h.err, h.ended, h.snap.trans hsnap, h.sh.trans hsh, h.dev.trans hdev, by rw [h.trace, hcmd, htrace]⟩

theorem ReadFailed.of_begun {x : ExpId} {reg : Byte} {evs : List Event} {s₀ s t : State} (h : ReadFailed x reg evs s t)
    (hb : Begun s₀ s) : ReadFailed x reg evs s₀ t :=
  h.of_eq (hb.cmdR x) (by rw [hb.exp]) (by rw [hb.exp]) (by rw [hb.exp]) hb.trace

theorem ReadFailed.of_entered {x : ExpId} {reg : Byte} {evs : List Event} {s t : State}
    (h : ReadFailed x reg evs (enterDispatch x s) t) : ReadFailed x reg evs s t :=
  h.of_eq (enterDispatch_cmdR x s) (by rw [enterDispatch_exp]) (by rw [enterDispatch_exp]) (by rw [enterDispatch_exp])
    (enterDispatch_trace x s)

end Sys2Proof.Machine

namespace Sys2Proof
open Machine

/-- Settles O43: the frame's failure ends the run, before the end of the operation it is in. -/
theorem busErrorOnFrame : Obligations.BusErrorOnFrame := by
  unfold Obligations.BusErrorOnFrame
  intro s x hu ho
  refine ⟨fun k sk p v later hf hk hbank hlow hw => ?write, ?reads⟩
  case write =>
    have hb := beginOp_begun .regWrite s
    obtain ⟨t, hrun, hexp, htrace⟩ := run_regWrite_fails (x := x) (k := sk) (p := p) (v := v) (s := beginOp .regWrite s)
      (later := later) (by simpa using hu) (by simpa using ho) (by simpa using hf) (hb.eLow hlow) [.ret .unit]
    rw [hb.exp, drawCoin_congr (s := s) (by simp) (by simp)] at hexp
    rw [hb.cmdW] at hrun htrace
    have hend : (raise (.busError (s.cmdW x) (regAddr sk p)) t).exp x = t.exp x := by cases x <;> rfl
    refine ⟨_, (exec_regWrite hk hbank x p s).trans hrun, rfl, rfl, rfl, rfl, ?_, ?_, ?_, htrace.trans (by rw [hb.trace])⟩
    · rw [hend, hexp, RegFile.get_set_same]
    · rw [hend, hexp]
    · rw [hend, hexp]
      exact read_devStore_drawn hw _ v _
  case reads =>
    intro failed enabled
    have ends {i : Instr} {reg : Byte} {evs : List Event} {t : State} (hexec : exec i s = .next t)
        (h : ReadFailed x reg evs s t) : failed i reg evs := by
      obtain ⟨herr, ⟨hop, htxn, hwork⟩, hsnap, hsh, hdev, htrace⟩ := h
      exact ⟨t, hexec, herr, hop, htxn, hwork, hsnap, hsh, hdev, htrace⟩
    have hb := beginOp_begun .readGpio s
    refine ⟨fun later hf => ⟨?readA, fun he => ?dispatchA⟩, fun later hf hseq => ⟨?readB, fun he => ?dispatchB⟩⟩
    case readA =>
      obtain ⟨t, hrun, hfailed⟩ := run_read_failsA (x := x) (s := beginOp .readGpio s) (by simpa using hu) (by simpa using ho)
        (later := later) (by simpa using hf) [.ret (.snap x)]
      exact ends hrun (hfailed.of_begun hb)
    case dispatchA =>
      obtain ⟨t, hrun, hfailed⟩ := run_read_failsA (x := x) (s := enterDispatch x s) ((enterDispatch_slice x s).trans hu)
        ((enterDispatch_openFrame x s).trans ho) (later := later) (by rw [enterDispatch_env, hf])
        [.dispatchScan x (s.exp x).snap, .dispatchEnd s.op]
      exact ends ((exec_dispatch (dispatchEnabled_iff.2 he)).trans hrun) hfailed.of_entered
    case readB =>
      obtain ⟨t, hrun, hfailed⟩ := run_read_failsB (x := x) (s := beginOp .readGpio s) (by simpa using hu) (by simpa using ho)
        (later := later) (by simpa using hf) ((hb.seq x).trans hseq) [.ret (.snap x)]
      rw [hb.nextPins, hb.cmdR] at hfailed
      exact ends hrun (hfailed.of_begun hb)
    case dispatchB =>
      obtain ⟨t, hrun, hfailed⟩ := run_read_failsB (x := x) (s := enterDispatch x s) ((enterDispatch_slice x s).trans hu)
        ((enterDispatch_openFrame x s).trans ho) (later := later) (by rw [enterDispatch_env, hf])
        ((enterDispatch_seq x s).trans hseq) [.dispatchScan x (s.exp x).snap, .dispatchEnd s.op]
      rw [enterDispatch_nextPins, enterDispatch_cmdR] at hfailed
      exact ends ((exec_dispatch (dispatchEnabled_iff.2 he)).trans hrun) hfailed.of_entered

end Sys2Proof
end
